-- ==== Sys2Proof/Config.lean ====
section
/-! DEFINITION. The named parameters of rule R8, each with the spec's default, and the free values.
Every number marked GK is the spec's "general knowledge" value (93_implementation_defined.md I2-I13): correcting one is
a change of this table and of nothing else (30_encoding.md, warning for the reader). -/

namespace Sys2Proof.Config

/-! ### The register window (R8, R78; D2) -/

/-- `WORD_BITS` (GK, D2). -/
abbrev wordBits : Nat := 64
/-- `OFF_CMD` (GK, D2). -/
def offCmd : Nat := 0x00
/-- `OFF_RAW` (GK, D2). -/
def offRaw : Nat := 0x10

/-! ### The command word (R101, R102; D3, D4) -/

/-- `CMD_V`, the valid bit: bit 63 (GK, D3). -/
def cmdV : BitVec wordBits := 0x8000000000000000#64
/-- `CMD_R`, the read-direction bit: bit 56 (GK, D3). -/
def cmdR : BitVec wordBits := 0x0100000000000000#64
/-- `CMD_D`, the data field: bits 31:0 (GK, D3). -/
def cmdD : BitVec wordBits := 0x00000000FFFFFFFF#64
/-- The byte of `CMD_D`: bits 7:0 (GK, D3). -/
def cmdByteMask : BitVec wordBits := 0x00000000000000FF#64
/-- `SEL_THP` (GK, D4). -/
def selThp : BitVec wordBits := 0x0800000000000000#64
/-- `SEL_DATA` (GK, D4). -/
def selData : BitVec wordBits := 0x0C00000100000000#64
/-- `SEL_CTL` (GK, D4). -/
def selCtl : BitVec wordBits := 0x0C00000200000000#64
/-- `SEL_CLKCTL` (GK, D4). -/
def selClkctl : BitVec wordBits := 0x0C00000300000000#64
/-- `SEL_STAT`: "`SEL_CLKCTL = SEL_STAT` is fixed by the source" (R102), so it is not a second number. -/
def selStat : BitVec wordBits := selClkctl
/-- `SEL_RST` (GK, D4). -/
def selRst : BitVec wordBits := 0x0C00000700000000#64

/-! ### The control byte (R105; D5) -/

/-- `CTL_ENAB` (GK, D5). -/
def ctlEnab : BitVec 8 := 0x40#8
/-- `CTL_STA` (GK, D5). -/
def ctlSta : BitVec 8 := 0x20#8
/-- `CTL_STP` (GK, D5). -/
def ctlStp : BitVec 8 := 0x10#8
/-- `CTL_IFLG` (GK, D5). -/
def ctlIflg : BitVec 8 := 0x08#8
/-- `CTL_AAK` (GK, D5). -/
def ctlAak : BitVec 8 := 0x04#8
/-- Bits of a control byte that R111 reserves in a write: bit 7, IFLG, bits 1:0. -/
def ctlReserved : BitVec 8 := ~~~(ctlEnab ||| ctlSta ||| ctlStp ||| ctlAak)

/-! ### Status codes (R106; D6) -/

/-- `STAT_START` (GK, D6). -/
def statStart : BitVec 8 := 0x08#8
/-- `STAT_RSTART` (GK, D6). -/
def statRstart : BitVec 8 := 0x10#8
/-- `STAT_TXADDR_ACK` (GK, D6). -/
def statTxAddrAck : BitVec 8 := 0x18#8
/-- `STAT_TXDATA_ACK` (GK, D6). -/
def statTxDataAck : BitVec 8 := 0x28#8
/-- `STAT_RXADDR_ACK` (GK, D6). -/
def statRxAddrAck : BitVec 8 := 0x40#8
/-- `STAT_RXDATA_ACK` (GK, D6). -/
def statRxDataAck : BitVec 8 := 0x50#8
/-- `STAT_IDLE` (GK, D6). -/
def statIdle : BitVec 8 := 0xF8#8

/-! ### RAW patterns (R110; D7, D8) -/

/-- `RAW_IE_SET` (GK, D7). -/
def rawIeSet : BitVec wordBits := 0x40#64
/-- `RAW_IE_CLR` (GK, D7). -/
def rawIeClr : BitVec wordBits := 0x00#64
/-- `RAW_PULSE_LOW` (GK, D8). -/
def rawPulseLow : BitVec wordBits := 0x000#64
/-- `RAW_PULSE_HIGH` (GK, D8). -/
def rawPulseHigh : BitVec wordBits := 0x200#64
/-- `RAW_STOP_1` (GK, D8). -/
def rawStop1 : BitVec wordBits := 0x300#64
/-- `RAW_STOP_2` (GK, D8). -/
def rawStop2 : BitVec wordBits := 0x100#64
/-- `RAW_IDLE` (GK, D8). -/
def rawIdle : BitVec wordBits := 0x000#64

/-! ### Sequencer parameters (R8; D8, D9, D13) -/

/-- `RECOVERY_PULSES`: nine, fixed by the source (R7). -/
def recoveryPulses : Nat := 9
/-- `SETTLE_US` (GK, D8). -/
def settleUs : Nat := 5
/-- `INIT_RETRIES` (GK, D9). -/
def initRetries : Nat := 10
/-- `INIT_DELAY_US` (GK, D9). -/
def initDelayUs : Nat := 1
/-- `RST_DATA` (GK, D9). -/
def rstData : BitVec 8 := 0x00#8
/-- `CLK_SENTINEL`, in Hz (GK, D13). -/
def clkSentinel : Nat := 1000000
/-- The half-period of the default triple `(0x18, 2, 0)` (R7). -/
def clkDefaultThp : Nat := 0x18
/-- The multiplier of the default triple (R7). -/
def clkDefaultMdiv : Nat := 2
/-- The prescaler exponent of the default triple (R7). -/
def clkDefaultNdiv : Nat := 0

/-! ### Limits of the call surface (R8; D31, D32) -/

/-- `MAX_MSG_LEN`, the longest message buffer: `none` is unbounded, the default (D31). -/
def maxMsgLen : Option Nat := none
/-- `EXCLUSIVE`: one batch at a time per controller; "required" (R8, D32). The ENGINE runs one operation at a time whatever
this says (R323). -/
def exclusive : Bool := true

/-! ### Values nobody fixes -/

/-- `WAIT_TIMEOUT` is OPEN (R8, D10): "recorded and not enforced", so it is a free value and no rule reads it. -/
opaque waitTimeout : Nat

/-- The environment's `n`-th draw (R13), used when a state lists no draw of its own: nothing constrains it.
One constant for every controller and every run. Assumption 3. -/
opaque freeWord : Nat → BitVec wordBits

end Sys2Proof.Config
end

