-- ==== Sys2Proof/Word.lean ====
section
/-! DEFINITION. The two bit-vector types of the block: a register-window word and an indirect-register byte
(rules R9, R10, R70). Every field is unsigned (R9). -/

namespace Sys2Proof

/-- An indirect register, a payload byte or a status byte: 8 bits (R10). -/
abbrev Byte := BitVec 8

/-- A register-window word: `WORD_BITS` bits (R8, R10). -/
abbrev Word := BitVec Config.wordBits

/-- A 7-bit target address (R7, R10). -/
abbrev Addr7 := BitVec 7

end Sys2Proof
end

