-- ==== Sys2Proof/Syntax.lean ====
section
/-! DEFINITION. The operations of the block as terms: one constructor of `Instr` for each row of
`spec/opcode_table.json` (R104, R112, R113), with the typed operands the row names. -/

namespace Sys2Proof

/-- The six selector names of R102. `clkctl` and `stat` have the same word (R40, R102). -/
inductive Selector where
  | thp | data | ctl | clkctl | stat | rst
  deriving DecidableEq, Repr

/-- The direction of a message (R15, R290). -/
inductive Direction where
  | write | read
  deriving DecidableEq, Repr

/-- "target address (7-bit), direction (read/write), byte buffer" (R15): `buffer` is the payload of a write and the
caller's sink, with what it holds before the call, of a read (R86). -/
structure Message where
  address : Addr7
  direction : Direction
  buffer : List Byte
  deriving DecidableEq, Repr

/-- The operation map. The first nine are the encoded forms (R104, R110): what the device does with a word that
reaches it. The others are the operations selected by name (R112). -/
inductive Instr where
  /-- `WRREG THP, b` (R143). -/
  | wrregThp (b : Byte)
  /-- `WRREG DATA, b` (R144). -/
  | wrregData (b : Byte)
  /-- `WRREG CTL, b` (R145, R155). -/
  | wrregCtl (b : Byte)
  /-- `WRREG CLKCTL, b` (R146). -/
  | wrregClkctl (b : Byte)
  /-- `WRREG RST, b` (R147, R159). -/
  | wrregRst (b : Byte)
  /-- `RDREG DATA` (R148). -/
  | rdregData
  /-- `RDREG CTL` (R148, R39). -/
  | rdregCtl
  /-- `RDREG STAT` (R148). -/
  | rdregStat
  /-- `WRRAW v`: the pattern `v` takes effect at RAW (R36, R37, R110, R142). -/
  | wrraw (v : Word)
  /-- `write_register(sel, b)` (R140). -/
  | writeRegister (sel : Selector) (b : Byte)
  /-- `read_register(sel)` (R141). -/
  | readRegister (sel : Selector)
  /-- `write_raw(v)` (R142). -/
  | writeRaw (v : Word)
  /-- `Delay(us)` (R77). -/
  | delay (us : Nat)
  /-- `enable()` (R180). -/
  | enable
  /-- `disable()` (R181). -/
  | disable
  /-- `ready()` (R182). -/
  | ready
  /-- `wait()` (R183). -/
  | wait
  /-- The interrupt handler (R186). -/
  | irqHandler
  /-- `clock_search(target_frequency, system_clock_rate)` (R213). -/
  | clockSearch (target sys : Nat)
  /-- `set_clock()` (R214). -/
  | setClock
  /-- `init()` (R241). -/
  | init
  /-- `unblock()` (R250). -/
  | unblock
  /-- `start()` (R271). -/
  | start
  /-- `stop()` (R275). -/
  | stop
  /-- `write_message(address, payload)` (R280). -/
  | writeMessage (address : Addr7) (payload : List Byte)
  /-- `read_message(address, buffer)` (R285). -/
  | readMessage (address : Addr7) (buffer : List Byte)
  /-- `execute_batch(messages)`, the engine part (R290). -/
  | executeBatchEngine (msgs : List Message)
  /-- `open(target_frequency, register_window, interrupt_line, system_clock_rate)` (R320). -/
  | openController (target window irqLine sys : Nat)
  /-- `execute_batch(Controller, messages)` as exposed to callers (R321). -/
  | executeBatch (msgs : List Message)
  /-- `close(Controller)` (R322). -/
  | close
  deriving DecidableEq, Repr

/-! ### How an operation is given to the block -/

/-- A typed operand of an operation selected by name (R112: "its operands are typed values"). -/
inductive Arg where
  | nat (n : Nat)
  | byte (b : Byte)
  | word (v : Word)
  | sel (s : Selector)
  | addr (a : Addr7)
  | bytes (bs : List Byte)
  | msgs (ms : List Message)
  deriving DecidableEq, Repr

/-- A call by name (format `OP`, R100, R112). -/
structure Call where
  name : String
  args : List Arg
  deriving DecidableEq, Repr

/-- The three ways an operation is given (R100): a word written to CMD, a word written to RAW, a call by name. -/
inductive Code where
  | cmd (w : Word)
  | raw (w : Word)
  | call (c : Call)
  deriving DecidableEq, Repr

end Sys2Proof
end

