-- ==== Sys2Proof/Machine/State.lean ====
section
/-! DEFINITION. The state of one controller instance (10_state.md), as plain data, and its value at power-on (R51).
Other instances share nothing with it (R324); `Machine/Instances.lean` puts several side by side. -/

namespace Sys2Proof.Machine

/-! ### Values -/

/-- The status classes a `ProtocolError` records (R341). -/
inductive StatusClass where
  | start | idle | tx | rx
  deriving DecidableEq, Repr

/-- The four error kinds (R340). Errors are values an operation returns (R12), not stops of the machine. -/
inductive OpErr where
  /-- "no completion signal within deadline". -/
  | timeout
  /-- "status byte inconsistent with the current protocol step", with `{expected_status_class, observed_status}`. -/
  | protocol (expected : StatusClass) (observed : Byte)
  /-- "reset never reaches IDLE within the retry budget". -/
  | hardwareFault
  /-- "zero-length read request". -/
  | invalidArgument
  deriving DecidableEq, Repr

/-- The protocol phase of the ENGINE (R33, R270). -/
inductive Phase where
  | idle | startSent | addressAcked | dataAcked | stopSent | error
  deriving DecidableEq, Repr

/-- `core.pending`: the bus action issued and not yet completed (R44). -/
inductive CoreAction where
  | none | start | stop | byte | reset
  deriving DecidableEq, Repr

/-- The triple `(thp, mdiv, ndiv)` (R15, R211). -/
structure ClockParams where
  thp : Nat
  mdiv : Nat
  ndiv : Nat
  deriving DecidableEq, Repr

/-- What an operation hands to its invoker (R12, R32). In `status` and `batch`, `none` stands for success (R290, D25). -/
inductive Ret where
  | unit
  | byte (b : Byte)
  | bool (b : Bool)
  | status (r : Option OpErr)
  | clock (p : ClockParams)
  | batch (count : Nat) (err : Option OpErr)
  deriving DecidableEq, Repr

/-- An event of `history` (R49). -/
inductive Event where
  | write (off : Nat) (w : Word)
  | read (off : Nat) (w : Word)
  | delay (us : Nat)
  deriving DecidableEq, Repr

/-- An entry of the posted-write buffer (R47, R72): `(offset, word)`. `recovery` records that the word was posted as a
pattern of the bus-recovery sequence: the spec's GK values give `RAW_PULSE_LOW`, `RAW_IDLE` and `RAW_IE_CLR` one word and
two effects on IE (R37, R250), so the word alone does not say which. Assumption 4. -/
structure Posted where
  off : Nat
  word : Word
  recovery : Bool
  deriving DecidableEq, Repr

/-! ### The agents' own state -/

/-- The PORT behind CMD (R35). `lastRead`: the last completed access was a read (R73). -/
structure Port where
  busy : Bool
  cmd : Word
  result : Byte
  lastRead : Bool
  deriving DecidableEq, Repr

/-- The TWSI core: its indirect registers (R38-R42) and its hidden state (R44). RST is an action, not storage (R43). -/
structure TwsiCore where
  data : Byte
  ctl : Byte
  stat : Byte
  clkctl : Byte
  thp : Byte
  iflg : Bool
  pending : CoreAction
  deriving DecidableEq, Repr

/-- The Controller (R45). `isOpen` is its field `open`. -/
structure Controller where
  window : Nat
  irqLine : Nat
  targetFrequency : Nat
  systemClockRate : Nat
  params : ClockParams
  completion : Bool
  isOpen : Bool
  inBatch : Bool
  deriving DecidableEq, Repr

/-- Where the IRQ agent stands in the handler (R186): `out` when no handler runs, else at the statement it will run next. -/
inductive IrqPos where
  | out | atWrite | atReadback | atSignal | atLeave
  deriving DecidableEq, Repr

/-- What an assignment `x <- v` writes (R11): one piece of the state, or a working variable of R31 (`working`), whose value
the continuation carries. `controller` is the record `open` makes (R320); `buffer` is `buffer[i] <- b` in the caller's buffer
`k` (R86). -/
inductive Assign where
  | phase (p : Phase)
  | params (p : ClockParams)
  | isOpen (b : Bool)
  | inBatch (b : Bool)
  | controller (target window irqLine sys : Nat)
  | buffer (k i : Nat) (b : Byte)
  | working
  deriving DecidableEq, Repr

/-- The primitive statement the ENGINE stands at (R11, R32). `poll` is `WinRead(OFF_CMD)` inside a valid-bit loop (R140,
R141); `readback` is `WinRead(OFF_RAW)` with the value discarded (R142). Assumption 8 says which assignments stand here. -/
inductive Stmt where
  | winWrite (off : Nat) (w : Word) (recovery : Bool)
  | poll
  | readback
  | delay (us : Nat)
  | block
  | assign (a : Assign)
  deriving DecidableEq, Repr

/-- The search's `best` and `delta` (R31, R213). -/
structure Best where
  params : ClockParams
  delta : Nat
  deriving DecidableEq, Repr

/-- The loops of `clock_search` (R213): `n` and `m`, each with the values its loop has still to visit. -/
structure SearchLoops where
  n : Nat
  ns : List Nat
  m : Nat
  ms : List Nat
  deriving DecidableEq, Repr

/-- Where `clock_search` stands (R213): the assignment it makes next, with the working variables written so far (R31). -/
inductive SearchPos where
  /-- `best <- (0x18, 2, 0)`. -/
  | best
  /-- `delta <- CLK_SENTINEL`. -/
  | delta (best : ClockParams)
  /-- `base <- ...` of a pair. -/
  | base (l : SearchLoops) (b : Best)
  /-- `t <- base + inc`. -/
  | t (l : SearchLoops) (base : Int) (inc : Nat) (b : Best)
  /-- `f <- ...` of a candidate in range. -/
  | f (l : SearchLoops) (base : Int) (inc : Nat) (t : Int) (b : Best)
  /-- `d <- |f - target|`. -/
  | d (l : SearchLoops) (base : Int) (inc : Nat) (t : Int) (f : Nat) (b : Best)
  /-- `delta <- d`. -/
  | newDelta (l : SearchLoops) (base : Int) (inc : Nat) (t : Int) (d : Nat) (b : Best)
  /-- `best <- (t, m, n)`. -/
  | newBest (l : SearchLoops) (base : Int) (inc : Nat) (t : Int) (b : Best)
  deriving DecidableEq, Repr

/-- What remains of an operation once the statement or call it waits for has returned: one constructor for each such
place in the pseudocode, carrying the working variables of R31 that are live there. -/
inductive Kont where
  /-- `write_register` after its window write. -/
  | writePoll
  /-- `write_register` after its polls. -/
  | writeDone
  /-- `read_register` after its window write. -/
  | readPoll
  /-- `write_raw` after its window write. -/
  | rawReadback
  /-- `ready` with the CTL byte. -/
  | readyTest
  /-- `wait` after `enable()`. -/
  | waitBlock
  /-- `wait` after `Block()`. -/
  | waitWoken
  /-- `wait` after `ready()`. -/
  | waitReady
  /-- An operation about to return `r`: `wait` after `disable()`, the others after their last assignment. -/
  | giveStatus (r : Option OpErr)
  /-- `clock_search(target, sys)` at an assignment. -/
  | search (target sys : Nat) (p : SearchPos)
  /-- `set_clock` with the result of `clock_search()`. -/
  | clockFound
  /-- `set_clock` after the THP write. -/
  | clockThp (p : ClockParams)
  /-- `set_clock` after the CLKCTL write. -/
  | clockCtl (p : ClockParams)
  /-- `init` after the CTL write. -/
  | initReset
  /-- `init` with `left` status polls left. -/
  | initNext (left : Nat)
  /-- `init` after a delay. -/
  | initRead (left : Nat)
  /-- `init` with a status byte. -/
  | initTest (left : Nat)
  /-- `unblock` after the low write of a pulse, `left` pulses to come after this one. -/
  | pulseLow (left : Nat)
  /-- `unblock` after the first settle of a pulse. -/
  | pulseSettle (left : Nat)
  /-- `unblock` after the high write of a pulse. -/
  | pulseHigh (left : Nat)
  /-- `unblock` after the second settle of a pulse. -/
  | pulseEnd (left : Nat)
  /-- `unblock` after `RAW_STOP_1`. -/
  | unblockStop1
  /-- `unblock` after the settle that follows `RAW_STOP_1`. -/
  | unblockSettle1
  /-- `unblock` after `RAW_STOP_2`. -/
  | unblockStop2
  /-- `unblock` after the settle that follows `RAW_STOP_2`. -/
  | unblockSettle2
  /-- `start` after its first CTL write. -/
  | startWait
  /-- `start` with the first wait's result. -/
  | startWaited
  /-- `start` with the status that decides recovery. -/
  | startDecide
  /-- `start` after `unblock()`. -/
  | startRecovered
  /-- `start` after its second CTL write. -/
  | startRewait
  /-- `start` with the second wait's result. -/
  | startRewaited
  /-- `start` with the status that must be a START. -/
  | startTest
  /-- `stop` after its CTL write. -/
  | stopWritten
  /-- `stop` after `phase <- STOP_SENT`. -/
  | stopRead
  /-- `stop` with the status. -/
  | stopTest
  /-- `write_message` with the result of `start()`. -/
  | txStarted (address : Addr7) (payload : List Byte)
  /-- `write_message` after the address write to DATA. -/
  | txAddressed (payload : List Byte)
  /-- `write_message` after a CTL write: wait for byte `i - 1` (the address for `i = 0`). -/
  | txSent (i : Nat) (rest : List Byte)
  /-- `write_message` with that wait's result. -/
  | txWaited (i : Nat) (rest : List Byte)
  /-- `write_message` with the status read before byte `i`. -/
  | txTest (i : Nat) (b : Byte) (rest : List Byte)
  /-- `write_message` after the phase change before byte `i`. -/
  | txChecked (i : Nat) (b : Byte) (rest : List Byte)
  /-- `write_message` after byte `i` was written to DATA. -/
  | txLoaded (i : Nat) (rest : List Byte)
  /-- `read_message` into buffer `k` after `length <- len(buffer)`. -/
  | rxLength (k : Nat) (address : Addr7) (len : Nat)
  /-- `read_message` into buffer `k` of `len` bytes with the result of `start()`. -/
  | rxStarted (k : Nat) (address : Addr7) (len : Nat)
  /-- `read_message` after the address write to DATA. -/
  | rxAddressed (k len : Nat)
  /-- `read_message` after the CTL write that sends the address. -/
  | rxSent (k len : Nat)
  /-- `read_message` with the address wait's result. -/
  | rxAddrWaited (k len : Nat)
  /-- `read_message` with the status read before byte `i`, `left` bytes to come after it. -/
  | rxTest (k i left : Nat)
  /-- `read_message` after the phase change before byte `i`. -/
  | rxChecked (k i left : Nat)
  /-- `read_message` after the CTL write that asks for byte `i`. -/
  | rxAsked (k i left : Nat)
  /-- `read_message` with the wait's result for byte `i`. -/
  | rxWaited (k i left : Nat)
  /-- `read_message` with byte `i`. -/
  | rxByte (k i left : Nat)
  /-- `read_message` after `buffer[i]` was written. -/
  | rxStored (k i left : Nat)
  /-- `execute_batch` after `count <- 0`. -/
  | batchCount (msgs : List Message)
  /-- `execute_batch` before its next message, after `err <- none` or `count <- count + 1`. -/
  | batchLoop (count : Nat) (rest : List Message)
  /-- `execute_batch` with a message's result, `count` messages done before it. -/
  | batchNext (count : Nat) (rest : List Message)
  /-- `execute_batch` after `err <- r`. -/
  | batchFailed (count : Nat) (err : OpErr)
  /-- `execute_batch` with the result of `stop()`. -/
  | batchStopped (count : Nat) (err : Option OpErr)
  /-- A batch about to return its result. -/
  | giveBatch (count : Nat) (err : Option OpErr)
  /-- `open` after the Controller was made. -/
  | openCreated
  /-- `open` with the result of `init()`. -/
  | openInited
  /-- `open` after `set_clock()`. -/
  | openClocked
  /-- `open` after `c.open <- true`. -/
  | openMarked
  /-- The exposed `execute_batch` after `c.in_batch <- true`. -/
  | xferBegin (msgs : List Message)
  /-- The exposed `execute_batch` with the engine part's result. -/
  | xferDone
  /-- `close` after `disable()`. -/
  | closeDone
  deriving DecidableEq, Repr

/-- The ENGINE's control position while an operation runs (R32): the statement it stands at and what remains after it,
innermost first. -/
structure Thread where
  stmt : Stmt
  konts : List Kont
  deriving DecidableEq, Repr

/-! ### What happens next -/

/-- One turn of an agent (R4). `State.moves` lists the turns to come; each is taken in order and has no effect where its
agent is not enabled (a hold, R14). -/
inductive Move where
  /-- The ENGINE runs the statement it stands at. -/
  | engine
  /-- ENV drains the oldest posted write (R74). -/
  | drain
  /-- The PORT performs the access it holds (R150). -/
  | port
  /-- A CORE progress step (R156). -/
  | coreProgress
  /-- A CORE completion step (R157). -/
  | coreComplete
  /-- The IRQ agent enters the handler or runs its next statement (R186). -/
  | irq
  /-- ENV's timeout step, which ends a `Block()` (R184). -/
  | timeout
  /-- The host attaches the handler to the line (R383, R385). -/
  | attach
  /-- The host calls an operation (R112, R323). -/
  | call (c : Call)
  /-- Software other than the ENGINE makes the access `MemWrite(off, width, w)` to the window, `width` in bytes (R3, R11,
  R392). -/
  | hostWrite (off width : Nat) (w : Word)
  /-- Software other than the ENGINE makes the access `MemRead(off, width)` to the window (R3, R11). -/
  | hostRead (off width : Nat)
  deriving DecidableEq, Repr

/-! ### The state -/

/-- Everything the spec gives one controller instance. The last three fields are the model's own: the environment's
turns and draws to come, and how many draws came from `Config.freeWord`. No statement rests on their values. -/
structure State where
  /-- The PORT (R35). -/
  port : Port
  /-- The TWSI core (R38-R44). -/
  core : TwsiCore
  /-- IE, the interrupt-enable bit behind RAW (R37). -/
  ie : Bool
  /-- RAW: the last pattern that took effect (R36). A read of RAW does not return it (R73). -/
  raw : Word
  /-- The posted-write buffer, oldest first (R47). -/
  posted : List Posted
  /-- The record of accesses and delays, oldest first (R49). -/
  history : List Event
  /-- The Controller, with the completion signal (R45, R46). -/
  controller : Controller
  /-- The ENGINE's protocol phase (R33). -/
  phase : Phase
  /-- The ENGINE's control position; `none` when no operation runs (R32, R51). -/
  thread : Option Thread
  /-- What the last operation returned (R12, R32); `none` before the first return. -/
  result : Option Ret
  /-- The caller's buffers of the operation in hand, by message and byte index (R70, R86). -/
  buffers : List (List Byte)
  /-- The IRQ agent's place in the handler (R186). -/
  irq : IrqPos
  /-- The handler is attached to the line (R383, R385). -/
  handlerAttached : Bool
  /-- Turns to come (the model's own). -/
  moves : List Move
  /-- Draws to come (the model's own). -/
  draws : List Word
  /-- Draws taken from `Config.freeWord` so far (the model's own). -/
  drawn : Nat
  deriving DecidableEq, Repr

/-- `irq.running` (R48): true while the IRQ agent runs the handler. -/
def State.irqRunning (s : State) : Bool := s.irq != .out

/-- The state at power-on, before `open` (R51, R380). `port.busy`, `posted`, `completion`, `irq`, `thread`, `history`,
`isOpen` and `inBatch` are the spec's launch premises; `handlerAttached` is the premise of D27; every other value is a
DESIGN CHOICE where the spec says "unspecified (draw)" (assumption 1). `State.PowerOn` (Safety.lean) describes every state
the spec admits at power-on, and this is one of them. -/
def State.reset : State where
  port := ⟨false, 0#Config.wordBits, 0#8, false⟩
  core := ⟨0#8, 0#8, 0#8, 0#8, 0#8, false, .none⟩
  ie := false
  raw := 0#Config.wordBits
  posted := []
  history := []
  controller := ⟨0, 0, 0, 0, ⟨Config.clkDefaultThp, Config.clkDefaultMdiv, Config.clkDefaultNdiv⟩, false, false, false⟩
  phase := .idle
  thread := none
  result := none
  buffers := []
  irq := .out
  handlerAttached := true
  moves := []
  draws := []
  drawn := 0

/-! ### How a step can stop -/

/-- Cases the spec gives no meaning (R14). Neither is returned to a caller (R342). -/
inductive Fault where
  /-- `PortOverrun` (R151): a CMD write with `CMD_V = 1` drained while an access is in flight. Raised by the drain.
  Safe: the machine stops where the source says nothing. -/
  | portOverrun
  /-- R31: "a model faults on a read before a write" of a working variable. Raised by the ENGINE when a continuation
  asks for a value its callee did not return; no continuation the operations build does so. Safe. -/
  | readBeforeWrite
  deriving DecidableEq, Repr

/-- The caller or the host used the block outside its contract (R14, R342), or a word has no meaning (R111). All are
safe: the model stops where the source says nothing. -/
inductive Refusal where
  /-- An instruction without a meaning in this model. -/
  | notModelled (mnemonic : String)
  /-- A window access at an offset other than `OFF_CMD` and `OFF_RAW` (R75). Raised by window writes and reads. -/
  | illegalOffset (off : Nat)
  /-- A window access of another width, in bytes, than a whole word (R75). Raised by the host's accesses; the ENGINE's and the
  IRQ agent's are whole words. -/
  | illegalWidth (width : Nat)
  /-- A CMD word with `V = 0` (R111, R151). Raised by the drain. -/
  | commandNotValid
  /-- A CMD word that matches no row of R104 (R111). Raised by the PORT. -/
  | unknownCommand (w : Word)
  /-- A CTL byte with bit 7, IFLG or bits 1:0 set (R111). Raised by CTL writes. -/
  | reservedCtlByte (b : Byte)
  /-- A CLKCTL byte with bit 7 set or `mdiv < 2` (R111). Raised by CLKCTL writes. -/
  | reservedClkByte (b : Byte)
  /-- A word that is no RAW pattern of R110 (R111). Raised by RAW writes. -/
  | reservedRawPattern (v : Word)
  /-- A read at `SEL_THP` or `SEL_RST` (R111). Raised by `read_register`. -/
  | unreadableSelector (sel : Selector)
  /-- `open` or the clock search with target frequency 0 (R213, R320, D14). -/
  | zeroTarget
  /-- `init` with `INIT_RETRIES = 0` (R241, D9). -/
  | zeroRetries
  /-- `execute_batch` or `close` on a controller that is not open (R321, R322). -/
  | closedController
  /-- A second batch, `open` or `close` while a batch runs (R321, R322, R323). -/
  | batchRunning
  /-- `open` of a controller that is open: "a new frequency needs `close` and a new `open`" (R218). -/
  | controllerOpen
  /-- A message buffer longer than `MAX_MSG_LEN` (R8). Unbounded by default, so nothing raises it unless `Config` says
  otherwise. -/
  | messageTooLong (len : Nat)
  /-- A call while the ENGINE runs another operation (R323, R392). Raised by the arrival of a call. -/
  | engineBusy
  /-- A call of no operation of R113, or with operands of other types. Raised by the arrival of a call. -/
  | badCall
  deriving DecidableEq, Repr

end Sys2Proof.Machine
end

