-- ==== Sys2Proof/Machine/Operands.lean ====
section
/-! DEFINITION. Operand assembly and byte formats (R103, R105-R110), the values R111 reserves, and the status classes
(R341). -/

namespace Sys2Proof.Machine

open Sys2Proof

/-! ### Command words (R102, R103) -/

/-- The selector word of a selector name (R102). -/
def selectorWord : Selector → Word
  | .thp => Config.selThp
  | .data => Config.selData
  | .ctl => Config.selCtl
  | .clkctl => Config.selClkctl
  | .stat => Config.selStat
  | .rst => Config.selRst

/-- `zext_64(b)`: the byte lands in `D[7:0]` (R103). -/
def zextByte (b : Byte) : Word := b.zeroExtend Config.wordBits

/-- The low byte `w[7:0]` (R103, R141). -/
def lowByte (w : Word) : Byte := w.extractLsb' 0 8

/-- The byte the data field of a command word carries: `CMD_D[7:0]` (R34, R101). -/
def dataByte (w : Word) : Byte := lowByte (w &&& Config.cmdD)

/-- `CMD_V | sel | zext_64(b)` (R103, R140). -/
def writeCommand (sel : Selector) (b : Byte) : Word := Config.cmdV ||| selectorWord sel ||| zextByte b

/-- `CMD_V | CMD_R | sel` (R103, R141). -/
def readCommand (sel : Selector) : Word := Config.cmdV ||| Config.cmdR ||| selectorWord sel

/-- `CMD_V` is set in `w` (R101). -/
def cmdValid (w : Word) : Bool := (w &&& Config.cmdV) != 0

/-- `CMD_R` is set in `w` (R101). -/
def cmdIsRead (w : Word) : Bool := (w &&& Config.cmdR) != 0

/-! ### Bytes (R105, R107-R109) -/

/-- `CLK8`: `mdiv<<3 | ndiv` (R107); its low 8 bits, which for `mdiv ≤ 15` and `ndiv ≤ 7` are all of it. -/
def clkByte (mdiv ndiv : Nat) : Byte := (BitVec.ofNat 8 mdiv <<< 3) ||| BitVec.ofNat 8 ndiv

/-- The THP byte is `thp` itself (R108). -/
def thpByte (thp : Nat) : Byte := BitVec.ofNat 8 thp

/-- `ADDR8`: bits 7:1 the address, bit 0 the direction, 0 for a write and 1 for a read (R109). -/
def addrByte (a : Addr7) : Direction → Byte
  | .write => a.zeroExtend 8 <<< 1
  | .read => (a.zeroExtend 8 <<< 1) ||| 1#8

/-! ### Values the block may write (R111) -/

/-- No reserved bit of a control byte is set (R105, R111). -/
def ctlByteLegal (b : Byte) : Bool := (b &&& Config.ctlReserved) == 0

/-- Bit 7 is 0 and `mdiv ≥ 2` (R107, R111). -/
def clkByteLegal (b : Byte) : Bool := (b &&& 0x80#8) == 0 && 2 ≤ (b >>> 3).toNat

/-- The seven patterns of R110. -/
def rawPatterns : List Word :=
  [Config.rawIeSet, Config.rawIeClr, Config.rawPulseLow, Config.rawPulseHigh, Config.rawStop1, Config.rawStop2,
    Config.rawIdle]

/-- `v` is a pattern of R110. -/
def rawPatternLegal (v : Word) : Bool := rawPatterns.contains v

/-- The byte is one the block may write at that selector (R111); a write at `SEL_STAT` is a CLKCTL write (R40, R111). -/
def registerByteLegal : Selector → Byte → Bool
  | .thp, _ => true
  | .data, _ => true
  | .ctl, b => ctlByteLegal b
  | .clkctl, b => clkByteLegal b
  | .stat, b => clkByteLegal b
  | .rst, _ => true

/-- A read at that selector has a meaning (R111); a read at `SEL_CLKCTL` is a STAT read (R40, R102). -/
def readable : Selector → Bool
  | .thp => false
  | .data => true
  | .ctl => true
  | .clkctl => true
  | .stat => true
  | .rst => false

/-! ### Message buffers (R8) -/

/-- A message buffer of `n` bytes is no longer than `MAX_MSG_LEN` (R8, D31). -/
def msgLenAllowed (n : Nat) : Bool :=
  match Config.maxMsgLen with
  | none => true
  | some m => decide (n ≤ m)

/-- The refusal of the first buffer that is longer than `MAX_MSG_LEN`, if there is one; with the default, which is
unbounded, there is none. -/
def tooLong (bufs : List (List Byte)) : Option Refusal :=
  (bufs.find? fun b => !msgLenAllowed b.length).map fun b => .messageTooLong b.length

/-! ### Status classes (R106, R341) -/

/-- The statuses a class accepts (R341). -/
def StatusClass.accepted : StatusClass → List Byte
  | .start => [Config.statStart, Config.statRstart]
  | .idle => [Config.statIdle]
  | .tx => [Config.statTxAddrAck, Config.statTxDataAck]
  | .rx => [Config.statRxAddrAck, Config.statRxDataAck]

/-- `s` is in the class (set membership at every position: C2, D23). -/
def StatusClass.accepts (c : StatusClass) (s : Byte) : Bool := c.accepted.contains s

/-- The code this spec gives each error kind (R340). -/
def OpErr.code : OpErr → Nat
  | .timeout => 1
  | .protocol _ _ => 2
  | .hardwareFault => 3
  | .invalidArgument => 4

end Sys2Proof.Machine
end

