-- ==== Sys2Proof/WellFormed.lean ====
section
/-! DEFINITION. The operations the block can be given: operands in the range their rule states, and no byte or pattern
that R111 reserves. An ill-formed term has no meaning and each meaning refuses it by name. -/

namespace Sys2Proof

open Sys2Proof.Machine

/-- Every operand is one its rule allows (R8, R111, R140-R142, R213, R320). -/
def Instr.wellFormed : Instr → Bool
  | .wrregThp _ => true
  | .wrregData _ => true
  | .wrregCtl b => ctlByteLegal b
  | .wrregClkctl b => clkByteLegal b
  | .wrregRst _ => true
  | .rdregData => true
  | .rdregCtl => true
  | .rdregStat => true
  | .wrraw v => rawPatternLegal v
  | .writeRegister sel b => registerByteLegal sel b
  | .readRegister sel => readable sel
  | .writeRaw v => rawPatternLegal v
  | .delay _ => true
  | .enable => true
  | .disable => true
  | .ready => true
  | .wait => true
  | .irqHandler => true
  | .clockSearch target _ => target != 0
  | .setClock => true
  | .init => true
  | .unblock => true
  | .start => true
  | .stop => true
  | .writeMessage _ payload => (tooLong [payload]).isNone
  | .readMessage _ buffer => (tooLong [buffer]).isNone
  | .executeBatchEngine msgs => (tooLong (msgs.map Message.buffer)).isNone
  | .openController target _ _ _ => target != 0
  | .executeBatch msgs => (tooLong (msgs.map Message.buffer)).isNone
  | .close => true

end Sys2Proof
end

