-- ==== Sys2Proof/Decode.lean ====
section
/-! DEFINITION. The decoder, total on every word and every call, and the encoder written from the same tables (R100-R104,
R110, R112). A CMD word, a RAW word and a call by name reach the block by different doors, so each has its decoder.
Words have no byte order here: every field is defined by its bits in a whole word (R71). -/

namespace Sys2Proof

open Sys2Proof.Machine

/-- Why a word or a call is no operation (R111). -/
inductive DecodeError where
  /-- A CMD word with `V = 0`. -/
  | notValid
  /-- A CMD word that matches no row of R104. -/
  | noRow
  /-- A name that is no operation of R113. -/
  | unknownName
  /-- An operation with operands of other types or number. -/
  | badOperands
  deriving DecidableEq, Repr

/-- A row of R104: the words `w` with `w & mask = match`, and the operation of the data byte. -/
structure CommandRow where
  pattern : Word
  mask : Word
  make : Byte → Instr

/-- The row of the write commands at `sel`: `CMD_V | sel` above the data byte, which is any (R103, R104). -/
def writeRow (sel : Selector) (make : Byte → Instr) : CommandRow :=
  ⟨writeCommand sel 0#8, ~~~Config.cmdByteMask, make⟩

/-- The row of the one read command at `sel` (R103, R104). -/
def readRow (sel : Selector) (i : Instr) : CommandRow := ⟨readCommand sel, ~~~0#Config.wordBits, fun _ => i⟩

/-- The table of R104, in its order, from the parameters of R8. -/
def commandRows : List CommandRow :=
  [ writeRow .thp .wrregThp, writeRow .data .wrregData, writeRow .ctl .wrregCtl, writeRow .clkctl .wrregClkctl,
    writeRow .rst .wrregRst, readRow .data .rdregData, readRow .ctl .rdregCtl, readRow .stat .rdregStat ]

/-- The first row that matches (R104: "matches the rows top to bottom"). -/
def firstRow (w : Word) : List CommandRow → Option Instr
  | [] => none
  | r :: rs => if w &&& r.mask = r.pattern then some (r.make (dataByte w)) else firstRow w rs

/-- The operation a word written to CMD names (R104). -/
def decodeCmd (w : Word) : Except DecodeError Instr :=
  if cmdValid w then
    match firstRow w commandRows with
    | some i => .ok i
    | none => .error .noRow
  else .error .notValid

/-- A word written to RAW is a pattern, whole (R100, R110). Whether the pattern is one of R110 is `wellFormed`'s. -/
def decodeRaw (w : Word) : Instr := .wrraw w

/-- The operation a call by name gives (R112; the names are the table's mnemonics, which tell its two
`execute_batch` rows apart). -/
def decodeCall (c : Call) : Except DecodeError Instr :=
  match c.name, c.args with
  | "write_register", [.sel sel, .byte b] => .ok (.writeRegister sel b)
  | "read_register", [.sel sel] => .ok (.readRegister sel)
  | "write_raw", [.word v] => .ok (.writeRaw v)
  | "DELAY", [.nat us] => .ok (.delay us)
  | "enable", [] => .ok .enable
  | "disable", [] => .ok .disable
  | "ready", [] => .ok .ready
  | "wait", [] => .ok .wait
  | "irq_handler", [] => .ok .irqHandler
  | "clock_search", [.nat target, .nat sys] => .ok (.clockSearch target sys)
  | "set_clock", [] => .ok .setClock
  | "init", [] => .ok .init
  | "unblock", [] => .ok .unblock
  | "start", [] => .ok .start
  | "stop", [] => .ok .stop
  | "write_message", [.addr a, .bytes p] => .ok (.writeMessage a p)
  | "read_message", [.addr a, .bytes b] => .ok (.readMessage a b)
  | "execute_batch__engine", [.msgs ms] => .ok (.executeBatchEngine ms)
  | "open", [.nat target, .nat window, .nat irqLine, .nat sys] => .ok (.openController target window irqLine sys)
  | "execute_batch", [.msgs ms] => .ok (.executeBatch ms)
  | "close", [] => .ok .close
  | "write_register", _ | "read_register", _ | "write_raw", _ | "DELAY", _ | "enable", _ | "disable", _ | "ready", _
  | "wait", _ | "irq_handler", _ | "clock_search", _ | "set_clock", _ | "init", _ | "unblock", _ | "start", _
  | "stop", _ | "write_message", _ | "read_message", _ | "execute_batch__engine", _ | "open", _ | "execute_batch", _
  | "close", _ => .error .badOperands
  | _, _ => .error .unknownName

/-- The operation a code gives (R100). -/
def decode : Code → Except DecodeError Instr
  | .cmd w => decodeCmd w
  | .raw w => .ok (decodeRaw w)
  | .call c => decodeCall c

/-! ### The encoder -/

/-- The code of an operation: its command word assembled from the selector tables (R103), its pattern, or its call form
(R112). -/
def encode : Instr → Code
  | .wrregThp b => .cmd (writeCommand .thp b)
  | .wrregData b => .cmd (writeCommand .data b)
  | .wrregCtl b => .cmd (writeCommand .ctl b)
  | .wrregClkctl b => .cmd (writeCommand .clkctl b)
  | .wrregRst b => .cmd (writeCommand .rst b)
  | .rdregData => .cmd (readCommand .data)
  | .rdregCtl => .cmd (readCommand .ctl)
  | .rdregStat => .cmd (readCommand .stat)
  | .wrraw v => .raw v
  | .writeRegister sel b => .call ⟨"write_register", [.sel sel, .byte b]⟩
  | .readRegister sel => .call ⟨"read_register", [.sel sel]⟩
  | .writeRaw v => .call ⟨"write_raw", [.word v]⟩
  | .delay us => .call ⟨"DELAY", [.nat us]⟩
  | .enable => .call ⟨"enable", []⟩
  | .disable => .call ⟨"disable", []⟩
  | .ready => .call ⟨"ready", []⟩
  | .wait => .call ⟨"wait", []⟩
  | .irqHandler => .call ⟨"irq_handler", []⟩
  | .clockSearch target sys => .call ⟨"clock_search", [.nat target, .nat sys]⟩
  | .setClock => .call ⟨"set_clock", []⟩
  | .init => .call ⟨"init", []⟩
  | .unblock => .call ⟨"unblock", []⟩
  | .start => .call ⟨"start", []⟩
  | .stop => .call ⟨"stop", []⟩
  | .writeMessage a p => .call ⟨"write_message", [.addr a, .bytes p]⟩
  | .readMessage a b => .call ⟨"read_message", [.addr a, .bytes b]⟩
  | .executeBatchEngine ms => .call ⟨"execute_batch__engine", [.msgs ms]⟩
  | .openController target window irqLine sys =>
      .call ⟨"open", [.nat target, .nat window, .nat irqLine, .nat sys]⟩
  | .executeBatch ms => .call ⟨"execute_batch", [.msgs ms]⟩
  | .close => .call ⟨"close", []⟩

/-! ### The opcode table's own numbering -/

/-- The word the table's numbering gives: bit 0 is the least significant bit, `nbits` bits, the rest 0. -/
def tableWord (nbits w : Nat) : Word := BitVec.ofNat Config.wordBits (w % 2 ^ nbits)

/-- The operation the decoder reads from a table word. The table numbers CMD64 and RAW64 words in one space: every command
word has `V = 1` (R104) and no RAW pattern has (R110), so bit 63 says which decoder a word is for. The rows of format `OP`
have no word (R112), so no bits decode to one. -/
def decodeTableWord (nbits w : Nat) : Option Instr :=
  if nbits = 0 then none
  else if cmdValid (tableWord nbits w) then
    match decodeCmd (tableWord nbits w) with
    | .ok i => some i
    | .error _ => none
  else some (decodeRaw (tableWord nbits w))

end Sys2Proof
end

