-- ==== Sys2Proof/Machine/Flags.lean ====
section
/-! DEFINITION. The flags of R50: who sets and clears each, and the interrupt line computed from two of them (R48). -/

namespace Sys2Proof.Machine

open Sys2Proof

/-- The interrupt line: asserted exactly when `IE = 1` and `core.IFLG = 1` (R48, R343). -/
def State.lineAsserted (s : State) : Bool := s.ie && s.core.iflg

/-- A handler run may start: the line is asserted, a handler is attached and none is running (R186, R187, R385). -/
def State.irqMayEnter (s : State) : Bool := s.lineAsserted && s.handlerAttached && s.irq == .out

/-- `core.IFLG <- b` (R155, R157, R159). -/
def State.setIflg (b : Bool) (s : State) : State := { s with core := { s.core with iflg := b } }

/-- `IE <- b` (R37). -/
def State.setIe (b : Bool) (s : State) : State := { s with ie := b }

/-- `Signal()`: `completion <- 1` (R46, R185). -/
def State.signal (s : State) : State := { s with controller := { s.controller with completion := true } }

/-- A wake consumes the completion signal: `completion <- 0` (R46, R184). -/
def State.consume (s : State) : State := { s with controller := { s.controller with completion := false } }

/-- `controller.open <- b` (R320, R322). -/
def State.setOpen (b : Bool) (s : State) : State := { s with controller := { s.controller with isOpen := b } }

/-- `controller.in_batch <- b` (R321). -/
def State.setInBatch (b : Bool) (s : State) : State := { s with controller := { s.controller with inBatch := b } }

/-- `controller.params <- p` (R214). -/
def State.setParams (p : ClockParams) (s : State) : State := { s with controller := { s.controller with params := p } }

/-- `phase <- p` (R270). -/
def State.setPhase (p : Phase) (s : State) : State := { s with phase := p }

/-- The ready predicate on a CTL byte: `(b & CTL_IFLG) ≠ 0` (R182). -/
def ctlReady (b : Byte) : Bool := (b &&& Config.ctlIflg) != 0

/-- A CTL byte as read: IFLG in bit `CTL_IFLG`, every other bit from the draw `d` (R39, R148, D19). -/
def ctlReadByte (iflg : Bool) (d : Byte) : Byte :=
  (d &&& ~~~Config.ctlIflg) ||| (if iflg then Config.ctlIflg else 0#8)

/-- The bus action a CTL byte issues (R155). -/
def ctlAction (b : Byte) : CoreAction :=
  if (b &&& Config.ctlSta) != 0 then .start
  else if (b &&& Config.ctlStp) != 0 then .stop
  else .byte

/-- IFLG after the action `a` completes, `d` the draw a Stop takes (R157). -/
def iflgAfter (a : CoreAction) (d : Bool) (old : Bool) : Bool :=
  match a with
  | .start => true
  | .byte => true
  | .stop => d
  | .reset => false
  | .none => old

/-- A word of CMD as read: `CMD_V` is `port.busy`, `D[7:0]` is `port.result` if the last completed access was a read, every
other bit is from the draw `d` (R34, R73). -/
def cmdReadWord (p : Port) (d : Word) : Word :=
  (d &&& ~~~(Config.cmdV ||| (if p.lastRead then Config.cmdByteMask else 0#Config.wordBits)))
    ||| (if p.busy then Config.cmdV else 0#Config.wordBits)
    ||| (if p.lastRead then zextByte p.result else 0#Config.wordBits)

end Sys2Proof.Machine
end

