-- ==== Sys2Proof/Machine/Ops.lean ====
section
/-! DEFINITION. The named operations over the state: draws (R13), the window's accesses (R72, R73), the effects an access
has on the TWSI core (R155-R159), and the handler's entry and return, the block's analogue of taking an exception and
returning from it (R344, R345). -/

namespace Sys2Proof.Machine

open Sys2Proof

/-- How a step can end without a next state. -/
inductive Stop where
  | fault (f : Fault)
  | refused (r : Refusal)
  deriving DecidableEq, Repr

/-- The host's three outcomes from a result. -/
def toOutcome : Except Stop State → Host.Outcome State Fault Refusal
  | .ok s => .next s
  | .error (.fault f) => .fault f
  | .error (.refused r) => .refused r

/-- A result from the host's three outcomes. -/
def ofOutcome : Host.Outcome State Fault Refusal → Except Stop State
  | .next s => .ok s
  | .fault f => .error (.fault f)
  | .refused r => .error (.refused r)

/-! ### Draws (R13) -/

/-- `Draw(word)`: the next listed draw, else the environment's next free one. DESIGN CHOICE (assumption 3), unsafe for a claim
that compares unlisted draws: the spec gives draws no law (R13), and here two controllers (R351), or two runs, that list no draw
and stand at the same count draw equal words. -/
def State.draw (s : State) : Word × State :=
  match s.draws with
  | d :: ds => (d, { s with draws := ds })
  | [] => (Config.freeWord s.drawn, { s with drawn := s.drawn + 1 })

/-- `Draw(byte)`: the low byte of a drawn word. -/
def State.drawByte (s : State) : Byte × State := (lowByte s.draw.1, s.draw.2)

/-- `Draw(bit)`: bit 0 of a drawn word. -/
def State.drawBit (s : State) : Bool × State := (s.draw.1.getLsbD 0, s.draw.2)

/-! ### Turns -/

/-- The turns to come are `ms`. -/
def State.withMoves (ms : List Move) (s : State) : State := { s with moves := ms }

/-! ### History (R49) -/

/-- Append an event to `history`. -/
def State.record (e : Event) (s : State) : State := { s with history := s.history ++ [e] }

/-! ### Assignments of the ENGINE (R11) -/

/-- The Controller `open` makes before `init()` (R320). -/
def newController (target window irqLine sys : Nat) (old : Controller) : Controller :=
  { old with
    window := window, irqLine := irqLine, targetFrequency := target, systemClockRate := sys
    completion := false, isOpen := false, inBatch := false }

/-- `c <- {window, irq_line, ...}` of `open` (R320). -/
def State.setController (target window irqLine sys : Nat) (s : State) : State :=
  { s with controller := newController target window irqLine sys s.controller }

/-- `buffer[i] <- b` in the caller's buffer `k` (R86). -/
def State.setBufferByte (k i : Nat) (b : Byte) (s : State) : State :=
  { s with buffers := s.buffers.modify k fun buf => buf.set i b }

/-- The effect of an assignment (R11). A working variable is no field of the state: its value is in the continuation. -/
def Assign.apply (a : Assign) (s : State) : State :=
  match a with
  | .phase p => s.setPhase p
  | .params p => s.setParams p
  | .isOpen b => s.setOpen b
  | .inBatch b => s.setInBatch b
  | .controller target window irqLine sys => s.setController target window irqLine sys
  | .buffer k i b => s.setBufferByte k i b
  | .working => s

/-! ### Window accesses (R72, R73, R75) -/

/-- The offset is one of the two a window access may name (R75). -/
def legalOffset (off : Nat) : Bool := off == Config.offCmd || off == Config.offRaw

/-- The effect of `WinWrite(off, w)`: the word joins the end of `posted` (R72). -/
def post (off : Nat) (w : Word) (recovery : Bool) (s : State) : Except Stop State :=
  if legalOffset off then .ok { s with posted := s.posted ++ [⟨off, w, recovery⟩] }
  else .error (.refused (.illegalOffset off))

/-- The effect of `WinRead(off)` once nothing is posted (R73): the word read, recorded in `history`. -/
def readWindow (off : Nat) (s : State) : Except Stop (Word × State) :=
  if off = Config.offCmd then
    .ok (cmdReadWord s.port s.draw.1, s.draw.2.record (.read off (cmdReadWord s.port s.draw.1)))
  else if off = Config.offRaw then
    .ok (s.draw.1, s.draw.2.record (.read off s.draw.1))
  else .error (.refused (.illegalOffset off))

/-- The width of a whole-word access, in bytes (R11, R75). -/
def wordBytes : Nat := Config.wordBits / 8

/-- `MemWrite(off, width, w)` (R11, R72): a whole-word write is `WinWrite`, and any other width is refused (R75). -/
def memWrite (off width : Nat) (w : Word) (s : State) : Except Stop State :=
  if width = wordBytes then post off w false s else .error (.refused (.illegalWidth width))

/-! ### Effects on the TWSI core (R155-R159) -/

/-- A performed CTL write (R155): CTL takes the byte, IFLG clears, and one bus action replaces any pending one. -/
def ctlWrite (b : Byte) (s : State) : State :=
  { s with core := { s.core with ctl := b, iflg := false, pending := ctlAction b } }

/-- A performed RST write (R159): `core.pending <- Reset`, IFLG clears, CTL, THP and CLKCTL become any value. -/
def rstWrite (s : State) : State :=
  let (c, s) := s.drawByte
  let (t, s) := s.drawByte
  let (k, s) := s.drawByte
  { s with core := { s.core with ctl := c, thp := t, clkctl := k, iflg := false, pending := .reset } }

/-- CORE progress step (R156): enabled while an action is pending; STAT becomes any value and nothing else changes. -/
def coreProgress (s : State) : State :=
  if s.core.pending = .none then s
  else
    let (st, s) := s.drawByte
    { s with core := { s.core with stat := st } }

/-- CORE completion step (R157): enabled while an action is pending. STAT is any value; DATA is any value after a Byte
action; IFLG is 1 after Start and Byte, any value after Stop, 0 after Reset. -/
def coreComplete (s : State) : State :=
  match s.core.pending with
  | .none => s
  | .byte =>
      let (st, s) := s.drawByte
      let (d, s) := s.drawByte
      { s with core := { s.core with stat := st, data := d, iflg := iflgAfter .byte false s.core.iflg, pending := .none } }
  | .stop =>
      let (st, s) := s.drawByte
      let (f, s) := s.drawBit
      { s with core := { s.core with stat := st, iflg := iflgAfter .stop f s.core.iflg, pending := .none } }
  | .start =>
      let (st, s) := s.drawByte
      { s with core := { s.core with stat := st, iflg := iflgAfter .start false s.core.iflg, pending := .none } }
  | .reset =>
      let (st, s) := s.drawByte
      { s with core := { s.core with stat := st, iflg := iflgAfter .reset false s.core.iflg, pending := .none } }

/-! ### Patterns taking effect at RAW (R36, R37, R160) -/

/-- A pattern of the bus-recovery sequence takes effect: RAW holds it and IE becomes any value (R37, D28); no CORE state
changes (R160). -/
def recoveryPattern (v : Word) (s : State) : Except Stop State :=
  if rawPatternLegal v then .ok { s.drawBit.2 with raw := v, ie := s.drawBit.1 }
  else .error (.refused (.reservedRawPattern v))

/-! ### Entering and leaving the handler (R344, R345) -/

/-- Handler entry (R186, R344): when the line is asserted and no handler runs, `irq.running` becomes true and the IRQ agent
stands at the handler's first statement. "No state is saved by the block and there is no vector table". Otherwise the IRQ
agent is not enabled and nothing changes. -/
def irqEnter (s : State) : State := if s.irqMayEnter then { s with irq := .atWrite } else s

/-- Handler return (R345): "the handler returns to whatever it interrupted, restoring nothing". -/
def irqLeave (s : State) : State := { s with irq := .out }

end Sys2Proof.Machine
end

