-- ==== Sys2Proof/Machine/Commands.lean ====
section
/-! DEFINITION. The encoded forms: what the device does when a command word is performed (R143-R148) or a pattern reaches
RAW (R36, R37). The PORT and the drain call these (Machine/Agents.lean); `busy`, `posted` and `history` are theirs. -/

namespace Sys2Proof.Machine

open Sys2Proof

/-- `WRREG THP, b`: `THP <- b`. "No flag, no bus action" (R143). -/
def execWrregThp (b : Byte) (s : State) : Host.Outcome State Fault Refusal :=
  .next { s with core := { s.core with thp := b } }

/-- `WRREG DATA, b`: `DATA <- b`. The byte is sent only by the CTL write that follows (R144). -/
def execWrregData (b : Byte) (s : State) : Host.Outcome State Fault Refusal :=
  .next { s with core := { s.core with data := b } }

/-- `WRREG CTL, b`: a CTL write (R145, R155); a byte with a reserved bit set is refused (R111). -/
def execWrregCtl (b : Byte) (s : State) : Host.Outcome State Fault Refusal :=
  if ctlByteLegal b then .next (ctlWrite b s) else .refused (.reservedCtlByte b)

/-- `WRREG CLKCTL, b`: `CLKCTL <- b`; STAT, which shares the selector, is not changed (R146); a byte that R111 reserves is
refused. -/
def execWrregClkctl (b : Byte) (s : State) : Host.Outcome State Fault Refusal :=
  if clkByteLegal b then .next { s with core := { s.core with clkctl := b } } else .refused (.reservedClkByte b)

/-- `WRREG RST, b`: the core resets (R147, R159). "A write is an action, not storage" (R43): the byte is not kept. -/
def execWrregRst (_b : Byte) (s : State) : Host.Outcome State Fault Refusal :=
  .next (rstWrite s)

/-- `RDREG DATA`: `port.result <- DATA` (R148); no side effect (R154). -/
def execRdregData (s : State) : Host.Outcome State Fault Refusal :=
  .next { s with port := { s.port with result := s.core.data } }

/-- `RDREG CTL`: `port.result` has IFLG in bit `CTL_IFLG` and draws elsewhere (R39, R148); no side effect (R154). -/
def execRdregCtl (s : State) : Host.Outcome State Fault Refusal :=
  .next { s.drawByte.2 with port := { s.port with result := ctlReadByte s.core.iflg s.drawByte.1 } }

/-- `RDREG STAT`: `port.result <- STAT` (R148); no side effect (R154). -/
def execRdregStat (s : State) : Host.Outcome State Fault Refusal :=
  .next { s with port := { s.port with result := s.core.stat } }

/-- `WRRAW v`: the pattern takes effect at once (R36): `RAW_IE_SET` sets IE, `RAW_IE_CLR` clears it, any other pattern
leaves IE any value (R37); no CORE state changes (R160); a word that is no pattern of R110 is refused (R111). -/
def execWrraw (v : Word) (s : State) : Host.Outcome State Fault Refusal :=
  if rawPatternLegal v then
    if v = Config.rawIeSet then .next { s with raw := v, ie := true }
    else if v = Config.rawIeClr then .next { s with raw := v, ie := false }
    else .next { s.drawBit.2 with raw := v, ie := s.drawBit.1 }
  else .refused (.reservedRawPattern v)

/-- What the PORT does with a decoded command: the meaning of its encoded form. The other operations have no command word,
so `decodeCmd` never gives one. -/
def perform (w : Word) (i : Instr) (s : State) : Host.Outcome State Fault Refusal :=
  match i with
  | .wrregThp b => execWrregThp b s
  | .wrregData b => execWrregData b s
  | .wrregCtl b => execWrregCtl b s
  | .wrregClkctl b => execWrregClkctl b s
  | .wrregRst b => execWrregRst b s
  | .rdregData => execRdregData s
  | .rdregCtl => execRdregCtl s
  | .rdregStat => execRdregStat s
  | .wrraw _ | .writeRegister _ _ | .readRegister _ | .writeRaw _ | .delay _ | .enable | .disable | .ready | .wait
  | .irqHandler | .clockSearch _ _ | .setClock | .init | .unblock | .start | .stop | .writeMessage _ _
  | .readMessage _ _ | .executeBatchEngine _ | .openController _ _ _ _ | .executeBatch _ | .close =>
      .refused (.unknownCommand w)

end Sys2Proof.Machine
end

