-- ==== Sys2Proof/Machine/Agents.lean ====
section
/-! DEFINITION. The steps of the agents other than the ENGINE (R4): ENV's drain (R74), the PORT (R150), the CORE (R156,
R157), the IRQ agent (R186), the host. Each has no effect where it is not enabled (a hold, R14). -/

namespace Sys2Proof.Machine

open Sys2Proof

/-! ### PORT (R150, R151) -/

/-- A word reaching CMD: issued if `V = 1` and the port is idle; `PortOverrun` if the port is busy; refused if `V = 0`
(R150, R151). -/
def issueCommand (w : Word) (s : State) : Except Stop State :=
  if cmdValid w then
    if s.port.busy then .error (.fault .portOverrun)
    else .ok { s with port := { s.port with busy := true, cmd := w } }
  else .error (.refused .commandNotValid)

/-- The access the port holds has completed: `CMD_V` clears, and the port remembers whether it was a read (R34, R73,
R150). -/
def portDone (w : Word) (s : State) : State :=
  { s with port := { s.port with busy := false, lastRead := cmdIsRead w } }

/-- A PORT step (R150): enabled while busy; performs the access `port.cmd` names and completes it. -/
def portStep (s : State) : Except Stop State :=
  if s.port.busy then
    match decodeCmd s.port.cmd with
    | .ok i => (ofOutcome (perform s.port.cmd i s)).map (portDone s.port.cmd)
    | .error _ => .error (.refused (.unknownCommand s.port.cmd))
  else .ok s

/-! ### ENV (R74) -/

/-- A posted write takes effect (R74): at CMD the command is issued, at RAW the pattern takes effect. -/
def applyPosted (p : Posted) (s : State) : Except Stop State :=
  if p.off = Config.offCmd then issueCommand p.word s
  else if p.off = Config.offRaw then
    if p.recovery then recoveryPattern p.word s else ofOutcome (execWrraw p.word s)
  else .error (.refused (.illegalOffset p.off))

/-- A drain step (R74): enabled while something is posted; the oldest write leaves the buffer, is recorded and takes
effect. -/
def drainStep (s : State) : Except Stop State :=
  match s.posted with
  | [] => .ok s
  | p :: ps => applyPosted p ({ s with posted := ps }.record (.write p.off p.word))

/-- `n` drain steps. -/
def drainSteps : Nat → State → Except Stop State
  | 0, s => .ok s
  | n + 1, s => (drainStep s).bind (drainSteps n)

/-- Drain everything posted: what a held read waits for (R73). -/
def drainAll (s : State) : Except Stop State := drainSteps s.posted.length s

/-! ### IRQ (R186) -/

/-- An IRQ step: handler entry, or the handler's next statement. `WinRead` holds while a write is posted (R73, R142). -/
def irqStep (s : State) : Except Stop State :=
  match s.irq with
  | .out => .ok (irqEnter s)
  | .atWrite => (post Config.offRaw Config.rawIeClr false s).map fun t => { t with irq := .atReadback }
  | .atReadback =>
      if s.posted = [] then (readWindow Config.offRaw s).map fun r => { r.2 with irq := .atSignal } else .ok s
  | .atSignal => .ok { s.signal with irq := .atLeave }
  | .atLeave => .ok (irqLeave s)

/-! ### The host -/

/-- A call that arrives while the ENGINE runs an operation (R323, R392): refused, unless it is the host entering the handler
(R344), which runs in the other context. -/
def callWhileBusy (c : Call) (s : State) : Except Stop State :=
  match decodeCall c with
  | .ok .irqHandler => .ok (irqEnter s)
  | .ok _ => .error (.refused .engineBusy)
  | .error _ => .error (.refused .badCall)

/-- `MemRead(off, width)` of other software (R11): a whole-word read is `WinRead`, held while a write is posted and recorded
when it takes effect (R73); any other width is refused (R75). -/
def hostReadStep (off width : Nat) (s : State) : Except Stop State :=
  if width ≠ wordBytes then .error (.refused (.illegalWidth width))
  else if legalOffset off then
    if s.posted = [] then (readWindow off s).map Prod.snd else .ok s
  else .error (.refused (.illegalOffset off))

/-- A turn of an agent other than the ENGINE, while the ENGINE runs an operation. The timeout step belongs to `Block()`
(R184), so outside it it is not enabled; the ENGINE's own turn is not this function's. -/
def envMove (m : Move) (s : State) : Except Stop State :=
  match m with
  | .engine => .ok s
  | .drain => drainStep s
  | .port => portStep s
  | .coreProgress => .ok (coreProgress s)
  | .coreComplete => .ok (coreComplete s)
  | .irq => irqStep s
  | .timeout => .ok s
  | .attach => .ok { s with handlerAttached := true }
  | .call c => callWhileBusy c s
  | .hostWrite off width w => memWrite off width w s
  | .hostRead off width => hostReadStep off width s

end Sys2Proof.Machine
end

