-- ==== Sys2Proof/Machine/Port.lean ====
section
/-! DEFINITION. The RegisterPort (40_register_port.md): the ENGINE's primitive statements, the turns the other agents take
before each (R80), and `write_register`, `read_register`, `write_raw` and `Delay` over them. Each operation here is the
pseudocode of its rule; `Machine/Engine.lean` gives the same operations one primitive statement at a time (R32). -/

namespace Sys2Proof.Machine

open Sys2Proof

/-- A piece of an operation: it takes the state, may stop, and gives its value with the next state. -/
abbrev M (α : Type) := StateT State (Except Stop) α

/-- Change the state. -/
def M.update (f : State → State) : M Unit := fun s => .ok ((), f s)

/-- Run an effect that may stop. -/
def M.effect (f : State → Except Stop State) : M Unit := fun s => (f s).map fun t => ((), t)

/-- Refuse. -/
def M.refuse {α : Type} (r : Refusal) : M α := fun _ => .error (.refused r)

/-- An instruction's outcome from its pieces: the value it returns becomes the result handed to the invoker (R12, R32). -/
def finish {α : Type} (ret : α → Ret) (m : M α) (s : State) : Host.Outcome State Fault Refusal :=
  toOutcome ((m s).map fun r => { r.2 with result := some (ret r.1) })

/-! ### Turns before a statement of the ENGINE (R4, R80) -/

/-- The other agents take the listed turns until the ENGINE's own turn comes at a point where it is enabled; an ENGINE turn
at which it is not enabled is a hold. When the list ends the ENGINE goes on: assumption 2. -/
def holdUntil (enabled : State → Bool) : List Move → State → Except Stop State
  | [], s => .ok (s.withMoves [])
  | .engine :: ms, s =>
      if enabled s then .ok (s.withMoves ms) else holdUntil enabled ms (s.withMoves ms)
  | m :: ms, s => (envMove m (s.withMoves ms)).bind (holdUntil enabled ms)

/-- The turns before a statement that is always enabled: a window write or a delay. -/
def turn : M Unit := M.effect fun s => holdUntil (fun _ => true) s.moves s

/-- The turns before a window read: it holds until nothing is posted (R73); ENV is fair (R74), so what is still posted when
the listed turns end drains. -/
def turnDrained : M Unit := M.effect fun s => (holdUntil (fun t => t.posted.isEmpty) s.moves s).bind drainAll

/-! ### The primitive statements -/

/-- `WinWrite(off, w)` (R72). -/
def winWrite (off : Nat) (w : Word) (recovery : Bool) : M Unit := do
  turn
  M.effect (post off w recovery)

/-- `WinRead(OFF_RAW)` with the value discarded (R73, R142). -/
def readback : M Unit := do
  turnDrained
  let _ ← (readWindow Config.offRaw : M Word)

/-- The valid-bit loop of R140 and R141: `w <- WinRead(OFF_CMD)` until `w[63] = 0`, over the turns still listed; gives the
low byte of the read that first sees `CMD_V = 0` (D35). Once the list has ended, ENV and the PORT, being fair (R74, R150),
drain what is posted and complete the access, and the next read sees `CMD_V = 0`. -/
def pollTurns : List Move → State → Except Stop (Byte × State)
  | [], s => do
      let s ← drainAll (s.withMoves [])
      let s ← portStep s
      let (w, s) ← readWindow Config.offCmd s
      .ok (lowByte w, s)
  | .engine :: ms, s =>
      let s := s.withMoves ms
      if s.posted = [] then do
        let (w, s) ← readWindow Config.offCmd s
        if cmdValid w then pollTurns ms s else .ok (lowByte w, s)
      else pollTurns ms s
  | m :: ms, s => (envMove m (s.withMoves ms)).bind (pollTurns ms)

/-- The valid-bit loop from the state's own turns. -/
def poll : M Byte := fun s => pollTurns s.moves s

/-- An assignment `x <- v` that is a statement of its own (R11, R32). -/
def assign (a : Assign) : M Unit := do
  turn
  M.update a.apply

/-- `Delay(us)`: recorded, no other effect, no drain (R77). -/
def delayUs (us : Nat) : M Unit := do
  turn
  M.update (State.record (.delay us))

/-! ### The three primitives (R140-R142) -/

/-- `write_register(sel, b)` (R140). -/
def writeRegister (sel : Selector) (b : Byte) : M Unit := do
  winWrite Config.offCmd (writeCommand sel b) false
  let _ ← poll

/-- `read_register(sel)` (R141). -/
def readRegister (sel : Selector) : M Byte := do
  winWrite Config.offCmd (readCommand sel) false
  poll

/-- `write_raw(v)` (R142); `recovery` as in `Posted`. -/
def writeRawAs (recovery : Bool) (v : Word) : M Unit := do
  winWrite Config.offRaw v recovery
  readback

/-! ### Their meanings as operations called by name -/

/-- Refusal of a byte that R111 reserves at a selector. -/
def reservedByte : Selector → Byte → Refusal
  | .ctl, b => .reservedCtlByte b
  | .thp, b | .data, b | .clkctl, b | .stat, b | .rst, b => .reservedClkByte b

/-- `write_register(sel, b) -> ()` (R140). -/
def execWriteRegister (sel : Selector) (b : Byte) (s : State) : Host.Outcome State Fault Refusal :=
  if registerByteLegal sel b then finish (fun _ => .unit) (writeRegister sel b) s
  else .refused (reservedByte sel b)

/-- `read_register(sel) -> byte` (R141). -/
def execReadRegister (sel : Selector) (s : State) : Host.Outcome State Fault Refusal :=
  if readable sel then finish .byte (readRegister sel) s else .refused (.unreadableSelector sel)

/-- `write_raw(v) -> ()` (R142). -/
def execWriteRaw (v : Word) (s : State) : Host.Outcome State Fault Refusal :=
  if rawPatternLegal v then finish (fun _ => .unit) (writeRawAs false v) s else .refused (.reservedRawPattern v)

/-- `Delay(us) -> ()` (R77). -/
def execDelay (us : Nat) (s : State) : Host.Outcome State Fault Refusal :=
  finish (fun _ => .unit) (delayUs us) s

end Sys2Proof.Machine
end

