-- ==== Sys2Proof/Machine/Clock.lean ====
section
/-! DEFINITION. The ClockProgrammer (42_clock.md): the divider search, as a pure function of two naturals and
by its assignments (R11), and its programming. Naturals and integers are unbounded and division is floor division (R10, D11). -/

namespace Sys2Proof.Machine

open Sys2Proof

/-- The bus clock, in Hz, of a triple (R210). -/
def achieved (sys t m n : Nat) : Nat := sys / (2 * (t + 1) * 2 ^ n * (m + 1) * 10)

/-- The ideal half-period base of a pair, which may be -1 (R212). -/
def clockBase (target sys m n : Nat) : Int := (sys / (2 * target * (m + 1) * 10 * 2 ^ n) : Nat) - 1

/-- `|f - target|` (R213). -/
def deviation (target f : Nat) : Nat := ((f : Int) - (target : Int)).natAbs

/-- `(0x18, 2, 0)` (R7, R213). -/
def clockDefault : ClockParams := ⟨Config.clkDefaultThp, Config.clkDefaultMdiv, Config.clkDefaultNdiv⟩

/-- One pass of the innermost loop (R213): the candidate `base + inc` of the pair `(n, m)` is rejected out of range and
replaces the best on a strictly smaller deviation (D12). -/
def tryCandidate (target sys n m inc : Nat) (b : Best) : Best :=
  let t := clockBase target sys m n + inc
  if t < 5 ∨ 255 < t then b
  else
    let d := deviation target (achieved sys t.toNat m n)
    if d < b.delta then ⟨⟨t.toNat, m, n⟩, d⟩ else b

/-- The loop over `inc in 0, 1` (R213). -/
def tryPair (target sys n m : Nat) (b : Best) : Best :=
  tryCandidate target sys n m 1 (tryCandidate target sys n m 0 b)

/-- The loop over `m in 15, 14, ..., 2` (R211, R213). -/
def mdivs : List Nat := [15, 14, 13, 12, 11, 10, 9, 8, 7, 6, 5, 4, 3, 2]

/-- The loop over `n in 0, 1, ..., 7` (R211, R213). -/
def ndivs : List Nat := [0, 1, 2, 3, 4, 5, 6, 7]

/-- `clock_search(target, sys)` (R213), for `target ≥ 1`. -/
def clockSearch (target sys : Nat) : ClockParams :=
  (ndivs.foldl (fun b n => mdivs.foldl (fun b m => tryPair target sys n m b) b)
    ⟨clockDefault, Config.clkSentinel⟩).params

/-! ### The search's statements (R11, R213)

Every assignment of the pseudocode is a statement; the tests and the heads of the loops go with the assignment before them. -/

/-- `tryCandidate` by its statements: `t`, and in range `f` and `d`, and on a smaller deviation `delta` and `best`. -/
def runCandidate (target sys n m : Nat) (base : Int) (inc : Nat) (b : Best) : M Best := do
  assign .working
  let t := base + inc
  if t < 5 ∨ 255 < t then return b
  else do
    assign .working
    assign .working
    let d := deviation target (achieved sys t.toNat m n)
    if d < b.delta then do
      assign .working
      assign .working
      return ⟨⟨t.toNat, m, n⟩, d⟩
    else return b

/-- `tryPair` by its statements: `base`, and the loop over `inc`. -/
def runPair (target sys n m : Nat) (b : Best) : M Best := do
  assign .working
  let base := clockBase target sys m n
  let b ← runCandidate target sys n m base 0 b
  runCandidate target sys n m base 1 b

/-- `clock_search(target, sys)` by its statements (R213): `best`, `delta`, and the loops over `n` and `m`. -/
def runClockSearch (target sys : Nat) : M ClockParams := do
  assign .working
  assign .working
  let b ← ndivs.foldlM (fun b n => mdivs.foldlM (fun b m => runPair target sys n m b) b) ⟨clockDefault, Config.clkSentinel⟩
  return b.params

/-- The first pair of the loop over `m`. -/
def firstPair (n : Nat) (ns : List Nat) : SearchLoops := ⟨n, ns, 15, mdivs.tail⟩

/-- The pair after `l`, or the end of the search with the best so far (R213). -/
def nextPair (l : SearchLoops) (b : Best) : SearchPos ⊕ ClockParams :=
  match l.ms with
  | m :: ms => .inl (.base ⟨l.n, l.ns, m, ms⟩ b)
  | [] =>
      match l.ns with
      | n :: ns => .inl (.base (firstPair n ns) b)
      | [] => .inr b.params

/-- The candidate after `base + inc`: the pair's second, or the next pair's first (R213). -/
def nextCandidate (l : SearchLoops) (base : Int) (inc : Nat) (b : Best) : SearchPos ⊕ ClockParams :=
  if inc = 0 then .inl (.t l base 1 b) else nextPair l b

/-- One assignment of `clock_search(target, sys)` (R213): where the search stands after it, or its result. -/
def searchStep (target sys : Nat) (p : SearchPos) : SearchPos ⊕ ClockParams :=
  match p with
  | .best => .inl (.delta clockDefault)
  | .delta best => .inl (.base (firstPair 0 ndivs.tail) ⟨best, Config.clkSentinel⟩)
  | .base l b => .inl (.t l (clockBase target sys l.m l.n) 0 b)
  | .t l base inc b =>
      let t := base + inc
      if t < 5 ∨ 255 < t then nextCandidate l base inc b else .inl (.f l base inc t b)
  | .f l base inc t b => .inl (.d l base inc t (achieved sys t.toNat l.m l.n) b)
  | .d l base inc t f b =>
      let d := deviation target f
      if d < b.delta then .inl (.newDelta l base inc t d b) else nextCandidate l base inc b
  | .newDelta l base inc t d b => .inl (.newBest l base inc t { b with delta := d })
  | .newBest l base inc t b => nextCandidate l base inc { b with params := ⟨t.toNat, l.m, l.n⟩ }

/-! ### The operations -/

/-- `set_clock()` (R214): the search, then THP, then CLKCTL, then `params`. -/
def setClock : M Unit := do
  let s ← get
  let p ← runClockSearch s.controller.targetFrequency s.controller.systemClockRate
  writeRegister .thp (thpByte p.thp)
  writeRegister .clkctl (clkByte p.mdiv p.ndiv)
  assign (.params p)

/-- `clock_search(target_frequency, system_clock_rate) -> (thp, mdiv, ndiv)` (R213): no state but the result; target 0 is
refused (D14). -/
def execClockSearch (target sys : Nat) (s : State) : Host.Outcome State Fault Refusal :=
  if target = 0 then .refused .zeroTarget else finish .clock (runClockSearch target sys) s

/-- `set_clock() -> ()` (R214). The search it begins with refuses a controller whose target frequency is 0 (D14). -/
def execSetClock (s : State) : Host.Outcome State Fault Refusal :=
  if s.controller.targetFrequency = 0 then .refused .zeroTarget else finish (fun _ => .unit) setClock s

end Sys2Proof.Machine
end

