-- ==== Sys2Proof/Machine/Completion.lean ====
section
/-! DEFINITION. The CompletionWaiter (41_completion.md): `enable`, `disable`, `ready`, `wait` and the interrupt handler. -/

namespace Sys2Proof.Machine

open Sys2Proof

/-- `enable()`: `write_raw(RAW_IE_SET)` (R180). -/
def enable : M Unit := writeRawAs false Config.rawIeSet

/-- `disable()`: `write_raw(RAW_IE_CLR)` (R181). -/
def disable : M Unit := writeRawAs false Config.rawIeClr

/-- `ready()`: IFLG read through the port (R182). -/
def ready : M Bool := do
  let b ← readRegister .ctl
  return ctlReady b

/-- `Block()` over the turns still listed (R184): true for `Woken`, which consumes the completion signal, false for
`TimedOut`. Both may be enabled at once and the list says which is taken (D22). When the list ends a completion that is set
wakes the ENGINE and otherwise the timeout, being fair, ends the hold. -/
def blockTurns : List Move → State → Except Stop (Bool × State)
  | [], s =>
      if s.controller.completion then .ok (true, (s.withMoves []).consume) else .ok (false, s.withMoves [])
  | .engine :: ms, s =>
      if s.controller.completion then .ok (true, (s.withMoves ms).consume) else blockTurns ms (s.withMoves ms)
  | .timeout :: ms, s => .ok (false, s.withMoves ms)
  | m :: ms, s => (envMove m (s.withMoves ms)).bind (blockTurns ms)

/-- `Block()` from the state's own turns. -/
def block : M Bool := fun s => blockTurns s.moves s

/-- The loop of `wait()` (R183), at most `n` blocks and then the timeout, which is enabled at every point of the hold
(R184). Every wake but one uses up a listed turn, so `wait`'s bound is never what ends the loop (assumption 2). -/
def waitLoop : Nat → M (Option OpErr)
  | 0 => do
      disable
      return some .timeout
  | n + 1 => do
      if ← block then
        if ← ready then
          disable
          return none
        else waitLoop n
      else
        disable
        return some .timeout

/-- `wait()` (R183): `none` for ok, `some .timeout` for `Timeout`. -/
def wait : M (Option OpErr) := do
  enable
  let s ← get
  waitLoop (s.moves.length + 2)

/-- `enable() -> ()` (R180). -/
def execEnable (s : State) : Host.Outcome State Fault Refusal := finish (fun _ => .unit) enable s

/-- `disable() -> ()` (R181). -/
def execDisable (s : State) : Host.Outcome State Fault Refusal := finish (fun _ => .unit) disable s

/-- `ready() -> bool` (R182). -/
def execReady (s : State) : Host.Outcome State Fault Refusal := finish .bool ready s

/-- `wait() -> ok | Timeout` (R183). -/
def execWait (s : State) : Host.Outcome State Fault Refusal := finish .status wait s

/-- The interrupt handler, whole (R186): entry, `disable()`, `Signal()`, return. Its readback holds until what is posted has
drained, and no other agent moves. Where the line is not asserted, no handler is attached or one is running, the IRQ agent is
not enabled and nothing changes (R187). `Move.irq` runs the same statements one at a time, between other agents' turns. -/
def irqHandler (s : State) : Except Stop State :=
  if s.irqMayEnter then do
    let s ← irqStep s
    let s ← irqStep s
    let s ← drainAll s
    let s ← irqStep s
    let s ← irqStep s
    irqStep s
  else .ok s

/-- `irq_handler() -> ()` (R186). -/
def execIrqHandler (s : State) : Host.Outcome State Fault Refusal := toOutcome (irqHandler s)

end Sys2Proof.Machine
end

