-- ==== Sys2Proof/Machine/InitRecovery.lean ====
section
/-! DEFINITION. The InitSequencer and the UnblockRecovery (43_init_recovery.md). -/

namespace Sys2Proof.Machine

open Sys2Proof

/-- The status polls of `init()` (R241), `left` of them allowed: a delay before each, the first included (D9). -/
def initPolls : Nat → M (Option OpErr)
  | 0 => return some .hardwareFault
  | left + 1 => do
      delayUs Config.initDelayUs
      let s ← readRegister .stat
      if s = Config.statIdle then return none else initPolls left

/-- `init()` with a given retry budget (R241); a budget of 0 is refused (D9). -/
def initWith (retries : Nat) : M (Option OpErr) :=
  if retries = 0 then M.refuse .zeroRetries
  else do
    writeRegister .ctl Config.ctlEnab
    writeRegister .rst Config.rstData
    initPolls retries

/-- `init()` (R241). -/
def init : M (Option OpErr) := initWith Config.initRetries

/-- The pulses of `unblock()` (R250): "drive low, settle, drive high/toggle, settle". -/
def pulses : Nat → M Unit
  | 0 => return ()
  | left + 1 => do
      writeRawAs true Config.rawPulseLow
      delayUs Config.settleUs
      writeRawAs true Config.rawPulseHigh
      delayUs Config.settleUs
      pulses left

/-- `unblock()` (R250): nine pulses, the stop-condition pulse, the idle pattern. -/
def unblock : M Unit := do
  pulses Config.recoveryPulses
  writeRawAs true Config.rawStop1
  delayUs Config.settleUs
  writeRawAs true Config.rawStop2
  delayUs Config.settleUs
  writeRawAs true Config.rawIdle

/-- `init() -> ok | HardwareFault` (R241). -/
def execInit (s : State) : Host.Outcome State Fault Refusal := finish .status init s

/-- `unblock() -> ()` (R250). -/
def execUnblock (s : State) : Host.Outcome State Fault Refusal := finish (fun _ => .unit) unblock s

end Sys2Proof.Machine
end

