-- ==== Sys2Proof/Machine/Transfer.lean ====
section
/-! DEFINITION. The TransferEngine (44_transfer_engine.md): START, STOP, messages and the batch. -/

namespace Sys2Proof.Machine

open Sys2Proof

/-- `phase <- ERROR; raise e` (R270). -/
def failWith (e : OpErr) : M (Option OpErr) := do
  assign (.phase .error)
  return some e

/-- The status check of a class (R341): `phase <- ERROR; raise ProtocolError(class, s)` on an unexpected status, else the
phase and what follows. -/
def checkStatus (c : StatusClass) (s : Byte) (onOk : M (Option OpErr)) : M (Option OpErr) :=
  if c.accepts s then onOk else failWith (.protocol c s)

/-- The end of `start()` (R271): the status must be START or REPEATED_START. -/
def startCheck : M (Option OpErr) := do
  let s ← readRegister .stat
  checkStatus .start s do
    assign (.phase .startSent)
    return none

/-- `start()` (R271). -/
def start : M (Option OpErr) := do
  writeRegister .ctl (Config.ctlEnab ||| Config.ctlSta)
  match ← wait with
  | none => startCheck
  | some e => do
      let s ← readRegister .stat
      if s = Config.statIdle then do
        unblock
        writeRegister .ctl (Config.ctlEnab ||| Config.ctlSta)
        match ← wait with
        | none => startCheck
        | some _ => failWith e
      else failWith e

/-- `stop()` (R275): no wait between the CTL write and the status read (R391). -/
def stop : M (Option OpErr) := do
  writeRegister .ctl (Config.ctlEnab ||| Config.ctlStp)
  assign (.phase .stopSent)
  let s ← readRegister .stat
  checkStatus .idle s do
    assign (.phase .idle)
    return none

/-- The phase after the status check before byte `i` (R270). -/
def ackPhase (i : Nat) : Phase := if i = 0 then .addressAcked else .dataAcked

/-- `try wait()`, then what follows (R270). -/
def tryWait (next : M (Option OpErr)) : M (Option OpErr) := do
  match ← wait with
  | some e => failWith e
  | none => next

/-- The byte loop of `write_message` from byte `i` on (R280). -/
def sendBytes : Nat → List Byte → M (Option OpErr)
  | _, [] => return none
  | i, b :: rest => do
      let s ← readRegister .stat
      checkStatus .tx s do
        assign (.phase (ackPhase i))
        writeRegister .data b
        writeRegister .ctl Config.ctlEnab
        tryWait (sendBytes (i + 1) rest)

/-- `write_message(address, payload)` (R280). -/
def writeMessage (address : Addr7) (payload : List Byte) : M (Option OpErr) := do
  match ← start with
  | some e => failWith e
  | none => do
      writeRegister .data (addrByte address .write)
      writeRegister .ctl Config.ctlEnab
      tryWait (sendBytes 0 payload)

/-- The CTL byte that asks for a byte (R285): acknowledge it when more bytes remain, else signal NAK. -/
def askByte (left : Nat) : Byte := if left = 0 then Config.ctlEnab else Config.ctlEnab ||| Config.ctlAak

/-- The byte loop of `read_message` from byte `i` on, `left` bytes to read (R285). -/
def receiveBytes (k : Nat) : Nat → Nat → M (Option OpErr)
  | _, 0 => return none
  | i, left + 1 => do
      let s ← readRegister .stat
      checkStatus .rx s do
        assign (.phase (ackPhase i))
        writeRegister .ctl (askByte left)
        tryWait do
          let b ← readRegister .data
          assign (.buffer k i b)
          receiveBytes k (i + 1) left

/-- `read_message(address, buffer)` into the caller's buffer `k` of `len` bytes (R285): `length <- len(buffer)` first. A
zero-length read fails before any register access and leaves the phase. -/
def readMessage (k : Nat) (address : Addr7) (len : Nat) : M (Option OpErr) := do
  assign .working
  if len = 0 then return some .invalidArgument
  else do
    match ← start with
    | some e => failWith e
    | none => do
        writeRegister .data (addrByte address .read)
        writeRegister .ctl Config.ctlEnab
        tryWait (receiveBytes k 0 len)

/-- A message of a batch, dispatched by direction (R290). -/
def message (k : Nat) (m : Message) : M (Option OpErr) :=
  match m.direction with
  | .write => writeMessage m.address m.buffer
  | .read => readMessage k m.address m.buffer.length

/-- The messages of a batch in order, `count` done so far, up to the first error (R290): `err <- r` where a message fails,
`count <- count + 1` where it does not. -/
def messages : Nat → List Message → M (Nat × Option OpErr)
  | count, [] => return (count, none)
  | count, m :: ms => do
      match ← message count m with
      | some e => do
          assign .working
          return (count, some e)
      | none => do
          assign .working
          messages (count + 1) ms

/-- "stop never supersedes a pending error" (R290). -/
def batchError (err stopErr : Option OpErr) : Option OpErr :=
  match err with
  | some e => some e
  | none => stopErr

/-- `if err = none and rs is an error: err <- rs` (R290). -/
def reportStop (err stopErr : Option OpErr) : M Unit :=
  if err = none ∧ stopErr ≠ none then assign .working else return ()

/-- `execute_batch(messages)`, the engine part (R290): `count <- 0`, `err <- none`, the messages, and `stop()` always, exactly
once. -/
def runBatch (msgs : List Message) : M (Nat × Option OpErr) := do
  assign .working
  assign .working
  let (count, err) ← messages 0 msgs
  let rs ← stop
  reportStop err rs
  return (count, batchError err rs)

/-- The caller's buffers of an operation (R70, R86). -/
def State.withBuffers (bufs : List (List Byte)) (s : State) : State := { s with buffers := bufs }

/-- `start() -> ok | Timeout | ProtocolError` (R271). -/
def execStart (s : State) : Host.Outcome State Fault Refusal := finish .status start s

/-- `stop() -> ok | ProtocolError` (R275). -/
def execStop (s : State) : Host.Outcome State Fault Refusal := finish .status stop s

/-- `write_message(address, payload) -> ok | Timeout | ProtocolError` (R280). -/
def execWriteMessage (address : Addr7) (payload : List Byte) (s : State) : Host.Outcome State Fault Refusal :=
  match tooLong [payload] with
  | some r => .refused r
  | none => finish .status (writeMessage address payload) (s.withBuffers [payload])

/-- `read_message(address, buffer) -> ok | Timeout | ProtocolError | InvalidArgument` (R285). -/
def execReadMessage (address : Addr7) (buffer : List Byte) (s : State) : Host.Outcome State Fault Refusal :=
  match tooLong [buffer] with
  | some r => .refused r
  | none => finish .status (readMessage 0 address buffer.length) (s.withBuffers [buffer])

/-- `execute_batch(messages) -> (completed_count, none | error)`, the engine part (R290). -/
def execExecuteBatchEngine (msgs : List Message) (s : State) : Host.Outcome State Fault Refusal :=
  match tooLong (msgs.map Message.buffer) with
  | some r => .refused r
  | none => finish (fun r => .batch r.1 r.2) (runBatch msgs) (s.withBuffers (msgs.map Message.buffer))

end Sys2Proof.Machine
end

