-- ==== Sys2Proof/Machine/CallSurface.lean ====
section
/-! DEFINITION. The call surface (45_call_surface.md): `open`, the exposed `execute_batch`, `close`. -/

namespace Sys2Proof.Machine

open Sys2Proof

/-- `open` after its checks (R320, R384): the Controller, init, the clock, and then the Controller is open. -/
def openWith (target window irqLine sys : Nat) : M (Option OpErr) := do
  assign (.controller target window irqLine sys)
  match ← init with
  | some e => return some e
  | none => do
      setClock
      assign (.isOpen true)
      assign (.phase .idle)
      return none

/-- The exposed `execute_batch` after its checks (R321). -/
def batchCall (msgs : List Message) : M (Nat × Option OpErr) := do
  assign (.inBatch true)
  let r ← runBatch msgs
  assign (.inBatch false)
  return r

/-- `close` after its checks (R322): "disables the interrupt-enable bit and releases no other software state". -/
def closeCall : M Unit := do
  disable
  assign (.isOpen false)

/-- Why a call on the controller is refused (R321, R322), if it is. -/
def notUsable (s : State) : Option Refusal :=
  if s.controller.isOpen = false then some .closedController
  else if Config.exclusive && s.controller.inBatch then some .batchRunning
  else none

/-- Why the exposed `execute_batch` is refused (R321, R8), if it is. -/
def notRunnable (msgs : List Message) (s : State) : Option Refusal :=
  match notUsable s with
  | some r => some r
  | none => tooLong (msgs.map Message.buffer)

/-- Why `open` is refused, if it is: target 0 (R320, D14); a batch of this controller running, since "`open`,
`execute_batch` and `close` of one controller never overlap" (R323); a controller that is open, since "a new frequency needs
`close` and a new `open`" (R218). -/
def notOpenable (target : Nat) (s : State) : Option Refusal :=
  if target = 0 then some .zeroTarget
  else if Config.exclusive && s.controller.inBatch then some .batchRunning
  else if s.controller.isOpen then some .controllerOpen
  else none

/-- `open(target_frequency, register_window, interrupt_line, system_clock_rate) -> Controller | HardwareFault` (R320); the
Controller is `State.controller`. -/
def execOpenController (target window irqLine sys : Nat) (s : State) : Host.Outcome State Fault Refusal :=
  match notOpenable target s with
  | some r => .refused r
  | none => finish .status (openWith target window irqLine sys) s

/-- `execute_batch(Controller, messages) -> (completed_count, Result)` (R321). -/
def execExecuteBatch (msgs : List Message) (s : State) : Host.Outcome State Fault Refusal :=
  match notRunnable msgs s with
  | some r => .refused r
  | none => finish (fun r => .batch r.1 r.2) (batchCall msgs) (s.withBuffers (msgs.map Message.buffer))

/-- `close(Controller) -> ()` (R322). -/
def execClose (s : State) : Host.Outcome State Fault Refusal :=
  match notUsable s with
  | some r => .refused r
  | none => finish (fun _ => .unit) closeCall s

end Sys2Proof.Machine
end

