-- ==== Sys2Proof/Machine/Dispatch.lean ====
section
/-! DEFINITION. The meaning of every operation: one arm per constructor of `Instr`, one direct call each. -/

namespace Sys2Proof.Machine

open Sys2Proof

def exec (i : Instr) (s : State) : Host.Outcome State Fault Refusal :=
  match i with
  | .wrregThp b => Sys2Proof.Machine.execWrregThp b s
  | .wrregData b => Sys2Proof.Machine.execWrregData b s
  | .wrregCtl b => Sys2Proof.Machine.execWrregCtl b s
  | .wrregClkctl b => Sys2Proof.Machine.execWrregClkctl b s
  | .wrregRst b => Sys2Proof.Machine.execWrregRst b s
  | .rdregData => Sys2Proof.Machine.execRdregData s
  | .rdregCtl => Sys2Proof.Machine.execRdregCtl s
  | .rdregStat => Sys2Proof.Machine.execRdregStat s
  | .wrraw v => Sys2Proof.Machine.execWrraw v s
  | .writeRegister sel b => Sys2Proof.Machine.execWriteRegister sel b s
  | .readRegister sel => Sys2Proof.Machine.execReadRegister sel s
  | .writeRaw v => Sys2Proof.Machine.execWriteRaw v s
  | .delay us => Sys2Proof.Machine.execDelay us s
  | .enable => Sys2Proof.Machine.execEnable s
  | .disable => Sys2Proof.Machine.execDisable s
  | .ready => Sys2Proof.Machine.execReady s
  | .wait => Sys2Proof.Machine.execWait s
  | .irqHandler => Sys2Proof.Machine.execIrqHandler s
  | .clockSearch target sys => Sys2Proof.Machine.execClockSearch target sys s
  | .setClock => Sys2Proof.Machine.execSetClock s
  | .init => Sys2Proof.Machine.execInit s
  | .unblock => Sys2Proof.Machine.execUnblock s
  | .start => Sys2Proof.Machine.execStart s
  | .stop => Sys2Proof.Machine.execStop s
  | .writeMessage address payload => Sys2Proof.Machine.execWriteMessage address payload s
  | .readMessage address buffer => Sys2Proof.Machine.execReadMessage address buffer s
  | .executeBatchEngine msgs => Sys2Proof.Machine.execExecuteBatchEngine msgs s
  | .openController target window irqLine sys => Sys2Proof.Machine.execOpenController target window irqLine sys s
  | .executeBatch msgs => Sys2Proof.Machine.execExecuteBatch msgs s
  | .close => Sys2Proof.Machine.execClose s

end Sys2Proof.Machine
end

