-- ==== Sys2Proof/Machine/Engine.lean ====
section
/-! DEFINITION. The ENGINE one primitive statement at a time (R32): "its position in the pseudocode of the operation it is
running (a continuation): each step executes one primitive statement". The operations are those of Port, Completion, Clock,
InitRecovery, Transfer and CallSurface; an obligation states that a run of these steps and the meaning of the operation
agree. -/

namespace Sys2Proof.Machine

open Sys2Proof

/-! ### Beginning an operation: its first statement, with what remains after it -/

/-- Stand at a statement. -/
def State.standAt (st : Stmt) (ks : List Kont) (s : State) : State := { s with thread := some ⟨st, ks⟩ }

/-- Begin `write_register(sel, b)` (R140). -/
def beginWrite (sel : Selector) (b : Byte) (ks : List Kont) : State → State :=
  State.standAt (.winWrite Config.offCmd (writeCommand sel b) false) (.writePoll :: ks)

/-- Begin `read_register(sel)` (R141). -/
def beginRead (sel : Selector) (ks : List Kont) : State → State :=
  State.standAt (.winWrite Config.offCmd (readCommand sel) false) (.readPoll :: ks)

/-- Begin `write_raw(v)` (R142). -/
def beginRaw (recovery : Bool) (v : Word) (ks : List Kont) : State → State :=
  State.standAt (.winWrite Config.offRaw v recovery) (.rawReadback :: ks)

/-- Begin `Delay(us)` (R77). -/
def beginDelay (us : Nat) (ks : List Kont) : State → State := State.standAt (.delay us) ks

/-- Begin `enable()` (R180). -/
def beginEnable (ks : List Kont) : State → State := beginRaw false Config.rawIeSet ks

/-- Begin `disable()` (R181). -/
def beginDisable (ks : List Kont) : State → State := beginRaw false Config.rawIeClr ks

/-- Begin `ready()` (R182). -/
def beginReady (ks : List Kont) : State → State := beginRead .ctl (.readyTest :: ks)

/-- Begin `wait()` (R183). -/
def beginWait (ks : List Kont) : State → State := beginEnable (.waitBlock :: ks)

/-- Stand at an assignment (R11). -/
def beginAssign (a : Assign) (ks : List Kont) : State → State := State.standAt (.assign a) ks

/-- Begin `clock_search(target, sys)` (R213). -/
def beginSearch (target sys : Nat) (ks : List Kont) : State → State :=
  beginAssign .working (.search target sys .best :: ks)

/-- Begin `set_clock()` (R214). -/
def beginSetClock (ks : List Kont) (s : State) : State :=
  beginSearch s.controller.targetFrequency s.controller.systemClockRate (.clockFound :: ks) s

/-- Begin `init()` with a given retry budget (R241). -/
def beginInit (retries : Nat) (ks : List Kont) (s : State) : Except Stop State :=
  if retries = 0 then .error (.refused .zeroRetries)
  else .ok (beginWrite .ctl Config.ctlEnab (.initReset :: .initNext retries :: ks) s)

/-- Begin the pulses of `unblock()`, or its stop-condition pulse when none is left (R250). -/
def beginPulses (left : Nat) (ks : List Kont) : State → State :=
  match left with
  | 0 => beginRaw true Config.rawStop1 (.unblockStop1 :: ks)
  | n + 1 => beginRaw true Config.rawPulseLow (.pulseLow n :: ks)

/-- Begin `unblock()` (R250). -/
def beginUnblock (ks : List Kont) : State → State := beginPulses Config.recoveryPulses ks

/-- Begin `start()` (R271). -/
def beginStart (ks : List Kont) : State → State :=
  beginWrite .ctl (Config.ctlEnab ||| Config.ctlSta) (.startWait :: ks)

/-- Begin `stop()` (R275). -/
def beginStop (ks : List Kont) : State → State :=
  beginWrite .ctl (Config.ctlEnab ||| Config.ctlStp) (.stopWritten :: ks)

/-- Begin `write_message(address, payload)` (R280). -/
def beginWriteMessage (address : Addr7) (payload : List Byte) (ks : List Kont) : State → State :=
  beginStart (.txStarted address payload :: ks)

/-- Begin `read_message` (R285): `length <- len(buffer)`. -/
def beginReadMessage (k : Nat) (address : Addr7) (len : Nat) (ks : List Kont) : State → State :=
  beginAssign .working (.rxLength k address len :: ks)

/-- Go on with a batch (R290): the next message, or `stop()` when none is left. -/
def beginMessages (count : Nat) (rest : List Message) (ks : List Kont) : State → State :=
  match rest with
  | [] => beginStop (.batchStopped count none :: ks)
  | m :: ms =>
      match m.direction with
      | .write => beginWriteMessage m.address m.buffer (.batchNext count ms :: ks)
      | .read => beginReadMessage count m.address m.buffer.length (.batchNext count ms :: ks)

/-- Begin `execute_batch(messages)`, the engine part (R290): `count <- 0`. -/
def beginBatch (msgs : List Message) (ks : List Kont) : State → State :=
  beginAssign .working (.batchCount msgs :: ks)

/-! ### Returning a value to what remains -/

/-- What a continuation does with the value it was waiting for: begin the next statement (`go`), or return a value to the
continuation around it (`ret`). -/
inductive Next where
  | go (s : State)
  | ret (r : Ret) (s : State)
  deriving DecidableEq, Repr

/-- The continuation asked for a value its callee did not return (R31). -/
def unwritten : Except Stop Next := .error (.fault .readBeforeWrite)

/-- An assignment, and then the status `r` returned. -/
def assignThen (a : Assign) (r : Option OpErr) (ks : List Kont) (s : State) : Except Stop Next :=
  .ok (.go (beginAssign a (.giveStatus r :: ks) s))

/-- `phase <- ERROR; raise e` (R270). -/
def raiseError (e : OpErr) (ks : List Kont) (s : State) : Except Stop Next := assignThen (.phase .error) (some e) ks s

/-- Return success. -/
def returnOk (s : State) : Except Stop Next := .ok (.ret (.status none) s)

/-- Go on with `write_message` before byte `i` (R280). -/
def txLoop (i : Nat) (rest : List Byte) (ks : List Kont) (s : State) : Except Stop Next :=
  match rest with
  | [] => returnOk s
  | b :: bs => .ok (.go (beginRead .stat (.txTest i b bs :: ks) s))

/-- Go on with `read_message` before byte `i` (R285). -/
def rxLoop (k i left : Nat) (ks : List Kont) (s : State) : Except Stop Next :=
  match left with
  | 0 => returnOk s
  | n + 1 => .ok (.go (beginRead .stat (.rxTest k i n :: ks) s))

/-- Go on with `init` (R241). -/
def initLoop (left : Nat) (ks : List Kont) (s : State) : Except Stop Next :=
  match left with
  | 0 => .ok (.ret (.status (some .hardwareFault)) s)
  | n + 1 => .ok (.go (beginDelay Config.initDelayUs (.initRead n :: ks) s))

/-- One continuation, given the value it waited for; `ks` is what remains around it. -/
def continueWith (k : Kont) (v : Ret) (ks : List Kont) (s : State) : Except Stop Next :=
  match k, v with
  -- RegisterPort
  | .writePoll, _ => .ok (.go (s.standAt .poll (.writeDone :: ks)))
  | .writeDone, _ => .ok (.ret .unit s)
  | .readPoll, _ => .ok (.go (s.standAt .poll ks))
  | .rawReadback, _ => .ok (.go (s.standAt .readback ks))
  -- CompletionWaiter
  | .readyTest, .byte b => .ok (.ret (.bool (ctlReady b)) s)
  | .waitBlock, _ => .ok (.go (s.standAt .block (.waitWoken :: ks)))
  | .waitWoken, .bool true => .ok (.go (beginReady (.waitReady :: ks) s))
  | .waitWoken, .bool false => .ok (.go (beginDisable (.giveStatus (some .timeout) :: ks) s))
  | .waitReady, .bool true => .ok (.go (beginDisable (.giveStatus none :: ks) s))
  | .waitReady, .bool false => .ok (.go (s.standAt .block (.waitWoken :: ks)))
  | .giveStatus r, _ => .ok (.ret (.status r) s)
  -- ClockProgrammer
  | .search target sys p, _ =>
      match searchStep target sys p with
      | .inl q => .ok (.go (beginAssign .working (.search target sys q :: ks) s))
      | .inr best => .ok (.ret (.clock best) s)
  | .clockFound, .clock p => .ok (.go (beginWrite .thp (thpByte p.thp) (.clockThp p :: ks) s))
  | .clockThp p, _ => .ok (.go (beginWrite .clkctl (clkByte p.mdiv p.ndiv) (.clockCtl p :: ks) s))
  | .clockCtl p, _ => .ok (.go (beginAssign (.params p) ks s))
  -- InitSequencer
  | .initReset, _ => .ok (.go (beginWrite .rst Config.rstData ks s))
  | .initNext left, _ => initLoop left ks s
  | .initRead left, _ => .ok (.go (beginRead .stat (.initTest left :: ks) s))
  | .initTest left, .byte b => if b = Config.statIdle then returnOk s else initLoop left ks s
  -- UnblockRecovery
  | .pulseLow n, _ => .ok (.go (beginDelay Config.settleUs (.pulseSettle n :: ks) s))
  | .pulseSettle n, _ => .ok (.go (beginRaw true Config.rawPulseHigh (.pulseHigh n :: ks) s))
  | .pulseHigh n, _ => .ok (.go (beginDelay Config.settleUs (.pulseEnd n :: ks) s))
  | .pulseEnd n, _ => .ok (.go (beginPulses n ks s))
  | .unblockStop1, _ => .ok (.go (beginDelay Config.settleUs (.unblockSettle1 :: ks) s))
  | .unblockSettle1, _ => .ok (.go (beginRaw true Config.rawStop2 (.unblockStop2 :: ks) s))
  | .unblockStop2, _ => .ok (.go (beginDelay Config.settleUs (.unblockSettle2 :: ks) s))
  | .unblockSettle2, _ => .ok (.go (beginRaw true Config.rawIdle ks s))
  -- TransferEngine: start
  | .startWait, _ => .ok (.go (beginWait (.startWaited :: ks) s))
  | .startWaited, .status none => .ok (.go (beginRead .stat (.startTest :: ks) s))
  | .startWaited, .status (some _) => .ok (.go (beginRead .stat (.startDecide :: ks) s))
  | .startDecide, .byte b =>
      if b = Config.statIdle then .ok (.go (beginUnblock (.startRecovered :: ks) s)) else raiseError .timeout ks s
  | .startRecovered, _ =>
      .ok (.go (beginWrite .ctl (Config.ctlEnab ||| Config.ctlSta) (.startRewait :: ks) s))
  | .startRewait, _ => .ok (.go (beginWait (.startRewaited :: ks) s))
  | .startRewaited, .status none => .ok (.go (beginRead .stat (.startTest :: ks) s))
  | .startRewaited, .status (some _) => raiseError .timeout ks s
  | .startTest, .byte b =>
      if StatusClass.start.accepts b then assignThen (.phase .startSent) none ks s
      else raiseError (.protocol .start b) ks s
  -- TransferEngine: stop
  | .stopWritten, _ => .ok (.go (beginAssign (.phase .stopSent) (.stopRead :: ks) s))
  | .stopRead, _ => .ok (.go (beginRead .stat (.stopTest :: ks) s))
  | .stopTest, .byte b =>
      if StatusClass.idle.accepts b then assignThen (.phase .idle) none ks s
      else raiseError (.protocol .idle b) ks s
  -- TransferEngine: write_message
  | .txStarted _ _, .status (some e) => raiseError e ks s
  | .txStarted a p, .status none => .ok (.go (beginWrite .data (addrByte a .write) (.txAddressed p :: ks) s))
  | .txAddressed p, _ => .ok (.go (beginWrite .ctl Config.ctlEnab (.txSent 0 p :: ks) s))
  | .txSent i rest, _ => .ok (.go (beginWait (.txWaited i rest :: ks) s))
  | .txWaited _ _, .status (some e) => raiseError e ks s
  | .txWaited i rest, .status none => txLoop i rest ks s
  | .txTest i b rest, .byte st =>
      if StatusClass.tx.accepts st then .ok (.go (beginAssign (.phase (ackPhase i)) (.txChecked i b rest :: ks) s))
      else raiseError (.protocol .tx st) ks s
  | .txChecked i b rest, _ => .ok (.go (beginWrite .data b (.txLoaded i rest :: ks) s))
  | .txLoaded i rest, _ => .ok (.go (beginWrite .ctl Config.ctlEnab (.txSent (i + 1) rest :: ks) s))
  -- TransferEngine: read_message
  | .rxLength k a len, _ =>
      if len = 0 then .ok (.ret (.status (some .invalidArgument)) s)
      else .ok (.go (beginStart (.rxStarted k a len :: ks) s))
  | .rxStarted _ _ _, .status (some e) => raiseError e ks s
  | .rxStarted k a len, .status none => .ok (.go (beginWrite .data (addrByte a .read) (.rxAddressed k len :: ks) s))
  | .rxAddressed k len, _ => .ok (.go (beginWrite .ctl Config.ctlEnab (.rxSent k len :: ks) s))
  | .rxSent k len, _ => .ok (.go (beginWait (.rxAddrWaited k len :: ks) s))
  | .rxAddrWaited _ _, .status (some e) => raiseError e ks s
  | .rxAddrWaited k len, .status none => rxLoop k 0 len ks s
  | .rxTest k i left, .byte st =>
      if StatusClass.rx.accepts st then .ok (.go (beginAssign (.phase (ackPhase i)) (.rxChecked k i left :: ks) s))
      else raiseError (.protocol .rx st) ks s
  | .rxChecked k i left, _ => .ok (.go (beginWrite .ctl (askByte left) (.rxAsked k i left :: ks) s))
  | .rxAsked k i left, _ => .ok (.go (beginWait (.rxWaited k i left :: ks) s))
  | .rxWaited _ _ _, .status (some e) => raiseError e ks s
  | .rxWaited k i left, .status none => .ok (.go (beginRead .data (.rxByte k i left :: ks) s))
  | .rxByte k i left, .byte b => .ok (.go (beginAssign (.buffer k i b) (.rxStored k i left :: ks) s))
  | .rxStored k i left, _ => rxLoop k (i + 1) left ks s
  -- TransferEngine: the batch
  | .batchCount msgs, _ => .ok (.go (beginAssign .working (.batchLoop 0 msgs :: ks) s))
  | .batchLoop count rest, _ => .ok (.go (beginMessages count rest ks s))
  | .batchNext count _, .status (some e) => .ok (.go (beginAssign .working (.batchFailed count e :: ks) s))
  | .batchNext count rest, .status none => .ok (.go (beginAssign .working (.batchLoop (count + 1) rest :: ks) s))
  | .batchFailed count e, _ => .ok (.go (beginStop (.batchStopped count (some e) :: ks) s))
  | .batchStopped count err, .status rs =>
      if err = none ∧ rs ≠ none then .ok (.go (beginAssign .working (.giveBatch count rs :: ks) s))
      else .ok (.ret (.batch count err) s)
  | .giveBatch count err, _ => .ok (.ret (.batch count err) s)
  -- Call surface
  | .openCreated, _ => (beginInit Config.initRetries (.openInited :: ks) s).map .go
  | .openInited, .status (some e) => .ok (.ret (.status (some e)) s)
  | .openInited, .status none => .ok (.go (beginSetClock (.openClocked :: ks) s))
  | .openClocked, _ => .ok (.go (beginAssign (.isOpen true) (.openMarked :: ks) s))
  | .openMarked, _ => assignThen (.phase .idle) none ks s
  | .xferBegin msgs, _ => .ok (.go (beginBatch msgs (.xferDone :: ks) s))
  | .xferDone, .batch count err => .ok (.go (beginAssign (.inBatch false) (.giveBatch count err :: ks) s))
  | .closeDone, _ => .ok (.go (beginAssign (.isOpen false) ks s))
  -- a working variable that was not written (R31)
  | .readyTest, _ | .waitWoken, _ | .waitReady, _ | .initTest _, _ | .startWaited, _ | .startDecide, _
  | .startRewaited, _ | .startTest, _ | .stopTest, _ | .txStarted _ _, _ | .txWaited _ _, _ | .txTest _ _ _, _
  | .rxStarted _ _ _, _ | .rxAddrWaited _ _, _ | .rxTest _ _ _, _ | .rxWaited _ _ _, _ | .rxByte _ _ _, _
  | .batchNext _ _, _ | .batchStopped _ _, _ | .openInited, _ | .clockFound, _ | .xferDone, _ => unwritten

/-- Return a value to the continuations, innermost first, until one begins a statement; when none is left the operation
ends and its result goes to its invoker (R32). -/
def returnTo : List Kont → Ret → State → Except Stop State
  | [], v, s => .ok { s with thread := none, result := some v }
  | k :: ks, v, s =>
      match continueWith k v ks s with
      | .error e => .error e
      | .ok (.go t) => .ok t
      | .ok (.ret r t) => returnTo ks r t

/-! ### The ENGINE's steps -/

/-- The ENGINE runs the statement it stands at; a read that must hold, or a `Block()` with no completion, is a hold and
changes nothing (R14, R73, R184). -/
def engineStep (s : State) : Except Stop State :=
  match s.thread with
  | none => .ok s
  | some th =>
      match th.stmt with
      | .winWrite off w recovery => (post off w recovery s).bind (returnTo th.konts .unit)
      | .readback =>
          if s.posted = [] then (readWindow Config.offRaw s).bind fun r => returnTo th.konts .unit r.2 else .ok s
      | .poll =>
          if s.posted = [] then
            (readWindow Config.offCmd s).bind fun r =>
              if cmdValid r.1 then .ok r.2 else returnTo th.konts (.byte (lowByte r.1)) r.2
          else .ok s
      | .delay us => returnTo th.konts .unit (s.record (.delay us))
      | .block => if s.controller.completion then returnTo th.konts (.bool true) s.consume else .ok s
      | .assign a => returnTo th.konts .unit (a.apply s)

/-- ENV's timeout step (R184): enabled at every point of a `Block()`, and nowhere else. -/
def timeoutStep (s : State) : Except Stop State :=
  match s.thread with
  | some ⟨.block, ks⟩ => returnTo ks (.bool false) s
  | _ => .ok s

/-- The fair environment once no listed turn is left (assumption 2): what the ENGINE's statement waits for happens, then the
statement. With no operation running, ENV drains, the PORT completes and the IRQ agent serves the line. -/
def fairStep (s : State) : Except Stop State :=
  match s.thread with
  | none =>
      if s.posted ≠ [] then drainStep s
      else if s.port.busy then portStep s
      else if s.irqRunning || s.irqMayEnter then irqStep s
      else .ok s
  | some th =>
      match th.stmt with
      | .winWrite _ _ _ => engineStep s
      | .readback => if s.posted ≠ [] then drainStep s else engineStep s
      | .poll => if s.posted ≠ [] then drainStep s else if s.port.busy then portStep s else engineStep s
      | .delay _ | .assign _ => engineStep s
      | .block => if s.controller.completion then engineStep s else timeoutStep s

/-! ### Calls -/

/-- Begin an operation called by name (R112), with the checks of its rule. The encoded forms have no call form. -/
def beginOp (i : Instr) (s : State) : Except Stop State :=
  match i with
  | .writeRegister sel b =>
      if registerByteLegal sel b then .ok (beginWrite sel b [] s) else .error (.refused (reservedByte sel b))
  | .readRegister sel =>
      if readable sel then .ok (beginRead sel [] s) else .error (.refused (.unreadableSelector sel))
  | .writeRaw v =>
      if rawPatternLegal v then .ok (beginRaw false v [] s) else .error (.refused (.reservedRawPattern v))
  | .delay us => .ok (beginDelay us [] s)
  | .enable => .ok (beginEnable [] s)
  | .disable => .ok (beginDisable [] s)
  | .ready => .ok (beginReady [] s)
  | .wait => .ok (beginWait [] s)
  | .irqHandler => .ok (irqEnter s)
  | .clockSearch target sys =>
      if target = 0 then .error (.refused .zeroTarget)
      else .ok (beginSearch target sys [] s)
  | .setClock =>
      if s.controller.targetFrequency = 0 then .error (.refused .zeroTarget) else .ok (beginSetClock [] s)
  | .init => beginInit Config.initRetries [] s
  | .unblock => .ok (beginUnblock [] s)
  | .start => .ok (beginStart [] s)
  | .stop => .ok (beginStop [] s)
  | .writeMessage a p =>
      match tooLong [p] with
      | some r => .error (.refused r)
      | none => .ok (beginWriteMessage a p [] (s.withBuffers [p]))
  | .readMessage a b =>
      match tooLong [b] with
      | some r => .error (.refused r)
      | none => .ok (beginReadMessage 0 a b.length [] (s.withBuffers [b]))
  | .executeBatchEngine ms =>
      match tooLong (ms.map Message.buffer) with
      | some r => .error (.refused r)
      | none => .ok (beginBatch ms [] (s.withBuffers (ms.map Message.buffer)))
  | .openController target window irqLine sys =>
      match notOpenable target s with
      | some r => .error (.refused r)
      | none => .ok (beginAssign (.controller target window irqLine sys) [.openCreated] s)
  | .executeBatch ms =>
      match notRunnable ms s with
      | some r => .error (.refused r)
      | none => .ok (beginAssign (.inBatch true) [.xferBegin ms] (s.withBuffers (ms.map Message.buffer)))
  | .close =>
      match notUsable s with
      | some r => .error (.refused r)
      | none => .ok (beginDisable [.closeDone] s)
  | .wrregThp _ | .wrregData _ | .wrregCtl _ | .wrregClkctl _ | .wrregRst _ | .rdregData | .rdregCtl | .rdregStat
  | .wrraw _ => .error (.refused .badCall)

/-- A call arrives (R112): it begins if no operation runs, and is refused otherwise (R323). -/
def callStep (c : Call) (s : State) : Except Stop State :=
  if s.thread = none then
    match decodeCall c with
    | .ok i => beginOp i s
    | .error _ => .error (.refused .badCall)
  else callWhileBusy c s

/-- The next listed turn, whoever's it is (R4). -/
def takeMove (m : Move) (s : State) : Except Stop State :=
  match m with
  | .engine => engineStep s
  | .timeout => timeoutStep s
  | .call c => callStep c s
  | .drain => drainStep s
  | .port => portStep s
  | .coreProgress => .ok (coreProgress s)
  | .coreComplete => .ok (coreComplete s)
  | .irq => irqStep s
  | .attach => .ok { s with handlerAttached := true }
  | .hostWrite off width w => memWrite off width w s
  | .hostRead off width => hostReadStep off width s

/-- The next step of the machine: the first listed turn, or the fair environment's when none is listed. -/
def nextStep (s : State) : Except Stop State :=
  match s.moves with
  | [] => fairStep s
  | m :: ms => takeMove m (s.withMoves ms)

end Sys2Proof.Machine
end

