-- ==== Sys2Proof/Machine/Fetch.lean ====
section
/-! DEFINITION. Where a word stands for the next step to run it. There is no instruction memory and no fetch (R32, R70): a
command word runs when the PORT holds it and takes its turn (R150); a pattern runs when it is the oldest posted write and
ENV drains it (R74). -/

namespace Sys2Proof.Machine

open Sys2Proof

/-- `s` with a word placed so that the next step runs it: a word with `V = 1` is in the PORT, busy, and the PORT's turn is
next; any other word is the oldest write posted to RAW and the drain's turn is next. -/
def State.placeWord (w : Word) (s : State) : State :=
  if cmdValid w then
    { s with port := { s.port with busy := true, cmd := w }, moves := .port :: s.moves }
  else { s with posted := ⟨Config.offRaw, w, false⟩ :: s.posted, moves := .drain :: s.moves }

end Sys2Proof.Machine
end

