-- ==== Sys2Proof/Machine/Step.lean ====
section
/-! DEFINITION. The step: one turn of one agent (R4, R32). -/

namespace Sys2Proof.Machine

open Sys2Proof

/-- One step of the machine: a next state, a fault or a refusal. -/
def step (s : State) : Host.Outcome State Fault Refusal := toOutcome (nextStep s)

/-- `s` with the table word `w` of `nbits` bits placed so that the next step runs exactly it (assumption 5). -/
def State.withFetchWord (s : State) (nbits w : Nat) : State := s.placeWord (tableWord nbits w)

end Sys2Proof.Machine
end

