-- ==== Sys2Proof/Machine/Instances.lean ====
section
/-! DEFINITION. Several controller instances side by side (R324, R351): "Distinct controller instances are fully independent
(separate register windows, interrupt lines, completion signals)", so each is a whole `State` and a step is one instance's. -/

namespace Sys2Proof.Machine

open Sys2Proof

/-- Instance `k` takes a step; the outcome is that instance's, and a next state replaces only its own. An index with no
instance takes none. DESIGN CHOICE (assumption 18), unsafe where the numbers are equal: R324 says that two Controllers have
distinct windows and lines, and no rule says what an `open` naming one already in use does; the model compares neither, so
instances opened with equal numbers run as separate devices. DESIGN CHOICE (assumption 3), unsafe for a claim that compares
them: unlisted draws of two instances at the same count are equal words. -/
def stepInstance (k : Nat) (ss : List State) : Host.Outcome (List State) Fault Refusal :=
  match ss[k]? with
  | none => .next ss
  | some s =>
      match step s with
      | .next t => .next (ss.set k t)
      | .fault f => .fault f
      | .refused r => .refused r

end Sys2Proof.Machine
end

