-- ==== Sys2Proof/Safety.lean ====
section
/-! DEFINITION. The terms claims are stated in: what a caller must not do while an operation runs (R323, R392), when an
operation may begin, the command stream (R49), the states the spec admits at power-on (R51), and the invariant of the
machine's own use (R85). -/

namespace Sys2Proof.Machine

open Sys2Proof

/-! ### The other agents' turns -/

/-- A turn that is not the five agents': a call, or another access of software to the window. "software must not start a
second batch, `close`, or any other access on a controller while a batch runs on it" (R392). -/
def Move.outside : Move → Bool
  | .call _ => true
  | .hostWrite _ _ _ => true
  | .hostRead _ _ => true
  | .engine | .drain | .port | .coreProgress | .coreComplete | .irq | .timeout | .attach => false

/-- The command word is one of R104 with a byte the block may write (R104, R111). -/
def commandLegal (w : Word) : Bool :=
  match decodeCmd w with
  | .ok i => i.wellFormed
  | .error _ => false

/-- The entry is a write to CMD. -/
def Posted.isCmd (p : Posted) : Bool := p.off == Config.offCmd

/-- The entry is a write the block issues: a command of R104 at CMD, a pattern of R110 at RAW (R104, R110). -/
def Posted.legal (p : Posted) : Bool :=
  (p.off == Config.offCmd && commandLegal p.word) || (p.off == Config.offRaw && rawPatternLegal p.word)

/-- How many indirect accesses have been issued and not completed (R85). -/
def State.inFlight (s : State) : Nat := s.posted.countP Posted.isCmd + if s.port.busy then 1 else 0

/-- What is posted and what the port holds are the block's own, and at most one indirect access is in flight (R85). -/
def State.flowing (s : State) : Bool :=
  s.posted.all Posted.legal && (!s.port.busy || commandLegal s.port.cmd) && decide (s.inFlight ≤ 1)

/-- Flowing, and only the agents move (R392). -/
def State.calm (s : State) : Bool := s.moves.all (fun m => !m.outside) && s.flowing

/-- When an operation of the ENGINE may begin: calm, with no access in flight (R85, R323, R387). Whatever the agents' turns
and draws to come, and whatever the other registers hold. -/
def State.quiet (s : State) : Bool := s.calm && s.inFlight == 0

/-- The turn `m` is not listed. -/
def State.noTurn (m : Move) (s : State) : Bool := !s.moves.contains m

/-- The CORE has no turn listed. -/
def State.noCore (s : State) : Bool := s.noTurn .coreProgress && s.noTurn .coreComplete

/-- Turns that lead the handler to its signal in a `wait()` begun in `s` with IFLG 1 (R188): the ENGINE posts the enable, the
posted writes drain, the IRQ agent enters (after a return, where it stands at one) and posts its clear, which drains, and it
reads back and signals. Any other turns may stand between them. -/
def State.signalTurns (s : State) : List Move :=
  .engine :: List.replicate (s.posted.length + 1) .drain ++
    List.replicate (if s.irq = .atLeave then 3 else 2) .irq ++ [.drain, .irq, .irq]

/-- The Controller but for its completion signal, which the IRQ agent sets (R45, R46). -/
def Controller.fixed (c : Controller) : Controller := { c with completion := false }

/-- The ENGINE's place, its phase, the caller's buffers and the Controller but for its completion signal are as before. -/
def SameEngine (s t : State) : Prop :=
  t.thread = s.thread ∧ t.phase = s.phase ∧ t.buffers = s.buffers ∧ t.controller.fixed = s.controller.fixed

/-- What is posted at the end of a run from `s` is the IRQ agent's clear, and nothing where it has no turn (R153, R186). -/
def Drained (s t : State) : Prop :=
  (∀ p ∈ t.posted, p = ⟨Config.offRaw, Config.rawIeClr, false⟩) ∧ (s.noTurn .irq = true → t.posted = [])

/-- No pattern was written: where the IRQ agent has no turn and nothing is posted before, IE and RAW are as before. -/
def PatternsKept (s t : State) : Prop :=
  s.noTurn .irq = true → s.posted = [] → t.ie = s.ie ∧ t.raw = s.raw

/-! ### What an access does to the core -/

/-- The registers only commands change, after `write_register(sel, b)` is performed on registers `r` (R143-R147); CTL, THP
and CLKCTL are any value after a reset (R159). -/
def afterWrite (sel : Selector) (b : Byte) (r r' : Byte × Byte × Byte) : Prop :=
  match sel with
  | .thp => r' = (b, r.2.1, r.2.2)
  | .data => r' = r
  | .ctl => r' = (r.1, b, r.2.2)
  | .clkctl => r' = (r.1, r.2.1, b)
  | .stat => r' = (r.1, r.2.1, b)
  | .rst => True

/-- What a performed write does to the core (R143-R147, R155, R159). -/
def writeEffect (sel : Selector) (b : Byte) (c c' : TwsiCore) : Prop :=
  match sel with
  | .thp => c' = { c with thp := b }
  | .data => c' = { c with data := b }
  | .ctl => c' = { c with ctl := b, iflg := false, pending := ctlAction b }
  | .clkctl | .stat => c' = { c with clkctl := b }
  | .rst => c'.data = c.data ∧ c'.stat = c.stat ∧ c'.iflg = false ∧ c'.pending = .reset

/-- What a read at `sel` gives on a core `c` (R148). -/
def readsAs (sel : Selector) (c : TwsiCore) (x : Byte) : Prop :=
  (sel = .data → x = c.data) ∧ (sel = .ctl → ctlReady x = c.iflg) ∧ (sel = .stat ∨ sel = .clkctl → x = c.stat)

/-! ### The command stream (R49) -/

/-- How far a fold of `answers` has got: the command waiting for its answer, and the answers so far. -/
def answerStep (a : Option Word × List (Word × Byte)) (e : Event) : Option Word × List (Word × Byte) :=
  match e with
  | .write off w => if off = Config.offCmd then (some w, a.2) else a
  | .read off v =>
      if off = Config.offCmd ∧ cmdValid v = false then
        match a.1 with
        | some w => (none, a.2 ++ [(w, lowByte v)])
        | none => a
      else a
  | .delay _ => a

/-- The command waiting for its answer, and the answers so far. -/
def answering (h : List Event) : Option Word × List (Word × Byte) := h.foldl answerStep (none, [])

/-- The indirect accesses of a record, oldest first: each command word with the byte of the first read of CMD after it that
saw `CMD_V = 0` (R103, R141, D35). The byte means something for a read command only. -/
def answers (h : List Event) : List (Word × Byte) := (answering h).2

/-- The words written to CMD, oldest first. -/
def cmdWrites (h : List Event) : List Word :=
  h.filterMap fun e => match e with
    | .write off w => if off = Config.offCmd then some w else none
    | .read _ _ | .delay _ => none

/-- The delays, oldest first. -/
def delaysOf (h : List Event) : List Nat :=
  h.filterMap fun e => match e with
    | .delay us => some us
    | .write _ _ | .read _ _ => none

/-- The window writes that reached the device, oldest first. -/
def windowWrites (h : List Event) : List (Nat × Word) :=
  h.filterMap fun e => match e with
    | .write off w => some (off, w)
    | .read _ _ | .delay _ => none

/-- The writes and the delays of a record, oldest first: all but the reads. -/
def notReads (h : List Event) : List Event :=
  h.filter fun e => match e with
    | .read _ _ => false
    | .write _ _ | .delay _ => true

/-- The writes and delays that have happened, then the writes still posted, in the order they were issued (R80). -/
def State.stream (s : State) : List Event := notReads s.history ++ s.posted.map fun p => .write p.off p.word

/-- Between `s` and `t` the indirect accesses were `tr`, and no other command word was written. -/
def Accessed (s t : State) (tr : List (Word × Byte)) : Prop :=
  answers t.history = answers s.history ++ tr ∧ cmdWrites t.history = cmdWrites s.history ++ tr.map Prod.fst

/-- Between `s` and `t` the delays were `ds`. -/
def Delayed (s t : State) (ds : List Nat) : Prop := delaysOf t.history = delaysOf s.history ++ ds

/-! ### What the ENGINE does -/

/-- One thing the ENGINE does: an indirect access, with the byte that answers it; a pattern written to RAW; a delay. -/
inductive Act where
  | access (w : Word) (b : Byte)
  | pattern (v : Word)
  | delay (us : Nat)
  deriving DecidableEq, Repr

/-- The indirect access, if it is one. -/
def Act.access? : Act → Option (Word × Byte)
  | .access w b => some (w, b)
  | .pattern _ | .delay _ => none

/-- The delay, if it is one. -/
def Act.delay? : Act → Option Nat
  | .delay us => some us
  | .access _ _ | .pattern _ => none

/-- The window write or the delay the device sees (R49). -/
def Act.event : Act → Event
  | .access w _ => .write Config.offCmd w
  | .pattern v => .write Config.offRaw v
  | .delay us => .delay us

/-- The indirect accesses, in order. -/
def accessesOf (acts : List Act) : List (Word × Byte) := acts.filterMap Act.access?

/-- The delays, in order. -/
def delaysIn (acts : List Act) : List Nat := acts.filterMap Act.delay?

/-- The window writes and delays, in order. -/
def eventsOf (acts : List Act) : List Event := acts.map Act.event

/-- The write the handler makes (R186). `disable()` of the ENGINE makes the same one (R181). -/
def clearEvent : Event := .write Config.offRaw Config.rawIeClr

/-- What a record gained is the ENGINE's `events` in order, with nothing between them but the handler's clears, and exactly
them where the IRQ agent takes no turn. -/
def Interleaved (irq : Bool) (events added : List Event) : Prop :=
  events.Sublist added ∧ added.filter (fun e => e != clearEvent) = events.filter (fun e => e != clearEvent) ∧
    (irq = false → added = events)

/-- Between `s` and `t` the ENGINE did `acts`: its indirect accesses and its delays are those, and what the window writes and
delays gained is those of `acts`, patterns among them, in that order, with nothing between them but the handler's clears, and
exactly those where the IRQ agent takes no turn. -/
def Acted (s t : State) (acts : List Act) : Prop :=
  Accessed s t (accessesOf acts) ∧ Delayed s t (delaysIn acts) ∧
    ∃ added, t.stream = s.stream ++ added ∧ Interleaved (!s.noTurn .irq) (eventsOf acts) added

/-- Every window write issued so far, oldest first: those that reached the device, then those still posted (R80). -/
def State.issued (s : State) : List (Nat × Word) :=
  windowWrites s.history ++ s.posted.map fun p => (p.off, p.word)

/-- `RDREG CTL` (R104). -/
def readCtl : Word := readCommand .ctl

/-- `RDREG STAT` (R104). -/
def readStat : Word := readCommand .stat

/-- `RDREG DATA` (R104). -/
def readData : Word := readCommand .data

/-- `WRREG CTL, CTL_ENAB|CTL_STA`: a START write (R271). -/
def startWrite : Word := writeCommand .ctl (Config.ctlEnab ||| Config.ctlSta)

/-- `WRREG CTL, CTL_ENAB|CTL_STP`: a STOP write (R275). -/
def stopWrite : Word := writeCommand .ctl (Config.ctlEnab ||| Config.ctlStp)

/-! ### What the ENGINE may do in an operation

Each relation gives, for each result the rule admits, what the ENGINE does in one operation, in order. -/

/-- The answers of the `RDREG CTL` of one `wait()` (R183): for ok, one at least, the last ready and no earlier one; for
`Timeout`, any number, none ready. -/
def waitAnswers (r : Option OpErr) (bs : List Byte) : Prop :=
  match r with
  | none => ∃ before b, bs = before ++ [b] ∧ ctlReady b = true ∧ ∀ x ∈ before, ctlReady x = false
  | some e => e = .timeout ∧ ∀ x ∈ bs, ctlReady x = false

/-- One `wait()` (R183): `enable()`, a `ready()` for each wake, `disable()`. -/
def waitActs (bs : List Byte) : List Act :=
  .pattern Config.rawIeSet :: bs.map (Act.access readCtl) ++ [.pattern Config.rawIeClr]

/-- One `unblock()` (R250): nine pulses, the stop-condition pulse, the idle pattern. -/
def unblockActs : List Act :=
  (List.replicate 9 [Act.pattern Config.rawPulseLow, .delay Config.settleUs, .pattern Config.rawPulseHigh,
    .delay Config.settleUs]).flatten ++
  [.pattern Config.rawStop1, .delay Config.settleUs, .pattern Config.rawStop2, .delay Config.settleUs,
    .pattern Config.rawIdle]

/-- How many recoveries are among `acts`: `RAW_STOP_1` is written once in each and nowhere else (R250). -/
def recoveriesIn (acts : List Act) : Nat := acts.count (.pattern Config.rawStop1)

/-- The result of the status check that ends `start()` (R271, R341). -/
def startVerdict (st : Byte) : Option OpErr :=
  if StatusClass.start.accepts st then none else some (.protocol .start st)

/-- A START write and its wait (R271). -/
def startTryActs (x : Byte) (bs : List Byte) : List Act := .access startWrite x :: waitActs bs

/-- `start()` (R271, R272): result, acts. -/
inductive StartRun : Option OpErr → List Act → Prop
  /-- The first wait succeeds. -/
  | direct {x st bs} : waitAnswers none bs →
      StartRun (startVerdict st) (startTryActs x bs ++ [.access readStat st])
  /-- The first wait fails and the status is not IDLE: no recovery. -/
  | refused {x st bs} : waitAnswers (some .timeout) bs → st ≠ Config.statIdle →
      StartRun (some .timeout) (startTryActs x bs ++ [.access readStat st])
  /-- The first wait fails, the status is IDLE, `unblock()` runs once, and the retry's wait succeeds. -/
  | recovered {x y st bs bs'} : waitAnswers (some .timeout) bs → waitAnswers none bs' →
      StartRun (startVerdict st) (startTryActs x bs ++ [.access readStat Config.statIdle] ++ unblockActs ++
        startTryActs y bs' ++ [.access readStat st])
  /-- The retry's wait fails too: the original `Timeout`. -/
  | failed {x y bs bs'} : waitAnswers (some .timeout) bs → waitAnswers (some .timeout) bs' →
      StartRun (some .timeout) (startTryActs x bs ++ [.access readStat Config.statIdle] ++ unblockActs ++
        startTryActs y bs')

/-- A byte written to DATA, sent, and its wait (R280, R285). -/
def sendActs (b : Byte) (x y : Byte) (bs : List Byte) : List Act :=
  .access (writeCommand .data b) x :: .access (writeCommand .ctl Config.ctlEnab) y :: waitActs bs

/-- The byte loop of `write_message` (R280) over the payload still to send: result, acts. -/
inductive SendRun : List Byte → Option OpErr → List Act → Prop
  /-- Nothing left: the status after the last byte is not checked. -/
  | done : SendRun [] none []
  /-- An unexpected status before the byte: the byte is not written. -/
  | badStatus {b rest st} : StatusClass.tx.accepts st = false →
      SendRun (b :: rest) (some (.protocol .tx st)) [.access readStat st]
  /-- The byte is sent and its wait fails. -/
  | timedOut {b rest st x y bs} : StatusClass.tx.accepts st = true → waitAnswers (some .timeout) bs →
      SendRun (b :: rest) (some .timeout) (.access readStat st :: sendActs b x y bs)
  /-- The byte is sent and the loop goes on. -/
  | sent {b rest st x y bs r tr} : StatusClass.tx.accepts st = true → waitAnswers none bs → SendRun rest r tr →
      SendRun (b :: rest) r (.access readStat st :: sendActs b x y bs ++ tr)

/-- `write_message(address, payload)` (R280): result, acts. -/
inductive WriteRun (address : Addr7) (payload : List Byte) : Option OpErr → List Act → Prop
  /-- `start()` fails. -/
  | noStart {e tr} : StartRun (some e) tr → WriteRun address payload (some e) tr
  /-- The address wait fails. -/
  | noAddress {tr x y bs} : StartRun none tr → waitAnswers (some .timeout) bs →
      WriteRun address payload (some .timeout) (tr ++ sendActs (addrByte address .write) x y bs)
  /-- The byte loop runs. -/
  | sends {tr x y bs r tr'} : StartRun none tr → waitAnswers none bs → SendRun payload r tr' →
      WriteRun address payload r (tr ++ sendActs (addrByte address .write) x y bs ++ tr')

/-- A byte asked for, `left` bytes to come after it, and its wait (R285). -/
def askActs (left : Nat) (x : Byte) (bs : List Byte) : List Act :=
  .access (writeCommand .ctl (askByte left)) x :: waitActs bs

/-- The byte loop of `read_message` (R285) with that many bytes to read: result, bytes received, acts. -/
inductive ReceiveRun : Nat → Option OpErr → List Byte → List Act → Prop
  /-- Nothing left: the status after the last byte is not checked. -/
  | done : ReceiveRun 0 none [] []
  /-- An unexpected status before the byte. -/
  | badStatus {left st} : StatusClass.rx.accepts st = false →
      ReceiveRun (left + 1) (some (.protocol .rx st)) [] [.access readStat st]
  /-- The byte is asked for and its wait fails. -/
  | timedOut {left st x bs} : StatusClass.rx.accepts st = true → waitAnswers (some .timeout) bs →
      ReceiveRun (left + 1) (some .timeout) [] (.access readStat st :: askActs left x bs)
  /-- The byte is received and the loop goes on. -/
  | received {left st x b bs r got tr} : StatusClass.rx.accepts st = true → waitAnswers none bs →
      ReceiveRun left r got tr →
      ReceiveRun (left + 1) r (b :: got) (.access readStat st :: askActs left x bs ++ .access readData b :: tr)

/-- `read_message(address, buffer)` into a buffer of `len` bytes (R285): result, bytes received, acts. -/
inductive ReadRun (address : Addr7) : Nat → Option OpErr → List Byte → List Act → Prop
  /-- A zero-length read: `InvalidArgument` before any access. -/
  | empty : ReadRun address 0 (some .invalidArgument) [] []
  /-- `start()` fails. -/
  | noStart {len e tr} : StartRun (some e) tr → ReadRun address (len + 1) (some e) [] tr
  /-- The address wait fails. -/
  | noAddress {len tr x y bs} : StartRun none tr → waitAnswers (some .timeout) bs →
      ReadRun address (len + 1) (some .timeout) [] (tr ++ sendActs (addrByte address .read) x y bs)
  /-- The byte loop runs. -/
  | receives {len tr x y bs r got tr'} : StartRun none tr → waitAnswers none bs →
      ReceiveRun (len + 1) r got tr' →
      ReadRun address (len + 1) r got (tr ++ sendActs (addrByte address .read) x y bs ++ tr')

/-- One message of a batch (R290): result, what its buffer holds after it, acts. A write leaves its payload (R86); of a read's
buffer the bytes received are replaced and the others left (R86). -/
inductive MessageRun : Message → Option OpErr → List Byte → List Act → Prop
  | write {m r tr} : m.direction = .write → WriteRun m.address m.buffer r tr → MessageRun m r m.buffer tr
  | read {m r got tr} : m.direction = .read → ReadRun m.address m.buffer.length r got tr →
      MessageRun m r (got ++ m.buffer.drop got.length) tr

/-- The messages of a batch up to the first error (R290): how many completed, the error, the buffers after, acts. -/
inductive MessagesRun : List Message → Nat → Option OpErr → List (List Byte) → List Act → Prop
  /-- No message is left. -/
  | done : MessagesRun [] 0 none [] []
  /-- A message fails: nothing is done for the messages after it. -/
  | fails {m ms e buf tr} : MessageRun m (some e) buf tr →
      MessagesRun (m :: ms) 0 (some e) (buf :: ms.map Message.buffer) tr
  /-- A message completes and the batch goes on. -/
  | completes {m ms count r buf bufs tr tr'} : MessageRun m none buf tr → MessagesRun ms count r bufs tr' →
      MessagesRun (m :: ms) (count + 1) r (buf :: bufs) (tr ++ tr')

/-- The result of the status check of `stop()` (R275, R341). -/
def stopVerdict (st : Byte) : Option OpErr := if st = Config.statIdle then none else some (.protocol .idle st)

/-- `stop()` (R275): no wait between the two accesses (R391). -/
def stopActs (x st : Byte) : List Act := [.access stopWrite x, .access readStat st]

/-- The phase after a message that returned `r`, having checked `checks` statuses in its byte loop (R270). -/
def messagePhase (r : Option OpErr) (checks : Nat) : Phase :=
  match r, checks with
  | some _, _ => .error
  | none, 0 => .startSent
  | none, 1 => .addressAcked
  | none, _ + 2 => .dataAcked

/-- The status polls of `init()` with the bytes they read, a delay before each (R241, R242, D9). -/
def initPollActs (sts : List Byte) : List Act := sts.flatMap fun st => [.delay Config.initDelayUs, .access readStat st]

/-- `init()` with the status bytes it read (R242). -/
def initActs (x y : Byte) (sts : List Byte) : List Act :=
  .access (writeCommand .ctl Config.ctlEnab) x :: .access (writeCommand .rst Config.rstData) y :: initPollActs sts

/-- The two writes of `set_clock()` for the triple `p` (R214). -/
def clockActs (p : ClockParams) (x y : Byte) : List Act :=
  [.access (writeCommand .thp (thpByte p.thp)) x, .access (writeCommand .clkctl (clkByte p.mdiv p.ndiv)) y]

/-- The status bytes of an `init()` that returned `r` (R241, R242): for ok, the last one alone is IDLE, and there are at most
`INIT_RETRIES`; for `HardwareFault`, `INIT_RETRIES` of them, none IDLE. -/
def initAnswers (r : Option OpErr) (sts : List Byte) : Prop :=
  match r with
  | none => ∃ before, sts = before ++ [Config.statIdle] ∧ (∀ x ∈ before, x ≠ Config.statIdle) ∧
      sts.length ≤ Config.initRetries
  | some e => e = .hardwareFault ∧ (∀ x ∈ sts, x ≠ Config.statIdle) ∧ sts.length = Config.initRetries

/-! ### Runs -/

/-- `n` steps of the machine. -/
def run : Nat → State → Host.Outcome State Fault Refusal
  | 0, s => .next s
  | n + 1, s =>
      match step s with
      | .next t => run n t
      | .fault f => .fault f
      | .refused r => .refused r

/-- The turn the next step takes: the first listed one, or the fair environment's choice when none is listed (assumption 2).
Where nothing is enabled it is the ENGINE's, a hold. -/
def State.nextTurn (s : State) : Move :=
  match s.moves with
  | m :: _ => m
  | [] =>
      match s.thread with
      | none =>
          if s.posted ≠ [] then .drain
          else if s.port.busy then .port
          else if s.irqRunning || s.irqMayEnter then .irq
          else .engine
      | some th =>
          match th.stmt with
          | .winWrite _ _ _ | .delay _ | .assign _ => .engine
          | .readback => if s.posted ≠ [] then .drain else .engine
          | .poll => if s.posted ≠ [] then .drain else if s.port.busy then .port else .engine
          | .block => if s.controller.completion then .engine else .timeout

/-! ### Power-on (R51) -/

/-- The states the spec admits at power-on (R51, R380): the launch premises, and any value elsewhere. -/
def State.PowerOn (s : State) : Prop :=
  s.port.busy = false ∧ s.posted = [] ∧ s.controller.completion = false ∧ s.irqRunning = false ∧
    s.controller.isOpen = false ∧ s.controller.inBatch = false ∧ s.history = [] ∧ s.thread = none

/-! ### The clock's ranges (R215) -/

/-- `thp ∈ [5,255]`, `mdiv ∈ [2,15]`, `ndiv ∈ [0,7]` (R211, R215). -/
def ClockParams.inRange (p : ClockParams) : Bool :=
  5 ≤ p.thp && p.thp ≤ 255 && 2 ≤ p.mdiv && p.mdiv ≤ 15 && p.ndiv ≤ 7

/-! ### The invariant of the machine's own use -/

/-- The kinds of value a statement or an operation returns. -/
inductive RetKind where
  | unit | byte | bool | status | clock | batch
  deriving DecidableEq, Repr

/-- What a statement returns when it is done. -/
def Stmt.kind : Stmt → RetKind
  | .winWrite _ _ _ => .unit
  | .poll => .byte
  | .readback => .unit
  | .delay _ => .unit
  | .block => .bool
  | .assign _ => .unit

/-- The kind of value a continuation waits for; `none` where it takes no value. -/
def Kont.waitsFor : Kont → Option RetKind
  | .readyTest | .initTest _ | .startDecide | .startTest | .stopTest | .txTest _ _ _ | .rxTest _ _ _
  | .rxByte _ _ _ => some .byte
  | .waitWoken | .waitReady => some .bool
  | .startWaited | .startRewaited | .txStarted _ _ | .txWaited _ _ | .rxStarted _ _ _ | .rxAddrWaited _ _
  | .rxWaited _ _ _ | .batchNext _ _ | .batchStopped _ _ | .openInited => some .status
  | .clockFound => some .clock
  | .xferDone => some .batch
  | .writePoll | .writeDone | .readPoll | .rawReadback | .waitBlock | .giveStatus _ | .search _ _ _ | .clockThp _
  | .clockCtl _ | .initReset | .initNext _ | .initRead _ | .pulseLow _ | .pulseSettle _ | .pulseHigh _ | .pulseEnd _
  | .unblockStop1 | .unblockSettle1 | .unblockStop2 | .unblockSettle2 | .startWait | .startRecovered | .startRewait
  | .stopWritten | .stopRead | .txAddressed _ | .txSent _ _ | .txChecked _ _ _ | .txLoaded _ _ | .rxLength _ _ _
  | .rxAddressed _ _ | .rxSent _ _ | .rxChecked _ _ _ | .rxAsked _ _ _ | .rxStored _ _ _ | .batchCount _
  | .batchLoop _ _ | .batchFailed _ _ | .giveBatch _ _ | .openCreated | .openClocked | .openMarked | .xferBegin _
  | .closeDone => none

/-- The kind of value that comes out of a continuation in the end. -/
def Kont.gives : Kont → RetKind
  | .writePoll | .writeDone | .rawReadback | .clockFound | .clockThp _ | .clockCtl _ | .initReset | .pulseLow _ | .pulseSettle _
  | .pulseHigh _ | .pulseEnd _ | .unblockStop1 | .unblockSettle1 | .unblockStop2 | .unblockSettle2 | .closeDone => .unit
  | .readPoll => .byte
  | .readyTest => .bool
  | .waitBlock | .waitWoken | .waitReady | .giveStatus _ | .initNext _ | .initRead _ | .initTest _ | .startWait
  | .startWaited | .startDecide | .startRecovered | .startRewait | .startRewaited | .startTest | .stopWritten | .stopRead
  | .stopTest | .txStarted _ _ | .txAddressed _ | .txSent _ _ | .txWaited _ _ | .txTest _ _ _ | .txChecked _ _ _
  | .txLoaded _ _ | .rxLength _ _ _ | .rxStarted _ _ _ | .rxAddressed _ _ | .rxSent _ _ | .rxAddrWaited _ _
  | .rxTest _ _ _ | .rxChecked _ _ _ | .rxAsked _ _ _ | .rxWaited _ _ _ | .rxByte _ _ _ | .rxStored _ _ _
  | .openCreated | .openInited | .openClocked | .openMarked => .status
  | .search _ _ _ => .clock
  | .batchCount _ | .batchLoop _ _ | .batchNext _ _ | .batchFailed _ _ | .batchStopped _ _ | .giveBatch _ _
  | .xferBegin _ | .xferDone => .batch

/-- The loops of the search visit values of R211 only. -/
def SearchLoops.inRange (l : SearchLoops) : Bool :=
  (l.n :: l.ns).all (fun n => decide (n ≤ 7)) && (l.m :: l.ms).all (fun m => decide (2 ≤ m) && decide (m ≤ 15))

/-- What a search has found and is visiting is in range (R211, R215): a candidate is written to `best` only in range. -/
def SearchPos.inRange : SearchPos → Bool
  | .best => true
  | .delta p => p.inRange
  | .base l b | .t l _ _ b => l.inRange && b.params.inRange
  | .f l _ _ x b | .d l _ _ x _ b | .newDelta l _ _ x _ b | .newBest l _ _ x b =>
      l.inRange && b.params.inRange && decide (5 ≤ x) && decide (x ≤ 255)

/-- The triples a continuation carries are in range (R215). -/
def Kont.sound : Kont → Bool
  | .clockThp p | .clockCtl p => p.inRange
  | .search _ _ p => p.inRange
  | _ => true

/-- Every continuation gets the kind of value it waits for, and carries triples in range. -/
def kontsSound : RetKind → List Kont → Bool
  | _, [] => true
  | k, f :: fs => (f.waitsFor == none || f.waitsFor == some k) && f.sound && kontsSound f.gives fs

/-- A window write the ENGINE stands at is one the block issues, and a command is followed by its polls (R85, R104). A triple
it assigns to the Controller is in range (R215). -/
def Stmt.sound (st : Stmt) (ks : List Kont) : Bool :=
  match st with
  | .winWrite off w recovery =>
      (Posted.mk off w recovery).legal
        && (off != Config.offCmd || ks.head? == some .writePoll || ks.head? == some .readPoll)
  | .assign (.params p) => p.inRange
  | .poll | .readback | .delay _ | .block | .assign _ => true

/-- The thread stands at a valid-bit poll. -/
def State.polling (s : State) : Bool :=
  match s.thread with
  | some ⟨.poll, _⟩ => true
  | _ => false

/-- The ENGINE stands at the assignment that makes a Controller (R320). -/
def State.creating (s : State) : Bool :=
  match s.thread with
  | some ⟨.assign (.controller _ _ _ _), _⟩ => true
  | _ => false

/-- The thread is one the operations build. -/
def State.threadSound (s : State) : Bool :=
  match s.thread with
  | none => true
  | some th => th.stmt.sound th.konts && kontsSound th.stmt.kind th.konts

/-- The invariant of the machine's own use: no other software writes the window (R153, R392), what is posted and held is the
block's own, an indirect access is in flight only while the ENGINE polls for it, and then only one (R85), the ENGINE's control
position is one the operations build (R32), an open Controller is not made anew (R218, R320), and the Controller's triple is in
range (R215). -/
def State.Inv (s : State) : Prop :=
  (∀ m ∈ s.moves, ∀ off width w, m ≠ .hostWrite off width w) ∧ s.posted.all Posted.legal = true ∧
    (s.port.busy = true → commandLegal s.port.cmd = true) ∧
    s.inFlight ≤ (if s.polling then 1 else 0) ∧ s.threadSound = true ∧
    (s.creating = true → s.controller.isOpen = false) ∧ s.controller.params.inRange = true

end Sys2Proof.Machine
end

