-- ==== Sys2Proof/Certificates/Slice0/Obligations.lean ====
section
/-! DEFINITION. The statements for the provers. `s.quiet` is the one premise of most of them: the agents' turns and draws to
come are any, the registers hold any values, and no indirect access is in flight (R85, R323). `Acted s t acts` says what the
ENGINE did from `s` to `t`, in order: its indirect accesses, its patterns and its delays, with nothing between them but the
handler's clears. -/

open Sys2Proof Sys2Proof.Machine

/-! ### Encodings (30_encoding.md) -/

/-- Words written out from R101-R104 and the vectors V-ENC-1 to V-ENC-12 decode to what they stand for, and the two words the
vectors refuse are refused. -/
def Obligations.SpecWordsDecode : Prop :=
  decode (.cmd 0x8800000000000005#64) = .ok (.wrregThp 0x05#8) ∧
  decode (.cmd 0x8C000001000000A0#64) = .ok (.wrregData 0xA0#8) ∧
  decode (.cmd 0x8C00000200000060#64) = .ok (.wrregCtl 0x60#8) ∧
  decode (.cmd 0x8C00000300000018#64) = .ok (.wrregClkctl 0x18#8) ∧
  decode (.cmd 0x8C00000700000000#64) = .ok (.wrregRst 0x00#8) ∧
  decode (.cmd 0x8D00000100000000#64) = .ok .rdregData ∧
  decode (.cmd 0x8D00000200000000#64) = .ok .rdregCtl ∧
  decode (.cmd 0x8D00000300000000#64) = .ok .rdregStat ∧
  decode (.raw 0x200#64) = .ok (.wrraw 0x200#64) ∧
  decode (.call ⟨"wait", []⟩) = .ok .wait ∧
  decode (.cmd 0x0C00000200000040#64) = .error .notValid ∧
  decode (.cmd 0x8900000000000000#64) = .error .noRow

/-- R104: the words a decoder of CMD accepts are exactly the table's eight rows, and a word that matches none is no command. -/
def Obligations.CommandTableIsExact : Prop :=
  ∀ (w : Word) (i : Instr), decodeCmd w = .ok i ↔
    (∃ b : Byte, w = 0x8800000000000000#64 ||| b.zeroExtend 64 ∧ i = .wrregThp b) ∨
    (∃ b : Byte, w = 0x8C00000100000000#64 ||| b.zeroExtend 64 ∧ i = .wrregData b) ∨
    (∃ b : Byte, w = 0x8C00000200000000#64 ||| b.zeroExtend 64 ∧ i = .wrregCtl b) ∨
    (∃ b : Byte, w = 0x8C00000300000000#64 ||| b.zeroExtend 64 ∧ i = .wrregClkctl b) ∨
    (∃ b : Byte, w = 0x8C00000700000000#64 ||| b.zeroExtend 64 ∧ i = .wrregRst b) ∨
    (w = 0x8D00000100000000#64 ∧ i = .rdregData) ∨
    (w = 0x8D00000200000000#64 ∧ i = .rdregCtl) ∨
    (w = 0x8D00000300000000#64 ∧ i = .rdregStat)

/-- Every operation, with every operand, is what its code decodes to. -/
def Obligations.DecodeOfEncodeIsIdentity : Prop := ∀ i : Instr, decode (encode i) = .ok i

/-- Every code has at most one meaning: what it decodes to has that code and no other. -/
def Obligations.EncodeOfDecodeIsIdentity : Prop := ∀ (c : Code) (i : Instr), decode c = .ok i → encode i = c

/-- R107, R108, R109: the bytes of CLKCTL, THP and the address, as numbers. -/
def Obligations.RegisterByteFormats : Prop :=
  (∀ mdiv ndiv : Nat, mdiv ≤ 15 → ndiv ≤ 7 → (clkByte mdiv ndiv).toNat = 8 * mdiv + ndiv) ∧
  (∀ thp : Nat, thp ≤ 255 → (thpByte thp).toNat = thp) ∧
  (∀ a : Addr7, (addrByte a .write).toNat = 2 * a.toNat ∧ (addrByte a .read).toNat = 2 * a.toNat + 1)

/-- R111: the reserved CTL and CLKCTL bytes, the words that are no RAW pattern, and the reads at `SEL_THP` and `SEL_RST` are
refused, as a device access and as a call, and the state is not asked. -/
def Obligations.ReservedEncodingsAreRefused : Prop :=
  (∀ (b : Byte) (s : State), (b.getLsbD 7 = true ∨ b.getLsbD 3 = true ∨ b.getLsbD 1 = true ∨ b.getLsbD 0 = true) →
    exec (.wrregCtl b) s = .refused (.reservedCtlByte b) ∧
    exec (.writeRegister .ctl b) s = .refused (.reservedCtlByte b)) ∧
  (∀ (b : Byte) (s : State), (128 ≤ b.toNat ∨ b.toNat / 8 % 16 < 2) →
    exec (.wrregClkctl b) s = .refused (.reservedClkByte b) ∧
    exec (.writeRegister .clkctl b) s = .refused (.reservedClkByte b) ∧
    exec (.writeRegister .stat b) s = .refused (.reservedClkByte b)) ∧
  (∀ (v : Word) (s : State),
    v ∉ [0x40#64, 0x00#64, 0x000#64, 0x200#64, 0x300#64, 0x100#64, 0x000#64] →
    exec (.wrraw v) s = .refused (.reservedRawPattern v) ∧ exec (.writeRaw v) s = .refused (.reservedRawPattern v)) ∧
  (∀ s : State, exec (.readRegister .thp) s = .refused (.unreadableSelector .thp) ∧
    exec (.readRegister .rst) s = .refused (.unreadableSelector .rst))

/-! ### What the device does with a command word (40_register_port.md) -/

/-- R143, R144, R146: the THP, DATA and CLKCTL words store their byte and change nothing else; STAT, which shares CLKCTL's
selector, stays. The CLKCTL byte is any the block may write (R111). -/
def Obligations.PlainRegisterWritesStoreTheByte : Prop :=
  ∀ (b : Byte) (s : State),
    (decodeCmd (0x8800000000000000#64 ||| b.zeroExtend 64) = .ok (.wrregThp b) ∧
      exec (.wrregThp b) s = .next { s with core := { s.core with thp := b } }) ∧
    (decodeCmd (0x8C00000100000000#64 ||| b.zeroExtend 64) = .ok (.wrregData b) ∧
      exec (.wrregData b) s = .next { s with core := { s.core with data := b } }) ∧
    (decodeCmd (0x8C00000300000000#64 ||| b.zeroExtend 64) = .ok (.wrregClkctl b) ∧
      (clkByteLegal b = true → exec (.wrregClkctl b) s = .next { s with core := { s.core with clkctl := b } }))

/-- R155: a CTL write stores the byte, clears IFLG and issues one bus action, replacing a pending one; nothing else
changes. The byte is any that R111 does not reserve: that one the block never writes, without `CTL_ENAB` say, runs too is the
model's choice (assumption 10). -/
def Obligations.CtlWriteIssuesOneAction : Prop :=
  ∀ (b : Byte) (s : State), ctlByteLegal b = true →
    exec (.wrregCtl b) s = .next { s with core := { s.core with
      ctl := b, iflg := false,
      pending := if b.getLsbD 5 = true then .start else if b.getLsbD 4 = true then .stop else .byte } }

/-- R159: an RST write makes Reset pending, clears IFLG, and leaves CTL, THP and CLKCTL any value: every value of the three is
one some draws give. Nothing else but the draws changes. -/
def Obligations.RstWriteResetsTheCore : Prop :=
  ∀ (b : Byte) (s : State),
    (∃ (c t k : Byte) (ds : List Word) (n : Nat), exec (.wrregRst b) s = .next { s with
      core := { s.core with ctl := c, thp := t, clkctl := k, iflg := false, pending := .reset }, draws := ds, drawn := n }) ∧
    (∀ c t k : Byte, ∃ ds, exec (.wrregRst b) { s with draws := ds } = .next { s with
      core := { s.core with ctl := c, thp := t, clkctl := k, iflg := false, pending := .reset }, draws := [] })

/-- R148, R154: the reads give DATA, STAT, or a byte whose bit 3 is IFLG and whose other bits are any, and change the port's
result and the draws only. -/
def Obligations.RegisterReadsHaveNoSideEffect : Prop :=
  ∀ s : State,
    exec .rdregData s = .next { s with port := { s.port with result := s.core.data } } ∧
    exec .rdregStat s = .next { s with port := { s.port with result := s.core.stat } } ∧
    (∃ (r : Byte) (ds : List Word) (n : Nat), r.getLsbD 3 = s.core.iflg ∧
      exec .rdregCtl s = .next { s with port := { s.port with result := r }, draws := ds, drawn := n }) ∧
    (∀ r : Byte, r.getLsbD 3 = s.core.iflg → ∃ d : Word,
      exec .rdregCtl { s with draws := [d] } = .next { s with port := { s.port with result := r }, draws := [] })

/-- R37: the pattern `RAW_IE_SET` leaves IE 1, `RAW_IE_CLR` leaves it 0, and any other pattern leaves it any value. RAW holds
the pattern, and nothing else but the draws changes. That the encoded word 0x000 is `RAW_IE_CLR`, though `RAW_PULSE_LOW` and
`RAW_IDLE` are the same word and R37 makes IE a draw after them, is the model's choice (assumption 4). That RAW keeps the word is
too (assumption 21). -/
def Obligations.RawPatternsSetClearOrDrawIe : Prop :=
  ∀ s : State,
    exec (.wrraw 0x40#64) s = .next { s with raw := 0x40#64, ie := true } ∧
    exec (.wrraw 0x00#64) s = .next { s with raw := 0x00#64, ie := false } ∧
    (∀ v : Word, v ∈ [0x200#64, 0x300#64, 0x100#64] →
      (∃ (e : Bool) (ds : List Word) (n : Nat),
        exec (.wrraw v) s = .next { s with raw := v, ie := e, draws := ds, drawn := n }) ∧
      (∀ e : Bool, ∃ d : Word, exec (.wrraw v) { s with draws := [d] } = .next { s with raw := v, ie := e, draws := [] }))

/-! ### Steps of the agents -/

/-- A step runs the decoded word. A PORT turn with a command held is that command's `exec` with the access completed after it
(R150), and a drain turn with a pattern oldest that no recovery issued is that pattern's `exec` with the write recorded before
it (R74); that such a word 0x000 is `RAW_IE_CLR` is the model's choice (assumption 4). `placeWord` puts a word where the very
next step runs it: the spec has no fetch (R32, R70), so where a placed word runs is the model's choice (assumption 5). -/
def Obligations.StepRunsTheDecodedWord : Prop :=
  (∀ (s : State) (ms : List Move) (i : Instr), s.moves = .port :: ms → s.port.busy = true →
    decodeCmd s.port.cmd = .ok i →
    step s = (match exec i (s.withMoves ms) with
      | .next t => .next { t with port := { t.port with busy := false, lastRead := cmdIsRead s.port.cmd } }
      | .fault f => .fault f
      | .refused r => .refused r)) ∧
  (∀ (s : State) (ms : List Move) (v : Word) (ps : List Posted), s.moves = .drain :: ms →
    s.posted = ⟨Config.offRaw, v, false⟩ :: ps →
    step s = exec (.wrraw v) { s with moves := ms, posted := ps, history := s.history ++ [.write Config.offRaw v] }) ∧
  (∀ (s : State) (w : Word) (i : Instr), decodeCmd w = .ok i →
    step (s.placeWord w) = (match exec i { s with port := { s.port with busy := true, cmd := w } } with
      | .next t => .next { t with port := { t.port with busy := false, lastRead := cmdIsRead w } }
      | .fault f => .fault f
      | .refused r => .refused r)) ∧
  (∀ (s : State) (v : Word), cmdValid v = false →
    step (s.placeWord v) = exec (.wrraw v) { s with history := s.history ++ [.write Config.offRaw v] })

/-- R74, R150, R151: a drained CMD word with `V = 1` is issued to an idle port; with the port busy it is `PortOverrun`; with
`V = 0` it is refused. A PORT turn with no access held changes nothing. A PORT turn that holds a word of no row of R104 is
refused: R111 refuses such a word, and that the PORT does so when it performs it is the model's choice (assumption 10). -/
def Obligations.DrainedCommandIsIssuedOrFaults : Prop :=
  ∀ (s : State) (ms : List Move),
    (∀ (w : Word) (rc : Bool) (ps : List Posted), s.moves = .drain :: ms → s.posted = ⟨Config.offCmd, w, rc⟩ :: ps →
      (cmdValid w = true → s.port.busy = false →
        step s = .next { s with moves := ms, posted := ps, history := s.history ++ [.write Config.offCmd w],
                                port := { s.port with busy := true, cmd := w } }) ∧
      (cmdValid w = true → s.port.busy = true → step s = .fault .portOverrun) ∧
      (cmdValid w = false → step s = .refused .commandNotValid)) ∧
    (s.moves = .port :: ms → s.port.busy = false → step s = .next (s.withMoves ms)) ∧
    (s.moves = .port :: ms → s.port.busy = true → (∀ i, decodeCmd s.port.cmd ≠ .ok i) →
      step s = .refused (.unknownCommand s.port.cmd))

/-- R160, R250 and R37: a drained recovery pattern is recorded, held by RAW, and leaves IE any value; no CORE state changes, and
nothing else but the buffer and the draws. The word does not tell a recovery pattern 0x000 from `RAW_IE_CLR`: that the posted
write remembers that `unblock()` issued it is the model's choice (assumption 4), and so is that RAW keeps the word
(assumption 21). -/
def Obligations.RecoveryPatternsLeaveTheCore : Prop :=
  ∀ (s : State) (ms : List Move) (v : Word) (ps : List Posted),
    v ∈ [0x000#64, 0x200#64, 0x300#64, 0x100#64] → s.moves = .drain :: ms →
    s.posted = ⟨Config.offRaw, v, true⟩ :: ps →
    (∃ (e : Bool) (ds : List Word) (n : Nat), step s = .next { s with
      moves := ms, posted := ps, history := s.history ++ [.write Config.offRaw v], raw := v, ie := e, draws := ds,
      drawn := n }) ∧
    (∀ e : Bool, ∃ d : Word, step { s with draws := [d] } = .next { s with
      moves := ms, posted := ps, history := s.history ++ [.write Config.offRaw v], raw := v, ie := e, draws := [] })

/-- R156: a CORE progress step with an action pending sets STAT to any byte and nothing else; with none pending it is not
enabled. -/
def Obligations.CoreProgressDrawsStat : Prop :=
  ∀ (s : State) (ms : List Move), s.moves = .coreProgress :: ms →
    (s.core.pending = .none → step s = .next (s.withMoves ms)) ∧
    (s.core.pending ≠ .none →
      (∃ (st : Byte) (ds : List Word) (n : Nat),
        step s = .next { s with moves := ms, core := { s.core with stat := st }, draws := ds, drawn := n }) ∧
      (∀ st : Byte, ∃ d : Word, step { s with draws := [d] } = .next { s with
        moves := ms, core := { s.core with stat := st }, draws := [] }))

/-- R157: a CORE completion step sets STAT to any byte, DATA to any byte after a Byte action, and IFLG to 1 after Start and
Byte, to any value after Stop, to 0 after Reset; no action stays pending, and nothing else changes. -/
def Obligations.CoreCompletionReportsTheAction : Prop :=
  ∀ (s : State) (ms : List Move), s.moves = .coreComplete :: ms →
    (s.core.pending = .none → step s = .next (s.withMoves ms)) ∧
    (s.core.pending ≠ .none →
      ∃ (st dt : Byte) (f : Bool) (ds : List Word) (n : Nat),
        step s = .next { s with
          moves := ms, core := { s.core with stat := st, data := dt, iflg := f, pending := .none }, draws := ds, drawn := n } ∧
        (s.core.pending ≠ .byte → dt = s.core.data) ∧
        (s.core.pending = .start ∨ s.core.pending = .byte → f = true) ∧ (s.core.pending = .reset → f = false)) ∧
    (∀ (st dt : Byte) (f : Bool), s.core.pending ≠ .none →
      (s.core.pending ≠ .byte → dt = s.core.data) →
      (s.core.pending = .start ∨ s.core.pending = .byte → f = true) → (s.core.pending = .reset → f = false) →
      ∃ ds, step { s with draws := ds } = .next { s with
        moves := ms, core := { s.core with stat := st, data := dt, iflg := f, pending := .none }, draws := [] })

/-- R73: a window read holds while a write is posted; then it records the word it returns, whose `CMD_V` is `port.busy` and
whose low byte is the result of the last completed access if that was a read. A read that is not 8 bytes wide, or is at an
offset that is not CMD's or RAW's, is refused (R75); that the width is looked at before the offset is the model's choice
(assumption 15). -/
def Obligations.WindowReadWaitsForPostedWrites : Prop :=
  ∀ (s : State) (ms : List Move) (off width : Nat), s.moves = .hostRead off width :: ms →
    (width ≠ 8 → step s = .refused (.illegalWidth width)) ∧
    (width = 8 → off ≠ 0x00 → off ≠ 0x10 → step s = .refused (.illegalOffset off)) ∧
    (width = 8 → (off = 0x00 ∨ off = 0x10) → s.posted ≠ [] → step s = .next (s.withMoves ms)) ∧
    (width = 8 → (off = 0x00 ∨ off = 0x10) → s.posted = [] →
      ∃ (w : Word) (ds : List Word) (n : Nat),
        step s = .next { s with moves := ms, history := s.history ++ [.read off w], draws := ds, drawn := n } ∧
        (off = 0x00 → w.getLsbD 63 = s.port.busy ∧ (s.port.lastRead = true → w.extractLsb' 0 8 = s.port.result)))

/-- R72, R75: a window write joins the end of the buffer and does nothing else; a write that is not 8 bytes wide, or is at an
offset that is not CMD's or RAW's, is refused. That the entry of other software's write is marked as no recovery pattern is the
model's choice (assumption 4), and so is that the width is looked at before the offset (assumption 15). -/
def Obligations.WindowWriteOnlyPosts : Prop :=
  ∀ (s : State) (ms : List Move) (off width : Nat) (w : Word), s.moves = .hostWrite off width w :: ms →
    (width ≠ 8 → step s = .refused (.illegalWidth width)) ∧
    (width = 8 → off ≠ 0x00 → off ≠ 0x10 → step s = .refused (.illegalOffset off)) ∧
    (width = 8 → (off = 0x00 ∨ off = 0x10) →
      step s = .next { s with moves := ms, posted := s.posted ++ [⟨off, w, false⟩] })

/-- R344: the turns of ENV but for the timeout of a `Block()`, of the PORT, the CORE and the IRQ agent, and the host's own
accesses, change neither the ENGINE's place, its phase, its result, the caller's buffers nor the Controller but for its
completion signal; and only the IRQ agent sets that. A timeout turn changes nothing at all where the ENGINE is in no `Block()`
(R184). -/
def Obligations.OtherAgentsLeaveTheEngine : Prop :=
  (∀ (s t : State) (m : Move) (ms : List Move), s.moves = m :: ms → m ≠ .engine → m ≠ .timeout → (∀ c, m ≠ .call c) →
    step s = .next t →
    SameEngine s t ∧ t.result = s.result ∧ (m ≠ .irq → t.controller = s.controller)) ∧
  (∀ (s : State) (ms : List Move), s.moves = .timeout :: ms → (∀ ks, s.thread ≠ some ⟨.block, ks⟩) →
    step s = .next (s.withMoves ms))

/-- R80: no step takes a write out of its order or loses one: the writes that reached the device, followed by those still
posted, only grow at the end; and neither does the record of events lose any (R49). -/
def Obligations.WritesReachTheDeviceInIssueOrder : Prop :=
  ∀ s t : State, step s = .next t → s.issued <+: t.issued ∧ s.history <+: t.history

/-- R73, R81: in every step, whoever's turn it is, a read that reaches the device does so with no write posted before it. -/
def Obligations.ReadsFollowEveryPostedWrite : Prop :=
  ∀ (s t : State) (off : Nat) (w : Word), step s = .next t → t.history = s.history ++ [.read off w] → s.posted = []

/-! ### The interrupt handler (41_completion.md, 60_exceptions.md) -/

/-- R186: where the line is asserted, a handler is attached and none runs, the handler runs: IE is 0, `completion` is 1, the
handler has returned, its clear is the last write and everything posted before it has drained. That the core, the ENGINE's
side, the Controller's other fields and the listed turns are as before is the model's choice: `exec` runs the handler whole and
no other agent moves in between (assumption 14), where R187 lets accesses interleave, as the handler's single turns do
(`HandlerTakesItsStatementsInOrder`). -/
def Obligations.HandlerDisablesThenSignals : Prop :=
  ∀ s : State, s.ie = true → s.core.iflg = true → s.handlerAttached = true → s.irq = .out → s.flowing = true →
    ∃ t, exec .irqHandler s = .next t ∧ t.ie = false ∧ t.controller.completion = true ∧ t.irq = .out ∧ t.posted = [] ∧
      notReads t.history = s.stream ++ [.write 0x10 0x00#64] ∧ t.core = s.core ∧ SameEngine s t ∧ t.result = s.result ∧
      t.handlerAttached = true ∧ t.moves = s.moves

/-- R48, R187: the line is asserted exactly when IE and IFLG are 1; where it is not, or no handler is attached, or one is
running, the IRQ agent's entry is not enabled. That `exec` of the handler then does nothing, and that a turn of the agent that is
not enabled only passes, is the model's choice (assumptions 14 and 2). -/
def Obligations.HandlerIsEnteredOnlyOnTheLine : Prop :=
  ∀ s : State, (s.lineAsserted = true ↔ s.ie = true ∧ s.core.iflg = true) ∧
    (s.lineAsserted = false ∨ s.handlerAttached = false ∨ s.irq ≠ .out → exec .irqHandler s = .next s) ∧
    (∀ ms, s.moves = .irq :: ms → s.irq = .out → s.lineAsserted = false ∨ s.handlerAttached = false →
      step s = .next (s.withMoves ms))

/-- R186, R345: the handler's statements, one IRQ turn each: entry saves nothing; the clear is posted; the readback waits for
every posted write; the signal; the return restores nothing. -/
def Obligations.HandlerTakesItsStatementsInOrder : Prop :=
  ∀ (s : State) (ms : List Move), s.moves = .irq :: ms →
    (s.irq = .out → s.lineAsserted = true → s.handlerAttached = true →
      step s = .next { s with moves := ms, irq := .atWrite }) ∧
    (s.irq = .atWrite → step s = .next { s with
      moves := ms, irq := .atReadback, posted := s.posted ++ [⟨0x10, 0x00#64, false⟩] }) ∧
    (s.irq = .atReadback → s.posted ≠ [] → step s = .next (s.withMoves ms)) ∧
    (s.irq = .atReadback → s.posted = [] → ∃ (w : Word) (ds : List Word) (n : Nat), step s = .next { s with
      moves := ms, irq := .atSignal, history := s.history ++ [.read 0x10 w], draws := ds, drawn := n }) ∧
    (s.irq = .atSignal → step s = .next { s with
      moves := ms, irq := .atLeave, controller := { s.controller with completion := true } }) ∧
    (s.irq = .atLeave → step s = .next { s with moves := ms, irq := .out })

/-- R184: a `Block()` ends by a wake, which consumes the completion signal, or by the timeout, which is enabled at every point
of the hold; without a completion the ENGINE's turn is a hold. -/
def Obligations.BlockEndsByWakeOrTimeout : Prop :=
  ∀ (s : State) (ms : List Move) (ks : List Kont), s.thread = some ⟨.block, ks⟩ →
    (s.moves = .engine :: ms → s.controller.completion = false → step s = .next (s.withMoves ms)) ∧
    (s.moves = .engine :: ms → s.controller.completion = true →
      step s = toOutcome (returnTo ks (.bool true)
        { s with moves := ms, controller := { s.controller with completion := false } })) ∧
    (s.moves = .timeout :: ms → step s = toOutcome (returnTo ks (.bool false) (s.withMoves ms)))

/-! ### The port primitives -/

/-- R140: `write_register` issues its one command word, polls until the access has completed, and returns with the register
written, whatever the other agents do meanwhile. Without CORE turns nothing else of the core changes. R140 lists THP, DATA,
CTL, CLKCTL and RST: that a write at `SEL_STAT`, which is CLKCTL's selector (R40, R102), runs as the CLKCTL write is the model's
choice (assumption 11), and so is that a CTL byte R111 does not reserve runs though the block never writes it, without
`CTL_ENAB` say (assumption 10). -/
def Obligations.WriteRegisterCompletes : Prop :=
  ∀ (sel : Selector) (b : Byte) (s : State), registerByteLegal sel b = true → s.quiet = true →
    ∃ (x : Byte) (t : State), exec (.writeRegister sel b) s = .next t ∧ t.result = some .unit ∧
      Acted s t [.access (writeCommand sel b) x] ∧ t.quiet = true ∧ t.posted = [] ∧ SameEngine s t ∧
      PatternsKept s t ∧
      afterWrite sel b (s.core.thp, s.core.ctl, s.core.clkctl) (t.core.thp, t.core.ctl, t.core.clkctl) ∧
      (s.noCore = true → writeEffect sel b s.core t.core)

/-- R141: `read_register` issues its one command word and returns the low byte of the poll that first sees `CMD_V = 0`. Without
CORE turns that byte is the register's (IFLG alone for CTL) and the core does not change. R141 lists DATA, CTL and STAT; that a
read at `SEL_CLKCTL`, which is STAT's selector (R40, R102), runs as the STAT read is the model's choice (assumption 11). -/
def Obligations.ReadRegisterCompletes : Prop :=
  ∀ (sel : Selector) (s : State), readable sel = true → s.quiet = true →
    ∃ (b : Byte) (t : State), exec (.readRegister sel) s = .next t ∧ t.result = some (.byte b) ∧
      Acted s t [.access (readCommand sel) b] ∧ t.quiet = true ∧ t.posted = [] ∧ SameEngine s t ∧
      PatternsKept s t ∧ t.core.thp = s.core.thp ∧ t.core.ctl = s.core.ctl ∧ t.core.clkctl = s.core.clkctl ∧
      (s.noCore = true → t.core = s.core ∧ readsAs sel s.core b)

/-- R142: when `write_raw` returns, every write issued before has drained and its pattern has taken effect; where the handler
ran too, its clear may have followed. It makes no CMD access. That the word 0x000, written by name, is `RAW_IE_CLR` and leaves IE
0, though it is also `RAW_PULSE_LOW` and `RAW_IDLE` (R37), is the model's choice (assumption 4). So is that RAW keeps the word
last written (assumption 21), by which the statement says which pattern was the last to take effect. -/
def Obligations.WriteRawTakesEffectBeforeReturning : Prop :=
  ∀ (v : Word) (s : State), rawPatternLegal v = true → s.quiet = true →
    ∃ t : State, exec (.writeRaw v) s = .next t ∧ t.result = some .unit ∧ Acted s t [.pattern v] ∧
      t.quiet = true ∧ t.posted = [] ∧ SameEngine s t ∧
      t.core.thp = s.core.thp ∧ t.core.ctl = s.core.ctl ∧ t.core.clkctl = s.core.clkctl ∧
      (s.noCore = true → t.core = s.core) ∧
      ((t.raw = v ∧ (v = 0x40#64 → t.ie = true) ∧ (v = 0x00#64 → t.ie = false)) ∨ (t.raw = 0x00#64 ∧ t.ie = false)) ∧
      (s.noTurn .irq = true → t.raw = v ∧ (v = 0x40#64 → t.ie = true) ∧ (v = 0x00#64 → t.ie = false) ∧
        notReads t.history = s.stream ++ [.write 0x10 v])

/-- R77: `Delay(us)` appends `delay(us)` to the record and changes no other state: with no turn listed before it, exactly that
and its return, posted writes included; with turns listed, one delay and no access, and with nothing posted before it no
pattern. -/
def Obligations.DelayIsOnlyRecorded : Prop :=
  (∀ (us : Nat) (s : State), s.moves = [] →
    exec (.delay us) s = .next { s with history := s.history ++ [.delay us], result := some .unit }) ∧
  (∀ (us : Nat) (s : State), s.quiet = true →
    ∃ t : State, exec (.delay us) s = .next t ∧ t.result = some .unit ∧ Accessed s t [] ∧ Delayed s t [us] ∧
      (s.posted = [] → Acted s t [.delay us]) ∧ t.quiet = true ∧ SameEngine s t ∧ PatternsKept s t ∧
      t.core.thp = s.core.thp ∧ t.core.ctl = s.core.ctl ∧ t.core.clkctl = s.core.clkctl ∧
      (s.noCore = true → t.core = s.core))

/-! ### Completion waiting (41_completion.md) -/

/-- R180, R181: `enable()` and `disable()` return with their pattern in effect: IE is 0 after `disable()`, and 1 after
`enable()` unless the handler has cleared it since. That RAW holds the word last written, by which the statement says that the
handler has cleared it, is the model's choice (assumption 21). -/
def Obligations.EnableSetsAndDisableClearsIe : Prop :=
  ∀ s : State, s.quiet = true →
    (∃ t : State, exec .enable s = .next t ∧ t.result = some .unit ∧ Acted s t [.pattern 0x40#64] ∧ t.posted = [] ∧
      t.quiet = true ∧ SameEngine s t ∧ t.core.thp = s.core.thp ∧ t.core.ctl = s.core.ctl ∧
      t.core.clkctl = s.core.clkctl ∧ (s.noCore = true → t.core = s.core) ∧
      (t.ie = true ∨ t.raw = 0x00#64) ∧ (s.noTurn .irq = true → t.ie = true ∧ t.raw = 0x40#64)) ∧
    (∃ t : State, exec .disable s = .next t ∧ t.result = some .unit ∧ Acted s t [.pattern 0x00#64] ∧ t.posted = [] ∧
      t.quiet = true ∧ SameEngine s t ∧ t.core.thp = s.core.thp ∧ t.core.ctl = s.core.ctl ∧
      t.core.clkctl = s.core.clkctl ∧ (s.noCore = true → t.core = s.core) ∧ t.ie = false ∧ t.raw = 0x00#64)

/-- R182: `ready()` is one `RDREG CTL` and the test of bit 3 of its byte; without CORE turns it is IFLG. -/
def Obligations.ReadyIsIflgReadThroughThePort : Prop :=
  ∀ s : State, s.quiet = true →
    ∃ (b : Byte) (t : State), exec .ready s = .next t ∧ t.result = some (.bool (b.getLsbD 3)) ∧
      Acted s t [.access 0x8D00000200000000#64 b] ∧ t.quiet = true ∧ t.posted = [] ∧ SameEngine s t ∧
      PatternsKept s t ∧ t.core.thp = s.core.thp ∧ t.core.ctl = s.core.ctl ∧ t.core.clkctl = s.core.clkctl ∧
      (s.noCore = true → t.core = s.core ∧ b.getLsbD 3 = s.core.iflg)

/-- R183, R189: every `wait()` returns, with ok or `Timeout` and with IE 0, whatever the other agents do; it enables, makes no
access but `RDREG CTL`, for ok the last of them alone ready, for `Timeout` none, and disables. -/
def Obligations.WaitReturnsWithIeClear : Prop :=
  ∀ s : State, s.quiet = true →
    ∃ (r : Option OpErr) (t : State) (bs : List Byte), exec .wait s = .next t ∧ t.result = some (.status r) ∧
      (r = none ∨ r = some .timeout) ∧ waitAnswers r bs ∧ Acted s t (waitActs bs) ∧
      t.ie = false ∧ t.posted = [] ∧ t.quiet = true ∧ SameEngine s t ∧ t.core.thp = s.core.thp ∧
      t.core.ctl = s.core.ctl ∧ t.core.clkctl = s.core.clkctl ∧ (s.noCore = true → t.core = s.core)

/-- R183 and R188: the predicate decides, not the wake. With no action pending IFLG is settled: where it is 0 every `wait()`
ends in `Timeout`, whatever is signalled; where it is 1 and a completion stands, a `wait()` with no timeout turn listed ends
ok. R184 lets the timeout be taken beside a wake: that it is not, where no turn of it is listed and a completion stands when the
list ends, is the model's choice (assumptions 2 and 23). -/
def Obligations.WaitIsDecidedByThePredicate : Prop :=
  ∀ s : State, s.quiet = true → s.core.pending = .none →
    (s.core.iflg = false → ∃ t : State, exec .wait s = .next t ∧ t.result = some (.status (some .timeout))) ∧
    (s.core.iflg = true → s.controller.completion = true → s.noTurn .timeout = true →
      ∃ t : State, exec .wait s = .next t ∧ t.result = some (.status none))

/-- R385: with no handler attached and none running, and no completion standing, every `wait()` ends in `Timeout`, because
nothing signals; it makes no access at all between `enable()` and `disable()`. -/
def Obligations.WaitWithoutHandlerTimesOut : Prop :=
  ∀ s : State, s.quiet = true → s.handlerAttached = false → s.noTurn .attach = true → s.irq = .out →
    s.controller.completion = false →
    ∃ t : State, exec .wait s = .next t ∧ t.result = some (.status (some .timeout)) ∧ Acted s t (waitActs []) ∧ t.ie = false

/-- R188: where IFLG is 1 and no action is pending that could clear it, a `wait()` with no timeout turn listed ends ok in every
run in which the handler reaches its signal, whatever the interleaving: it ends in `Timeout` only where no signal stands at its
end, and none stood at its beginning. And an attached handler does reach it, wherever it stands, in every interleaving that has
among its turns, in this order and with any others between, those of `signalTurns`: the enable is posted, every posted write
drains, the handler is entered and clears, the clear drains, the handler reads back and signals. A wake that stands when the list ends is taken before the
timeout, which R184 leaves open: the model's choice (assumption 2). -/
def Obligations.AssertedLineIsNotLost : Prop :=
  ∀ s : State, s.quiet = true → s.core.iflg = true → s.core.pending ≠ .stop → s.core.pending ≠ .reset →
    s.noTurn .timeout = true →
    ∃ (r : Option OpErr) (t : State), exec .wait s = .next t ∧ t.result = some (.status r) ∧ t.ie = false ∧
      (r = none ∨ (r = some .timeout ∧ s.controller.completion = false ∧ t.controller.completion = false)) ∧
      (s.handlerAttached = true → s.signalTurns.Sublist s.moves → r = none)

/-! ### The clock (42_clock.md) -/

/-- R213, R215: for every target of 1 Hz or more the operation returns the triple of `clockSearch`, the search
`ClockSearchIsMinimal` is about, which is in range. With no turn listed it changes nothing else; where other agents take turns
between its assignments, it makes no access and no delay, writes no pattern, and leaves the ENGINE's side. Target 0 is refused;
the default is in range. -/
def Obligations.ClockSearchResultIsInRange : Prop :=
  (∀ (target sys : Nat) (s : State), 1 ≤ target → s.moves = [] →
    exec (.clockSearch target sys) s = .next { s with result := some (.clock (clockSearch target sys)) }) ∧
  (∀ (target sys : Nat) (s : State), 1 ≤ target → s.quiet = true →
    ∃ t : State, exec (.clockSearch target sys) s = .next t ∧ t.result = some (.clock (clockSearch target sys)) ∧
      Acted s t [] ∧ t.quiet = true ∧ SameEngine s t ∧ PatternsKept s t ∧ t.core.thp = s.core.thp ∧
      t.core.ctl = s.core.ctl ∧ t.core.clkctl = s.core.clkctl ∧ (s.noCore = true → t.core = s.core)) ∧
  (∀ target sys : Nat, 1 ≤ target →
    let p := clockSearch target sys
    5 ≤ p.thp ∧ p.thp ≤ 255 ∧ 2 ≤ p.mdiv ∧ p.mdiv ≤ 15 ∧ p.ndiv ≤ 7) ∧
  (∀ (sys : Nat) (s : State), exec (.clockSearch 0 sys) s = .refused .zeroTarget) ∧
  clockDefault = ⟨0x18, 2, 0⟩ ∧ 5 ≤ clockDefault.thp ∧ clockDefault.thp ≤ 255 ∧ 2 ≤ clockDefault.mdiv ∧
    clockDefault.mdiv ≤ 15 ∧ clockDefault.ndiv ≤ 7

/-- R216: the result has the least deviation of all candidates, and it is the first such in visiting order (a smaller `ndiv`
first, then a larger `mdiv`, then `base`); where no candidate's deviation is below the sentinel it is the default. -/
def Obligations.ClockSearchIsMinimal : Prop :=
  ∀ target sys : Nat, 1 ≤ target →
    let cand := fun p : ClockParams => p.ndiv ≤ 7 ∧ 2 ≤ p.mdiv ∧ p.mdiv ≤ 15 ∧ 5 ≤ p.thp ∧ p.thp ≤ 255 ∧
      ((p.thp : Int) = clockBase target sys p.mdiv p.ndiv ∨ (p.thp : Int) = clockBase target sys p.mdiv p.ndiv + 1)
    let dev := fun p : ClockParams => deviation target (achieved sys p.thp p.mdiv p.ndiv)
    let before := fun p q : ClockParams =>
      p.ndiv < q.ndiv ∨ (p.ndiv = q.ndiv ∧ (q.mdiv < p.mdiv ∨ (p.mdiv = q.mdiv ∧ p.thp < q.thp)))
    ((∃ p, cand p ∧ dev p < 1000000) →
      cand (clockSearch target sys) ∧
      ∀ q, cand q → dev (clockSearch target sys) ≤ dev q ∧
        (dev q = dev (clockSearch target sys) → q = clockSearch target sys ∨ before (clockSearch target sys) q)) ∧
    ((∀ p, cand p → 1000000 ≤ dev p) → clockSearch target sys = ⟨0x18, 2, 0⟩)

/-- R217 and R210: the achieved frequency does not increase with `thp`, and the two candidates of a pair bracket the target. -/
def Obligations.ClockCandidatesBracketTheTarget : Prop :=
  (∀ sys t t' m n : Nat, t ≤ t' → achieved sys t' m n ≤ achieved sys t m n) ∧
  (∀ target sys m n b : Nat, 1 ≤ target → clockBase target sys m n = (b : Int) →
    target ≤ achieved sys b m n ∧ achieved sys (b + 1) m n ≤ target)

/-- R214: `set_clock()` writes THP and then CLKCTL with the search's result, and the Controller's triple; STAT, which shares
CLKCTL's selector, is not touched by it. -/
def Obligations.SetClockProgramsTheSearchResult : Prop :=
  ∀ s : State, s.controller.targetFrequency ≠ 0 → s.quiet = true →
    let p := clockSearch s.controller.targetFrequency s.controller.systemClockRate
    ∃ (x y : Byte) (t : State), exec .setClock s = .next t ∧ t.result = some .unit ∧
      Acted s t [.access (writeCommand .thp (thpByte p.thp)) x, .access (writeCommand .clkctl (clkByte p.mdiv p.ndiv)) y] ∧
      t.core.thp = thpByte p.thp ∧ t.core.clkctl = clkByte p.mdiv p.ndiv ∧
      t.core.ctl = s.core.ctl ∧ t.controller.fixed = { s.controller.fixed with params := p } ∧ t.thread = s.thread ∧
      t.phase = s.phase ∧ t.buffers = s.buffers ∧ Drained s t ∧ t.quiet = true ∧ PatternsKept s t ∧
      (s.noCore = true → t.core = { s.core with thp := thpByte p.thp, clkctl := clkByte p.mdiv p.ndiv })

/-! ### Init and recovery (43_init_recovery.md) -/

/-- R242: the stream of `init()`: CTL enabled, RST, then for each try a delay and after it a status read, until the first that
reads IDLE or the tenth; `HardwareFault` exactly where none does. It writes no pattern. -/
def Obligations.InitPollsUntilIdle : Prop :=
  ∀ s : State, s.quiet = true →
    ∃ (r : Option OpErr) (t : State) (x y : Byte) (sts : List Byte), exec .init s = .next t ∧
      t.result = some (.status r) ∧ initAnswers r sts ∧ Acted s t (initActs x y sts) ∧
      Delayed s t (List.replicate sts.length 1) ∧ SameEngine s t ∧ PatternsKept s t ∧ t.posted = [] ∧ t.quiet = true

/-- R252: the stream of `unblock()` is its 21 RAW writes and 20 delays in order, and no CMD access; no core state changes. -/
def Obligations.UnblockStreamIsExact : Prop :=
  ∀ s : State, s.quiet = true →
    ∃ t : State, exec .unblock s = .next t ∧ t.result = some .unit ∧ Acted s t unblockActs ∧ Accessed s t [] ∧
      Delayed s t (List.replicate 20 5) ∧ SameEngine s t ∧ t.posted = [] ∧ t.quiet = true ∧
      t.core.thp = s.core.thp ∧ t.core.ctl = s.core.ctl ∧ t.core.clkctl = s.core.clkctl ∧
      (s.noCore = true → t.core = s.core) ∧
      (s.noTurn .irq = true → notReads t.history = s.stream ++ eventsOf unblockActs)

/-! ### The transfer engine (44_transfer_engine.md) -/

/-- R271, R272, R250: `start()` ends as its rule says: its accesses, patterns and delays in order and the result are one of
`StartRun`, with a recovery, the 21 patterns and 20 delays of `unblock()`, at most once and only after a failed wait and an IDLE
status, and the original `Timeout` if the retry fails too. -/
def Obligations.StartFollowsItsRule : Prop :=
  ∀ s : State, s.quiet = true →
    ∃ (r : Option OpErr) (t : State) (acts : List Act), exec .start s = .next t ∧
      t.result = some (.status r) ∧ StartRun r acts ∧ Acted s t acts ∧
      t.phase = (if r = none then .startSent else .error) ∧ t.ie = false ∧ Drained s t ∧ t.quiet = true ∧
      t.thread = s.thread ∧ t.buffers = s.buffers ∧ t.controller.fixed = s.controller.fixed ∧
      t.core.thp = s.core.thp ∧ t.core.clkctl = s.core.clkctl ∧ (s.noCore = true → t.core.stat = s.core.stat)

/-- R275, R391: `stop()` writes CTL, reads STAT with no wait between, and succeeds exactly on IDLE. -/
def Obligations.StopFollowsItsRule : Prop :=
  ∀ s : State, s.quiet = true →
    ∃ (x st : Byte) (t : State), exec .stop s = .next t ∧
      t.result = some (.status (if st = 0xF8#8 then none else some (.protocol .idle st))) ∧
      Acted s t [.access 0x8C00000200000050#64 x, .access 0x8D00000300000000#64 st] ∧
      t.phase = (if st = 0xF8#8 then .idle else .error) ∧ Drained s t ∧ t.quiet = true ∧
      t.thread = s.thread ∧ t.buffers = s.buffers ∧ t.controller.fixed = s.controller.fixed ∧
      t.core.thp = s.core.thp ∧ t.core.clkctl = s.core.clkctl ∧ PatternsKept s t ∧
      (s.noCore = true → t.core = { s.core with ctl := 0x50#8, iflg := false, pending := .stop })

/-- R280: `write_message` ends as its rule says: its accesses, patterns and delays in order and the result are one of
`WriteRun`; the payload is not written to. -/
def Obligations.WriteMessageFollowsItsRule : Prop :=
  ∀ (address : Addr7) (payload : List Byte) (s : State), s.quiet = true →
    ∃ (r : Option OpErr) (t : State) (acts : List Act),
      exec (.writeMessage address payload) s = .next t ∧ t.result = some (.status r) ∧
      WriteRun address payload r acts ∧ Acted s t acts ∧
      t.phase = messagePhase r payload.length ∧ t.buffers = [payload] ∧ t.ie = false ∧ Drained s t ∧ t.quiet = true ∧
      t.thread = s.thread ∧ t.controller.fixed = s.controller.fixed ∧
      t.core.thp = s.core.thp ∧ t.core.clkctl = s.core.clkctl ∧ (s.noCore = true → t.core.stat = s.core.stat)

/-- R285, R86: `read_message` ends as its rule says: its accesses, patterns and delays in order, the bytes received and the result
are one of `ReadRun`; the bytes received stand at the front of the buffer and the others are left. -/
def Obligations.ReadMessageFollowsItsRule : Prop :=
  ∀ (address : Addr7) (buffer : List Byte) (s : State), s.quiet = true → buffer ≠ [] →
    ∃ (r : Option OpErr) (t : State) (got : List Byte) (acts : List Act),
      exec (.readMessage address buffer) s = .next t ∧ t.result = some (.status r) ∧
      ReadRun address buffer.length r got acts ∧ Acted s t acts ∧
      t.phase = messagePhase r buffer.length ∧ t.buffers = [got ++ buffer.drop got.length] ∧
      t.ie = false ∧ Drained s t ∧ t.quiet = true ∧
      t.thread = s.thread ∧ t.controller.fixed = s.controller.fixed ∧
      t.core.thp = s.core.thp ∧ t.core.clkctl = s.core.clkctl ∧ (s.noCore = true → t.core.stat = s.core.stat)

/-- R285: a zero-length read returns `InvalidArgument` with no register access and no phase change. With no turn listed it
changes nothing but the result and the caller's buffer; where other agents take turns before it ends, it makes no delay, writes
no pattern, and leaves the ENGINE's side. -/
def Obligations.ZeroLengthReadTouchesNothing : Prop :=
  (∀ (address : Addr7) (s : State), s.moves = [] →
    exec (.readMessage address []) s =
      .next { s with buffers := [[]], result := some (.status (some .invalidArgument)) }) ∧
  (∀ (address : Addr7) (s : State), s.quiet = true →
    ∃ t : State, exec (.readMessage address []) s = .next t ∧ t.result = some (.status (some .invalidArgument)) ∧
      Acted s t [] ∧ t.phase = s.phase ∧ t.buffers = [[]] ∧ t.quiet = true ∧ t.thread = s.thread ∧
      t.controller.fixed = s.controller.fixed ∧ PatternsKept s t ∧ t.core.thp = s.core.thp ∧
      t.core.ctl = s.core.ctl ∧ t.core.clkctl = s.core.clkctl ∧ (s.noCore = true → t.core = s.core))

/-- R290: a batch ends as its rule says: its messages are a `MessagesRun`, then `stop()` runs once; the result counts the
messages completed, and a `stop()` error is reported only when no message failed. -/
def Obligations.BatchFollowsItsRule : Prop :=
  ∀ (msgs : List Message) (s : State), s.quiet = true →
    ∃ (count : Nat) (r : Option OpErr) (x st : Byte) (t : State) (bufs : List (List Byte)) (acts : List Act),
      exec (.executeBatchEngine msgs) s = .next t ∧
      t.result = some (.batch count (match r with | some e => some e | none => stopVerdict st)) ∧
      MessagesRun msgs count r bufs acts ∧ Acted s t (acts ++ stopActs x st) ∧
      t.phase = (if st = Config.statIdle then .idle else .error) ∧ t.buffers = bufs ∧ Drained s t ∧ t.quiet = true ∧
      t.thread = s.thread ∧ t.controller.fixed = s.controller.fixed ∧
      t.core.thp = s.core.thp ∧ t.core.clkctl = s.core.clkctl ∧ (s.noCore = true → t.core.stat = s.core.stat)

/-- R291 (a) to (e): over every batch, the STOP write is made exactly once and only the status read follows it; a START
write is made once for each message attempted and not rejected by `InvalidArgument`, and once more for each recovery among
what the ENGINE did, which made twenty settle delays each and no other delay (R252); the count is that of the messages before the
first failing one, for those after it nothing is done, and all of it is a `MessagesRun`; an empty batch makes no START write. -/
def Obligations.BatchIsFramedByOneStop : Prop :=
  ∀ (msgs : List Message) (s : State), s.quiet = true →
    ∃ (count : Nat) (r err : Option OpErr) (t : State) (bufs : List (List Byte)) (front : List Act) (x st : Byte),
      exec (.executeBatchEngine msgs) s = .next t ∧ t.result = some (.batch count err) ∧
      MessagesRun msgs count r bufs front ∧ err = (match r with | some e => some e | none => stopVerdict st) ∧
      Acted s t (front ++ [.access stopWrite x, .access readStat st]) ∧
      ((accessesOf front).map Prod.fst).count stopWrite = 0 ∧
      ((accessesOf front).map Prod.fst).count startWrite + (if err = some .invalidArgument then 1 else 0) =
        min (count + 1) msgs.length + recoveriesIn front ∧
      delaysIn front = List.replicate (20 * recoveriesIn front) Config.settleUs ∧
      count ≤ msgs.length ∧ (err = none → count = msgs.length ∧ st = 0xF8#8) ∧
      (count < msgs.length → err ≠ none) ∧
      (msgs = [] → front = [] ∧ count = 0 ∧ (st = 0xF8#8 → err = none))

/-! ### The call surface (45_call_surface.md) -/

/-- R320, R384: `open` runs `init()` and then, if that succeeded, `set_clock()`, and the Controller is open with the triple the
search gives; after a `HardwareFault` no Controller is open and no divider is written. `completion` is 0, unless the handler has
signalled since. It writes no pattern, so IE keeps its value (R382). What the fields of the Controller hold after a
`HardwareFault`, where R320 gives no Controller, is the model's choice (assumption 25). `open` of a controller that is open or in a batch is in `MisusedCallsAreRefused`. -/
def Obligations.OpenFollowsItsRule : Prop :=
  ∀ (target window irqLine sys : Nat) (s : State), target ≠ 0 → s.controller.inBatch = false →
    s.controller.isOpen = false → s.quiet = true →
    let p := clockSearch target sys
    ∃ (r : Option OpErr) (t : State) (x y : Byte) (sts : List Byte) (tail : List Act),
      exec (.openController target window irqLine sys) s = .next t ∧ t.result = some (.status r) ∧ initAnswers r sts ∧
      Acted s t (initActs x y sts ++ tail) ∧ Delayed s t (List.replicate sts.length 1) ∧ PatternsKept s t ∧
      t.controller.window = window ∧ t.controller.irqLine = irqLine ∧ t.controller.targetFrequency = target ∧
      t.controller.systemClockRate = sys ∧ t.controller.inBatch = false ∧
      (s.noTurn .irq = true → t.controller.completion = false) ∧
      t.thread = s.thread ∧ t.buffers = s.buffers ∧ Drained s t ∧ t.quiet = true ∧
      (match r with
        | some _ => tail = [] ∧ t.controller.isOpen = false ∧ t.controller.params = s.controller.params ∧ t.phase = s.phase
        | none => (∃ z w : Byte, tail = [.access (writeCommand .thp (thpByte p.thp)) z,
            .access (writeCommand .clkctl (clkByte p.mdiv p.ndiv)) w]) ∧ t.controller.isOpen = true ∧ t.phase = .idle ∧
            t.controller.params = p ∧ t.core.thp = thpByte p.thp ∧ t.core.clkctl = clkByte p.mdiv p.ndiv)

/-- R321: on an open controller with no batch running, `execute_batch` is the engine part of R290 and leaves the controller
open with no batch running. -/
def Obligations.ExecuteBatchRunsOnAnOpenController : Prop :=
  ∀ (msgs : List Message) (s : State), s.controller.isOpen = true → s.controller.inBatch = false → s.quiet = true →
    ∃ (count : Nat) (r : Option OpErr) (x st : Byte) (t : State) (bufs : List (List Byte)) (acts : List Act),
      exec (.executeBatch msgs) s = .next t ∧
      t.result = some (.batch count (match r with | some e => some e | none => stopVerdict st)) ∧
      MessagesRun msgs count r bufs acts ∧ Acted s t (acts ++ stopActs x st) ∧
      t.phase = (if st = Config.statIdle then .idle else .error) ∧ t.buffers = bufs ∧ Drained s t ∧ t.quiet = true ∧
      t.thread = s.thread ∧ t.controller.fixed = s.controller.fixed ∧
      t.core.thp = s.core.thp ∧ t.core.clkctl = s.core.clkctl ∧ (s.noCore = true → t.core.stat = s.core.stat)

/-- R322: `close` of an open controller with no batch running disables the interrupt and closes the controller; it touches no
register of the core and no other software state. -/
def Obligations.CloseDisablesAndCloses : Prop :=
  ∀ s : State, s.controller.isOpen = true → s.controller.inBatch = false → s.quiet = true →
    ∃ t : State, exec .close s = .next t ∧ t.result = some .unit ∧ Acted s t [.pattern 0x00#64] ∧ t.ie = false ∧
      t.controller.fixed = { s.controller.fixed with isOpen := false } ∧ t.thread = s.thread ∧ t.phase = s.phase ∧
      t.buffers = s.buffers ∧ Drained s t ∧ t.quiet = true ∧ t.core.thp = s.core.thp ∧ t.core.ctl = s.core.ctl ∧
      t.core.clkctl = s.core.clkctl ∧ (s.noCore = true → t.core = s.core)

/-- R342, R321, R322: `open` with target 0, and `execute_batch` and `close` of a closed controller or during a batch, are
refused. Refused too, and the model's choice: `open` during a batch, which R323 excludes, and `open` of a controller that is
open, which R218 excludes for want of the `close` between (assumption 16); any call but the handler's while the ENGINE runs an
operation, which R323 and R392 forbid (assumption 15); `set_clock` on a controller with target 0, which its search refuses
(R213, assumption 17). -/
def Obligations.MisusedCallsAreRefused : Prop :=
  ∀ (s : State) (msgs : List Message) (target window irqLine sys : Nat),
    exec (.openController 0 window irqLine sys) s = .refused .zeroTarget ∧
    (target ≠ 0 → s.controller.inBatch = true →
      exec (.openController target window irqLine sys) s = .refused .batchRunning) ∧
    (target ≠ 0 → s.controller.inBatch = false → s.controller.isOpen = true →
      exec (.openController target window irqLine sys) s = .refused .controllerOpen) ∧
    (s.controller.targetFrequency = 0 → exec .setClock s = .refused .zeroTarget) ∧
    (s.controller.isOpen = false →
      exec (.executeBatch msgs) s = .refused .closedController ∧ exec .close s = .refused .closedController) ∧
    (s.controller.isOpen = true → s.controller.inBatch = true →
      exec (.executeBatch msgs) s = .refused .batchRunning ∧ exec .close s = .refused .batchRunning) ∧
    (∀ (c : Call) (ms : List Move) (i : Instr), s.thread ≠ none → s.moves = .call c :: ms → decodeCall c = .ok i →
      i ≠ .irqHandler → step s = .refused .engineBusy)

/-! ### The whole machine -/

/-- R51: the state after reset meets the launch premises, and what the spec leaves unspecified is any value in
`State.PowerOn`: changing any of it keeps a state the spec admits. The values reset itself names there are the model's choice
(assumption 1). -/
def Obligations.ResetIsAPowerOnState : Prop :=
  State.reset.PowerOn ∧
  (∀ (s : State) (core : TwsiCore) (ie lastRead : Bool) (raw cmd : Word) (result : Byte), s.PowerOn →
    { s with core := core, ie := ie, raw := raw,
             port := { s.port with cmd := cmd, result := result, lastRead := lastRead } }.PowerOn)

/-- The invariant holds right after reset. Its part on the Controller's triple rests on the model's choice of that triple at reset
(assumption 1): R51 gives no `params` before `open`. The rest follows from R51's launch values. -/
def Obligations.InvariantHoldsAtReset : Prop := State.reset.Inv

/-- The invariant holds in every state the spec admits at power-on whose triple is in range and whose listed turns hold no
other software's write. -/
def Obligations.InvariantHoldsAtPowerOn : Prop :=
  ∀ s : State, s.PowerOn → s.controller.params.inRange = true →
    (∀ m ∈ s.moves, ∀ off width w, m ≠ .hostWrite off width w) → s.Inv

/-- R85, R32, R215, R218: every step keeps the invariant: what is posted and held is the block's own, an indirect access is in
flight only while the ENGINE polls for it and then only one, the ENGINE's place is one the operations build, an open Controller
is not made anew, and the Controller's triple and what a search has found are in range. -/
def Obligations.EveryStepKeepsTheInvariant : Prop := ∀ s t : State, s.Inv → step s = .next t → t.Inv

/-- R140 ("rule R151 cannot arise from the block's own use") and R31: under the invariant no step faults, whoever's turn
it is. -/
def Obligations.OwnUseNeverFaults : Prop := ∀ s : State, s.Inv → ∀ f : Fault, step s ≠ .fault f

/-- The two readings of an operation agree: calling it and running the machine one primitive statement at a time (R32) comes,
after finitely many steps, to exactly what its meaning gives in one piece, a refusal or a fault included. That an operation has
both readings is the model's choice (assumption 7), and so is which assignments have a step of their own (assumption 8). The
handler, which runs in the other context, is stated apart (`HandlerTakesItsStatementsInOrder`). -/
def Obligations.StepwiseRunAgreesWithTheMeaning : Prop :=
  ∀ (i : Instr) (c : Call) (s : State), encode i = .call c → i ≠ .irqHandler → s.thread = none →
    ∃ n : Nat, run n { s with moves := .call c :: s.moves } = exec i s

/-- R50, R11: who writes each flag, and each register, in any step: `CMD_V` is set by a drain and cleared by the PORT; IFLG is
set by a completion and cleared by the PORT or a completion; IE and RAW change on a drain; `completion` is set by the IRQ
agent's `Signal()` and cleared by the ENGINE, at a wake of its `Block()` or where `open` makes the Controller; the phase and
the Controller's other fields change where the ENGINE stands at an assignment, to what it assigns, and nowhere else; CTL, THP
and CLKCTL change by the PORT, DATA and the pending action by the PORT or a completion, STAT by the CORE; the handler's place
changes by the IRQ agent or a call of the handler; the handler is attached by the host (R383, R385). While a Controller is
open, and the ENGINE does not stand where `open` makes one (which the invariant shuts out), no step changes its window, its
line, its target or its rate: a new frequency needs `close` and a new `open` (R218). The model's choices in it: whose turn is
next (assumption 2), that an assignment is a step of its own (assumption 8), that a call of the handler enters it (assumption
14), that RAW holds the word last written (assumption 21), and that whether the handler is attached is a state that only
attaching changes (assumption 22). -/
def Obligations.EveryFlagHasItsWriters : Prop :=
  ∀ s t : State, step s = .next t →
    (s.port.busy = false → t.port.busy = true → s.nextTurn = .drain) ∧
    (s.port.busy = true → t.port.busy = false → s.nextTurn = .port) ∧
    (s.core.iflg = false → t.core.iflg = true → s.nextTurn = .coreComplete ∧ s.core.pending ≠ .none ∧ s.core.pending ≠ .reset) ∧
    (s.core.iflg = true → t.core.iflg = false → s.nextTurn = .port ∨ s.nextTurn = .coreComplete) ∧
    (t.ie ≠ s.ie ∨ t.raw ≠ s.raw → s.nextTurn = .drain) ∧
    (s.controller.completion = false → t.controller.completion = true → s.nextTurn = .irq ∧ s.irq = .atSignal) ∧
    (s.controller.completion = true → t.controller.completion = false → s.nextTurn = .engine ∧
      ((∃ ks, s.thread = some ⟨.block, ks⟩) ∨ s.creating = true)) ∧
    (t.controller.fixed ≠ s.controller.fixed ∨ t.phase ≠ s.phase → s.nextTurn = .engine ∧
      ∃ (a : Assign) (ks : List Kont), s.thread = some ⟨.assign a, ks⟩ ∧ t.controller = (a.apply s).controller ∧
        t.phase = (a.apply s).phase) ∧
    (t.core.ctl ≠ s.core.ctl ∨ t.core.thp ≠ s.core.thp ∨ t.core.clkctl ≠ s.core.clkctl → s.nextTurn = .port) ∧
    (t.core.data ≠ s.core.data ∨ t.core.pending ≠ s.core.pending → s.nextTurn = .port ∨ s.nextTurn = .coreComplete) ∧
    (t.core.stat ≠ s.core.stat → s.nextTurn = .coreProgress ∨ s.nextTurn = .coreComplete) ∧
    (t.irq ≠ s.irq → s.nextTurn = .irq ∨ ∃ c, s.nextTurn = .call c ∧ decodeCall c = .ok .irqHandler) ∧
    (t.handlerAttached ≠ s.handlerAttached → s.nextTurn = .attach) ∧
    (s.controller.isOpen = true → s.creating = false → t.controller.window = s.controller.window ∧ t.controller.irqLine = s.controller.irqLine ∧
      t.controller.targetFrequency = s.controller.targetFrequency ∧
      t.controller.systemClockRate = s.controller.systemClockRate)

/-- R324: a step of one controller changes no other one, and does not look at it. R324 says that two Controllers have distinct
windows and lines; that two opened with equal numbers run as two separate devices all the same is the model's choice
(assumption 18). -/
def Obligations.ControllersAreIndependent : Prop :=
  (∀ (k j : Nat) (ss ts : List State), stepInstance k ss = .next ts → j ≠ k → ts[j]? = ss[j]?) ∧
  (∀ (k j : Nat) (ss ts : List State) (u : State), stepInstance k ss = .next ts → j ≠ k →
    stepInstance k (ss.set j u) = .next (ts.set j u))
end

