-- ==== Sys2Proof/Laws/State.lean ====
section
/-! SUPPORT. What each update of the state leaves and what it sets: one lemma per field per update, true by rfl, so that no
later proof unfolds a record update. -/

namespace Sys2Proof.Machine

/-! ### `State.setIflg` -/

@[simp] theorem State.setIflg_port (s : State) (b : Bool) : (s.setIflg b).port = s.port := rfl
@[simp] theorem State.setIflg_core (s : State) (b : Bool) : (s.setIflg b).core = { s.core with iflg := b } := rfl
@[simp] theorem State.setIflg_ie (s : State) (b : Bool) : (s.setIflg b).ie = s.ie := rfl
@[simp] theorem State.setIflg_raw (s : State) (b : Bool) : (s.setIflg b).raw = s.raw := rfl
@[simp] theorem State.setIflg_posted (s : State) (b : Bool) : (s.setIflg b).posted = s.posted := rfl
@[simp] theorem State.setIflg_history (s : State) (b : Bool) : (s.setIflg b).history = s.history := rfl
@[simp] theorem State.setIflg_controller (s : State) (b : Bool) : (s.setIflg b).controller = s.controller := rfl
@[simp] theorem State.setIflg_phase (s : State) (b : Bool) : (s.setIflg b).phase = s.phase := rfl
@[simp] theorem State.setIflg_thread (s : State) (b : Bool) : (s.setIflg b).thread = s.thread := rfl
@[simp] theorem State.setIflg_result (s : State) (b : Bool) : (s.setIflg b).result = s.result := rfl
@[simp] theorem State.setIflg_buffers (s : State) (b : Bool) : (s.setIflg b).buffers = s.buffers := rfl
@[simp] theorem State.setIflg_irq (s : State) (b : Bool) : (s.setIflg b).irq = s.irq := rfl
@[simp] theorem State.setIflg_handlerAttached (s : State) (b : Bool) : (s.setIflg b).handlerAttached = s.handlerAttached := rfl
@[simp] theorem State.setIflg_moves (s : State) (b : Bool) : (s.setIflg b).moves = s.moves := rfl
@[simp] theorem State.setIflg_draws (s : State) (b : Bool) : (s.setIflg b).draws = s.draws := rfl
@[simp] theorem State.setIflg_drawn (s : State) (b : Bool) : (s.setIflg b).drawn = s.drawn := rfl

/-! ### `State.setIe` -/

@[simp] theorem State.setIe_port (s : State) (b : Bool) : (s.setIe b).port = s.port := rfl
@[simp] theorem State.setIe_core (s : State) (b : Bool) : (s.setIe b).core = s.core := rfl
@[simp] theorem State.setIe_ie (s : State) (b : Bool) : (s.setIe b).ie = b := rfl
@[simp] theorem State.setIe_raw (s : State) (b : Bool) : (s.setIe b).raw = s.raw := rfl
@[simp] theorem State.setIe_posted (s : State) (b : Bool) : (s.setIe b).posted = s.posted := rfl
@[simp] theorem State.setIe_history (s : State) (b : Bool) : (s.setIe b).history = s.history := rfl
@[simp] theorem State.setIe_controller (s : State) (b : Bool) : (s.setIe b).controller = s.controller := rfl
@[simp] theorem State.setIe_phase (s : State) (b : Bool) : (s.setIe b).phase = s.phase := rfl
@[simp] theorem State.setIe_thread (s : State) (b : Bool) : (s.setIe b).thread = s.thread := rfl
@[simp] theorem State.setIe_result (s : State) (b : Bool) : (s.setIe b).result = s.result := rfl
@[simp] theorem State.setIe_buffers (s : State) (b : Bool) : (s.setIe b).buffers = s.buffers := rfl
@[simp] theorem State.setIe_irq (s : State) (b : Bool) : (s.setIe b).irq = s.irq := rfl
@[simp] theorem State.setIe_handlerAttached (s : State) (b : Bool) : (s.setIe b).handlerAttached = s.handlerAttached := rfl
@[simp] theorem State.setIe_moves (s : State) (b : Bool) : (s.setIe b).moves = s.moves := rfl
@[simp] theorem State.setIe_draws (s : State) (b : Bool) : (s.setIe b).draws = s.draws := rfl
@[simp] theorem State.setIe_drawn (s : State) (b : Bool) : (s.setIe b).drawn = s.drawn := rfl

/-! ### `State.signal` -/

@[simp] theorem State.signal_port (s : State) : s.signal.port = s.port := rfl
@[simp] theorem State.signal_core (s : State) : s.signal.core = s.core := rfl
@[simp] theorem State.signal_ie (s : State) : s.signal.ie = s.ie := rfl
@[simp] theorem State.signal_raw (s : State) : s.signal.raw = s.raw := rfl
@[simp] theorem State.signal_posted (s : State) : s.signal.posted = s.posted := rfl
@[simp] theorem State.signal_history (s : State) : s.signal.history = s.history := rfl
@[simp] theorem State.signal_controller (s : State) : s.signal.controller = { s.controller with completion := true } := rfl
@[simp] theorem State.signal_phase (s : State) : s.signal.phase = s.phase := rfl
@[simp] theorem State.signal_thread (s : State) : s.signal.thread = s.thread := rfl
@[simp] theorem State.signal_result (s : State) : s.signal.result = s.result := rfl
@[simp] theorem State.signal_buffers (s : State) : s.signal.buffers = s.buffers := rfl
@[simp] theorem State.signal_irq (s : State) : s.signal.irq = s.irq := rfl
@[simp] theorem State.signal_handlerAttached (s : State) : s.signal.handlerAttached = s.handlerAttached := rfl
@[simp] theorem State.signal_moves (s : State) : s.signal.moves = s.moves := rfl
@[simp] theorem State.signal_draws (s : State) : s.signal.draws = s.draws := rfl
@[simp] theorem State.signal_drawn (s : State) : s.signal.drawn = s.drawn := rfl

/-! ### `State.consume` -/

@[simp] theorem State.consume_port (s : State) : s.consume.port = s.port := rfl
@[simp] theorem State.consume_core (s : State) : s.consume.core = s.core := rfl
@[simp] theorem State.consume_ie (s : State) : s.consume.ie = s.ie := rfl
@[simp] theorem State.consume_raw (s : State) : s.consume.raw = s.raw := rfl
@[simp] theorem State.consume_posted (s : State) : s.consume.posted = s.posted := rfl
@[simp] theorem State.consume_history (s : State) : s.consume.history = s.history := rfl
@[simp] theorem State.consume_controller (s : State) : s.consume.controller = { s.controller with completion := false } := rfl
@[simp] theorem State.consume_phase (s : State) : s.consume.phase = s.phase := rfl
@[simp] theorem State.consume_thread (s : State) : s.consume.thread = s.thread := rfl
@[simp] theorem State.consume_result (s : State) : s.consume.result = s.result := rfl
@[simp] theorem State.consume_buffers (s : State) : s.consume.buffers = s.buffers := rfl
@[simp] theorem State.consume_irq (s : State) : s.consume.irq = s.irq := rfl
@[simp] theorem State.consume_handlerAttached (s : State) : s.consume.handlerAttached = s.handlerAttached := rfl
@[simp] theorem State.consume_moves (s : State) : s.consume.moves = s.moves := rfl
@[simp] theorem State.consume_draws (s : State) : s.consume.draws = s.draws := rfl
@[simp] theorem State.consume_drawn (s : State) : s.consume.drawn = s.drawn := rfl

/-! ### `State.setOpen` -/

@[simp] theorem State.setOpen_port (s : State) (b : Bool) : (s.setOpen b).port = s.port := rfl
@[simp] theorem State.setOpen_core (s : State) (b : Bool) : (s.setOpen b).core = s.core := rfl
@[simp] theorem State.setOpen_ie (s : State) (b : Bool) : (s.setOpen b).ie = s.ie := rfl
@[simp] theorem State.setOpen_raw (s : State) (b : Bool) : (s.setOpen b).raw = s.raw := rfl
@[simp] theorem State.setOpen_posted (s : State) (b : Bool) : (s.setOpen b).posted = s.posted := rfl
@[simp] theorem State.setOpen_history (s : State) (b : Bool) : (s.setOpen b).history = s.history := rfl
@[simp] theorem State.setOpen_controller (s : State) (b : Bool) : (s.setOpen b).controller = { s.controller with isOpen := b } := rfl
@[simp] theorem State.setOpen_phase (s : State) (b : Bool) : (s.setOpen b).phase = s.phase := rfl
@[simp] theorem State.setOpen_thread (s : State) (b : Bool) : (s.setOpen b).thread = s.thread := rfl
@[simp] theorem State.setOpen_result (s : State) (b : Bool) : (s.setOpen b).result = s.result := rfl
@[simp] theorem State.setOpen_buffers (s : State) (b : Bool) : (s.setOpen b).buffers = s.buffers := rfl
@[simp] theorem State.setOpen_irq (s : State) (b : Bool) : (s.setOpen b).irq = s.irq := rfl
@[simp] theorem State.setOpen_handlerAttached (s : State) (b : Bool) : (s.setOpen b).handlerAttached = s.handlerAttached := rfl
@[simp] theorem State.setOpen_moves (s : State) (b : Bool) : (s.setOpen b).moves = s.moves := rfl
@[simp] theorem State.setOpen_draws (s : State) (b : Bool) : (s.setOpen b).draws = s.draws := rfl
@[simp] theorem State.setOpen_drawn (s : State) (b : Bool) : (s.setOpen b).drawn = s.drawn := rfl

/-! ### `State.setInBatch` -/

@[simp] theorem State.setInBatch_port (s : State) (b : Bool) : (s.setInBatch b).port = s.port := rfl
@[simp] theorem State.setInBatch_core (s : State) (b : Bool) : (s.setInBatch b).core = s.core := rfl
@[simp] theorem State.setInBatch_ie (s : State) (b : Bool) : (s.setInBatch b).ie = s.ie := rfl
@[simp] theorem State.setInBatch_raw (s : State) (b : Bool) : (s.setInBatch b).raw = s.raw := rfl
@[simp] theorem State.setInBatch_posted (s : State) (b : Bool) : (s.setInBatch b).posted = s.posted := rfl
@[simp] theorem State.setInBatch_history (s : State) (b : Bool) : (s.setInBatch b).history = s.history := rfl
@[simp] theorem State.setInBatch_controller (s : State) (b : Bool) : (s.setInBatch b).controller = { s.controller with inBatch := b } := rfl
@[simp] theorem State.setInBatch_phase (s : State) (b : Bool) : (s.setInBatch b).phase = s.phase := rfl
@[simp] theorem State.setInBatch_thread (s : State) (b : Bool) : (s.setInBatch b).thread = s.thread := rfl
@[simp] theorem State.setInBatch_result (s : State) (b : Bool) : (s.setInBatch b).result = s.result := rfl
@[simp] theorem State.setInBatch_buffers (s : State) (b : Bool) : (s.setInBatch b).buffers = s.buffers := rfl
@[simp] theorem State.setInBatch_irq (s : State) (b : Bool) : (s.setInBatch b).irq = s.irq := rfl
@[simp] theorem State.setInBatch_handlerAttached (s : State) (b : Bool) : (s.setInBatch b).handlerAttached = s.handlerAttached := rfl
@[simp] theorem State.setInBatch_moves (s : State) (b : Bool) : (s.setInBatch b).moves = s.moves := rfl
@[simp] theorem State.setInBatch_draws (s : State) (b : Bool) : (s.setInBatch b).draws = s.draws := rfl
@[simp] theorem State.setInBatch_drawn (s : State) (b : Bool) : (s.setInBatch b).drawn = s.drawn := rfl

/-! ### `State.setParams` -/

@[simp] theorem State.setParams_port (s : State) (p : ClockParams) : (s.setParams p).port = s.port := rfl
@[simp] theorem State.setParams_core (s : State) (p : ClockParams) : (s.setParams p).core = s.core := rfl
@[simp] theorem State.setParams_ie (s : State) (p : ClockParams) : (s.setParams p).ie = s.ie := rfl
@[simp] theorem State.setParams_raw (s : State) (p : ClockParams) : (s.setParams p).raw = s.raw := rfl
@[simp] theorem State.setParams_posted (s : State) (p : ClockParams) : (s.setParams p).posted = s.posted := rfl
@[simp] theorem State.setParams_history (s : State) (p : ClockParams) : (s.setParams p).history = s.history := rfl
@[simp] theorem State.setParams_controller (s : State) (p : ClockParams) : (s.setParams p).controller = { s.controller with params := p } := rfl
@[simp] theorem State.setParams_phase (s : State) (p : ClockParams) : (s.setParams p).phase = s.phase := rfl
@[simp] theorem State.setParams_thread (s : State) (p : ClockParams) : (s.setParams p).thread = s.thread := rfl
@[simp] theorem State.setParams_result (s : State) (p : ClockParams) : (s.setParams p).result = s.result := rfl
@[simp] theorem State.setParams_buffers (s : State) (p : ClockParams) : (s.setParams p).buffers = s.buffers := rfl
@[simp] theorem State.setParams_irq (s : State) (p : ClockParams) : (s.setParams p).irq = s.irq := rfl
@[simp] theorem State.setParams_handlerAttached (s : State) (p : ClockParams) : (s.setParams p).handlerAttached = s.handlerAttached := rfl
@[simp] theorem State.setParams_moves (s : State) (p : ClockParams) : (s.setParams p).moves = s.moves := rfl
@[simp] theorem State.setParams_draws (s : State) (p : ClockParams) : (s.setParams p).draws = s.draws := rfl
@[simp] theorem State.setParams_drawn (s : State) (p : ClockParams) : (s.setParams p).drawn = s.drawn := rfl

/-! ### `State.setPhase` -/

@[simp] theorem State.setPhase_port (s : State) (p : Phase) : (s.setPhase p).port = s.port := rfl
@[simp] theorem State.setPhase_core (s : State) (p : Phase) : (s.setPhase p).core = s.core := rfl
@[simp] theorem State.setPhase_ie (s : State) (p : Phase) : (s.setPhase p).ie = s.ie := rfl
@[simp] theorem State.setPhase_raw (s : State) (p : Phase) : (s.setPhase p).raw = s.raw := rfl
@[simp] theorem State.setPhase_posted (s : State) (p : Phase) : (s.setPhase p).posted = s.posted := rfl
@[simp] theorem State.setPhase_history (s : State) (p : Phase) : (s.setPhase p).history = s.history := rfl
@[simp] theorem State.setPhase_controller (s : State) (p : Phase) : (s.setPhase p).controller = s.controller := rfl
@[simp] theorem State.setPhase_phase (s : State) (p : Phase) : (s.setPhase p).phase = p := rfl
@[simp] theorem State.setPhase_thread (s : State) (p : Phase) : (s.setPhase p).thread = s.thread := rfl
@[simp] theorem State.setPhase_result (s : State) (p : Phase) : (s.setPhase p).result = s.result := rfl
@[simp] theorem State.setPhase_buffers (s : State) (p : Phase) : (s.setPhase p).buffers = s.buffers := rfl
@[simp] theorem State.setPhase_irq (s : State) (p : Phase) : (s.setPhase p).irq = s.irq := rfl
@[simp] theorem State.setPhase_handlerAttached (s : State) (p : Phase) : (s.setPhase p).handlerAttached = s.handlerAttached := rfl
@[simp] theorem State.setPhase_moves (s : State) (p : Phase) : (s.setPhase p).moves = s.moves := rfl
@[simp] theorem State.setPhase_draws (s : State) (p : Phase) : (s.setPhase p).draws = s.draws := rfl
@[simp] theorem State.setPhase_drawn (s : State) (p : Phase) : (s.setPhase p).drawn = s.drawn := rfl

/-! ### `State.record` -/

@[simp] theorem State.record_port (s : State) (e : Event) : (s.record e).port = s.port := rfl
@[simp] theorem State.record_core (s : State) (e : Event) : (s.record e).core = s.core := rfl
@[simp] theorem State.record_ie (s : State) (e : Event) : (s.record e).ie = s.ie := rfl
@[simp] theorem State.record_raw (s : State) (e : Event) : (s.record e).raw = s.raw := rfl
@[simp] theorem State.record_posted (s : State) (e : Event) : (s.record e).posted = s.posted := rfl
@[simp] theorem State.record_history (s : State) (e : Event) : (s.record e).history = s.history ++ [e] := rfl
@[simp] theorem State.record_controller (s : State) (e : Event) : (s.record e).controller = s.controller := rfl
@[simp] theorem State.record_phase (s : State) (e : Event) : (s.record e).phase = s.phase := rfl
@[simp] theorem State.record_thread (s : State) (e : Event) : (s.record e).thread = s.thread := rfl
@[simp] theorem State.record_result (s : State) (e : Event) : (s.record e).result = s.result := rfl
@[simp] theorem State.record_buffers (s : State) (e : Event) : (s.record e).buffers = s.buffers := rfl
@[simp] theorem State.record_irq (s : State) (e : Event) : (s.record e).irq = s.irq := rfl
@[simp] theorem State.record_handlerAttached (s : State) (e : Event) : (s.record e).handlerAttached = s.handlerAttached := rfl
@[simp] theorem State.record_moves (s : State) (e : Event) : (s.record e).moves = s.moves := rfl
@[simp] theorem State.record_draws (s : State) (e : Event) : (s.record e).draws = s.draws := rfl
@[simp] theorem State.record_drawn (s : State) (e : Event) : (s.record e).drawn = s.drawn := rfl

/-! ### `State.withMoves` -/

@[simp] theorem State.withMoves_port (s : State) (ms : List Move) : (s.withMoves ms).port = s.port := rfl
@[simp] theorem State.withMoves_core (s : State) (ms : List Move) : (s.withMoves ms).core = s.core := rfl
@[simp] theorem State.withMoves_ie (s : State) (ms : List Move) : (s.withMoves ms).ie = s.ie := rfl
@[simp] theorem State.withMoves_raw (s : State) (ms : List Move) : (s.withMoves ms).raw = s.raw := rfl
@[simp] theorem State.withMoves_posted (s : State) (ms : List Move) : (s.withMoves ms).posted = s.posted := rfl
@[simp] theorem State.withMoves_history (s : State) (ms : List Move) : (s.withMoves ms).history = s.history := rfl
@[simp] theorem State.withMoves_controller (s : State) (ms : List Move) : (s.withMoves ms).controller = s.controller := rfl
@[simp] theorem State.withMoves_phase (s : State) (ms : List Move) : (s.withMoves ms).phase = s.phase := rfl
@[simp] theorem State.withMoves_thread (s : State) (ms : List Move) : (s.withMoves ms).thread = s.thread := rfl
@[simp] theorem State.withMoves_result (s : State) (ms : List Move) : (s.withMoves ms).result = s.result := rfl
@[simp] theorem State.withMoves_buffers (s : State) (ms : List Move) : (s.withMoves ms).buffers = s.buffers := rfl
@[simp] theorem State.withMoves_irq (s : State) (ms : List Move) : (s.withMoves ms).irq = s.irq := rfl
@[simp] theorem State.withMoves_handlerAttached (s : State) (ms : List Move) : (s.withMoves ms).handlerAttached = s.handlerAttached := rfl
@[simp] theorem State.withMoves_moves (s : State) (ms : List Move) : (s.withMoves ms).moves = ms := rfl
@[simp] theorem State.withMoves_draws (s : State) (ms : List Move) : (s.withMoves ms).draws = s.draws := rfl
@[simp] theorem State.withMoves_drawn (s : State) (ms : List Move) : (s.withMoves ms).drawn = s.drawn := rfl

/-! ### `State.standAt` -/

@[simp] theorem State.standAt_port (s : State) (st : Stmt) (ks : List Kont) : (s.standAt st ks).port = s.port := rfl
@[simp] theorem State.standAt_core (s : State) (st : Stmt) (ks : List Kont) : (s.standAt st ks).core = s.core := rfl
@[simp] theorem State.standAt_ie (s : State) (st : Stmt) (ks : List Kont) : (s.standAt st ks).ie = s.ie := rfl
@[simp] theorem State.standAt_raw (s : State) (st : Stmt) (ks : List Kont) : (s.standAt st ks).raw = s.raw := rfl
@[simp] theorem State.standAt_posted (s : State) (st : Stmt) (ks : List Kont) : (s.standAt st ks).posted = s.posted := rfl
@[simp] theorem State.standAt_history (s : State) (st : Stmt) (ks : List Kont) : (s.standAt st ks).history = s.history := rfl
@[simp] theorem State.standAt_controller (s : State) (st : Stmt) (ks : List Kont) : (s.standAt st ks).controller = s.controller := rfl
@[simp] theorem State.standAt_phase (s : State) (st : Stmt) (ks : List Kont) : (s.standAt st ks).phase = s.phase := rfl
@[simp] theorem State.standAt_thread (s : State) (st : Stmt) (ks : List Kont) : (s.standAt st ks).thread = some ⟨st, ks⟩ := rfl
@[simp] theorem State.standAt_result (s : State) (st : Stmt) (ks : List Kont) : (s.standAt st ks).result = s.result := rfl
@[simp] theorem State.standAt_buffers (s : State) (st : Stmt) (ks : List Kont) : (s.standAt st ks).buffers = s.buffers := rfl
@[simp] theorem State.standAt_irq (s : State) (st : Stmt) (ks : List Kont) : (s.standAt st ks).irq = s.irq := rfl
@[simp] theorem State.standAt_handlerAttached (s : State) (st : Stmt) (ks : List Kont) : (s.standAt st ks).handlerAttached = s.handlerAttached := rfl
@[simp] theorem State.standAt_moves (s : State) (st : Stmt) (ks : List Kont) : (s.standAt st ks).moves = s.moves := rfl
@[simp] theorem State.standAt_draws (s : State) (st : Stmt) (ks : List Kont) : (s.standAt st ks).draws = s.draws := rfl
@[simp] theorem State.standAt_drawn (s : State) (st : Stmt) (ks : List Kont) : (s.standAt st ks).drawn = s.drawn := rfl

/-! ### `State.withBuffers` -/

@[simp] theorem State.withBuffers_port (s : State) (bufs : List (List Byte)) : (s.withBuffers bufs).port = s.port := rfl
@[simp] theorem State.withBuffers_core (s : State) (bufs : List (List Byte)) : (s.withBuffers bufs).core = s.core := rfl
@[simp] theorem State.withBuffers_ie (s : State) (bufs : List (List Byte)) : (s.withBuffers bufs).ie = s.ie := rfl
@[simp] theorem State.withBuffers_raw (s : State) (bufs : List (List Byte)) : (s.withBuffers bufs).raw = s.raw := rfl
@[simp] theorem State.withBuffers_posted (s : State) (bufs : List (List Byte)) : (s.withBuffers bufs).posted = s.posted := rfl
@[simp] theorem State.withBuffers_history (s : State) (bufs : List (List Byte)) : (s.withBuffers bufs).history = s.history := rfl
@[simp] theorem State.withBuffers_controller (s : State) (bufs : List (List Byte)) : (s.withBuffers bufs).controller = s.controller := rfl
@[simp] theorem State.withBuffers_phase (s : State) (bufs : List (List Byte)) : (s.withBuffers bufs).phase = s.phase := rfl
@[simp] theorem State.withBuffers_thread (s : State) (bufs : List (List Byte)) : (s.withBuffers bufs).thread = s.thread := rfl
@[simp] theorem State.withBuffers_result (s : State) (bufs : List (List Byte)) : (s.withBuffers bufs).result = s.result := rfl
@[simp] theorem State.withBuffers_buffers (s : State) (bufs : List (List Byte)) : (s.withBuffers bufs).buffers = bufs := rfl
@[simp] theorem State.withBuffers_irq (s : State) (bufs : List (List Byte)) : (s.withBuffers bufs).irq = s.irq := rfl
@[simp] theorem State.withBuffers_handlerAttached (s : State) (bufs : List (List Byte)) : (s.withBuffers bufs).handlerAttached = s.handlerAttached := rfl
@[simp] theorem State.withBuffers_moves (s : State) (bufs : List (List Byte)) : (s.withBuffers bufs).moves = s.moves := rfl
@[simp] theorem State.withBuffers_draws (s : State) (bufs : List (List Byte)) : (s.withBuffers bufs).draws = s.draws := rfl
@[simp] theorem State.withBuffers_drawn (s : State) (bufs : List (List Byte)) : (s.withBuffers bufs).drawn = s.drawn := rfl

/-! ### `State.setController` -/

@[simp] theorem State.setController_port (s : State) (target window irqLine sys : Nat) : (s.setController target window irqLine sys).port = s.port := rfl
@[simp] theorem State.setController_core (s : State) (target window irqLine sys : Nat) : (s.setController target window irqLine sys).core = s.core := rfl
@[simp] theorem State.setController_ie (s : State) (target window irqLine sys : Nat) : (s.setController target window irqLine sys).ie = s.ie := rfl
@[simp] theorem State.setController_raw (s : State) (target window irqLine sys : Nat) : (s.setController target window irqLine sys).raw = s.raw := rfl
@[simp] theorem State.setController_posted (s : State) (target window irqLine sys : Nat) : (s.setController target window irqLine sys).posted = s.posted := rfl
@[simp] theorem State.setController_history (s : State) (target window irqLine sys : Nat) : (s.setController target window irqLine sys).history = s.history := rfl
@[simp] theorem State.setController_controller (s : State) (target window irqLine sys : Nat) : (s.setController target window irqLine sys).controller = newController target window irqLine sys s.controller := rfl
@[simp] theorem State.setController_phase (s : State) (target window irqLine sys : Nat) : (s.setController target window irqLine sys).phase = s.phase := rfl
@[simp] theorem State.setController_thread (s : State) (target window irqLine sys : Nat) : (s.setController target window irqLine sys).thread = s.thread := rfl
@[simp] theorem State.setController_result (s : State) (target window irqLine sys : Nat) : (s.setController target window irqLine sys).result = s.result := rfl
@[simp] theorem State.setController_buffers (s : State) (target window irqLine sys : Nat) : (s.setController target window irqLine sys).buffers = s.buffers := rfl
@[simp] theorem State.setController_irq (s : State) (target window irqLine sys : Nat) : (s.setController target window irqLine sys).irq = s.irq := rfl
@[simp] theorem State.setController_handlerAttached (s : State) (target window irqLine sys : Nat) : (s.setController target window irqLine sys).handlerAttached = s.handlerAttached := rfl
@[simp] theorem State.setController_moves (s : State) (target window irqLine sys : Nat) : (s.setController target window irqLine sys).moves = s.moves := rfl
@[simp] theorem State.setController_draws (s : State) (target window irqLine sys : Nat) : (s.setController target window irqLine sys).draws = s.draws := rfl
@[simp] theorem State.setController_drawn (s : State) (target window irqLine sys : Nat) : (s.setController target window irqLine sys).drawn = s.drawn := rfl

/-! ### `State.setBufferByte` -/

@[simp] theorem State.setBufferByte_port (s : State) (k i : Nat) (b : Byte) : (s.setBufferByte k i b).port = s.port := rfl
@[simp] theorem State.setBufferByte_core (s : State) (k i : Nat) (b : Byte) : (s.setBufferByte k i b).core = s.core := rfl
@[simp] theorem State.setBufferByte_ie (s : State) (k i : Nat) (b : Byte) : (s.setBufferByte k i b).ie = s.ie := rfl
@[simp] theorem State.setBufferByte_raw (s : State) (k i : Nat) (b : Byte) : (s.setBufferByte k i b).raw = s.raw := rfl
@[simp] theorem State.setBufferByte_posted (s : State) (k i : Nat) (b : Byte) : (s.setBufferByte k i b).posted = s.posted := rfl
@[simp] theorem State.setBufferByte_history (s : State) (k i : Nat) (b : Byte) : (s.setBufferByte k i b).history = s.history := rfl
@[simp] theorem State.setBufferByte_controller (s : State) (k i : Nat) (b : Byte) : (s.setBufferByte k i b).controller = s.controller := rfl
@[simp] theorem State.setBufferByte_phase (s : State) (k i : Nat) (b : Byte) : (s.setBufferByte k i b).phase = s.phase := rfl
@[simp] theorem State.setBufferByte_thread (s : State) (k i : Nat) (b : Byte) : (s.setBufferByte k i b).thread = s.thread := rfl
@[simp] theorem State.setBufferByte_result (s : State) (k i : Nat) (b : Byte) : (s.setBufferByte k i b).result = s.result := rfl
@[simp] theorem State.setBufferByte_buffers (s : State) (k i : Nat) (b : Byte) : (s.setBufferByte k i b).buffers = s.buffers.modify k fun buf => buf.set i b := rfl
@[simp] theorem State.setBufferByte_irq (s : State) (k i : Nat) (b : Byte) : (s.setBufferByte k i b).irq = s.irq := rfl
@[simp] theorem State.setBufferByte_handlerAttached (s : State) (k i : Nat) (b : Byte) : (s.setBufferByte k i b).handlerAttached = s.handlerAttached := rfl
@[simp] theorem State.setBufferByte_moves (s : State) (k i : Nat) (b : Byte) : (s.setBufferByte k i b).moves = s.moves := rfl
@[simp] theorem State.setBufferByte_draws (s : State) (k i : Nat) (b : Byte) : (s.setBufferByte k i b).draws = s.draws := rfl
@[simp] theorem State.setBufferByte_drawn (s : State) (k i : Nat) (b : Byte) : (s.setBufferByte k i b).drawn = s.drawn := rfl

/-! ### `ctlWrite` -/

@[simp] theorem ctlWrite_port (s : State) (b : Byte) : (ctlWrite b s).port = s.port := rfl
@[simp] theorem ctlWrite_core (s : State) (b : Byte) : (ctlWrite b s).core = { s.core with ctl := b, iflg := false, pending := ctlAction b } := rfl
@[simp] theorem ctlWrite_ie (s : State) (b : Byte) : (ctlWrite b s).ie = s.ie := rfl
@[simp] theorem ctlWrite_raw (s : State) (b : Byte) : (ctlWrite b s).raw = s.raw := rfl
@[simp] theorem ctlWrite_posted (s : State) (b : Byte) : (ctlWrite b s).posted = s.posted := rfl
@[simp] theorem ctlWrite_history (s : State) (b : Byte) : (ctlWrite b s).history = s.history := rfl
@[simp] theorem ctlWrite_controller (s : State) (b : Byte) : (ctlWrite b s).controller = s.controller := rfl
@[simp] theorem ctlWrite_phase (s : State) (b : Byte) : (ctlWrite b s).phase = s.phase := rfl
@[simp] theorem ctlWrite_thread (s : State) (b : Byte) : (ctlWrite b s).thread = s.thread := rfl
@[simp] theorem ctlWrite_result (s : State) (b : Byte) : (ctlWrite b s).result = s.result := rfl
@[simp] theorem ctlWrite_buffers (s : State) (b : Byte) : (ctlWrite b s).buffers = s.buffers := rfl
@[simp] theorem ctlWrite_irq (s : State) (b : Byte) : (ctlWrite b s).irq = s.irq := rfl
@[simp] theorem ctlWrite_handlerAttached (s : State) (b : Byte) : (ctlWrite b s).handlerAttached = s.handlerAttached := rfl
@[simp] theorem ctlWrite_moves (s : State) (b : Byte) : (ctlWrite b s).moves = s.moves := rfl
@[simp] theorem ctlWrite_draws (s : State) (b : Byte) : (ctlWrite b s).draws = s.draws := rfl
@[simp] theorem ctlWrite_drawn (s : State) (b : Byte) : (ctlWrite b s).drawn = s.drawn := rfl

/-! ### `portDone` -/

@[simp] theorem portDone_port (s : State) (w : Word) : (portDone w s).port = { s.port with busy := false, lastRead := cmdIsRead w } := rfl
@[simp] theorem portDone_core (s : State) (w : Word) : (portDone w s).core = s.core := rfl
@[simp] theorem portDone_ie (s : State) (w : Word) : (portDone w s).ie = s.ie := rfl
@[simp] theorem portDone_raw (s : State) (w : Word) : (portDone w s).raw = s.raw := rfl
@[simp] theorem portDone_posted (s : State) (w : Word) : (portDone w s).posted = s.posted := rfl
@[simp] theorem portDone_history (s : State) (w : Word) : (portDone w s).history = s.history := rfl
@[simp] theorem portDone_controller (s : State) (w : Word) : (portDone w s).controller = s.controller := rfl
@[simp] theorem portDone_phase (s : State) (w : Word) : (portDone w s).phase = s.phase := rfl
@[simp] theorem portDone_thread (s : State) (w : Word) : (portDone w s).thread = s.thread := rfl
@[simp] theorem portDone_result (s : State) (w : Word) : (portDone w s).result = s.result := rfl
@[simp] theorem portDone_buffers (s : State) (w : Word) : (portDone w s).buffers = s.buffers := rfl
@[simp] theorem portDone_irq (s : State) (w : Word) : (portDone w s).irq = s.irq := rfl
@[simp] theorem portDone_handlerAttached (s : State) (w : Word) : (portDone w s).handlerAttached = s.handlerAttached := rfl
@[simp] theorem portDone_moves (s : State) (w : Word) : (portDone w s).moves = s.moves := rfl
@[simp] theorem portDone_draws (s : State) (w : Word) : (portDone w s).draws = s.draws := rfl
@[simp] theorem portDone_drawn (s : State) (w : Word) : (portDone w s).drawn = s.drawn := rfl

/-! ### `irqLeave` -/

@[simp] theorem irqLeave_port (s : State) : (irqLeave s).port = s.port := rfl
@[simp] theorem irqLeave_core (s : State) : (irqLeave s).core = s.core := rfl
@[simp] theorem irqLeave_ie (s : State) : (irqLeave s).ie = s.ie := rfl
@[simp] theorem irqLeave_raw (s : State) : (irqLeave s).raw = s.raw := rfl
@[simp] theorem irqLeave_posted (s : State) : (irqLeave s).posted = s.posted := rfl
@[simp] theorem irqLeave_history (s : State) : (irqLeave s).history = s.history := rfl
@[simp] theorem irqLeave_controller (s : State) : (irqLeave s).controller = s.controller := rfl
@[simp] theorem irqLeave_phase (s : State) : (irqLeave s).phase = s.phase := rfl
@[simp] theorem irqLeave_thread (s : State) : (irqLeave s).thread = s.thread := rfl
@[simp] theorem irqLeave_result (s : State) : (irqLeave s).result = s.result := rfl
@[simp] theorem irqLeave_buffers (s : State) : (irqLeave s).buffers = s.buffers := rfl
@[simp] theorem irqLeave_irq (s : State) : (irqLeave s).irq = .out := rfl
@[simp] theorem irqLeave_handlerAttached (s : State) : (irqLeave s).handlerAttached = s.handlerAttached := rfl
@[simp] theorem irqLeave_moves (s : State) : (irqLeave s).moves = s.moves := rfl
@[simp] theorem irqLeave_draws (s : State) : (irqLeave s).draws = s.draws := rfl
@[simp] theorem irqLeave_drawn (s : State) : (irqLeave s).drawn = s.drawn := rfl

/-! ### Assignments (R11) -/

@[simp] theorem Assign.apply_phase (s : State) (p : Phase) : (Assign.phase p).apply s = s.setPhase p := rfl
@[simp] theorem Assign.apply_params (s : State) (p : ClockParams) : (Assign.params p).apply s = s.setParams p := rfl
@[simp] theorem Assign.apply_isOpen (s : State) (b : Bool) : (Assign.isOpen b).apply s = s.setOpen b := rfl
@[simp] theorem Assign.apply_inBatch (s : State) (b : Bool) : (Assign.inBatch b).apply s = s.setInBatch b := rfl
@[simp] theorem Assign.apply_controller (s : State) (target window irqLine sys : Nat) :
    (Assign.controller target window irqLine sys).apply s = s.setController target window irqLine sys := rfl
@[simp] theorem Assign.apply_buffer (s : State) (k i : Nat) (b : Byte) :
    (Assign.buffer k i b).apply s = s.setBufferByte k i b := rfl
@[simp] theorem Assign.apply_working (s : State) : Assign.working.apply s = s := rfl

/-! ### Draws change the draws only (R13) -/

@[simp] theorem State.draw_port (s : State) : s.draw.2.port = s.port := by unfold State.draw; split <;> rfl
@[simp] theorem State.draw_core (s : State) : s.draw.2.core = s.core := by unfold State.draw; split <;> rfl
@[simp] theorem State.draw_ie (s : State) : s.draw.2.ie = s.ie := by unfold State.draw; split <;> rfl
@[simp] theorem State.draw_raw (s : State) : s.draw.2.raw = s.raw := by unfold State.draw; split <;> rfl
@[simp] theorem State.draw_posted (s : State) : s.draw.2.posted = s.posted := by unfold State.draw; split <;> rfl
@[simp] theorem State.draw_history (s : State) : s.draw.2.history = s.history := by unfold State.draw; split <;> rfl
@[simp] theorem State.draw_controller (s : State) : s.draw.2.controller = s.controller := by unfold State.draw; split <;> rfl
@[simp] theorem State.draw_phase (s : State) : s.draw.2.phase = s.phase := by unfold State.draw; split <;> rfl
@[simp] theorem State.draw_thread (s : State) : s.draw.2.thread = s.thread := by unfold State.draw; split <;> rfl
@[simp] theorem State.draw_result (s : State) : s.draw.2.result = s.result := by unfold State.draw; split <;> rfl
@[simp] theorem State.draw_buffers (s : State) : s.draw.2.buffers = s.buffers := by unfold State.draw; split <;> rfl
@[simp] theorem State.draw_irq (s : State) : s.draw.2.irq = s.irq := by unfold State.draw; split <;> rfl
@[simp] theorem State.draw_handlerAttached (s : State) : s.draw.2.handlerAttached = s.handlerAttached := by unfold State.draw; split <;> rfl
@[simp] theorem State.draw_moves (s : State) : s.draw.2.moves = s.moves := by unfold State.draw; split <;> rfl
@[simp] theorem State.drawByte_port (s : State) : s.drawByte.2.port = s.port := s.draw_port
@[simp] theorem State.drawByte_core (s : State) : s.drawByte.2.core = s.core := s.draw_core
@[simp] theorem State.drawByte_ie (s : State) : s.drawByte.2.ie = s.ie := s.draw_ie
@[simp] theorem State.drawByte_raw (s : State) : s.drawByte.2.raw = s.raw := s.draw_raw
@[simp] theorem State.drawByte_posted (s : State) : s.drawByte.2.posted = s.posted := s.draw_posted
@[simp] theorem State.drawByte_history (s : State) : s.drawByte.2.history = s.history := s.draw_history
@[simp] theorem State.drawByte_controller (s : State) : s.drawByte.2.controller = s.controller := s.draw_controller
@[simp] theorem State.drawByte_phase (s : State) : s.drawByte.2.phase = s.phase := s.draw_phase
@[simp] theorem State.drawByte_thread (s : State) : s.drawByte.2.thread = s.thread := s.draw_thread
@[simp] theorem State.drawByte_result (s : State) : s.drawByte.2.result = s.result := s.draw_result
@[simp] theorem State.drawByte_buffers (s : State) : s.drawByte.2.buffers = s.buffers := s.draw_buffers
@[simp] theorem State.drawByte_irq (s : State) : s.drawByte.2.irq = s.irq := s.draw_irq
@[simp] theorem State.drawByte_handlerAttached (s : State) : s.drawByte.2.handlerAttached = s.handlerAttached := s.draw_handlerAttached
@[simp] theorem State.drawByte_moves (s : State) : s.drawByte.2.moves = s.moves := s.draw_moves
@[simp] theorem State.drawBit_port (s : State) : s.drawBit.2.port = s.port := s.draw_port
@[simp] theorem State.drawBit_core (s : State) : s.drawBit.2.core = s.core := s.draw_core
@[simp] theorem State.drawBit_ie (s : State) : s.drawBit.2.ie = s.ie := s.draw_ie
@[simp] theorem State.drawBit_raw (s : State) : s.drawBit.2.raw = s.raw := s.draw_raw
@[simp] theorem State.drawBit_posted (s : State) : s.drawBit.2.posted = s.posted := s.draw_posted
@[simp] theorem State.drawBit_history (s : State) : s.drawBit.2.history = s.history := s.draw_history
@[simp] theorem State.drawBit_controller (s : State) : s.drawBit.2.controller = s.controller := s.draw_controller
@[simp] theorem State.drawBit_phase (s : State) : s.drawBit.2.phase = s.phase := s.draw_phase
@[simp] theorem State.drawBit_thread (s : State) : s.drawBit.2.thread = s.thread := s.draw_thread
@[simp] theorem State.drawBit_result (s : State) : s.drawBit.2.result = s.result := s.draw_result
@[simp] theorem State.drawBit_buffers (s : State) : s.drawBit.2.buffers = s.buffers := s.draw_buffers
@[simp] theorem State.drawBit_irq (s : State) : s.drawBit.2.irq = s.irq := s.draw_irq
@[simp] theorem State.drawBit_handlerAttached (s : State) : s.drawBit.2.handlerAttached = s.handlerAttached := s.draw_handlerAttached
@[simp] theorem State.drawBit_moves (s : State) : s.drawBit.2.moves = s.moves := s.draw_moves

/-- A listed draw is the one taken. -/
theorem State.draw_cons (s : State) (d : Word) (ds : List Word) (h : s.draws = d :: ds) :
    s.draw = (d, { s with draws := ds }) := by simp [State.draw, h]

/-- With no draw listed, the environment's next free one is taken. -/
theorem State.draw_nil (s : State) (h : s.draws = []) :
    s.draw = (Config.freeWord s.drawn, { s with drawn := s.drawn + 1 }) := by simp [State.draw, h]

end Sys2Proof.Machine
end

