-- ==== Sys2Proof/Laws/Agents.lean ====
section
/-! SUPPORT. What the other agents' turns can do: one lemma per agent step, and their union `envMove_spec`. -/

namespace Sys2Proof.Machine

open Sys2Proof

/-- What no turn of another agent changes: the ENGINE's phase, place, result and buffers, and the Controller but for its
completion signal. -/
structure Others (s t : State) : Prop where
  phase : t.phase = s.phase
  thread : t.thread = s.thread
  result : t.result = s.result
  buffers : t.buffers = s.buffers
  controller : t.controller = { s.controller with completion := t.controller.completion }

theorem Others.refl (s : State) : Others s s := ⟨rfl, rfl, rfl, rfl, rfl⟩

theorem Others.withMoves {s t : State} {ms : List Move} (h : Others (s.withMoves ms) t) : Others s t :=
  ⟨h.phase, h.thread, h.result, h.buffers, h.controller⟩

theorem Others.trans {s t u : State} (h : Others s t) (k : Others t u) : Others s u :=
  ⟨k.phase.trans h.phase, k.thread.trans h.thread, k.result.trans h.result, k.buffers.trans h.buffers, by
    rw [k.controller, h.controller]⟩

@[simp] theorem ofOutcome_next (s : State) : ofOutcome (.next s) = .ok s := rfl
@[simp] theorem toOutcome_ok (s : State) : toOutcome (.ok s) = .next s := rfl
@[simp] theorem toOutcome_fault (f : Fault) : toOutcome (.error (.fault f)) = .fault f := rfl
@[simp] theorem toOutcome_refused (r : Refusal) : toOutcome (.error (.refused r)) = .refused r := rfl

theorem toOutcome_next {x : Except Stop State} {t : State} (h : toOutcome x = .next t) : x = .ok t := by
  cases x with
  | ok s => simpa using h
  | error e => cases e <;> simp [toOutcome] at h

theorem ofOutcome_ok {x : Host.Outcome State Fault Refusal} {t : State} (h : ofOutcome x = .ok t) : x = .next t := by
  cases x <;> simp_all [ofOutcome]

/-! ### Flowing -/

theorem flowing_iff {s : State} : s.flowing = true ↔
    s.posted.all Posted.legal = true ∧ (s.port.busy = true → commandLegal s.port.cmd = true) ∧ s.inFlight ≤ 1 := by
  simp only [State.flowing, Bool.and_eq_true, Bool.or_eq_true, Bool.not_eq_true', decide_eq_true_eq, and_assoc]
  cases s.port.busy <;> simp

theorem calm_iff {s : State} : s.calm = true ↔ s.moves.all (fun m => !m.outside) = true ∧ s.flowing = true := by
  simp [State.calm]

theorem quiet_iff {s : State} : s.quiet = true ↔ s.calm = true ∧ s.inFlight = 0 := by
  simp [State.quiet]

/-- Only `posted` and `port` matter to flowing. -/
theorem flowing_congr {s t : State} (hp : t.posted = s.posted) (hq : t.port = s.port) : t.flowing = s.flowing := by
  unfold State.flowing State.inFlight
  rw [hp, hq]

theorem inFlight_congr {s t : State} (hp : t.posted = s.posted) (hq : t.port = s.port) : t.inFlight = s.inFlight := by
  simp [State.inFlight, hp, hq]

@[simp] theorem flowing_withMoves (s : State) (ms : List Move) : (s.withMoves ms).flowing = s.flowing :=
  flowing_congr rfl rfl

@[simp] theorem inFlight_withMoves (s : State) (ms : List Move) : (s.withMoves ms).inFlight = s.inFlight :=
  inFlight_congr rfl rfl

/-! ### Commands (R143-R148) -/

/-- The decoder gives only the encoded forms (R104). -/
theorem decodeCmd_cases {w : Word} {i : Instr} (h : decodeCmd w = .ok i) :
    (∃ b, i = .wrregThp b) ∨ (∃ b, i = .wrregData b) ∨ (∃ b, i = .wrregCtl b) ∨ (∃ b, i = .wrregClkctl b) ∨
      (∃ b, i = .wrregRst b) ∨ i = .rdregData ∨ i = .rdregCtl ∨ i = .rdregStat := by
  unfold decodeCmd at h
  split at h
  · simp only [commandRows, writeRow, readRow, firstRow] at h
    split at h
    · rename_i j hj
      simp only [Except.ok.injEq] at h
      subst h
      repeat' (split at hj)
      all_goals first | (simp only [Option.some.injEq] at hj; subst hj; simp) | simp at hj
    · simp at h
  · simp at h

/-- A performed command changes the core and the port's result only. -/
structure Performed (s t : State) : Prop where
  busy : t.port.busy = s.port.busy
  cmd : t.port.cmd = s.port.cmd
  ie : t.ie = s.ie
  raw : t.raw = s.raw
  posted : t.posted = s.posted
  history : t.history = s.history
  controller : t.controller = s.controller
  phase : t.phase = s.phase
  thread : t.thread = s.thread
  result : t.result = s.result
  buffers : t.buffers = s.buffers
  irq : t.irq = s.irq
  attached : t.handlerAttached = s.handlerAttached
  moves : t.moves = s.moves

/-- A well-formed command is performed (R143-R148). -/
theorem perform_spec {w : Word} {i : Instr} (h : decodeCmd w = .ok i) (hw : i.wellFormed = true) (s : State) :
    ∃ t, perform w i s = .next t ∧ Performed s t := by
  rcases decodeCmd_cases h with ⟨b, rfl⟩ | ⟨b, rfl⟩ | ⟨b, rfl⟩ | ⟨b, rfl⟩ | ⟨b, rfl⟩ | rfl | rfl | rfl
  all_goals
    simp only [Instr.wellFormed] at hw
    simp only [perform, execWrregThp, execWrregData, execWrregCtl, execWrregClkctl, execWrregRst, execRdregData,
      execRdregCtl, execRdregStat, hw, if_true]
    refine ⟨_, rfl, ?_⟩
    constructor <;> simp [rstWrite]

/-- What a turn of another agent can do besides what `Others` says: the flow stays, no access is issued, the list of turns is
not touched. -/
structure EnvStep (s t : State) : Prop where
  others : Others s t
  flowing : t.flowing = true
  inFlight : t.inFlight ≤ s.inFlight
  moves : t.moves = s.moves

theorem EnvStep.trans {s t u : State} (h : EnvStep s t) (k : EnvStep t u) : EnvStep s u :=
  ⟨h.others.trans k.others, k.flowing, k.inFlight.trans h.inFlight, k.moves.trans h.moves⟩

theorem EnvStep.refl {s : State} (h : s.flowing = true) : EnvStep s s := ⟨Others.refl s, h, le_refl _, rfl⟩

/-- A turn that leaves `posted` and the PORT alone keeps the flow. -/
theorem EnvStep.of_same {s t : State} (h : s.flowing = true) (h1 : t.posted = s.posted) (h2 : t.port = s.port)
    (h3 : Others s t) (h4 : t.moves = s.moves) : EnvStep s t :=
  ⟨h3, by rw [flowing_congr h1 h2, h], by rw [inFlight_congr h1 h2], h4⟩

/-- The PORT's step always completes when the flow is the block's own (R150). -/
theorem portStep_spec {s : State} (h : s.flowing = true) :
    ∃ t, portStep s = .ok t ∧ EnvStep s t ∧ t.port.busy = false ∧ t.posted = s.posted ∧ t.history = s.history := by
  have hf := flowing_iff.1 h
  cases hb : s.port.busy with
  | false => exact ⟨s, by simp [portStep, hb], EnvStep.refl h, hb, rfl, rfl⟩
  | true =>
    have hl := hf.2.1 hb
    unfold commandLegal at hl
    split at hl
    · rename_i i hd
      obtain ⟨t, ht, p⟩ := perform_spec hd hl s
      refine ⟨portDone s.port.cmd t, by simp [portStep, hb, hd, ht, Except.map], ⟨⟨?_, ?_, ?_, ?_, ?_⟩, ?_, ?_, ?_⟩, ?_, ?_, ?_⟩
      · simp [p.phase]
      · simp [p.thread]
      · simp [p.result]
      · simp [p.buffers]
      · simp [p.controller]
      · have h1 := hf.1
        have h2 := hf.2.2
        rw [flowing_iff]
        simp only [portDone_posted, portDone_port, p.posted, State.inFlight, hb] at *
        refine ⟨h1, by simp, by simp at h2 ⊢; omega⟩
      · simp [State.inFlight, p.posted]
      · simp [p.moves]
      · simp
      · simp [p.posted]
      · simp [p.history]
    · simp at hl

/-- A drain step always completes when the flow is the block's own and the head may be issued (R74, R150). -/
theorem drainStep_spec {s : State} (h : s.flowing = true) :
    ∃ t, drainStep s = .ok t ∧ EnvStep s t ∧ t.posted = s.posted.tail := by
  have hf := flowing_iff.1 h
  cases hp : s.posted with
  | nil => exact ⟨s, by simp [drainStep, hp], EnvStep.refl h, by simp [hp]⟩
  | cons p ps =>
    have hlegal : p.legal = true ∧ ps.all Posted.legal = true := by simpa [hp] using hf.1
    have hfl := hf.2.2
    simp only [State.inFlight, hp, List.countP_cons] at hfl
    obtain ⟨off, w, rc⟩ := p
    simp only [Posted.legal, Bool.or_eq_true, Bool.and_eq_true, beq_iff_eq] at hlegal
    rcases hlegal.1 with ⟨ho, hc⟩ | ⟨ho, hc⟩
    · subst ho
      have hb : s.port.busy = false := by
        cases hb : s.port.busy
        · rfl
        · simp [hb, Posted.isCmd] at hfl
      have hv : cmdValid w = true := by
        cases hv : cmdValid w
        · simp [commandLegal, decodeCmd, hv] at hc
        · rfl
      refine ⟨{ ({ s with posted := ps }.record (.write Config.offCmd w)) with
          port := { s.port with busy := true, cmd := w } }, by simp [drainStep, hp, applyPosted, issueCommand, hv, hb],
        ⟨⟨rfl, rfl, rfl, rfl, rfl⟩, ?_, ?_, rfl⟩, rfl⟩
      · rw [flowing_iff]
        refine ⟨hlegal.2, fun _ => hc, ?_⟩
        have hz : List.countP Posted.isCmd ps = 0 := by simpa [hb, Posted.isCmd] using hfl
        simp [State.inFlight, hz]
      · simp [State.inFlight, hp, Posted.isCmd, hb]
    · subst ho
      have hfl' : List.countP Posted.isCmd ps + (if s.port.busy = true then 1 else 0) ≤ 1 := by
        have : (Posted.mk Config.offRaw w rc).isCmd = false := by simp [Posted.isCmd, Config.offRaw, Config.offCmd]
        simpa [this] using hfl
      have hne : Config.offRaw ≠ Config.offCmd := by decide
      have key : ∀ t : State, t.posted = ps → t.port = s.port → t.phase = s.phase → t.thread = s.thread →
          t.result = s.result → t.buffers = s.buffers → t.controller = s.controller → t.moves = s.moves →
          EnvStep s t := by
        intro t h1 h2 h3 h4 h5 h6 h7 h8
        refine ⟨⟨h3, h4, h5, h6, by rw [h7]⟩, ?_, ?_, h8⟩
        · rw [flowing_iff]
          refine ⟨by rw [h1]; exact hlegal.2, by rw [h2]; exact hf.2.1, by simpa [State.inFlight, h1, h2] using hfl'⟩
        · simp [State.inFlight, h1, h2, hp, List.countP_cons]
      simp only [drainStep, hp, applyPosted, hne, if_false, if_true, recoveryPattern, execWrraw, hc, List.tail_cons]
      cases rc
      · simp only [Bool.false_eq_true, if_false]
        split
        · exact ⟨_, rfl, key _ rfl rfl rfl rfl rfl rfl rfl rfl, rfl⟩
        · split
          · exact ⟨_, rfl, key _ rfl rfl rfl rfl rfl rfl rfl rfl, rfl⟩
          · exact ⟨_, rfl, key _ (by simp) (by simp) (by simp) (by simp) (by simp) (by simp) (by simp) (by simp), by simp⟩
      · exact ⟨_, rfl, key _ (by simp) (by simp) (by simp) (by simp) (by simp) (by simp) (by simp) (by simp), by simp⟩

/-- Draining everything (R73, R74). -/
theorem drainAll_spec {s : State} (h : s.flowing = true) :
    ∃ t, drainAll s = .ok t ∧ EnvStep s t ∧ t.posted = [] := by
  unfold drainAll
  generalize hn : s.posted.length = n
  induction n generalizing s with
  | zero => exact ⟨s, rfl, EnvStep.refl h, List.length_eq_zero_iff.1 hn⟩
  | succ n ih =>
    obtain ⟨t, ht, e, hp⟩ := drainStep_spec h
    obtain ⟨u, hu, e2, hq⟩ := ih e.flowing (by simp [hp, hn])
    exact ⟨u, by simp [drainSteps, ht, Except.bind, hu], e.trans e2, hq⟩

/-- An IRQ step always completes (R186). -/
theorem irqStep_spec {s : State} (h : s.flowing = true) : ∃ t, irqStep s = .ok t ∧ EnvStep s t := by
  have hf := flowing_iff.1 h
  unfold irqStep
  split
  · refine ⟨_, rfl, ?_⟩
    unfold irqEnter
    split <;> exact .of_same h rfl rfl ⟨rfl, rfl, rfl, rfl, rfl⟩ rfl
  · have hr : (Posted.mk Config.offRaw Config.rawIeClr false).legal = true := by decide
    have hc : (Posted.mk Config.offRaw Config.rawIeClr false).isCmd = false := by decide
    have hn : List.countP Posted.isCmd (s.posted ++ [⟨Config.offRaw, Config.rawIeClr, false⟩])
        = List.countP Posted.isCmd s.posted := by simp [List.countP_append, hc]
    refine ⟨{ s with posted := s.posted ++ [⟨Config.offRaw, Config.rawIeClr, false⟩], irq := .atReadback },
      by simp [post, legalOffset, Except.map], ⟨⟨rfl, rfl, rfl, rfl, rfl⟩, ?_, ?_, rfl⟩⟩
    · rw [flowing_iff]
      exact ⟨by simpa [hr] using hf.1, hf.2.1, by simpa only [State.inFlight, hn] using hf.2.2⟩
    · simp only [State.inFlight, hn, le_refl]
  · split
    · refine ⟨{ s.draw.2.record (.read Config.offRaw s.draw.1) with irq := .atSignal },
        by simp [readWindow, Config.offRaw, Config.offCmd, Except.map], ?_⟩
      exact .of_same h (by simp) (by simp) ⟨by simp, by simp, by simp, by simp, by simp⟩ (by simp)
    · exact ⟨s, rfl, EnvStep.refl h⟩
  · exact ⟨_, rfl, .of_same h rfl rfl ⟨rfl, rfl, rfl, rfl, rfl⟩ rfl⟩
  · exact ⟨_, rfl, .of_same h rfl rfl ⟨rfl, rfl, rfl, rfl, rfl⟩ rfl⟩

theorem coreProgress_spec {s : State} (h : s.flowing = true) : EnvStep s (coreProgress s) := by
  unfold coreProgress
  split
  · exact EnvStep.refl h
  · exact .of_same h (by simp) (by simp) ⟨by simp, by simp, by simp, by simp, by simp⟩ (by simp)

theorem coreComplete_spec {s : State} (h : s.flowing = true) : EnvStep s (coreComplete s) := by
  unfold coreComplete
  split
  · exact EnvStep.refl h
  all_goals exact .of_same h (by simp) (by simp) ⟨by simp, by simp, by simp, by simp, by simp⟩ (by simp)

/-- A turn of another agent always completes when the flow is the block's own, and keeps it so (R4). -/
theorem envMove_spec {m : Move} {s : State} (hm : m.outside = false) (h : s.flowing = true) :
    ∃ t, envMove m s = .ok t ∧ EnvStep s t := by
  cases m with
  | engine => exact ⟨s, rfl, EnvStep.refl h⟩
  | drain =>
    obtain ⟨t, ht, e, _⟩ := drainStep_spec h
    exact ⟨t, ht, e⟩
  | port =>
    obtain ⟨t, ht, e, _⟩ := portStep_spec h
    exact ⟨t, ht, e⟩
  | coreProgress => exact ⟨_, rfl, coreProgress_spec h⟩
  | coreComplete => exact ⟨_, rfl, coreComplete_spec h⟩
  | irq => exact irqStep_spec h
  | timeout => exact ⟨s, rfl, EnvStep.refl h⟩
  | attach =>
    exact ⟨_, rfl, .of_same h rfl rfl ⟨rfl, rfl, rfl, rfl, rfl⟩ rfl⟩
  | call c => simp [Move.outside] at hm
  | hostWrite off width w => simp [Move.outside] at hm
  | hostRead off width => simp [Move.outside] at hm

end Sys2Proof.Machine
end

