-- ==== Sys2Proof/Laws/Bits.lean ====
section
/-! SUPPORT. The bit facts of the encodings: what the fields of an assembled command word, of a CMD word as read and of a CTL
byte as read are (R39, R73, R101, R103). -/

namespace Sys2Proof.Machine

open Sys2Proof

/-- `CMD_V` is bit 63 (R101). -/
theorem cmdValid_eq (w : Word) : cmdValid w = w.getLsbD 63 := by
  have h : Config.cmdV = BitVec.twoPow 64 63 := by decide
  unfold cmdValid
  rw [h, BitVec.and_twoPow]
  cases w.getLsbD 63 <;> decide

/-- `CMD_R` is bit 56 (R101). -/
theorem cmdIsRead_eq (w : Word) : cmdIsRead w = w.getLsbD 56 := by
  have h : Config.cmdR = BitVec.twoPow 64 56 := by decide
  unfold cmdIsRead
  rw [h, BitVec.and_twoPow]
  cases w.getLsbD 56 <;> decide

/-- IFLG is bit 3 of a CTL byte (R105, R182). -/
theorem ctlReady_eq (b : Byte) : ctlReady b = b.getLsbD 3 := by
  have h : Config.ctlIflg = BitVec.twoPow 8 3 := by decide
  unfold ctlReady
  rw [h, BitVec.and_twoPow]
  cases b.getLsbD 3 <;> decide

/-- A CTL byte as read shows IFLG (R39, R148), whatever the draw. -/
theorem ctlReady_ctlReadByte (f : Bool) (d : Byte) : ctlReady (ctlReadByte f d) = f := by
  rw [ctlReady_eq]
  cases f <;> simp [ctlReadByte, Config.ctlIflg]

/-- A CMD word as read shows `port.busy` in `CMD_V` (R34, R73), whatever the draw. -/
theorem cmdValid_cmdReadWord (p : Port) (d : Word) : cmdValid (cmdReadWord p d) = p.busy := by
  rw [cmdValid_eq]
  cases hb : p.busy <;> cases hl : p.lastRead <;>
    simp [cmdReadWord, hb, hl, Config.wordBits, Config.cmdV, Config.cmdByteMask, zextByte]

/-- The low byte of a CMD word as read is the port's result after a read (R34, R73), whatever the draw. -/
theorem lowByte_cmdReadWord (p : Port) (d : Word) (h : p.lastRead = true) : lowByte (cmdReadWord p d) = p.result := by
  apply BitVec.eq_of_getLsbD_eq
  intro i hi
  cases hb : p.busy <;>
    simp only [lowByte, cmdReadWord, hb, h, Config.cmdV, Config.cmdByteMask, Config.wordBits, zextByte, if_true] <;>
    interval_cases i <;> simp

/-- A read command is a read, a write command is not (R103). -/
theorem cmdIsRead_readCommand (sel : Selector) : cmdIsRead (readCommand sel) = true := by
  cases sel <;> decide

theorem cmdIsRead_writeCommand (sel : Selector) (b : Byte) : cmdIsRead (writeCommand sel b) = false := by
  rw [cmdIsRead_eq]
  cases sel <;> simp [writeCommand, selectorWord, zextByte, Config.wordBits, Config.cmdV, Config.selThp, Config.selData,
    Config.selCtl, Config.selClkctl, Config.selStat, Config.selRst]

/-- The byte of a write command lands in `D[7:0]` (R103). -/
theorem lowByte_writeCommand (sel : Selector) (b : Byte) : lowByte (writeCommand sel b) = b := by
  apply BitVec.eq_of_getLsbD_eq
  intro i hi
  cases sel <;>
    simp only [lowByte, writeCommand, selectorWord, zextByte, Config.wordBits, Config.cmdV, Config.selThp, Config.selData, Config.selCtl,
      Config.selClkctl, Config.selStat, Config.selRst] <;>
    interval_cases i <;> simp

/-- Everything above the byte of a write command is `CMD_V | sel` (R103). -/
theorem writeCommand_upper (sel : Selector) (b : Byte) :
    writeCommand sel b &&& 0xFFFFFFFFFFFFFF00#64 = Config.cmdV ||| selectorWord sel := by
  have hb : zextByte b &&& 0xFFFFFFFFFFFFFF00#64 = 0#64 := by
    apply BitVec.eq_of_toNat_eq
    have : b.toNat < 2 ^ 8 := b.isLt
    apply BitVec.toNat_inj.2
    apply BitVec.eq_of_getLsbD_eq
    intro i hi
    by_cases h8 : i < 8
    · interval_cases i <;> simp [zextByte]
    · simp [zextByte, BitVec.getLsbD_of_ge, Nat.le_of_not_lt h8]
  unfold writeCommand
  have dist : ∀ x y z : Word, (x ||| y) &&& z = (x &&& z) ||| (y &&& z) := fun x y z => by
    apply BitVec.eq_of_getLsbD_eq
    intro i hi
    simp [Bool.and_or_distrib_right]
  rw [dist, hb]
  cases sel <;> decide

/-- The data byte is the low byte (R101). -/
theorem dataByte_eq (w : Word) : dataByte w = lowByte w := by
  apply BitVec.eq_of_getLsbD_eq
  intro i hi
  simp only [dataByte, lowByte, Config.cmdD, Config.wordBits]
  interval_cases i <;> simp

/-- The table from the parameters is the table of R104, number for number. -/
theorem commandRows_eq : commandRows =
    [ ⟨0x8800000000000000#64, 0xFFFFFFFFFFFFFF00#64, .wrregThp⟩,
      ⟨0x8C00000100000000#64, 0xFFFFFFFFFFFFFF00#64, .wrregData⟩,
      ⟨0x8C00000200000000#64, 0xFFFFFFFFFFFFFF00#64, .wrregCtl⟩,
      ⟨0x8C00000300000000#64, 0xFFFFFFFFFFFFFF00#64, .wrregClkctl⟩,
      ⟨0x8C00000700000000#64, 0xFFFFFFFFFFFFFF00#64, .wrregRst⟩,
      ⟨0x8D00000100000000#64, 0xFFFFFFFFFFFFFFFF#64, fun _ => .rdregData⟩,
      ⟨0x8D00000200000000#64, 0xFFFFFFFFFFFFFFFF#64, fun _ => .rdregCtl⟩,
      ⟨0x8D00000300000000#64, 0xFFFFFFFFFFFFFFFF#64, fun _ => .rdregStat⟩ ] := rfl

/-- The decoder reads a write command as its row (R104). -/
theorem decodeCmd_writeCommand (sel : Selector) (b : Byte) :
    decodeCmd (writeCommand sel b) = (match sel with
      | .thp => .ok (.wrregThp b)
      | .data => .ok (.wrregData b)
      | .ctl => .ok (.wrregCtl b)
      | .clkctl => .ok (.wrregClkctl b)
      | .stat => .ok (.wrregClkctl b)
      | .rst => .ok (.wrregRst b)) := by
  have hv : cmdValid (writeCommand sel b) = true := by
    rw [cmdValid_eq]
    cases sel <;> simp [writeCommand, Config.wordBits, Config.cmdV]
  have hu := writeCommand_upper sel b
  have hl := lowByte_writeCommand sel b
  unfold decodeCmd
  simp only [hv, if_true, commandRows_eq, firstRow, hu, dataByte_eq, hl]
  cases sel <;> simp [selectorWord, Config.cmdV, Config.selThp, Config.selData, Config.selCtl, Config.selClkctl,
    Config.selStat, Config.selRst]

/-- The decoder reads a read command at a readable selector as its row (R104); a read at `SEL_CLKCTL` is a STAT read
(R40). -/
theorem decodeCmd_readCommand (sel : Selector) :
    decodeCmd (readCommand sel) = (match sel with
      | .thp => .error .noRow
      | .data => .ok .rdregData
      | .ctl => .ok .rdregCtl
      | .clkctl => .ok .rdregStat
      | .stat => .ok .rdregStat
      | .rst => .error .noRow) := by
  cases sel <;> decide

end Sys2Proof.Machine
end

