-- ==== Sys2Proof/Laws/Port.lean ====
section
/-! SUPPORT. What the turns before the ENGINE's primitive statements can do, said once: `turn_spec`, `turnDrained_spec`,
`pollTurns_spec`. A caller chains them with `M.bind_ok`. -/

namespace Sys2Proof.Machine

open Sys2Proof

/-! ### The pieces of an operation -/

/-- The one way a sequence of two pieces goes on: the first gives its value, and the second starts there. -/
theorem M.bind_ok {α β : Type} {m : M α} {f : α → M β} {s t : State} {a : α} (h : m s = .ok (a, t)) :
    (m >>= f) s = f a t := by
  simp [bind, StateT.bind, h, Except.bind]

theorem M.map_ok {α β : Type} {m : M α} {f : α → β} {s t : State} {a : α} (h : m s = .ok (a, t)) :
    (f <$> m) s = .ok (f a, t) := by
  simp [Functor.map, StateT.map, h, Except.bind, bind, pure, Except.pure]

@[simp] theorem M.pure_apply {α : Type} (a : α) (s : State) : (pure a : M α) s = .ok (a, s) := rfl

@[simp] theorem M.update_apply (f : State → State) (s : State) : M.update f s = .ok ((), f s) := rfl

theorem M.effect_ok {f : State → Except Stop State} {s t : State} (h : f s = .ok t) : M.effect f s = .ok ((), t) := by
  simp [M.effect, h, Except.map]

@[simp] theorem M.get_apply (s : State) : (get : M State) s = .ok (s, s) := rfl

/-- An instruction whose pieces give a value answers a next state that holds it. -/
theorem finish_ok {α : Type} {ret : α → Ret} {m : M α} {s t : State} {a : α} (h : m s = .ok (a, t)) :
    finish ret m s = .next { t with result := some (ret a) } := by
  simp [finish, h, Except.map]

/-! ### Facts that survive other agents' turns -/

/-- `P` survives every turn in `A` but the completion of a command in flight, and survives window reads and the posting of
a command. -/
structure Keeps (A : Move → Bool) (P : State → Prop) : Prop where
  moves : ∀ {s : State} (ms : List Move), P s → P (s.withMoves ms)
  env : ∀ {m : Move} {s t : State}, m.outside = false → A m = true → (m = .port → s.port.busy = false) → P s →
    envMove m s = .ok t → P t
  read : ∀ {s : State} {off : Nat} {r : Word × State}, P s → readWindow off s = .ok r → P r.2
  post : ∀ {s : State} (w : Word), P s → P { s with posted := s.posted ++ [⟨Config.offCmd, w, false⟩] }

theorem Keeps.and {A : Move → Bool} {P Q : State → Prop} (hP : Keeps A P) (hQ : Keeps A Q) :
    Keeps A fun s => P s ∧ Q s :=
  ⟨fun ms h => ⟨hP.moves ms h.1, hQ.moves ms h.2⟩,
    fun hm ha hb h he => ⟨hP.env hm ha hb h.1 he, hQ.env hm ha hb h.2 he⟩,
    fun h he => ⟨hP.read h.1 he, hQ.read h.2 he⟩, fun w h => ⟨hP.post w h.1, hQ.post w h.2⟩⟩

/-- Every turn. -/
def anyTurn : Move → Bool := fun _ => true

theorem all_anyTurn (ms : List Move) : ms.all anyTurn = true := by simp [anyTurn]

/-- What a window read does (R73). -/
theorem readWindow_ok {off : Nat} {s : State} {r : Word × State} (h : readWindow off s = .ok r) :
    r.2 = s.draw.2.record (.read off r.1) := by
  unfold readWindow at h
  split at h
  · simp only [Except.ok.injEq] at h
    rw [← h]
  · split at h
    · simp only [Except.ok.injEq] at h
      rw [← h]
    · simp at h

/-- Turns and reads that leave a component alone: it is enough that drains, idle ports, the core, the IRQ agent, attaching,
reads and posting do. -/
theorem Keeps.of_proj {A : Move → Bool} {α : Type} (f : State → α) (Q : α → Prop)
    (hm : ∀ (s : State) ms, f (s.withMoves ms) = f s)
    (hd : ∀ s t, drainStep s = .ok t → f t = f s)
    (hp : ∀ s, f (coreProgress s) = f s) (hc : ∀ s, f (coreComplete s) = f s)
    (hi : ∀ s t, irqStep s = .ok t → f t = f s)
    (ha : ∀ s : State, f { s with handlerAttached := true } = f s)
    (hr : ∀ (s : State) e, f (s.draw.2.record e) = f s ∨ ∀ off w, e ≠ .read off w)
    (hq : ∀ (s : State) ps, f { s with posted := ps } = f s) : Keeps A fun s => Q (f s) := by
  refine ⟨fun ms h => by rw [hm]; exact h, ?_, ?_, fun w h => by rw [hq]; exact h⟩
  · intro m s t ho _ hb h he
    cases m with
    | engine => simp only [envMove, Except.ok.injEq] at he; exact he ▸ h
    | drain => rw [hd s t he]; exact h
    | port =>
      have hb := hb rfl
      simp only [envMove, portStep, hb, Bool.false_eq_true, if_false, Except.ok.injEq] at he
      exact he ▸ h
    | coreProgress => simp only [envMove, Except.ok.injEq] at he; rw [← he, hp]; exact h
    | coreComplete => simp only [envMove, Except.ok.injEq] at he; rw [← he, hc]; exact h
    | irq => rw [hi s t he]; exact h
    | timeout => simp only [envMove, Except.ok.injEq] at he; exact he ▸ h
    | attach => simp only [envMove, Except.ok.injEq] at he; rw [← he, ha]; exact h
    | call c => simp [Move.outside] at ho
    | hostWrite off width w => simp [Move.outside] at ho
    | hostRead off width => simp [Move.outside] at ho
  · intro s off r h he
    rw [readWindow_ok he]
    rcases hr s (.read off r.1) with h1 | h1
    · rw [h1]; exact h
    · exact absurd rfl (h1 off r.1)

/-- A drain leaves the core, the IRQ agent and the Controller alone (R37, R160, R150). -/
theorem drainStep_core {s t : State} (h : drainStep s = .ok t) :
    t.core = s.core ∧ t.handlerAttached = s.handlerAttached ∧ t.irq = s.irq ∧ t.controller = s.controller := by
  unfold drainStep at h
  split at h
  · simp only [Except.ok.injEq] at h; subst h; simp
  · rename_i p ps hp
    unfold applyPosted at h
    split at h
    · unfold issueCommand at h
      split at h
      · split at h
        · simp at h
        · simp only [Except.ok.injEq] at h; subst h; simp
      · simp at h
    · split at h
      · split at h
        · unfold recoveryPattern at h
          split at h
          · simp only [Except.ok.injEq] at h; subst h; simp
          · simp at h
        · have h := ofOutcome_ok h
          unfold execWrraw at h
          repeat' (split at h)
          all_goals first
            | (simp only [Host.Outcome.next.injEq] at h; subst h; simp)
            | simp at h
      · simp at h

theorem coreProgress_regs (s : State) : (coreProgress s).core.thp = s.core.thp ∧
    (coreProgress s).core.ctl = s.core.ctl ∧ (coreProgress s).core.clkctl = s.core.clkctl ∧
    (coreProgress s).history = s.history := by
  unfold coreProgress; split <;> simp

theorem coreComplete_regs (s : State) : (coreComplete s).core.thp = s.core.thp ∧
    (coreComplete s).core.ctl = s.core.ctl ∧ (coreComplete s).core.clkctl = s.core.clkctl ∧
    (coreComplete s).history = s.history := by
  unfold coreComplete; split <;> simp

theorem irqStep_core {s t : State} (h : irqStep s = .ok t) : t.core = s.core ∧ t.port = s.port := by
  unfold irqStep at h
  split at h
  · simp only [Except.ok.injEq] at h; subst h; unfold irqEnter; split <;> simp
  · simp only [post, legalOffset, beq_self_eq_true, Bool.or_true, if_true, Except.map, Except.ok.injEq] at h
    subst h; simp
  · split at h
    · simp only [readWindow, Config.offRaw, Config.offCmd, Except.map] at h
      simp only [Nat.reduceEqDiff, if_false, if_true, Except.ok.injEq] at h
      subst h; simp
    · simp only [Except.ok.injEq] at h; subst h; simp
  · simp only [Except.ok.injEq] at h; subst h; simp
  · simp only [Except.ok.injEq] at h; subst h; simp

/-- The registers only a performed command changes. -/
def State.regs (s : State) : Byte × Byte × Byte := (s.core.thp, s.core.ctl, s.core.clkctl)

/-! ### A run of other agents' turns -/

/-- From `s` to `t` only other agents moved, and they used up some of the listed turns. -/
structure Within (s t : State) : Prop where
  others : Others s t
  calm : t.calm = true
  moves : t.moves <:+ s.moves

theorem Within.trans {s t u : State} (h : Within s t) (k : Within t u) : Within s u :=
  ⟨h.others.trans k.others, k.calm, k.moves.trans h.moves⟩

theorem Within.refl {s : State} (h : s.calm = true) : Within s s := ⟨Others.refl s, h, List.suffix_refl _⟩

theorem calm_of {t : State} {ms : List Move} (hms : ms.all (fun m => !m.outside) = true) (hsuf : t.moves <:+ ms)
    (hf : t.flowing = true) : t.calm = true := by
  rw [calm_iff]
  refine ⟨?_, hf⟩
  rw [List.all_eq_true] at hms ⊢
  exact fun m hm => hms m (hsuf.subset hm)

/-- A fact that survives every turn in `A`, the completion of a command too, and a read of CMD that sees `CMD_V = 1`. -/
structure Survives (A : Move → Bool) (P : State → Prop) : Prop where
  moves : ∀ {s : State} (ms : List Move), P s → P (s.withMoves ms)
  env : ∀ {m : Move} {s t : State}, m.outside = false → A m = true → s.flowing = true → P s → envMove m s = .ok t → P t
  read : ∀ {s : State} {off : Nat} {r : Word × State}, P s → (off = Config.offCmd → cmdValid r.1 = true) →
    readWindow off s = .ok r → P r.2

/-- The turns before a statement complete, and keep what survives them (R80). -/
theorem holdUntil_spec {A : Move → Bool} {P : State → Prop} (hP : Survives A P) (en : State → Bool) :
    ∀ (ms : List Move) (s : State), ms.all (fun m => !m.outside) = true → ms.all A = true → s.flowing = true → P s →
      ∃ t, holdUntil en ms s = .ok t ∧ Others s t ∧ t.flowing = true ∧ t.inFlight ≤ s.inFlight ∧ t.moves <:+ ms ∧ P t := by
  intro ms
  induction ms with
  | nil =>
    intro s _ _ hf hs
    exact ⟨s.withMoves [], rfl, (Others.refl _).withMoves, by simpa using hf, by simp, List.suffix_refl _, hP.moves _ hs⟩
  | cons m ms ih =>
    intro s hms hA hf hs
    have hms' : m.outside = false ∧ ms.all (fun m => !m.outside) = true := by simpa using hms
    have hA' : A m = true ∧ ms.all A = true := by simpa using hA
    have hf' : (s.withMoves ms).flowing = true := by simpa using hf
    have hs' := hP.moves ms hs
    have far : ms <:+ m :: ms := List.suffix_cons _ _
    by_cases hme : m = .engine
    · subst hme
      cases hen : en s with
      | true =>
        exact ⟨s.withMoves ms, by simp [holdUntil, hen], (Others.refl _).withMoves, hf', by simp, far, hs'⟩
      | false =>
        obtain ⟨u, hu, o, hfu, hi, hsuf, hpu⟩ := ih (s.withMoves ms) hms'.2 hA'.2 hf' hs'
        exact ⟨u, by simpa [holdUntil, hen] using hu, o.withMoves, hfu, by simpa using hi, hsuf.trans far, hpu⟩
    · obtain ⟨t, ht, e⟩ := envMove_spec hms'.1 hf'
      obtain ⟨u, hu, o, hfu, hi, hsuf, hpu⟩ := ih t hms'.2 hA'.2 e.flowing (hP.env hms'.1 hA'.1 hf' hs' ht)
      refine ⟨u, ?_, (e.others.trans o).withMoves, hfu, by simpa using hi.trans e.inFlight, hsuf.trans far, hpu⟩
      have : (envMove m (s.withMoves ms)).bind (holdUntil en ms) = .ok u := by simp [ht, Except.bind, hu]
      rw [← this]
      cases m <;> first | rfl | exact absurd rfl hme

theorem drainSteps_survives {A : Move → Bool} {P : State → Prop} (hP : Survives A P) (hd : A .drain = true) :
    ∀ (n : Nat) (s t : State), s.flowing = true → P s → drainSteps n s = .ok t → P t
  | 0, s, t, _, hs, h => by
      simp only [drainSteps, Except.ok.injEq] at h
      exact h ▸ hs
  | n + 1, s, t, hf, hs, h => by
      obtain ⟨u, hu, e, _⟩ := drainStep_spec hf
      simp only [drainSteps, hu, Except.bind] at h
      exact drainSteps_survives hP hd n u t e.flowing (hP.env (m := .drain) rfl hd hf hs hu) h

/-- `turn` (R80). -/
theorem turn_spec {A : Move → Bool} {P : State → Prop} (hP : Survives A P) {s : State} (hc : s.calm = true)
    (hA : s.moves.all A = true) (hs : P s) :
    ∃ t, turn s = .ok ((), t) ∧ Within s t ∧ t.inFlight ≤ s.inFlight ∧ P t := by
  obtain ⟨hm, hf⟩ := calm_iff.1 hc
  obtain ⟨t, ht, o, hft, hi, hsuf, hpt⟩ := holdUntil_spec hP (fun _ => true) s.moves s hm hA hf hs
  exact ⟨t, M.effect_ok ht, ⟨o, calm_of hm hsuf hft, hsuf⟩, hi, hpt⟩

/-- The turns before a window read end with nothing posted (R73). -/
theorem turnDrained_spec {A : Move → Bool} {P : State → Prop} (hP : Survives A P) (hd : A .drain = true) {s : State}
    (hc : s.calm = true) (hA : s.moves.all A = true) (hs : P s) :
    ∃ t, turnDrained s = .ok ((), t) ∧ Within s t ∧ t.inFlight ≤ s.inFlight ∧ t.posted = [] ∧ P t := by
  obtain ⟨hm, hf⟩ := calm_iff.1 hc
  obtain ⟨t, ht, o, hft, hi, hsuf, hpt⟩ := holdUntil_spec hP (fun t => t.posted.isEmpty) s.moves s hm hA hf hs
  obtain ⟨u, hu, e, hq⟩ := drainAll_spec hft
  have hsuf' : u.moves <:+ s.moves := e.moves ▸ hsuf
  exact ⟨u, M.effect_ok (by simp [ht, Except.bind, hu]), ⟨o.trans e.others, calm_of hm hsuf' e.flowing, hsuf'⟩,
    e.inFlight.trans hi, hq, drainSteps_survives hP hd _ t u hft hpt hu⟩

/-- A window read leaves everything but the draws and the record. -/
theorem readWindow_within {off : Nat} {s : State} {r : Word × State} (hc : s.calm = true)
    (h : readWindow off s = .ok r) : Within s r.2 := by
  rw [readWindow_ok h]
  refine ⟨⟨by simp, by simp, by simp, by simp, by simp⟩, ?_, by simp⟩
  obtain ⟨hm, hf⟩ := calm_iff.1 hc
  rw [calm_iff]
  exact ⟨by simpa using hm, by rw [flowing_congr (s := s) (by simp) (by simp), hf]⟩

/-- A read of CMD (R73): `CMD_V` is `port.busy`, and the low byte is the port's result after a read. -/
theorem readWindow_cmd (s : State) : ∃ w, readWindow Config.offCmd s = .ok (w, s.draw.2.record (.read Config.offCmd w)) ∧
    cmdValid w = s.port.busy ∧ (s.port.lastRead = true → lowByte w = s.port.result) :=
  ⟨cmdReadWord s.port s.draw.1, by simp [readWindow], cmdValid_cmdReadWord _ _, lowByte_cmdReadWord _ _⟩

/-- Where the valid-bit loop ends: a read of CMD sees `CMD_V = 0` with nothing posted and no access held (R73, R140). -/
structure PollEnd (s u t : State) (b : Byte) : Prop where
  others : Others s u
  flowing : u.flowing = true
  posted : u.posted = []
  busy : u.port.busy = false
  last : ∃ w, readWindow Config.offCmd u = .ok (w, t) ∧ cmdValid w = false ∧ b = lowByte w
  result : u.port.lastRead = true → b = u.port.result

theorem PollEnd.from {s s' u t : State} {b : Byte} (h : PollEnd s' u t b) (k : Others s s') : PollEnd s u t b :=
  ⟨k.trans h.others, h.flowing, h.posted, h.busy, h.last, h.result⟩

/-- The read that ends the loop. -/
theorem lastPoll_spec {s : State} (hf : s.flowing = true) (hp : s.posted = []) (hb : s.port.busy = false) :
    ∃ w t, readWindow Config.offCmd s = .ok (w, t) ∧ cmdValid w = false ∧ PollEnd s s t (lowByte w) := by
  obtain ⟨w, hw, hv, hl⟩ := readWindow_cmd s
  have hv' : cmdValid w = false := by rw [hv, hb]
  exact ⟨w, _, hw, hv', Others.refl s, hf, hp, hb, ⟨w, hw, hv', rfl⟩, hl⟩

/-- The valid-bit loop completes, and gives the low byte of the read that first sees `CMD_V = 0` (R140, R141, D35). -/
theorem pollTurns_spec {A : Move → Bool} {P : State → Prop} (hP : Survives A P) (hd : A .drain = true)
    (hp : A .port = true) :
    ∀ (ms : List Move) (s : State), ms.all (fun m => !m.outside) = true → ms.all A = true → s.flowing = true → P s →
      ∃ b u t, pollTurns ms s = .ok (b, t) ∧ PollEnd s u t b ∧ u.moves <:+ ms ∧ P u := by
  intro ms
  induction ms with
  | nil =>
    intro s _ _ hf hs
    have hf' : (s.withMoves []).flowing = true := by simpa using hf
    obtain ⟨t, ht, e, hp1⟩ := drainAll_spec hf'
    obtain ⟨u, hu, e2, hb, hp2, _⟩ := portStep_spec e.flowing
    have hpt := drainSteps_survives hP hd _ _ t hf' (hP.moves [] hs) ht
    have hpu := hP.env (m := .port) rfl hp e.flowing hpt hu
    obtain ⟨w, v, hw, _, he⟩ := lastPoll_spec e2.flowing (by rw [hp2, hp1]) hb
    refine ⟨lowByte w, u, v, ?_, he.from (e.others.trans e2.others).withMoves, ?_, hpu⟩
    · simp [pollTurns, bind, Except.bind, ht, hu, hw]
    · rw [e2.moves, e.moves]; exact List.suffix_refl _
  | cons m ms ih =>
    intro s hms hA hf hs
    have hms' : m.outside = false ∧ ms.all (fun m => !m.outside) = true := by simpa using hms
    have hA' : A m = true ∧ ms.all A = true := by simpa using hA
    have hf' : (s.withMoves ms).flowing = true := by simpa using hf
    have hs' := hP.moves ms hs
    have far : ms <:+ m :: ms := List.suffix_cons _ _
    have om : Others s (s.withMoves ms) := (Others.refl _).withMoves
    by_cases hme : m = .engine
    · subst hme
      by_cases hpo : s.posted = []
      · cases hb : s.port.busy with
        | true =>
          obtain ⟨w, hw, hv, _⟩ := readWindow_cmd (s.withMoves ms)
          have hv' : cmdValid w = true := by rw [hv]; exact hb
          obtain ⟨b, u, t, hu, he, hsuf, hpu⟩ := ih _ hms'.2 hA'.2
            (by rw [flowing_congr (s := s) (by simp) (by simp), hf]) (hP.read hs' (fun _ => hv') hw)
          refine ⟨b, u, t, ?_, he.from ⟨by simp, by simp, by simp, by simp, by simp⟩, hsuf.trans far, hpu⟩
          simp only [pollTurns, State.withMoves_posted, hpo, if_true, bind, Except.bind, hw, hv']
          exact hu
        | false =>
          obtain ⟨w, v, hw, hv, he⟩ := lastPoll_spec hf' hpo hb
          refine ⟨lowByte w, _, v, ?_, he.from om, far, hs'⟩
          simp [pollTurns, hpo, bind, Except.bind, hw, hv]
      · obtain ⟨b, u, t, hu, he, hsuf, hpu⟩ := ih (s.withMoves ms) hms'.2 hA'.2 hf' hs'
        exact ⟨b, u, t, by simpa [pollTurns, hpo] using hu, he.from om, hsuf.trans far, hpu⟩
    · obtain ⟨t, ht, e⟩ := envMove_spec hms'.1 hf'
      obtain ⟨b, u, v, hu, he, hsuf, hpu⟩ := ih t hms'.2 hA'.2 e.flowing (hP.env hms'.1 hA'.1 hf' hs' ht)
      refine ⟨b, u, v, ?_, he.from (om.trans e.others), hsuf.trans far, hpu⟩
      have : (envMove m (s.withMoves ms)).bind (pollTurns ms) = .ok (b, v) := by simp [ht, Except.bind, hu]
      rw [← this]
      cases m <;> first | rfl | exact absurd rfl hme

end Sys2Proof.Machine
end

