-- ==== Sys2Proof/Laws/Survive.lean ====
section
/-! SUPPORT. Lists of what the ENGINE does; what the agents' turns do to the buffer, IE, RAW and the record; what survives
them. -/

namespace Sys2Proof.Machine

open Sys2Proof

/-! ### What the ENGINE does -/

@[simp] theorem accessesOf_nil : accessesOf [] = [] := rfl
@[simp] theorem accessesOf_access (w : Word) (b : Byte) (l : List Act) :
    accessesOf (.access w b :: l) = (w, b) :: accessesOf l := rfl
@[simp] theorem accessesOf_pattern (v : Word) (l : List Act) : accessesOf (.pattern v :: l) = accessesOf l := rfl
@[simp] theorem accessesOf_delay (us : Nat) (l : List Act) : accessesOf (.delay us :: l) = accessesOf l := rfl
@[simp] theorem accessesOf_append (l l' : List Act) : accessesOf (l ++ l') = accessesOf l ++ accessesOf l' := by
  simp [accessesOf]

@[simp] theorem delaysIn_nil : delaysIn [] = [] := rfl
@[simp] theorem delaysIn_access (w : Word) (b : Byte) (l : List Act) : delaysIn (.access w b :: l) = delaysIn l := rfl
@[simp] theorem delaysIn_pattern (v : Word) (l : List Act) : delaysIn (.pattern v :: l) = delaysIn l := rfl
@[simp] theorem delaysIn_delay (us : Nat) (l : List Act) : delaysIn (.delay us :: l) = us :: delaysIn l := rfl
@[simp] theorem delaysIn_append (l l' : List Act) : delaysIn (l ++ l') = delaysIn l ++ delaysIn l' := by simp [delaysIn]

@[simp] theorem eventsOf_nil : eventsOf [] = [] := rfl
@[simp] theorem eventsOf_cons (a : Act) (l : List Act) : eventsOf (a :: l) = a.event :: eventsOf l := rfl
@[simp] theorem eventsOf_append (l l' : List Act) : eventsOf (l ++ l') = eventsOf l ++ eventsOf l' := by simp [eventsOf]

@[simp] theorem Act.event_access (w : Word) (b : Byte) : (Act.access w b).event = .write Config.offCmd w := rfl
@[simp] theorem Act.event_pattern (v : Word) : (Act.pattern v).event = .write Config.offRaw v := rfl
@[simp] theorem Act.event_delay (us : Nat) : (Act.delay us).event = .delay us := rfl

/-! ### The agents' turns -/

/-- A busy PORT's step performs its command (R150). -/
theorem portStep_busy {s t : State} (hb : s.port.busy = true) (h : portStep s = .ok t) :
    ∃ i u, decodeCmd s.port.cmd = .ok i ∧ perform s.port.cmd i s = .next u ∧ t = portDone s.port.cmd u := by
  simp only [portStep, hb, if_true] at h
  split at h
  · rename_i i hi
    cases hu : perform s.port.cmd i s with
    | next u =>
      simp only [hu, ofOutcome_next, Except.map, Except.ok.injEq] at h
      exact ⟨i, u, hi, hu, h.symm⟩
    | fault f => simp [hu, ofOutcome, Except.map] at h
    | refused r => simp [hu, ofOutcome, Except.map] at h
  · simp at h

/-- A performed command leaves what `Performed` says, whatever the command. -/
theorem performed_of {w : Word} {i : Instr} {s t : State} (hw : commandLegal w = true) (hi : decodeCmd w = .ok i)
    (hu : perform w i s = .next t) : Performed s t := by
  have hl : i.wellFormed = true := by simpa [commandLegal, hi] using hw
  obtain ⟨t', ht, p⟩ := perform_spec hi hl s
  rw [hu] at ht
  simp only [Host.Outcome.next.injEq] at ht
  exact ht ▸ p

/-- The handler's write, the only one the IRQ agent posts (R153, R186). -/
def clearWrite : Posted := ⟨Config.offRaw, Config.rawIeClr, false⟩

/-- What one drain does to IE, RAW and the core, by the entry drained (R36, R37, R150, R160). -/
theorem drainStep_pattern {s t : State} {p : Posted} {ps : List Posted} (hp : s.posted = p :: ps)
    (h : drainStep s = .ok t) :
    t.posted = ps ∧ t.core = s.core ∧ notReads t.history = notReads s.history ++ [.write p.off p.word] ∧
      t.port.result = s.port.result ∧ t.port.lastRead = s.port.lastRead ∧
      (p.off = Config.offCmd ∧ t.ie = s.ie ∧ t.raw = s.raw ∨
        p.off = Config.offRaw ∧ t.raw = p.word ∧
          (p.recovery = false → p.word = Config.rawIeSet → t.ie = true) ∧
          (p.recovery = false → p.word = Config.rawIeClr → t.ie = false)) := by
  have hn : ∀ (l : List Event) o w, notReads (l ++ [.write o w]) = notReads l ++ [.write o w] := by simp [notReads]
  have hz : Config.rawIeSet ≠ Config.rawIeClr := by decide
  have hc := (drainStep_core h).1
  simp only [drainStep, hp, applyPosted] at h
  split at h
  · rename_i ho
    unfold issueCommand at h
    split at h
    · split at h
      · simp at h
      · simp only [Except.ok.injEq] at h; subst h; simp [hn, ho]
    · simp at h
  · split at h
    · rename_i hr
      split at h
      · rename_i hrec
        unfold recoveryPattern at h
        split at h
        · simp only [Except.ok.injEq] at h; subst h; simp [hn, hr, hrec]
        · simp at h
      · have h := ofOutcome_ok h
        unfold execWrraw at h
        split at h
        · split at h
          · rename_i hv
            simp only [Host.Outcome.next.injEq] at h; subst h; simp [hn, hr, hv, hz]
          · split at h
            · rename_i hv
              simp only [Host.Outcome.next.injEq] at h; subst h; simp [hn, hr, hv, hz.symm]
            · rename_i h1 h2
              simp only [Host.Outcome.next.injEq] at h; subst h; simp [hn, hr, h1, h2]
        · simp at h
    · simp at h

/-- What an IRQ step does to IE and the buffer: nothing, or it posts the handler's write (R186). -/
theorem irqStep_posts {s t : State} (h : irqStep s = .ok t) :
    t.ie = s.ie ∧ t.raw = s.raw ∧ (t.posted = s.posted ∨ t.posted = s.posted ++ [clearWrite]) := by
  unfold irqStep at h
  split at h
  · simp only [Except.ok.injEq] at h; subst h; unfold irqEnter; split <;> simp
  · simp only [post, legalOffset, beq_self_eq_true, Bool.or_true, if_true, Except.map, Except.ok.injEq] at h
    subst h; exact ⟨rfl, rfl, .inr rfl⟩
  · split at h
    · simp only [readWindow, Config.offRaw, Config.offCmd, Except.map] at h
      simp only [Nat.reduceEqDiff, if_false, if_true, Except.ok.injEq] at h
      subst h; simp
    · simp only [Except.ok.injEq] at h; subst h; simp
  · simp only [Except.ok.injEq] at h; subst h; simp
  · simp only [Except.ok.injEq] at h; subst h; simp

/-- An IRQ step writes nothing and delays nothing. -/
theorem irqStep_notReads {s t : State} (h : irqStep s = .ok t) : notReads t.history = notReads s.history := by
  unfold irqStep at h
  split at h
  · simp only [Except.ok.injEq] at h; subst h; unfold irqEnter; split <;> rfl
  · simp only [post, legalOffset, beq_self_eq_true, Bool.or_true, if_true, Except.map, Except.ok.injEq] at h
    subst h; rfl
  · split at h
    · simp only [readWindow, Config.offRaw, Config.offCmd, Except.map] at h
      simp only [Nat.reduceEqDiff, if_false, if_true, Except.ok.injEq] at h
      subst h; simp [notReads]
    · simp only [Except.ok.injEq] at h; subst h; rfl
  · simp only [Except.ok.injEq] at h; subst h; rfl
  · simp only [Except.ok.injEq] at h; subst h; rfl

/-- The CORE's turns leave everything but the core and the draws. -/
theorem coreStep_frame (s : State) :
    (coreProgress s).posted = s.posted ∧ (coreProgress s).ie = s.ie ∧ (coreProgress s).raw = s.raw ∧
      (coreProgress s).port = s.port ∧ (coreProgress s).history = s.history ∧
      (coreProgress s).controller = s.controller ∧
    (coreComplete s).posted = s.posted ∧ (coreComplete s).ie = s.ie ∧ (coreComplete s).raw = s.raw ∧
      (coreComplete s).port = s.port ∧ (coreComplete s).history = s.history ∧
      (coreComplete s).controller = s.controller := by
  refine ⟨?_, ?_, ?_, ?_, ?_, ?_, ?_, ?_, ?_, ?_, ?_, ?_⟩
  all_goals first
    | (unfold coreProgress; split <;> simp)
    | (unfold coreComplete; split <;> simp)

theorem Survives.and {A : Move → Bool} {P Q : State → Prop} (hP : Survives A P) (hQ : Survives A Q) :
    Survives A fun s => P s ∧ Q s :=
  ⟨fun ms h => ⟨hP.moves ms h.1, hQ.moves ms h.2⟩,
    fun hm ha hf h he => ⟨hP.env hm ha hf h.1 he, hQ.env hm ha hf h.2 he⟩,
    fun h hv he => ⟨hP.read h.1 hv he, hQ.read h.2 hv he⟩⟩

theorem survives_const {A : Move → Bool} (Z : Prop) : Survives A fun _ => Z :=
  ⟨fun _ h => h, fun _ _ _ h _ => h, fun h _ _ => h⟩

/-- A fact about posted writes, IE, RAW and the record of writes survives when drains, IRQ steps and reads keep it. -/
theorem survives_of {A : Move → Bool} {P : State → Prop}
    (hcong : ∀ {s t : State}, t.posted = s.posted → t.ie = s.ie → t.raw = s.raw →
      notReads t.history = notReads s.history → P s → P t)
    (hdrain : ∀ {s t : State}, P s → drainStep s = .ok t → P t)
    (hirq : A .irq = true → ∀ {s t : State}, P s → irqStep s = .ok t → P t) : Survives A P := by
  refine ⟨fun {s} ms h => hcong (s := s) (t := s.withMoves ms) rfl rfl rfl rfl h, ?_, ?_⟩
  · intro m s t hm hA hf h he
    cases m with
    | engine => simp only [envMove, Except.ok.injEq] at he; exact he ▸ h
    | drain => exact hdrain h he
    | port =>
      obtain ⟨u, hu, e, _, k1, k2⟩ := portStep_spec hf
      simp only [envMove] at he
      rw [hu] at he
      simp only [Except.ok.injEq] at he
      subst he
      cases hb : s.port.busy with
      | false =>
        simp only [portStep, hb, Bool.false_eq_true, if_false, Except.ok.injEq] at hu
        exact hu ▸ h
      | true =>
        obtain ⟨i, v, hi, hv, rfl⟩ := portStep_busy hb hu
        have p := performed_of ((flowing_iff.1 hf).2.1 hb) hi hv
        exact hcong (by simp [p.posted]) (by simp [p.ie]) (by simp [p.raw]) (by simp [p.history]) h
    | coreProgress =>
      simp only [envMove, Except.ok.injEq] at he
      have := coreStep_frame s
      subst he
      exact hcong this.1 this.2.1 this.2.2.1 (by rw [this.2.2.2.2.1]) h
    | coreComplete =>
      simp only [envMove, Except.ok.injEq] at he
      have := coreStep_frame s
      subst he
      exact hcong this.2.2.2.2.2.2.1 this.2.2.2.2.2.2.2.1 this.2.2.2.2.2.2.2.2.1
        (by rw [this.2.2.2.2.2.2.2.2.2.2.1]) h
    | irq => exact hirq hA h he
    | timeout => simp only [envMove, Except.ok.injEq] at he; exact he ▸ h
    | attach => simp only [envMove, Except.ok.injEq] at he; rw [← he]; exact hcong (s := s) (t := { s with handlerAttached := true }) rfl rfl rfl rfl h
    | call c => simp [Move.outside] at hm
    | hostWrite off width w => simp [Move.outside] at hm
    | hostRead off width => simp [Move.outside] at hm
  · intro s off r h _ he
    rw [readWindow_ok he]
    exact hcong (by simp) (by simp) (by simp) (by simp [notReads]) h

theorem drainStep_stream {s t : State} (h : drainStep s = .ok t) : t.stream = s.stream := by
  cases hp : s.posted with
  | nil =>
    simp only [drainStep, hp, Except.ok.injEq] at h
    exact h ▸ rfl
  | cons p ps =>
    obtain ⟨h1, _, h2, _⟩ := drainStep_pattern hp h
    simp [State.stream, h1, h2, hp]

/-- A read leaves the window writes and delays. -/
@[simp] theorem stream_record_read (s : State) (off : Nat) (w : Word) : (s.record (.read off w)).stream = s.stream := by
  simp [State.stream, notReads]

@[simp] theorem stream_draw (s : State) : s.draw.2.stream = s.stream := by simp [State.stream]

@[simp] theorem stream_withMoves (s : State) (ms : List Move) : (s.withMoves ms).stream = s.stream := rfl

/-- A posted write joins the window writes and delays at the end. -/
theorem stream_post (s : State) (off : Nat) (w : Word) (r : Bool) :
    State.stream { s with posted := s.posted ++ [⟨off, w, r⟩] } = s.stream ++ [.write off w] := by
  simp [State.stream]

/-! ### The stream with the handler's clears in it -/

theorem Interleaved.refl (i : Bool) (E : List Event) : Interleaved i E E := ⟨List.Sublist.refl _, rfl, fun _ => rfl⟩

/-- The ENGINE's next write or delay joins both. -/
theorem Interleaved.snoc {i : Bool} {E L : List Event} (h : Interleaved i E L) (e : Event) :
    Interleaved i (E ++ [e]) (L ++ [e]) :=
  ⟨h.1.append (List.Sublist.refl _), by simp only [List.filter_append, h.2.1], fun z => by rw [h.2.2 z]⟩

/-- The handler's clear joins what the record gained. -/
theorem Interleaved.clear {E L : List Event} (h : Interleaved true E L) : Interleaved true E (L ++ [clearEvent]) :=
  ⟨h.1.trans (List.sublist_append_left _ _), by simp [List.filter_append, h.2.1], fun z => by simp at z⟩

/-- What is posted is the handler's clears, and nothing where the IRQ agent takes no turn. -/
def ClearsOnly (i : Bool) (ps : List Posted) : Prop := (∀ p ∈ ps, p = clearWrite) ∧ (i = false → ps = [])

theorem Interleaved.clears {i : Bool} {E : List Event} :
    ∀ (ps : List Posted) {L : List Event}, Interleaved i E L → ClearsOnly i ps →
      Interleaved i E (L ++ ps.map fun p => .write p.off p.word)
  | [], L, h, _ => by simpa using h
  | p :: ps, L, h, k => by
      have hi : i = true := by
        cases i
        · simpa using k.2 rfl
        · rfl
      subst hi
      rw [k.1 p List.mem_cons_self, List.map_cons, List.append_cons]
      exact Interleaved.clears ps h.clear ⟨fun q hq => k.1 q (List.mem_cons_of_mem _ hq), fun z => by simp at z⟩

/-- Since `S` the window writes and delays gained the ENGINE's `E`. -/
def Grown (i : Bool) (S E : List Event) (u : State) : Prop := ∃ L, u.stream = S ++ L ∧ Interleaved i E L

/-- Since `S` the record gained the ENGINE's `E`, and of what was issued only clears are still posted. -/
def Settled (i : Bool) (S E : List Event) (u : State) : Prop :=
  ∃ L, notReads u.history = S ++ L ∧ Interleaved i E L ∧ ClearsOnly i u.posted

theorem Settled.grown {i : Bool} {S E : List Event} {u : State} (h : Settled i S E u) : Grown i S E u := by
  obtain ⟨L, h1, h2, h3⟩ := h
  exact ⟨_, by rw [State.stream, h1, List.append_assoc], h2.clears _ h3⟩

theorem Grown.settled {i : Bool} {S E : List Event} {u : State} (h : Grown i S E u) (hp : u.posted = []) :
    Settled i S E u := by
  obtain ⟨L, h1, h2⟩ := h
  exact ⟨L, by simpa [State.stream, hp] using h1, h2, by simp [ClearsOnly, hp]⟩

/-- Only the buffer and the record matter to either. -/
theorem Grown.congr {i : Bool} {S E : List Event} {u v : State} (h : Grown i S E u) (k : v.stream = u.stream) :
    Grown i S E v := by
  obtain ⟨L, h1, h2⟩ := h
  exact ⟨L, k.trans h1, h2⟩

theorem Settled.congr {i : Bool} {S E : List Event} {u v : State} (h : Settled i S E u) (k1 : v.posted = u.posted)
    (k2 : notReads v.history = notReads u.history) : Settled i S E v := by
  obtain ⟨L, h1, h2, h3⟩ := h
  exact ⟨L, k2.trans h1, h2, by rw [k1]; exact h3⟩

/-- A delay is recorded, past the clears still posted (R77). -/
theorem Settled.delay {i : Bool} {S E : List Event} {u : State} (h : Settled i S E u) (us : Nat) :
    Settled i S (E ++ [.delay us]) (u.record (.delay us)) := by
  obtain ⟨L, h1, h2, h3⟩ := h
  exact ⟨L ++ [.delay us], by simp [notReads] at h1 ⊢; rw [h1, List.append_assoc], h2.snoc _, h3⟩

/-- Whatever the window writes and delays had gained at `s`, they have gained `ev` more at `u`. -/
def Grows (i : Bool) (s : State) (ev : List Event) (u : State) : Prop :=
  ∀ S E, Grown i S E s → Grown i S (E ++ ev) u

/-- The same with what is still posted clears only, before and after. -/
def Settles (i : Bool) (s : State) (ev : List Event) (u : State) : Prop :=
  ∀ S E, Settled i S E s → Settled i S (E ++ ev) u

theorem Grows.refl (i : Bool) (s : State) : Grows i s [] s := fun S E h => by simpa using h

theorem Settles.refl (i : Bool) (s : State) : Settles i s [] s := fun S E h => by simpa using h

/-- A window write of the ENGINE (R72). -/
theorem Grows.post {i : Bool} {s u : State} {ev : List Event} (h : Grows i s ev u) (off : Nat) (w : Word) (r : Bool) :
    Grows i s (ev ++ [.write off w]) { u with posted := u.posted ++ [⟨off, w, r⟩] } := by
  intro S E k
  obtain ⟨L, h1, h2⟩ := h S E k
  exact ⟨L ++ [.write off w], by rw [stream_post, h1, List.append_assoc], by rw [← List.append_assoc]; exact h2.snoc _⟩

/-- The other agents' turns add clears only, and none without IRQ turns (R80, R186). -/
theorem grows_survives {A : Move → Bool} (s : State) (ev : List Event) : Survives A (Grows (A .irq) s ev) := by
  refine survives_of ?_ ?_ ?_
  · intro u v h1 _ _ h4 h S E k
    exact (h S E k).congr (by simp only [State.stream, h1, h4])
  · intro u v h he S E k
    exact (h S E k).congr (drainStep_stream he)
  · intro hA u v h he S E k
    have hn := irqStep_notReads he
    rcases (irqStep_posts he).2.2 with hp | hp
    · exact (h S E k).congr (by simp only [State.stream, hn, hp])
    · obtain ⟨L, h1, h2⟩ := h S E k
      rw [hA] at h2 ⊢
      refine ⟨L ++ [clearEvent], ?_, h2.clear⟩
      rw [← List.append_assoc, ← h1]
      simp [State.stream, hn, hp, clearWrite, clearEvent]

theorem settles_survives {A : Move → Bool} (s : State) (ev : List Event) : Survives A (Settles (A .irq) s ev) := by
  refine survives_of ?_ ?_ ?_
  · intro u v h1 _ _ h4 h S E k
    exact (h S E k).congr h1 h4
  · intro u v h he S E k
    cases hp : u.posted with
    | nil =>
      simp only [drainStep, hp, Except.ok.injEq] at he
      exact he ▸ h S E k
    | cons p ps =>
      obtain ⟨L, h1, h2, h3⟩ := h S E k
      obtain ⟨k1, _, k2, _⟩ := drainStep_pattern hp he
      rw [hp] at h3
      have hi : A .irq = true := by
        cases hi : A .irq
        · simpa using h3.2 hi
        · rfl
      rw [hi] at h2 h3 ⊢
      refine ⟨L ++ [clearEvent], ?_, h2.clear, fun q hq => h3.1 q ?_, fun z => by simp at z⟩
      · rw [k2, h1, h3.1 p List.mem_cons_self, List.append_assoc]
        rfl
      · rw [k1] at hq
        exact List.mem_cons_of_mem _ hq
  · intro hA u v h he S E k
    have hn := irqStep_notReads he
    rcases (irqStep_posts he).2.2 with hp | hp
    · exact (h S E k).congr hp hn
    · obtain ⟨L, h1, h2, h3⟩ := h S E k
      rw [hA] at h2 h3 ⊢
      refine ⟨L, hn.trans h1, h2, fun q hq => ?_, fun z => by simp at z⟩
      rw [hp, List.mem_append, List.mem_singleton] at hq
      rcases hq with hq | hq
      · exact h3.1 q hq
      · exact hq

end Sys2Proof.Machine
end

