-- ==== Sys2Proof/Laws/Command.lean ====
section
/-! SUPPORT. What `write_register` and `read_register` can do, whatever the other agents' turns: `command_spec`, followed
through its three stages (posted, held by the PORT, performed), and its instances. -/

namespace Sys2Proof.Machine

open Sys2Proof

/-! ### The stages of a command -/

/-- The entries of the buffer that are command words. -/
def cmdsPosted (s : State) : List Posted := s.posted.filter Posted.isCmd

/-- What a record says of the command stream and the delays: how far its answers have got, the command words, the
delays. -/
def cmdLog (h : List Event) : (Option Word × List (Word × Byte)) × List Word × List Nat :=
  (answering h, cmdWrites h, delaysOf h)

/-- A record with the answers `a`, the command words `l` and the delays `d`, and perhaps a command without its answer. -/
def LogIs (h : List Event) (a : List (Word × Byte)) (l : List Word) (d : List Nat) : Prop :=
  answers h = a ∧ cmdWrites h = l ∧ delaysOf h = d

theorem LogIs.congr {h h' : List Event} {a : List (Word × Byte)} {l : List Word} {d : List Nat} (k : LogIs h a l d)
    (e : cmdLog h' = cmdLog h) : LogIs h' a l d := by
  simp only [cmdLog, Prod.mk.injEq] at e
  exact ⟨by rw [answers, e.1]; exact k.1, by rw [e.2.1]; exact k.2.1, by rw [e.2.2]; exact k.2.2⟩

/-- A command `w` on its way: posted, then held by the PORT, then performed. `R` holds before it is performed and `E` after;
`a`, `l` and `d` are the record before it. -/
def Track (w : Word) (R E : State → Prop) (a : List (Word × Byte)) (l : List Word) (d : List Nat) (t : State) : Prop :=
  (t.port.busy = false ∧ cmdsPosted t = [⟨Config.offCmd, w, false⟩] ∧ R t ∧ LogIs t.history a l d) ∨
  (t.port.busy = true ∧ t.port.cmd = w ∧ cmdsPosted t = [] ∧ R t ∧ cmdLog t.history = ((some w, a), l ++ [w], d)) ∨
  (t.port.busy = false ∧ t.port.lastRead = cmdIsRead w ∧ cmdsPosted t = [] ∧ E t ∧
    cmdLog t.history = ((some w, a), l ++ [w], d))

theorem cmdLog_cmd (h : List Event) (w : Word) :
    cmdLog (h ++ [.write Config.offCmd w]) = ((some w, answers h), cmdWrites h ++ [w], delaysOf h) := by
  simp [cmdLog, answering, answers, answerStep, cmdWrites, delaysOf]

theorem cmdLog_raw (h : List Event) (w : Word) : cmdLog (h ++ [.write Config.offRaw w]) = cmdLog h := by
  simp [cmdLog, answering, answerStep, cmdWrites, delaysOf, Config.offRaw, Config.offCmd]

/-- A read that is not the last poll of an access changes neither the answers nor the rest of the record. -/
theorem cmdLog_read (h : List Event) (off : Nat) (w : Word) (hv : off = Config.offCmd → cmdValid w = true) :
    cmdLog (h ++ [.read off w]) = cmdLog h := by
  have : ¬ (off = Config.offCmd ∧ cmdValid w = false) := fun ⟨h1, h2⟩ => by simp [hv h1] at h2
  simp [cmdLog, answering, answerStep, cmdWrites, delaysOf, this]

/-- The last poll of an access is its answer. -/
theorem cmdLog_answer {h : List Event} {w v : Word} {a : List (Word × Byte)} {l : List Word} {d : List Nat}
    (k : cmdLog h = ((some w, a), l, d)) (hv : cmdValid v = false) :
    LogIs (h ++ [.read Config.offCmd v]) (a ++ [(w, lowByte v)]) l d := by
  simp only [cmdLog, Prod.mk.injEq] at k
  obtain ⟨k1, k2, k3⟩ := k
  simp only [answering] at k1
  refine ⟨?_, by rw [← k2]; simp [cmdWrites], by rw [← k3]; simp [delaysOf]⟩
  simp [answers, answering, answerStep, hv, k1]

theorem cmdLog_delay (h : List Event) (us : Nat) :
    LogIs (h ++ [.delay us]) (answers h) (cmdWrites h) (delaysOf h ++ [us]) := by
  simp [LogIs, answers, answering, answerStep, cmdWrites, delaysOf]

/-- Draining a command word issues it to an idle port (R150, R151). -/
theorem drainStep_cmd {s t : State} {p : Posted} {ps : List Posted} (hp : s.posted = p :: ps) (hc : p.isCmd = true)
    (h : drainStep s = .ok t) : s.port.busy = false ∧ t.port.busy = true ∧ t.port.cmd = p.word ∧ t.posted = ps ∧
      cmdLog t.history = ((some p.word, answers s.history), cmdWrites s.history ++ [p.word], delaysOf s.history) := by
  have ho : p.off = Config.offCmd := by simpa [Posted.isCmd] using hc
  simp only [drainStep, hp, applyPosted, ho, if_true, issueCommand, State.record_port] at h
  split at h
  · split at h
    · simp at h
    · rename_i hb
      simp only [Except.ok.injEq] at h
      subst h
      exact ⟨by simpa using hb, rfl, rfl, rfl, cmdLog_cmd _ _⟩
  · simp at h

/-- Draining a pattern leaves the PORT and the command stream (R36, R37). -/
theorem drainStep_raw {s t : State} {p : Posted} {ps : List Posted} (hp : s.posted = p :: ps) (hc : p.isCmd = false)
    (h : drainStep s = .ok t) : t.port = s.port ∧ t.posted = ps ∧ cmdLog t.history = cmdLog s.history := by
  have ho : p.off ≠ Config.offCmd := by simpa [Posted.isCmd] using hc
  simp only [drainStep, hp, applyPosted, ho, if_false] at h
  split at h
  · rename_i hr
    split at h
    · unfold recoveryPattern at h
      split at h
      · simp only [Except.ok.injEq] at h; subst h; simp [hr, cmdLog_raw]
      · simp at h
    · have h := ofOutcome_ok h
      unfold execWrraw at h
      repeat' (split at h)
      all_goals first
        | (simp only [Host.Outcome.next.injEq] at h; subst h; simp [hr, cmdLog_raw])
        | simp at h
  · simp at h

/-- Turns other than a drain or the PORT's leave the PORT, the posted commands and the command stream. -/
theorem envMove_elsewhere {m : Move} {s t : State} (hm : m.outside = false) (hd : m ≠ .drain) (hp : m ≠ .port)
    (h : envMove m s = .ok t) :
    t.port = s.port ∧ cmdsPosted t = cmdsPosted s ∧ cmdLog t.history = cmdLog s.history := by
  cases m with
  | engine => simp only [envMove, Except.ok.injEq] at h; subst h; simp
  | drain => exact absurd rfl hd
  | port => exact absurd rfl hp
  | coreProgress =>
    simp only [envMove, Except.ok.injEq] at h; subst h
    unfold coreProgress cmdsPosted; split <;> simp
  | coreComplete =>
    simp only [envMove, Except.ok.injEq] at h; subst h
    unfold coreComplete cmdsPosted; split <;> simp
  | irq =>
    refine ⟨(irqStep_core h).2, ?_⟩
    simp only [envMove] at h
    unfold irqStep at h
    unfold cmdsPosted
    split at h
    · simp only [Except.ok.injEq] at h; subst h; unfold irqEnter; split <;> simp
    · simp only [post, legalOffset, beq_self_eq_true, Bool.or_true, if_true, Except.map, Except.ok.injEq] at h
      subst h; simp [Posted.isCmd, Config.offRaw, Config.offCmd]
    · split at h
      · simp only [readWindow, Config.offRaw, Config.offCmd, Except.map] at h
        simp only [Nat.reduceEqDiff, if_false, if_true, Except.ok.injEq] at h
        subst h
        exact ⟨by simp, by simpa using cmdLog_read s.history 16 s.draw.1 (fun h => absurd h (by decide))⟩
      · simp only [Except.ok.injEq] at h; subst h; simp
    · simp only [Except.ok.injEq] at h; subst h; simp
    · simp only [Except.ok.injEq] at h; subst h; simp
  | timeout => simp only [envMove, Except.ok.injEq] at h; subst h; simp
  | attach => simp only [envMove, Except.ok.injEq] at h; subst h; simp [cmdsPosted]
  | call c => simp [Move.outside] at hm
  | hostWrite off width w => simp [Move.outside] at hm
  | hostRead off width => simp [Move.outside] at hm

/-- The stages follow each other under every turn of another agent. -/
theorem track_survives {A : Move → Bool} {w : Word} {R E : State → Prop} {a : List (Word × Byte)} {l : List Word}
    {d : List Nat} (hR : Keeps A R) (hE : Keeps A E)
    (hperf : ∀ t i u, R t → decodeCmd w = .ok i → perform w i t = .next u → E (portDone w u)) :
    Survives A (Track w R E a l d) := by
  refine ⟨?_, ?_, ?_⟩
  · rintro s ms (⟨h1, h2, h3, h4⟩ | ⟨h1, h2, h3, h4, h5⟩ | ⟨h1, h2, h3, h4, h5⟩)
    · exact .inl ⟨h1, h2, hR.moves ms h3, h4⟩
    · exact .inr (.inl ⟨h1, h2, h3, hR.moves ms h4, h5⟩)
    · exact .inr (.inr ⟨h1, h2, h3, hE.moves ms h4, h5⟩)
  · intro m s t hm hA _ hs h
    by_cases hd : m = .drain
    · subst hd
      have hR' : R s → R t := fun hr => hR.env (m := .drain) rfl hA (by simp) hr h
      have hE' : E s → E t := fun hr => hE.env (m := .drain) rfl hA (by simp) hr h
      simp only [envMove] at h
      cases hp : s.posted with
      | nil =>
        simp only [drainStep, hp, Except.ok.injEq] at h
        exact h ▸ hs
      | cons p ps =>
        cases hc : p.isCmd with
        | true =>
          obtain ⟨b1, b2, b3, b4, b5⟩ := drainStep_cmd hp hc h
          rcases hs with ⟨h1, h2, h3, h4⟩ | ⟨h1, h2, h3, h4, h5⟩ | ⟨h1, h2, h3, h4, h5⟩
          · simp only [cmdsPosted, hp, List.filter_cons, hc, if_true, List.cons.injEq] at h2
            refine .inr (.inl ⟨b2, by rw [b3, h2.1], by rw [cmdsPosted, b4]; exact h2.2, hR' h3, ?_⟩)
            rw [b5, h4.1, h4.2.1, h4.2.2, h2.1]
          · simp [cmdsPosted, hp, hc] at h3
          · simp [cmdsPosted, hp, hc] at h3
        | false =>
          obtain ⟨b1, b2, b3⟩ := drainStep_raw hp hc h
          have b4 : cmdsPosted t = cmdsPosted s := by simp [cmdsPosted, hp, b2, hc]
          rcases hs with ⟨h1, h2, h3, h4⟩ | ⟨h1, h2, h3, h4, h5⟩ | ⟨h1, h2, h3, h4, h5⟩
          · exact .inl ⟨by rw [b1, h1], by rw [b4, h2], hR' h3, h4.congr b3⟩
          · exact .inr (.inl ⟨by rw [b1, h1], by rw [b1, h2], by rw [b4, h3], hR' h4, by rw [b3, h5]⟩)
          · exact .inr (.inr ⟨by rw [b1, h1], by rw [b1, h2], by rw [b4, h3], hE' h4, by rw [b3, h5]⟩)
    · by_cases hp : m = .port
      · subst hp
        simp only [envMove] at h
        rcases hs with ⟨h1, h2, h3, h4⟩ | ⟨h1, h2, h3, h4, h5⟩ | ⟨h1, h2, h3, h4, h5⟩
        · simp only [portStep, h1, Bool.false_eq_true, if_false, Except.ok.injEq] at h
          exact h ▸ .inl ⟨h1, h2, h3, h4⟩
        · obtain ⟨i, u, hi, hu, rfl⟩ := portStep_busy h1 h
          rw [h2] at hi hu
          have he := hperf s i u h4 hi hu
          rw [h2]
          have hpost : u.posted = s.posted ∧ u.history = s.history := by
            rcases decodeCmd_cases hi with ⟨b, rfl⟩ | ⟨b, rfl⟩ | ⟨b, rfl⟩ | ⟨b, rfl⟩ | ⟨b, rfl⟩ | rfl | rfl | rfl <;>
              simp only [perform, execWrregThp, execWrregData, execWrregCtl, execWrregClkctl, execWrregRst, execRdregData,
                execRdregCtl, execRdregStat] at hu <;>
              (try split at hu) <;> simp at hu <;> subst hu <;> simp [rstWrite, ctlWrite]
          exact .inr (.inr ⟨rfl, rfl, by simpa [cmdsPosted, hpost.1] using h3, he, by simpa [hpost.2] using h5⟩)
        · simp only [portStep, h1, Bool.false_eq_true, if_false, Except.ok.injEq] at h
          exact h ▸ .inr (.inr ⟨h1, h2, h3, h4, h5⟩)
      · obtain ⟨b1, b2, b3⟩ := envMove_elsewhere hm hd hp h
        have hR' : R s → R t := fun hr => hR.env hm hA (fun h => absurd h hp) hr h
        have hE' : E s → E t := fun hr => hE.env hm hA (fun h => absurd h hp) hr h
        rcases hs with ⟨h1, h2, h3, h4⟩ | ⟨h1, h2, h3, h4, h5⟩ | ⟨h1, h2, h3, h4, h5⟩
        · exact .inl ⟨by rw [b1, h1], by rw [b2, h2], hR' h3, h4.congr b3⟩
        · exact .inr (.inl ⟨by rw [b1, h1], by rw [b1, h2], by rw [b2, h3], hR' h4, by rw [b3, h5]⟩)
        · exact .inr (.inr ⟨by rw [b1, h1], by rw [b1, h2], by rw [b2, h3], hE' h4, by rw [b3, h5]⟩)
  · intro s off r hs hv h
    have hr := readWindow_ok h
    have b1 : r.2.port = s.port := by rw [hr]; simp
    have b2 : cmdsPosted r.2 = cmdsPosted s := by rw [hr]; simp [cmdsPosted]
    have b3 : cmdLog r.2.history = cmdLog s.history := by rw [hr]; simp [cmdLog_read _ _ _ hv]
    rcases hs with ⟨h1, h2, h3, h4⟩ | ⟨h1, h2, h3, h4, h5⟩ | ⟨h1, h2, h3, h4, h5⟩
    · exact .inl ⟨by rw [b1, h1], by rw [b2, h2], hR.read h3 h, h4.congr b3⟩
    · exact .inr (.inl ⟨by rw [b1, h1], by rw [b1, h2], by rw [b2, h3], hR.read h4 h, by rw [b3, h5]⟩)
    · exact .inr (.inr ⟨by rw [b1, h1], by rw [b1, h2], by rw [b2, h3], hE.read h4 h, by rw [b3, h5]⟩)

/-! ### What survives while no access is in flight -/

theorem inFlight_zero {s : State} : s.inFlight = 0 ↔ s.port.busy = false ∧ cmdsPosted s = [] := by
  simp only [State.inFlight, cmdsPosted, Nat.add_eq_zero_iff, List.countP_eq_zero, List.filter_eq_nil_iff]
  cases s.port.busy <;> simp

/-- No access in flight, a fact that survives, and the record so far. -/
theorem idle_survives {A : Move → Bool} {R : State → Prop} {a : List (Word × Byte)} {l : List Word} {d : List Nat}
    (hR : Keeps A R) : Survives A fun s => s.inFlight = 0 ∧ R s ∧ LogIs s.history a l d := by
  refine ⟨?_, ?_, ?_⟩
  · rintro s ms ⟨h1, h2, h3⟩
    exact ⟨by simpa using h1, hR.moves ms h2, h3⟩
  · rintro m s t hm hA hf ⟨h1, h2, h3⟩ h
    obtain ⟨hb, hc⟩ := inFlight_zero.1 h1
    have hR' : R t := hR.env hm hA (fun _ => hb) h2 h
    by_cases hd : m = .drain
    · subst hd
      simp only [envMove] at h
      cases hp : s.posted with
      | nil =>
        simp only [drainStep, hp, Except.ok.injEq] at h
        exact h ▸ ⟨h1, h2, h3⟩
      | cons p ps =>
        have hpc : p.isCmd = false := by
          cases hpc : p.isCmd
          · rfl
          · simp [cmdsPosted, hp, hpc] at hc
        obtain ⟨b1, b2, b3⟩ := drainStep_raw hp hpc h
        refine ⟨inFlight_zero.2 ⟨by rw [b1, hb], ?_⟩, hR', h3.congr b3⟩
        simpa [cmdsPosted, hp, b2, hpc] using hc
    · by_cases hp : m = .port
      · subst hp
        simp only [envMove, portStep, hb, Bool.false_eq_true, if_false, Except.ok.injEq] at h
        exact h ▸ ⟨h1, h2, h3⟩
      · obtain ⟨b1, b2, b3⟩ := envMove_elsewhere hm hd hp h
        exact ⟨inFlight_zero.2 ⟨by rw [b1, hb], by rw [b2, hc]⟩, hR', h3.congr b3⟩
  · rintro s off r ⟨h1, h2, h3⟩ hv h
    have hr := readWindow_ok h
    refine ⟨?_, hR.read h2 h, by rw [hr]; exact h3.congr (by simp [cmdLog_read _ _ _ hv])⟩
    rw [hr, inFlight_congr (s := s) (by simp) (by simp), h1]

/-! ### A piece of an operation that ran -/

/-- A piece of an operation ran from `s` to `t`: the ENGINE did `acts`, the piece used up some of the listed turns, and it
ended with no access in flight. The last three say how the window writes and delays grew: by those of `acts` and the handler's
clears. A piece that begins with a delay says so only from a state with nothing but clears posted, since the record shows a delay
before what is still posted; a piece that begins with a write ends so. -/
structure Ran (A : Move → Bool) (s t : State) (acts : List Act) : Prop where
  quiet : t.quiet = true
  moves : t.moves <:+ s.moves
  thread : t.thread = s.thread
  answers : answers t.history = answers s.history ++ accessesOf acts
  commands : cmdWrites t.history = cmdWrites s.history ++ (accessesOf acts).map Prod.fst
  delays : delaysOf t.history = delaysOf s.history ++ delaysIn acts
  settles : Settles (A .irq) s (eventsOf acts) t
  grows : acts ≠ [] → (∀ us, acts.head? ≠ some (.delay us)) →
    ∀ S E, Grown (A .irq) S E s → Settled (A .irq) S (E ++ eventsOf acts) t
  stays : acts = [] → Grows (A .irq) s [] t

theorem Ran.trans {A : Move → Bool} {s t u : State} {acts acts' : List Act} (h : Ran A s t acts) (k : Ran A t u acts') :
    Ran A s u (acts ++ acts') := by
  refine ⟨k.quiet, k.moves.trans h.moves, k.thread.trans h.thread, ?_, ?_, ?_, fun S E z => ?_, fun hn hd S E z => ?_,
    fun hn S E z => ?_⟩
  · rw [k.answers, h.answers]; simp
  · rw [k.commands, h.commands]; simp
  · rw [k.delays, h.delays]; simp
  · have := k.settles S _ (h.settles S E z)
    simpa using this
  · cases acts with
    | nil => exact k.grows hn hd S E (by simpa using h.stays rfl S E z)
    | cons a acts =>
      have := k.settles S _ (h.grows (by simp) (by simpa using hd) S E z)
      simpa using this
  · obtain ⟨rfl, rfl⟩ := List.append_eq_nil_iff.1 hn
    have := k.stays rfl S _ (h.stays rfl S E z)
    simpa using this

theorem Ran.refl {A : Move → Bool} {s : State} (h : s.quiet = true) : Ran A s s [] :=
  ⟨h, List.suffix_refl _, rfl, by simp, by simp, by simp, Settles.refl _ s, fun z => absurd rfl z, fun _ => Grows.refl _ s⟩

/-- An update of what neither the agents nor the record look at. -/
theorem Ran.update {A : Move → Bool} {s t t' : State} {acts : List Act} (h : Ran A s t acts)
    (h1 : t'.moves = t.moves) (h2 : t'.posted = t.posted) (h3 : t'.port = t.port) (h4 : t'.history = t.history)
    (h5 : t'.thread = t.thread) : Ran A s t' acts := by
  have hn : notReads t'.history = notReads t.history := by rw [h4]
  refine ⟨?_, by rw [h1]; exact h.moves, by rw [h5]; exact h.thread, by rw [h4]; exact h.answers,
    by rw [h4]; exact h.commands, by rw [h4]; exact h.delays, fun S E z => (h.settles S E z).congr h2 hn,
    fun hn' hd S E z => (h.grows hn' hd S E z).congr h2 hn,
    fun hn' S E z => (h.stays hn' S E z).congr (by simp only [State.stream, h2, hn])⟩
  have := h.quiet
  rw [quiet_iff, calm_iff] at this ⊢
  rw [h1, flowing_congr h2 h3, inFlight_congr h2 h3]
  exact this

/-- What a piece did, as the statements say it: `Acted`, unless it begins with a delay. -/
theorem Ran.acted {A : Move → Bool} {s t : State} {acts : List Act} (h : Ran A s t acts)
    (hi : s.noTurn .irq = true → A .irq = false) (hd : ∀ us, acts.head? ≠ some (.delay us)) : Acted s t acts := by
  have g : Grown (A .irq) s.stream [] s := ⟨[], by simp, Interleaved.refl _ _⟩
  have k : Grown (A .irq) s.stream (eventsOf acts) t := by
    cases acts with
    | nil => exact h.stays rfl _ _ g
    | cons a acts => exact (h.grows (by simp) hd _ _ g).grown
  obtain ⟨L, h1, h2, h3, h4⟩ := k
  exact ⟨⟨h.answers, h.commands⟩, h.delays, L, h1, h2, h3, fun z => h4 (hi (by simpa using z))⟩

/-- What is still posted after a piece that began with a write or an access is the handler's clears. -/
theorem Ran.drained {A : Move → Bool} {s t : State} {acts : List Act} (h : Ran A s t acts)
    (hi : s.noTurn .irq = true → A .irq = false) (hn : acts ≠ []) (hd : ∀ us, acts.head? ≠ some (.delay us)) :
    Drained s t := by
  obtain ⟨L, _, _, h3⟩ := h.grows hn hd s.stream [] ⟨[], by simp, Interleaved.refl _ _⟩
  exact ⟨h3.1, fun z => h3.2 (hi z)⟩

theorem Ran.all {s t : State} {acts : List Act} {A : Move → Bool} (h : Ran A s t acts)
    (hA : s.moves.all A = true) : t.moves.all A = true := by
  rw [List.all_eq_true] at hA ⊢
  exact fun m hm => hA m (h.moves.subset hm)

/-! ### The two command primitives -/

/-- A legal command issued from a quiet state is performed, once, and nothing is left in flight (R140, R141, R85). -/
theorem command_spec {A : Move → Bool} {w : Word} {R E : State → Prop} (hR : Keeps A R) (hE : Keeps A E)
    (hperf : ∀ t i u, R t → decodeCmd w = .ok i → perform w i t = .next u → E (portDone w u))
    (hw : commandLegal w = true) (hd : A .drain = true) (hp : A .port = true) {s : State} (hq : s.quiet = true)
    (hA : s.moves.all A = true) (hs : R s) :
    ∃ b t, (do winWrite Config.offCmd w false; poll : M Byte) s = .ok (b, t) ∧ Ran A s t [.access w b] ∧ Others s t ∧
      t.posted = [] ∧ E t ∧ t.port.lastRead = cmdIsRead w ∧ (cmdIsRead w = true → b = t.port.result) := by
  obtain ⟨hc, h0⟩ := quiet_iff.1 hq
  obtain ⟨t, ht, ht2, _, ⟨hti, htr, htw⟩, htS⟩ := turn_spec
    ((idle_survives (a := answers s.history) (l := cmdWrites s.history) (d := delaysOf s.history) hR).and
      (grows_survives s [])) hc hA ⟨⟨h0, hs, rfl, rfl, rfl⟩, Grows.refl _ s⟩
  have hkey := inFlight_zero.1 hti
  let u : State := { t with posted := t.posted ++ [⟨Config.offCmd, w, false⟩] }
  have hu : winWrite Config.offCmd w false s = .ok ((), u) := by
    unfold winWrite
    rw [M.bind_ok ht]
    exact M.effect_ok (by simp [post, legalOffset, u])
  obtain ⟨hcm, hcf⟩ := calm_iff.1 ht2.calm
  have hfl := flowing_iff.1 hcf
  have hisc : (Posted.mk Config.offCmd w false).isCmd = true := by simp [Posted.isCmd]
  have hz : t.posted.countP Posted.isCmd = 0 := by
    simp only [State.inFlight, Nat.add_eq_zero_iff] at hti
    exact hti.1
  have huf : u.flowing = true := by
    rw [flowing_iff]
    refine ⟨?_, hfl.2.1, ?_⟩
    · have : (Posted.mk Config.offCmd w false).legal = true := by simp [Posted.legal, hw]
      simpa [u, this] using hfl.1
    · simp [u, State.inFlight, List.countP_append, hisc, hkey.1, hz]
  have hut : Track w R E (answers s.history) (cmdWrites s.history) (delaysOf s.history) u := by
    refine .inl ⟨hkey.1, ?_, hR.post w htr, htw⟩
    simp only [cmdsPosted] at hkey
    simp [cmdsPosted, u, List.filter_append, hisc, hkey.2]
  have hAt : t.moves.all A = true := by
    rw [List.all_eq_true] at hA ⊢
    exact fun m hm => hA m (ht2.moves.subset hm)
  obtain ⟨b, v, t', hv, he, hsuf, h6, hvS⟩ := pollTurns_spec ((track_survives hR hE hperf).and
    (grows_survives s [.write Config.offCmd w])) hd hp u.moves u hcm hAt huf ⟨hut, htS.post _ _ _⟩
  obtain ⟨x, hx, hxv, hxb⟩ := he.last
  have hall : v.port.lastRead = cmdIsRead w ∧ E v ∧
      cmdLog v.history = ((some w, answers s.history), cmdWrites s.history ++ [w], delaysOf s.history) := by
    rcases h6 with ⟨a1, a2, a3, a4⟩ | ⟨a1, a2, a3, a4, a5⟩ | ⟨a1, a2, a3, a4, a5⟩
    · simp [cmdsPosted, he.posted] at a2
    · simp [he.busy] at a1
    · exact ⟨a2, a4, a5⟩
  have hlog := cmdLog_answer hall.2.2 hxv
  have hx' := readWindow_ok hx
  simp only at hx'
  have hpo : t'.posted = [] := by rw [hx']; simpa using he.posted
  have hpt : t'.port = v.port := by rw [hx']; simp
  have hflow : t'.flowing = true := by
    rw [flowing_congr (s := v) (by rw [hpo, he.posted]) hpt, he.flowing]
  have hmv : t'.moves <:+ u.moves := by rw [hx']; simpa using hsuf
  have hcalm : t'.calm = true := calm_of hcm hmv hflow
  have ho : Others v t' := by rw [hx']; exact ⟨by simp, by simp, by simp, by simp, by simp⟩
  have hou : Others t u := ⟨rfl, rfl, rfl, rfl, rfl⟩
  have hot := ((ht2.others.trans hou).trans he.others).trans ho
  have hhist : t'.history = v.history ++ [.read Config.offCmd x] := by rw [hx']; simp
  rw [← hhist, ← hxb] at hlog
  have hgr : Grows (A .irq) s [.write Config.offCmd w] t' := fun S E z => (hvS S E z).congr (by
    rw [hx', stream_record_read, stream_draw])
  refine ⟨b, t', ?_, ⟨quiet_iff.2 ⟨hcalm, ?_⟩, hmv.trans ht2.moves, hot.thread, hlog.1, ?_, ?_,
      fun S E z => (hgr S E z.grown).settled hpo, fun _ _ S E z => (hgr S E z).settled hpo, by simp⟩, hot, hpo,
    hE.read hall.2.1 hx, by rw [hpt, hall.1], ?_⟩
  · rw [M.bind_ok hu]
    exact hv
  · rw [inFlight_zero]
    exact ⟨by rw [hpt, he.busy], by simp [cmdsPosted, hpo]⟩
  · simpa using hlog.2.1
  · simpa using hlog.2.2
  · intro hr
    rw [hpt]
    exact he.result (by rw [hall.1, hr])

theorem commandLegal_writeCommand {sel : Selector} {b : Byte} (h : registerByteLegal sel b = true) :
    commandLegal (writeCommand sel b) = true := by
  unfold commandLegal
  rw [decodeCmd_writeCommand]
  cases sel <;> first | rfl | exact h

theorem commandLegal_readCommand {sel : Selector} (h : readable sel = true) :
    commandLegal (readCommand sel) = true := by
  unfold commandLegal
  rw [decodeCmd_readCommand]
  cases sel <;> first | rfl | simp [readable] at h

/-- A performed read command changes the port's result and the draws only (R148, R154). -/
theorem perform_read {sel : Selector} (hr : readable sel = true) {s t : State} {i : Instr}
    (hi : decodeCmd (readCommand sel) = .ok i) (hu : perform (readCommand sel) i s = .next t) :
    t.core = s.core ∧ (sel = .data → t.port.result = s.core.data) ∧
      (sel = .ctl → ctlReady t.port.result = s.core.iflg) ∧ (sel = .stat ∨ sel = .clkctl → t.port.result = s.core.stat) := by
  rw [decodeCmd_readCommand] at hi
  cases sel <;> simp only [Except.ok.injEq, reduceCtorEq] at hi <;> subst hi <;>
    simp only [perform, execRdregData, execRdregCtl, execRdregStat, Host.Outcome.next.injEq] at hu <;> subst hu <;>
    simp [ctlReady_ctlReadByte]

/-- `write_register(sel, b)` from a quiet state (R140, R143-R147). -/
theorem writeRegister_spec {sel : Selector} {b : Byte} (hb : registerByteLegal sel b = true) {A : Move → Bool}
    {R E : State → Prop} (hR : Keeps A R) (hE : Keeps A E)
    (hperf : ∀ t i u, R t → decodeCmd (writeCommand sel b) = .ok i → perform (writeCommand sel b) i t = .next u →
      E (portDone (writeCommand sel b) u))
    (hd : A .drain = true) (hp : A .port = true) {s : State} (hq : s.quiet = true) (hA : s.moves.all A = true)
    (hs : R s) :
    ∃ x t, writeRegister sel b s = .ok ((), t) ∧ Ran A s t [.access (writeCommand sel b) x] ∧ Others s t ∧
      t.posted = [] ∧ E t := by
  obtain ⟨x, t, ht, hran, ho, hpo, he, _⟩ := command_spec hR hE hperf (commandLegal_writeCommand hb) hd hp hq hA hs
  refine ⟨x, t, ?_, hran, ho, hpo, he⟩
  unfold writeRegister
  have : (do winWrite Config.offCmd (writeCommand sel b) false; let _ ← poll : M Unit) s
      = ((do winWrite Config.offCmd (writeCommand sel b) false; poll : M Byte) >>= fun _ => pure ()) s := by
    simp
  rw [this, M.bind_ok ht]
  rfl

/-- `read_register(sel)` from a quiet state: it gives the port's result (R141, R148, R154). -/
theorem readRegister_spec {sel : Selector} (hr : readable sel = true) {A : Move → Bool} {R E : State → Prop}
    (hR : Keeps A R) (hE : Keeps A E)
    (hperf : ∀ t i u, R t → decodeCmd (readCommand sel) = .ok i → perform (readCommand sel) i t = .next u →
      E (portDone (readCommand sel) u))
    (hd : A .drain = true) (hp : A .port = true) {s : State} (hq : s.quiet = true) (hA : s.moves.all A = true)
    (hs : R s) :
    ∃ x t, readRegister sel s = .ok (x, t) ∧ Ran A s t [.access (readCommand sel) x] ∧ Others s t ∧ t.posted = [] ∧ E t ∧
      x = t.port.result := by
  obtain ⟨x, t, ht, hran, ho, hpo, he, _, hres⟩ := command_spec hR hE hperf (commandLegal_readCommand hr) hd hp hq hA hs
  exact ⟨x, t, ht, hran, ho, hpo, he, hres (cmdIsRead_readCommand sel)⟩

end Sys2Proof.Machine
end

