-- ==== Sys2Proof/Laws/Primitives.lean ====
section
/-! SUPPORT. What one primitive can do, in the form callers chain: `write_spec`, `read_spec`, `raw_spec`, `delay_spec`,
`block_spec`, and `wait_spec` over them. Each says what ran (`Ran`), what no agent but the ENGINE changes (`Others`), and
what becomes of a fact about the core and of IE. -/

namespace Sys2Proof.Machine

open Sys2Proof

/-! ### Facts that survive -/

/-- A fact about the core survives the CORE's turns in `A`. -/
structure CoreKeeps (A : Move → Bool) (Q : TwsiCore → Prop) : Prop where
  progress : ∀ s : State, A .coreProgress = true → Q s.core → Q (coreProgress s).core
  complete : ∀ s : State, A .coreComplete = true → Q s.core → Q (coreComplete s).core

/-- The registers only commands change survive every turn. -/
theorem coreKeeps_regs {A : Move → Bool} (Q : Byte × Byte × Byte → Prop) :
    CoreKeeps A fun c => Q (c.thp, c.ctl, c.clkctl) := by
  refine ⟨fun s _ h => ?_, fun s _ h => ?_⟩
  · have := coreProgress_regs s
    rw [this.1, this.2.1, this.2.2.1]; exact h
  · have := coreComplete_regs s
    rw [this.1, this.2.1, this.2.2.1]; exact h

theorem coreKeeps_true {A : Move → Bool} : CoreKeeps A fun _ => True := ⟨fun _ _ _ => trivial, fun _ _ _ => trivial⟩

/-- With no action pending the CORE has no turn, so IFLG stays (R156, R157). -/
theorem coreKeeps_settled {A : Move → Bool} (f : Bool) : CoreKeeps A fun c => c.iflg = f ∧ c.pending = .none := by
  refine ⟨fun s _ h => ?_, fun s _ h => ?_⟩
  · simpa [coreProgress, h.2] using h
  · simpa [coreComplete, h.2] using h

/-- Where the CORE has no listed turn, its every fact survives. -/
theorem coreKeeps_idle {A : Move → Bool} (h1 : A .coreProgress = false) (h2 : A .coreComplete = false)
    (Q : TwsiCore → Prop) : CoreKeeps A Q :=
  ⟨fun _ h => by simp [h1] at h, fun _ h => by simp [h2] at h⟩

theorem keeps_core {A : Move → Bool} {Q : TwsiCore → Prop} (hQ : CoreKeeps A Q) : Keeps A fun s => Q s.core := by
  refine ⟨fun _ h => h, ?_, ?_, fun _ h => h⟩
  · intro m s t hm hA hb h he
    cases m with
    | engine => simp only [envMove, Except.ok.injEq] at he; exact he ▸ h
    | drain => rw [(drainStep_core he).1]; exact h
    | port =>
      simp only [envMove, portStep, hb rfl, Bool.false_eq_true, if_false, Except.ok.injEq] at he
      exact he ▸ h
    | coreProgress => simp only [envMove, Except.ok.injEq] at he; exact he ▸ hQ.progress s hA h
    | coreComplete => simp only [envMove, Except.ok.injEq] at he; exact he ▸ hQ.complete s hA h
    | irq => rw [(irqStep_core he).1]; exact h
    | timeout => simp only [envMove, Except.ok.injEq] at he; exact he ▸ h
    | attach => simp only [envMove, Except.ok.injEq] at he; exact he ▸ h
    | call c => simp [Move.outside] at hm
    | hostWrite off width w => simp [Move.outside] at hm
    | hostRead off width => simp [Move.outside] at hm
  · intro s off r h he
    rw [readWindow_ok he]
    simpa using h

/-- IE is 0, and no posted write can set it (R189). -/
def IeClear (s : State) : Prop := s.ie = false ∧ ∀ p ∈ s.posted, p.off = Config.offRaw → p = clearWrite

theorem keeps_ieClear {A : Move → Bool} : Keeps A IeClear := by
  refine ⟨fun _ h => h, ?_, ?_, ?_⟩
  · intro m s t hm _ hb h he
    cases m with
    | engine => simp only [envMove, Except.ok.injEq] at he; exact he ▸ h
    | drain =>
      simp only [envMove] at he
      cases hp : s.posted with
      | nil =>
        simp only [drainStep, hp, Except.ok.injEq] at he
        exact he ▸ h
      | cons p ps =>
        obtain ⟨h1, _, _, _, _, h2⟩ := drainStep_pattern hp he
        have hps : ∀ q ∈ t.posted, q.off = Config.offRaw → q = clearWrite := by
          rw [h1]; exact fun q hq => h.2 q (by rw [hp]; exact List.mem_cons_of_mem _ hq)
        rcases h2 with ⟨_, k, _⟩ | ⟨k1, _, _, k3⟩
        · exact ⟨by rw [k, h.1], hps⟩
        · have := h.2 p (by rw [hp]; exact List.mem_cons_self) k1
          exact ⟨k3 (by rw [this]; rfl) (by rw [this]; rfl), hps⟩
    | port =>
      simp only [envMove, portStep, hb rfl, Bool.false_eq_true, if_false, Except.ok.injEq] at he
      exact he ▸ h
    | coreProgress =>
      simp only [envMove, Except.ok.injEq] at he
      have := coreStep_frame s
      subst he
      simpa [IeClear, this] using h
    | coreComplete =>
      simp only [envMove, Except.ok.injEq] at he
      have := coreStep_frame s
      subst he
      simpa [IeClear, this] using h
    | irq =>
      obtain ⟨h1, _, h2⟩ := irqStep_posts he
      refine ⟨by rw [h1, h.1], ?_⟩
      rcases h2 with h2 | h2
      · rw [h2]; exact h.2
      · rw [h2]
        intro p hp
        rw [List.mem_append, List.mem_singleton] at hp
        rcases hp with hp | hp
        · exact h.2 p hp
        · exact fun _ => hp
    | timeout => simp only [envMove, Except.ok.injEq] at he; exact he ▸ h
    | attach => simp only [envMove, Except.ok.injEq] at he; exact he ▸ h
    | call c => simp [Move.outside] at hm
    | hostWrite off width w => simp [Move.outside] at hm
    | hostRead off width => simp [Move.outside] at hm
  · intro s off r h he
    rw [readWindow_ok he]
    simpa [IeClear] using h
  · intro s w h
    refine ⟨h.1, fun p hp ho => ?_⟩
    simp only [List.mem_append, List.mem_singleton] at hp
    rcases hp with hp | hp
    · exact h.2 p hp ho
    · subst hp
      simp [Config.offCmd, Config.offRaw] at ho

/-- The port's result survives while no access is performed (R34). -/
theorem keeps_result {A : Move → Bool} (V : Byte → Prop) : Keeps A fun s => V s.port.result := by
  refine ⟨fun _ h => h, ?_, ?_, fun _ h => h⟩
  · intro m s t hm _ hb h he
    by_cases hd : m = .drain
    · subst hd
      simp only [envMove] at he
      cases hp : s.posted with
      | nil =>
        simp only [drainStep, hp, Except.ok.injEq] at he
        exact he ▸ h
      | cons p ps =>
        obtain ⟨_, _, _, h4, _, _⟩ := drainStep_pattern hp he
        rw [h4]; exact h
    · by_cases hp : m = .port
      · subst hp
        simp only [envMove, portStep, hb rfl, Bool.false_eq_true, if_false, Except.ok.injEq] at he
        exact he ▸ h
      · rw [(envMove_elsewhere hm hd hp he).1]; exact h
  · intro s off r h he
    rw [readWindow_ok he]
    simpa using h

/-- No pattern is posted. -/
def RawIdle (s : State) : Prop := ∀ p ∈ s.posted, p.off ≠ Config.offRaw

/-- IE and RAW hold these values, and no pattern is posted. -/
def RawHolds (e : Bool) (v : Word) (s : State) : Prop := RawIdle s ∧ s.ie = e ∧ s.raw = v

/-- Where the IRQ agent takes no turn, IE and RAW change only by a posted pattern (R36, R37). -/
theorem keeps_rawHolds {A : Move → Bool} (hA : A .irq = false) (e : Bool) (v : Word) : Keeps A (RawHolds e v) := by
  refine ⟨fun _ h => h, ?_, ?_, ?_⟩
  · intro m s t hm ha hb h he
    cases m with
    | engine => simp only [envMove, Except.ok.injEq] at he; exact he ▸ h
    | drain =>
      simp only [envMove] at he
      cases hp : s.posted with
      | nil =>
        simp only [drainStep, hp, Except.ok.injEq] at he
        exact he ▸ h
      | cons p ps =>
        obtain ⟨h1, _, _, _, _, h2⟩ := drainStep_pattern hp he
        have hps : RawIdle t := by
          unfold RawIdle
          rw [h1]
          exact fun q hq => h.1 q (by rw [hp]; exact List.mem_cons_of_mem _ hq)
        rcases h2 with ⟨_, k1, k2⟩ | ⟨k, _⟩
        · exact ⟨hps, by rw [k1, h.2.1], by rw [k2, h.2.2]⟩
        · exact absurd k (h.1 p (by rw [hp]; exact List.mem_cons_self))
    | port =>
      simp only [envMove, portStep, hb rfl, Bool.false_eq_true, if_false, Except.ok.injEq] at he
      exact he ▸ h
    | coreProgress =>
      simp only [envMove, Except.ok.injEq] at he
      have := coreStep_frame s
      subst he
      simpa [RawHolds, RawIdle, this] using h
    | coreComplete =>
      simp only [envMove, Except.ok.injEq] at he
      have := coreStep_frame s
      subst he
      simpa [RawHolds, RawIdle, this] using h
    | irq => simp [hA] at ha
    | timeout => simp only [envMove, Except.ok.injEq] at he; exact he ▸ h
    | attach => simp only [envMove, Except.ok.injEq] at he; exact he ▸ h
    | call c => simp [Move.outside] at hm
    | hostWrite off width w => simp [Move.outside] at hm
    | hostRead off width => simp [Move.outside] at hm
  · intro s off r h he
    rw [readWindow_ok he]
    simpa [RawHolds, RawIdle] using h
  · intro s w h
    refine ⟨fun p hp => ?_, h.2⟩
    simp only [List.mem_append, List.mem_singleton] at hp
    rcases hp with hp | hp
    · exact h.1 p hp
    · subst hp
      simp [Config.offCmd, Config.offRaw]

/-- Where the IRQ agent takes no turn, the completion signal stays: nothing else signals, and only a `Block()` and `open` take
it back (R46, R185). -/
theorem keeps_completion {A : Move → Bool} (hA : A .irq = false) (c : Bool) :
    Keeps A fun s => s.controller.completion = c := by
  refine ⟨fun _ h => h, ?_, ?_, fun _ h => h⟩
  · intro m s t hm ha hb h he
    cases m with
    | engine => simp only [envMove, Except.ok.injEq] at he; exact he ▸ h
    | drain => rw [(drainStep_core he).2.2.2]; exact h
    | port =>
      simp only [envMove, portStep, hb rfl, Bool.false_eq_true, if_false, Except.ok.injEq] at he
      exact he ▸ h
    | coreProgress =>
      simp only [envMove, Except.ok.injEq] at he
      have := coreStep_frame s
      subst he
      simpa [this] using h
    | coreComplete =>
      simp only [envMove, Except.ok.injEq] at he
      have := coreStep_frame s
      subst he
      simpa [this] using h
    | irq => simp [hA] at ha
    | timeout => simp only [envMove, Except.ok.injEq] at he; exact he ▸ h
    | attach => simp only [envMove, Except.ok.injEq] at he; exact he ▸ h
    | call c => simp [Move.outside] at hm
    | hostWrite off width w => simp [Move.outside] at hm
    | hostRead off width => simp [Move.outside] at hm
  · intro s off r h he
    rw [readWindow_ok he]
    simpa using h

theorem keeps_const {A : Move → Bool} (Z : Prop) : Keeps A fun _ => Z :=
  ⟨fun _ h => h, fun _ _ _ h _ => h, fun h _ => h, fun _ h => h⟩

/-- What a piece that writes no pattern and takes no wake does to IE, RAW and the completion signal: IE that cannot be set
stays so, and without the IRQ agent all three stay. -/
structure IeKept (A : Move → Bool) (s t : State) : Prop where
  clear : IeClear s → IeClear t
  patterns : A .irq = false → RawIdle s → RawHolds s.ie s.raw t
  completion : A .irq = false → t.controller.completion = s.controller.completion

theorem IeKept.refl {A : Move → Bool} (s : State) : IeKept A s s := ⟨id, fun _ h => ⟨h, rfl, rfl⟩, fun _ => rfl⟩

theorem IeKept.trans {A : Move → Bool} {s t u : State} (h : IeKept A s t) (k : IeKept A t u) : IeKept A s u := by
  refine ⟨k.clear ∘ h.clear, fun z r => ?_, fun z => (k.completion z).trans (h.completion z)⟩
  obtain ⟨a, b, c⟩ := h.patterns z r
  obtain ⟨a', b', c'⟩ := k.patterns z a
  exact ⟨a', b'.trans b, c'.trans c⟩

/-- A fact under a fixed premise. -/
theorem Keeps.imp {A : Move → Bool} {P : State → Prop} (Z : Prop) (h : Keeps A P) : Keeps A fun s => Z → P s :=
  ⟨fun ms k z => h.moves ms (k z), fun hm ha hb k he z => h.env hm ha hb (k z) he, fun k he z => h.read (k z) he,
    fun w k z => h.post w (k z)⟩

theorem keeps_ieKept {A : Move → Bool} (s : State) : Keeps A (IeKept A s) := by
  have k := (keeps_ieClear (A := A)).imp (IeClear s)
  have k2 : Keeps A fun t => A .irq = false →
      (RawIdle s → RawHolds s.ie s.raw t) ∧ t.controller.completion = s.controller.completion := by
    by_cases hA : A .irq = false
    · exact (((keeps_rawHolds hA s.ie s.raw).imp (RawIdle s)).and (keeps_completion hA _)).imp _
    · simpa [hA] using keeps_const (A := A) True
  have e : ∀ t, IeKept A s t ↔ (IeClear s → IeClear t) ∧ (A .irq = false →
      (RawIdle s → RawHolds s.ie s.raw t) ∧ t.controller.completion = s.controller.completion) :=
    fun t => ⟨fun h => ⟨h.clear, fun z => ⟨h.patterns z, h.completion z⟩⟩,
      fun h => ⟨h.1, fun z => (h.2 z).1, fun z => (h.2 z).2⟩⟩
  rw [funext fun t => propext (e t)]
  exact k.and k2

/-- A performed command leaves IE, RAW and the buffer. -/
theorem IeKept.perform {A : Move → Bool} {s t u : State} {w : Word} (h : IeKept A s t) (p : Performed t u) :
    IeKept A s (portDone w u) := by
  refine ⟨fun z => ?_, fun z r => ?_, fun z => ?_⟩
  · simpa [IeClear, p.ie, p.posted] using h.clear z
  · simpa [RawHolds, RawIdle, p.ie, p.posted, p.raw] using h.patterns z r
  · simpa [p.controller] using h.completion z

/-! ### `write_register` and `read_register` -/

theorem perform_write_core {sel : Selector} {b : Byte} {s t : State} {i : Instr}
    (hi : decodeCmd (writeCommand sel b) = .ok i) (hu : perform (writeCommand sel b) i s = .next t) :
    writeEffect sel b s.core t.core := by
  rw [decodeCmd_writeCommand] at hi
  cases sel <;> simp only [Except.ok.injEq] at hi <;> subst hi <;>
    simp only [perform, execWrregThp, execWrregData, execWrregCtl, execWrregClkctl, execWrregRst] at hu <;>
    (try split at hu) <;> simp only [Host.Outcome.next.injEq, reduceCtorEq] at hu <;> subst hu <;>
    simp [writeEffect, ctlWrite, rstWrite]

/-- `write_register(sel, b)` from a quiet state (R140). -/
theorem write_spec {sel : Selector} {b : Byte} (hb : registerByteLegal sel b = true) {A : Move → Bool}
    {Q Q' : TwsiCore → Prop} (hQ : CoreKeeps A Q) (hQ' : CoreKeeps A Q')
    (hw : ∀ c c', Q c → writeEffect sel b c c' → Q' c')
    (hd : A .drain = true) (hp : A .port = true) {s : State} (hq : s.quiet = true) (hA : s.moves.all A = true)
    (hs : Q s.core) :
    ∃ x t, writeRegister sel b s = .ok ((), t) ∧ Ran A s t [.access (writeCommand sel b) x] ∧ Others s t ∧
      t.posted = [] ∧ Q' t.core ∧ IeKept A s t := by
  obtain ⟨x, t, h1, h2, h3, h4, h5, h6⟩ := writeRegister_spec hb
    (R := fun u => Q u.core ∧ IeKept A s u) (E := fun u => Q' u.core ∧ IeKept A s u)
    ((keeps_core hQ).and (keeps_ieKept s)) ((keeps_core hQ').and (keeps_ieKept s)) (by
      intro t i u hr hi hu
      have p := performed_of (commandLegal_writeCommand hb) hi hu
      exact ⟨by simpa using hw _ _ hr.1 (perform_write_core hi hu), hr.2.perform p⟩)
    hd hp hq hA ⟨hs, IeKept.refl s⟩
  exact ⟨x, t, h1, h2, h3, h4, h5, h6⟩

/-- `read_register(sel)` from a quiet state: it gives what the register held on some core of the run (R141, R148). -/
theorem read_spec {sel : Selector} (hr : readable sel = true) {A : Move → Bool} {Q : TwsiCore → Prop}
    (hQ : CoreKeeps A Q) (hd : A .drain = true) (hp : A .port = true) {s : State} (hq : s.quiet = true)
    (hA : s.moves.all A = true) (hs : Q s.core) :
    ∃ x t, readRegister sel s = .ok (x, t) ∧ Ran A s t [.access (readCommand sel) x] ∧ Others s t ∧ t.posted = [] ∧
      Q t.core ∧ IeKept A s t ∧ (∃ c, Q c ∧ readsAs sel c x) ∧ x = t.port.result := by
  obtain ⟨x, t, h1, h2, h3, h4, ⟨h5, h6, h7⟩, h8⟩ := readRegister_spec hr
    (R := fun u => Q u.core ∧ IeKept A s u)
    (E := fun u => Q u.core ∧ IeKept A s u ∧ ∃ c, Q c ∧ readsAs sel c u.port.result)
    ((keeps_core hQ).and (keeps_ieKept s))
    ((keeps_core hQ).and ((keeps_ieKept s).and (keeps_result fun x => ∃ c, Q c ∧ readsAs sel c x))) (by
      intro t i u hv hi hu
      have p := performed_of (commandLegal_readCommand hr) hi hu
      obtain ⟨k1, k2, k3, k4⟩ := perform_read hr hi hu
      refine ⟨by simpa [k1] using hv.1, hv.2.perform p, t.core, hv.1, ?_⟩
      · exact ⟨by simpa using k2, by simpa using k3, by simpa using k4⟩)
    hd hp hq hA ⟨hs, IeKept.refl s⟩
  exact ⟨x, t, h1, h2, h3, h4, h5, h6, h8 ▸ h7, h8⟩

end Sys2Proof.Machine
end

