-- ==== Sys2Proof/Laws/Waiting.lean ====
section
/-! SUPPORT. What `write_raw`, `Delay` and `Block()` can do, whatever the other agents' turns: `raw_spec`, `raw_alone`,
`delay_spec`, `block_spec`. -/

namespace Sys2Proof.Machine

open Sys2Proof

/-! ### `write_raw` -/

/-- The pattern `v` has taken effect (R36, R37). -/
def rawTaken (recovery : Bool) (v : Word) (s : State) : Prop :=
  s.raw = v ∧ (recovery = false → v = Config.rawIeSet → s.ie = true) ∧
    (recovery = false → v = Config.rawIeClr → s.ie = false)

/-- The handler's clear has taken effect since (R186). -/
def rawCleared (s : State) : Prop := s.raw = Config.rawIeClr ∧ s.ie = false

/-- A pattern on its way: still posted, with only the handler's writes behind it, or taken, with only the handler's writes
posted. -/
def RawTrack (p : Posted) (s : State) : Prop :=
  (∃ pre, ∃ n, s.posted = pre ++ p :: List.replicate n clearWrite) ∨
    ((∃ n, s.posted = List.replicate n clearWrite) ∧ (rawTaken p.recovery p.word s ∨ rawCleared s))

theorem rawTrack_survives {A : Move → Bool} {p : Posted} (hp : p.off = Config.offRaw) : Survives A (RawTrack p) := by
  refine survives_of ?_ ?_ ?_
  · intro s t h1 h2 h3 _ h
    simpa only [RawTrack, h1, rawTaken, rawCleared, h2, h3] using h
  · intro s t h he
    have key : ∀ q qs, s.posted = q :: qs → t.posted = qs ∧ (q.off = Config.offRaw → t.raw = q.word ∧
        (q.recovery = false → q.word = Config.rawIeSet → t.ie = true) ∧
        (q.recovery = false → q.word = Config.rawIeClr → t.ie = false)) := by
      intro q qs hq
      obtain ⟨k1, _, _, _, _, k2⟩ := drainStep_pattern hq he
      refine ⟨k1, fun ho => ?_⟩
      rcases k2 with ⟨k, _⟩ | ⟨_, k3, k4, k5⟩
      · rw [k] at ho; simp [Config.offRaw, Config.offCmd] at ho
      · exact ⟨k3, k4, k5⟩
    rcases h with ⟨pre, n, hq⟩ | ⟨⟨n, hq⟩, hd⟩
    · cases pre with
      | nil =>
        obtain ⟨k1, k2⟩ := key p _ hq
        exact .inr ⟨⟨n, k1⟩, .inl (k2 hp)⟩
      | cons q pre =>
        obtain ⟨k1, _⟩ := key q _ hq
        exact .inl ⟨pre, n, k1⟩
    · cases n with
      | zero =>
        simp only [drainStep, hq, List.replicate_zero, Except.ok.injEq] at he
        exact he ▸ .inr ⟨⟨0, hq⟩, hd⟩
      | succ n =>
        rw [List.replicate_succ] at hq
        obtain ⟨k1, k2⟩ := key _ _ hq
        obtain ⟨k3, _, k5⟩ := k2 rfl
        exact .inr ⟨⟨n, k1⟩, .inr ⟨k3, k5 rfl rfl⟩⟩
  · intro _ s t h he
    obtain ⟨h1, h2, h3⟩ := irqStep_posts he
    rcases h3 with h3 | h3
    · simpa only [RawTrack, h3, rawTaken, rawCleared, h1, h2] using h
    · rcases h with ⟨pre, n, hq⟩ | ⟨⟨n, hq⟩, hd⟩
      · exact .inl ⟨pre, n + 1, by rw [h3, hq, List.replicate_succ']; simp⟩
      · refine .inr ⟨⟨n + 1, by rw [h3, hq, List.replicate_succ']⟩, ?_⟩
        simpa only [rawTaken, rawCleared, h1, h2] using hd

/-- A pattern on its way when the IRQ agent takes no turn: the last write posted, or taken with nothing posted. -/
def SoloTrack (p : Posted) (s : State) : Prop :=
  (∃ pre, s.posted = pre ++ [p]) ∨ (s.posted = [] ∧ rawTaken p.recovery p.word s)

theorem soloTrack_survives {A : Move → Bool} (hA : A .irq = false) {p : Posted} (hp : p.off = Config.offRaw) :
    Survives A (SoloTrack p) := by
  refine survives_of ?_ ?_ (fun h => by simp [hA] at h)
  · intro s t h1 h2 h3 _ h
    simpa only [SoloTrack, h1, rawTaken, h2, h3] using h
  · intro s t h he
    rcases h with ⟨pre, hq⟩ | ⟨hq, hd⟩
    · cases pre with
      | nil =>
        obtain ⟨k1, _, _, _, _, k2⟩ := drainStep_pattern hq he
        rcases k2 with ⟨k, _⟩ | ⟨_, k3, k4, k5⟩
        · rw [k] at hp; simp [Config.offRaw, Config.offCmd] at hp
        · exact .inr ⟨k1, k3, k4, k5⟩
      | cons q pre =>
        obtain ⟨k1, _⟩ := drainStep_pattern hq he
        exact .inl ⟨pre, k1⟩
    · simp only [drainStep, hq, Except.ok.injEq] at he
      exact he ▸ .inr ⟨hq, hd⟩

/-- `write_raw(v)` from a quiet state, for a fact `P` that the posting of `v` starts and every turn keeps (R142). -/
theorem raw_general {recovery : Bool} {v : Word} (hv : rawPatternLegal v = true) {A : Move → Bool} {R P : State → Prop}
    (hR : Survives A R) (hP : Survives A P)
    (hpost : ∀ t, R t → P { t with posted := t.posted ++ [⟨Config.offRaw, v, recovery⟩] })
    (hd : A .drain = true) {s : State} (hq : s.quiet = true) (hA : s.moves.all A = true) (hs : R s) :
    ∃ t, writeRawAs recovery v s = .ok ((), t) ∧ Ran A s t [.pattern v] ∧ Others s t ∧ t.posted = [] ∧ P t := by
  obtain ⟨hc, h0⟩ := quiet_iff.1 hq
  obtain ⟨t, ht, ht2, _, ⟨hti, _, htl⟩, htr, htS⟩ := turn_spec
    ((idle_survives (A := A) (R := fun _ => True) (a := answers s.history) (l := cmdWrites s.history)
      (d := delaysOf s.history) (keeps_const True)).and (hR.and (grows_survives s []))) hc hA
    ⟨⟨h0, trivial, rfl, rfl, rfl⟩, hs, Grows.refl _ s⟩
  let u : State := { t with posted := t.posted ++ [⟨Config.offRaw, v, recovery⟩] }
  have hu : winWrite Config.offRaw v recovery s = .ok ((), u) := by
    unfold winWrite
    rw [M.bind_ok ht]
    exact M.effect_ok (by simp [post, legalOffset, u])
  obtain ⟨hcm, hcf⟩ := calm_iff.1 ht2.calm
  have hfl := flowing_iff.1 hcf
  have hisc : (Posted.mk Config.offRaw v recovery).isCmd = false := by
    simp [Posted.isCmd, Config.offRaw, Config.offCmd]
  have hui : u.inFlight = 0 := by
    have : u.inFlight = t.inFlight := by simp [u, State.inFlight, List.countP_append, hisc]
    rw [this, hti]
  have huf : u.flowing = true := by
    rw [flowing_iff]
    refine ⟨?_, hfl.2.1, by omega⟩
    have : (Posted.mk Config.offRaw v recovery).legal = true := by simp [Posted.legal, hv]
    simpa [u, this] using hfl.1
  have huc : u.calm = true := calm_iff.2 ⟨hcm, huf⟩
  have huA : u.moves.all A = true := by
    rw [List.all_eq_true] at hA ⊢
    exact fun m hm => hA m (ht2.moves.subset hm)
  obtain ⟨w, hw, hw2, _, hwp, ⟨hwi, _, hwl⟩, hwP, hwS⟩ := turnDrained_spec
    ((idle_survives (A := A) (R := fun _ => True) (a := answers s.history) (l := cmdWrites s.history)
      (d := delaysOf s.history) (keeps_const True)).and
        (hP.and (grows_survives s [.write Config.offRaw v]))) hd huc huA
    ⟨⟨hui, trivial, htl⟩, hpost t htr, htS.post _ _ _⟩
  have hread : readWindow Config.offRaw w = .ok (w.draw.1, w.draw.2.record (.read Config.offRaw w.draw.1)) := by
    simp [readWindow, Config.offRaw, Config.offCmd]
  have hrb : readback u = .ok ((), w.draw.2.record (.read Config.offRaw w.draw.1)) := by
    unfold readback
    rw [M.bind_ok hw, M.bind_ok (m := (readWindow Config.offRaw : M Word)) hread]
    rfl
  have hne : ∀ x, Config.offRaw = Config.offCmd → cmdValid x = true := fun _ h => absurd h (by decide)
  have hlog := hwl.congr (cmdLog_read w.history Config.offRaw w.draw.1 (hne _))
  have hin := readWindow_within (off := Config.offRaw) hw2.calm hread
  have hou : Others t u := ⟨rfl, rfl, rfl, rfl, rfl⟩
  have hot := ((ht2.others.trans hou).trans hw2.others).trans hin.others
  have hgr : Grows (A .irq) s [.write Config.offRaw v] (w.draw.2.record (.read Config.offRaw w.draw.1)) :=
    fun S E z => (hwS S E z).congr (by rw [stream_record_read, stream_draw])
  have hpo : (w.draw.2.record (.read Config.offRaw w.draw.1)).posted = [] := by simpa using hwp
  refine ⟨_, ?_, ⟨quiet_iff.2 ⟨hin.calm, ?_⟩, (hin.moves.trans hw2.moves).trans ht2.moves, hot.thread, ?_, ?_, ?_,
      fun S E z => (hgr S E z.grown).settled hpo, fun _ _ S E z => (hgr S E z).settled hpo, by simp⟩, hot, hpo,
    hP.read hwP (hne _) hread⟩
  · unfold writeRawAs
    rw [M.bind_ok hu]
    exact hrb
  · rw [← hwi]
    exact inFlight_congr (by simp) (by simp)
  · simpa using hlog.1
  · simpa using hlog.2.1
  · simpa using hlog.2.2

/-- A fact about the core survives all turns while no access is in flight. -/
theorem idle_core {A : Move → Bool} {Q : TwsiCore → Prop} (hQ : CoreKeeps A Q) :
    Survives A fun s => s.inFlight = 0 ∧ Q s.core := by
  refine ⟨fun ms h => ⟨by simpa using h.1, h.2⟩, ?_, ?_⟩
  · intro m s t hm ha hf h he
    obtain ⟨t', ht', e⟩ := envMove_spec hm hf
    rw [he] at ht'
    simp only [Except.ok.injEq] at ht'
    subst ht'
    refine ⟨by have := e.inFlight; omega, (keeps_core hQ).env hm ha (fun _ => (inFlight_zero.1 h.1).1) h.2 he⟩
  · intro s off r h _ he
    rw [readWindow_ok he]
    exact ⟨by rw [inFlight_congr (s := s) (by simp) (by simp), h.1], by simpa using h.2⟩

/-- `write_raw(v)` from a quiet state (R142): the pattern has taken effect, or the handler's clear after it. -/
theorem raw_spec {recovery : Bool} {v : Word} (hv : rawPatternLegal v = true) {A : Move → Bool} {Q : TwsiCore → Prop}
    (hQ : CoreKeeps A Q) (hd : A .drain = true) {s : State} (hq : s.quiet = true) (hA : s.moves.all A = true)
    (hs : Q s.core) :
    ∃ t, writeRawAs recovery v s = .ok ((), t) ∧ Ran A s t [.pattern v] ∧ Others s t ∧ t.posted = [] ∧ Q t.core ∧
      (rawTaken recovery v t ∨ rawCleared t) := by
  obtain ⟨t, h1, h2, h3, h4, ⟨_, h5⟩, h6⟩ := raw_general (recovery := recovery) hv (A := A)
    (R := fun s => s.inFlight = 0 ∧ Q s.core)
    (P := fun s => (s.inFlight = 0 ∧ Q s.core) ∧ RawTrack ⟨Config.offRaw, v, recovery⟩ s)
    (idle_core hQ) ((idle_core hQ).and (rawTrack_survives rfl)) (by
      intro t ht
      refine ⟨⟨?_, ht.2⟩, .inl ⟨t.posted, 0, by simp⟩⟩
      have hisc : (Posted.mk Config.offRaw v recovery).isCmd = false := by
        simp [Posted.isCmd, Config.offRaw, Config.offCmd]
      have := ht.1
      simpa [State.inFlight, List.countP_append, hisc] using this)
    hd hq hA ⟨(quiet_iff.1 hq).2, hs⟩
  refine ⟨t, h1, h2, h3, h4, h5, ?_⟩
  rcases h6 with ⟨pre, n, hp⟩ | ⟨_, hp⟩
  · simp [h4] at hp
  · exact hp

/-- `write_raw(v)` when the IRQ agent takes no turn: the pattern has taken effect. -/
theorem raw_alone {recovery : Bool} {v : Word} (hv : rawPatternLegal v = true) {A : Move → Bool}
    (hi : A .irq = false) (hd : A .drain = true) {s : State} (hq : s.quiet = true) (hA : s.moves.all A = true) :
    ∃ t, writeRawAs recovery v s = .ok ((), t) ∧ Ran A s t [.pattern v] ∧ Others s t ∧ t.posted = [] ∧
      rawTaken recovery v t := by
  obtain ⟨t, h1, h2, h3, h4, h5⟩ := raw_general (recovery := recovery) hv (A := A)
    (R := fun _ => True) (P := SoloTrack ⟨Config.offRaw, v, recovery⟩)
    (survives_const True) (soloTrack_survives hi rfl) (fun t _ => .inl ⟨t.posted, rfl⟩) hd hq hA trivial
  refine ⟨t, h1, h2, h3, h4, ?_⟩
  rcases h5 with ⟨pre, hp⟩ | ⟨_, hp⟩
  · simp [h4] at hp
  · exact hp

/-- `disable()` leaves IE 0 and nothing posted that could set it (R181, R189). -/
theorem disable_spec {A : Move → Bool} {Q : TwsiCore → Prop} (hQ : CoreKeeps A Q) (hd : A .drain = true) {s : State}
    (hq : s.quiet = true) (hA : s.moves.all A = true) (hs : Q s.core) :
    ∃ t, disable s = .ok ((), t) ∧ Ran A s t [.pattern Config.rawIeClr] ∧ Others s t ∧ t.posted = [] ∧ Q t.core ∧ IeClear t := by
  obtain ⟨t, h1, h2, h3, h4, h5, h6⟩ := raw_spec (recovery := false) (v := Config.rawIeClr) (by decide) hQ hd hq hA hs
  refine ⟨t, h1, h2, h3, h4, h5, ?_, by simp [h4]⟩
  rcases h6 with h6 | h6
  · exact h6.2.2 rfl rfl
  · exact h6.2

/-! ### Assignments and `Delay` -/

/-- The turns before an assignment or a delay, from a quiet state (R80). -/
theorem pause_spec {A : Move → Bool} {Q : TwsiCore → Prop} (hQ : CoreKeeps A Q) {s : State} (hq : s.quiet = true)
    (hA : s.moves.all A = true) (hs : Q s.core) :
    ∃ t, turn s = .ok ((), t) ∧ Ran A s t [] ∧ Others s t ∧ Q t.core ∧ IeKept A s t := by
  obtain ⟨hc, h0⟩ := quiet_iff.1 hq
  obtain ⟨t, ht, ht2, _, ⟨hti, ⟨htq, htz⟩, htl⟩, htS, htG⟩ := turn_spec
    ((idle_survives (A := A) (R := fun u => Q u.core ∧ IeKept A s u) (a := answers s.history)
      (l := cmdWrites s.history) (d := delaysOf s.history) ((keeps_core hQ).and (keeps_ieKept s))).and
        ((settles_survives s []).and (grows_survives s []))) hc hA
    ⟨⟨h0, ⟨hs, IeKept.refl s⟩, rfl, rfl, rfl⟩, Settles.refl _ s, Grows.refl _ s⟩
  exact ⟨t, ht, ⟨quiet_iff.2 ⟨ht2.calm, hti⟩, ht2.moves, ht2.others.thread, by simpa using htl.1, by simpa using htl.2.1,
    by simpa using htl.2.2, htS, fun z => absurd rfl z, fun _ => htG⟩, ht2.others, htq, htz⟩

/-- An assignment writes the ENGINE's side only (R11). -/
theorem Assign.apply_frame (a : Assign) (s : State) :
    (a.apply s).port = s.port ∧ (a.apply s).core = s.core ∧ (a.apply s).ie = s.ie ∧ (a.apply s).raw = s.raw ∧
      (a.apply s).posted = s.posted ∧ (a.apply s).history = s.history ∧ (a.apply s).thread = s.thread ∧
      (a.apply s).result = s.result ∧ (a.apply s).irq = s.irq ∧ (a.apply s).handlerAttached = s.handlerAttached ∧
      (a.apply s).moves = s.moves := by
  cases a <;> exact ⟨rfl, rfl, rfl, rfl, rfl, rfl, rfl, rfl, rfl, rfl, rfl⟩

/-- An assignment from a quiet state (R11): other agents' turns, and then what it writes. -/
theorem assign_spec {A : Move → Bool} {Q : TwsiCore → Prop} (hQ : CoreKeeps A Q) (a : Assign) {s : State}
    (hq : s.quiet = true) (hA : s.moves.all A = true) (hs : Q s.core) :
    ∃ t, assign a s = .ok ((), a.apply t) ∧ Ran A s (a.apply t) [] ∧ Others s t ∧ Q t.core ∧ IeKept A s t := by
  obtain ⟨t, h1, h2, h3, h4, h5⟩ := pause_spec hQ hq hA hs
  obtain ⟨f1, _, _, _, f2, f3, f4, _, _, _, f5⟩ := a.apply_frame t
  refine ⟨t, ?_, h2.update f5 f2 f1 f3 f4, h3, h4, h5⟩
  unfold assign
  rw [M.bind_ok h1]
  rfl

/-- An assignment that leaves the Controller's completion signal leaves what `IeKept` says. -/
theorem IeKept.assign {A : Move → Bool} {s t : State} (h : IeKept A s t) (a : Assign)
    (ha : (a.apply t).controller.completion = t.controller.completion) : IeKept A s (a.apply t) := by
  obtain ⟨_, _, f1, f2, f3, _⟩ := a.apply_frame t
  refine ⟨fun z => ?_, fun z r => ?_, fun z => ha.trans (h.completion z)⟩
  · have := h.clear z
    simpa only [IeClear, f1, f3] using this
  · have := h.patterns z r
    simpa only [RawHolds, RawIdle, f1, f2, f3] using this

/-- From `s` to `t` the ENGINE wrote working variables only, if anything; `Q` holds of the core at the end. -/
structure Paused (A : Move → Bool) (Q : TwsiCore → Prop) (s t : State) : Prop where
  ran : Ran A s t []
  others : Others s t
  core : Q t.core
  kept : IeKept A s t

theorem Paused.trans {A : Move → Bool} {Q : TwsiCore → Prop} {s t u : State} (h : Paused A Q s t) (k : Paused A Q t u) :
    Paused A Q s u := ⟨h.ran.trans k.ran, h.others.trans k.others, k.core, h.kept.trans k.kept⟩

theorem Paused.all {A : Move → Bool} {Q : TwsiCore → Prop} {s t : State} (h : Paused A Q s t)
    (hA : s.moves.all A = true) : t.moves.all A = true := by
  rw [List.all_eq_true] at hA ⊢
  exact fun m hm => hA m (h.ran.moves.subset hm)

theorem Paused.refl {A : Move → Bool} {Q : TwsiCore → Prop} {s : State} (hq : s.quiet = true) (hs : Q s.core) :
    Paused A Q s s := ⟨Ran.refl hq, Others.refl s, hs, IeKept.refl s⟩

/-- An assignment to a working variable, from a quiet state (R11, R31). -/
theorem working_spec {A : Move → Bool} {Q : TwsiCore → Prop} (hQ : CoreKeeps A Q) {s : State} (hq : s.quiet = true)
    (hA : s.moves.all A = true) (hs : Q s.core) : ∃ t, assign .working s = .ok ((), t) ∧ Paused A Q s t := by
  obtain ⟨t, h1, h2, h3, h4, h5⟩ := assign_spec hQ .working hq hA hs
  exact ⟨t, h1, h2, h3, h4, h5⟩

/-- `Delay(us)` from a quiet state: recorded, and no other effect of its own (R77). -/
theorem delay_spec {A : Move → Bool} {Q : TwsiCore → Prop} (hQ : CoreKeeps A Q) (us : Nat) {s : State}
    (hq : s.quiet = true) (hA : s.moves.all A = true) (hs : Q s.core) :
    ∃ t, delayUs us s = .ok ((), t) ∧ Ran A s t [.delay us] ∧ Others s t ∧ Q t.core ∧ IeKept A s t := by
  obtain ⟨t, h1, h2, h3, h4, h5⟩ := pause_spec hQ hq hA hs
  obtain ⟨l1, l2, l3⟩ := cmdLog_delay t.history us
  refine ⟨t.record (.delay us), ?_, ⟨h2.quiet, h2.moves, h2.thread, ?_, ?_, ?_,
    fun S E z => ?_, fun _ hd => absurd rfl (hd us), by simp⟩, ⟨h3.phase, h3.thread, h3.result, h3.buffers, h3.controller⟩,
    h4, ⟨h5.clear, h5.patterns, h5.completion⟩⟩
  · unfold delayUs
    rw [M.bind_ok h1]
    rfl
  · simpa [h2.answers] using l1
  · simpa [h2.commands] using l2
  · simpa [h2.delays] using l3
  · have := (h2.settles S E z).delay us
    simpa using this

/-! ### `Block()` -/

/-- `Block()` ends (R184): woken, having consumed a completion that was set, or timed out. -/
theorem block_spec {A : Move → Bool} {P : State → Prop} (hP : Survives A P) :
    ∀ (ms : List Move) (s : State), ms.all (fun m => !m.outside) = true → ms.all A = true → s.flowing = true → P s →
      ∃ b t, blockTurns ms s = .ok (b, t) ∧ Others s t ∧ t.flowing = true ∧ t.inFlight ≤ s.inFlight ∧ t.moves <:+ ms ∧
        (b = true → ∃ u, P u ∧ u.controller.completion = true ∧ t = u.consume) ∧
        (b = false → P t ∧ (A .timeout = false → t.controller.completion = false ∧ t.moves = [])) := by
  intro ms
  induction ms with
  | nil =>
    intro s _ _ hf hs
    cases hc : s.controller.completion with
    | true =>
      refine ⟨true, (s.withMoves []).consume, by simp [blockTurns, hc], ⟨rfl, rfl, rfl, rfl, rfl⟩, ?_, le_of_eq ?_,
        List.suffix_refl _, fun _ => ⟨_, hP.moves [] hs, by simpa using hc, rfl⟩, by simp⟩
      · exact (flowing_congr (s := s) rfl rfl).trans hf
      · exact inFlight_congr rfl rfl
    | false =>
      exact ⟨false, s.withMoves [], by simp [blockTurns, hc], (Others.refl _).withMoves, by simpa using hf, by simp,
        List.suffix_refl _, by simp, fun _ => ⟨hP.moves [] hs, fun _ => ⟨by simpa using hc, rfl⟩⟩⟩
  | cons m ms ih =>
    intro s hms hA hf hs
    have hms' : m.outside = false ∧ ms.all (fun m => !m.outside) = true := by simpa using hms
    have hA' : A m = true ∧ ms.all A = true := by simpa using hA
    have hf' : (s.withMoves ms).flowing = true := by simpa using hf
    have hs' := hP.moves ms hs
    have far : ms <:+ m :: ms := List.suffix_cons _ _
    have om : Others s (s.withMoves ms) := (Others.refl _).withMoves
    by_cases hme : m = .engine
    · subst hme
      cases hc : s.controller.completion with
      | true =>
        refine ⟨true, (s.withMoves ms).consume, by simp [blockTurns, hc], ⟨rfl, rfl, rfl, rfl, rfl⟩, ?_, le_of_eq ?_,
          far, fun _ => ⟨_, hs', by simpa using hc, rfl⟩, by simp⟩
        · exact (flowing_congr (s := s) rfl rfl).trans hf
        · exact inFlight_congr rfl rfl
      | false =>
        obtain ⟨b, t, h1, h2, h3, h4, h5, h6, h7⟩ := ih _ hms'.2 hA'.2 hf' hs'
        exact ⟨b, t, by simpa [blockTurns, hc] using h1, om.trans h2, h3, by simpa using h4, h5.trans far, h6, h7⟩
    · by_cases hmt : m = .timeout
      · subst hmt
        exact ⟨false, s.withMoves ms, rfl, om, hf', by simp, far, by simp,
          fun _ => ⟨hs', fun z => by simp [z] at hA'⟩⟩
      · obtain ⟨u, hu, e⟩ := envMove_spec hms'.1 hf'
        obtain ⟨b, t, h1, h2, h3, h4, h5, h6, h7⟩ := ih u hms'.2 hA'.2 e.flowing (hP.env hms'.1 hA'.1 hf' hs' hu)
        refine ⟨b, t, ?_, (om.trans e.others).trans h2, h3, h4.trans (by simpa using e.inFlight), h5.trans far, h6, h7⟩
        have : (envMove m (s.withMoves ms)).bind (blockTurns ms) = .ok (b, t) := by simp [hu, Except.bind, h1]
        rw [← this]
        cases m <;> first | rfl | exact absurd rfl hme | exact absurd rfl hmt

end Sys2Proof.Machine
end

