-- ==== Sys2Proof/Laws/Operations.lean ====
section
/-! SUPPORT. What `ready()`, `wait()`, `set_clock()`, `init()` and `unblock()` can do, over the specifications of the
primitives: one lemma each, for every run of the other agents. -/

namespace Sys2Proof.Machine

open Sys2Proof

/-- A fact that survives while `write_raw` runs, whatever it posts. -/
theorem raw_keeps {recovery : Bool} {v : Word} (hv : rawPatternLegal v = true) {A : Move → Bool} {X : State → Prop}
    (hX : Survives A X) (hpost : ∀ (t : State) ps, X t → X { t with posted := ps }) (hd : A .drain = true) {s t : State}
    (hq : s.quiet = true) (hA : s.moves.all A = true) (hs : X s) (h : writeRawAs recovery v s = .ok ((), t)) : X t := by
  obtain ⟨t', h1, _, _, _, h2⟩ := raw_general (recovery := recovery) hv hX hX (fun t ht => hpost t _ ht) hd hq hA hs
  rw [h] at h1
  simp only [Except.ok.injEq, Prod.mk.injEq, true_and] at h1
  exact h1 ▸ h2

/-- `ready()` from a quiet state (R182): IFLG of some core of the run. -/
theorem ready_spec {A : Move → Bool} {Q : TwsiCore → Prop} (hQ : CoreKeeps A Q) (hd : A .drain = true)
    (hp : A .port = true) {s : State} (hq : s.quiet = true) (hA : s.moves.all A = true) (hs : Q s.core) :
    ∃ b t, ready s = .ok (ctlReady b, t) ∧ Ran A s t [.access readCtl b] ∧ Others s t ∧ t.posted = [] ∧ Q t.core ∧
      IeKept A s t ∧ ∃ c, Q c ∧ ctlReady b = c.iflg := by
  obtain ⟨b, t, h1, h2, h3, h4, h5, h6, ⟨c, hc, hb⟩, _⟩ := read_spec (sel := .ctl) rfl hQ hd hp hq hA hs
  refine ⟨b, t, ?_, h2, h3, h4, h5, h6, c, hc, hb.2.1 rfl⟩
  unfold ready
  rw [M.bind_ok h1]
  rfl

/-- `Block()` from a quiet state (R184). -/
theorem blockQuiet_spec {A : Move → Bool} {Q : TwsiCore → Prop} (hQ : CoreKeeps A Q) {s : State} (hq : s.quiet = true)
    (hA : s.moves.all A = true) (hs : Q s.core) :
    ∃ b t, block s = .ok (b, t) ∧ Ran A s t [] ∧ Others s t ∧ Q t.core := by
  obtain ⟨hc, h0⟩ := quiet_iff.1 hq
  obtain ⟨hm, hf⟩ := calm_iff.1 hc
  obtain ⟨b, t, h1, h2, h3, h4, h5, h6, h7⟩ := block_spec
    ((idle_survives (A := A) (R := fun u => Q u.core) (a := answers s.history) (l := cmdWrites s.history)
      (d := delaysOf s.history) (keeps_core hQ)).and ((settles_survives s []).and (grows_survives s [])))
    s.moves s hm hA hf ⟨⟨h0, hs, rfl, rfl, rfl⟩, Settles.refl _ s, Grows.refl _ s⟩
  have hcalm := calm_of hm h5 h3
  have key : Q t.core ∧ LogIs t.history (answers s.history) (cmdWrites s.history) (delaysOf s.history) ∧
      Settles (A .irq) s [] t ∧ Grows (A .irq) s [] t := by
    cases b with
    | true =>
      obtain ⟨u, ⟨⟨_, k1, k2⟩, k3, k4⟩, _, rfl⟩ := h6 rfl
      exact ⟨k1, k2, k3, k4⟩
    | false => exact ⟨(h7 rfl).1.1.2.1, (h7 rfl).1.1.2.2, (h7 rfl).1.2⟩
  exact ⟨b, t, h1, ⟨quiet_iff.2 ⟨hcalm, by omega⟩, h5, h2.thread, by simpa using key.2.1.1, by simpa using key.2.1.2.1,
    by simpa using key.2.1.2.2, key.2.2.1, fun z => absurd rfl z, fun _ => key.2.2.2⟩, h2, key.1⟩

/-- The polls of a wait and its `disable()` (R183). -/
def pollActs (bs : List Byte) : List Act := bs.map (Act.access readCtl) ++ [.pattern Config.rawIeClr]

theorem pollActs_cons (b : Byte) (bs : List Byte) : pollActs (b :: bs) = .access readCtl b :: pollActs bs := rfl

theorem waitActs_eq (bs : List Byte) : waitActs bs = .pattern Config.rawIeSet :: pollActs bs := rfl

/-- The answers of a wait whose first wake was not ready (R183). -/
theorem waitAnswers_cons {r : Option OpErr} {b : Byte} {bs : List Byte} (hb : ctlReady b = false)
    (h : waitAnswers r bs) : waitAnswers r (b :: bs) := by
  cases r with
  | none =>
    obtain ⟨before, x, rfl, h1, h2⟩ := h
    exact ⟨b :: before, x, rfl, h1, by simpa [hb] using h2⟩
  | some e => exact ⟨h.1, by simpa [hb] using h.2⟩

/-- The loop of `wait()` (R183). -/
theorem waitLoop_spec {A : Move → Bool} {Q : TwsiCore → Prop} (hQ : CoreKeeps A Q) (hd : A .drain = true)
    (hp : A .port = true) :
    ∀ (n : Nat) (s : State), s.quiet = true → s.moves.all A = true → Q s.core →
      ∃ r t bs, waitLoop n s = .ok (r, t) ∧ Ran A s t (pollActs bs) ∧ Others s t ∧ t.posted = [] ∧ Q t.core ∧
        IeClear t ∧ waitAnswers r bs ∧ ∀ b ∈ bs, ∃ c, Q c ∧ ctlReady b = c.iflg := by
  intro n
  induction n with
  | zero =>
    intro s hq hA hs
    obtain ⟨t, h1, h2, h3, h4, h5, h6⟩ := disable_spec hQ hd hq hA hs
    refine ⟨some .timeout, t, [], ?_, h2, h3, h4, h5, h6, ⟨rfl, by simp⟩, by simp⟩
    unfold waitLoop
    rw [M.bind_ok h1]
    rfl
  | succ n ih =>
    intro s hq hA hs
    obtain ⟨b, u, h1, h2, h3, h4⟩ := blockQuiet_spec hQ hq hA hs
    cases b with
    | false =>
      obtain ⟨t, k1, k2, k3, k4, k5, k6⟩ := disable_spec hQ hd h2.quiet (h2.all hA) h4
      refine ⟨some .timeout, t, [], ?_, h2.trans k2, h3.trans k3, k4, k5, k6, ⟨rfl, by simp⟩, by simp⟩
      unfold waitLoop
      rw [M.bind_ok h1]
      simp only [Bool.false_eq_true, if_false]
      rw [M.bind_ok k1]
      rfl
    | true =>
      obtain ⟨x, v, k1, k2, k3, k4, k5, _, k7⟩ := ready_spec hQ hd hp h2.quiet (h2.all hA) h4
      have hv := h2.trans k2
      cases hx : ctlReady x with
      | true =>
        obtain ⟨t, j1, j2, j3, j4, j5, j6⟩ := disable_spec hQ hd hv.quiet (hv.all hA) k5
        refine ⟨none, t, [x], ?_, hv.trans j2, (h3.trans k3).trans j3, j4, j5, j6, ⟨[], x, rfl, hx, by simp⟩, by simpa using k7⟩
        unfold waitLoop
        rw [M.bind_ok h1]
        simp only [if_true]
        rw [M.bind_ok k1]
        simp only [hx, if_true]
        rw [M.bind_ok j1]
        rfl
      | false =>
        obtain ⟨r, t, bs, j1, j2, j3, j4, j5, j6, j7, j8⟩ := ih v hv.quiet (hv.all hA) k5
        refine ⟨r, t, x :: bs, ?_, hv.trans j2, (h3.trans k3).trans j3, j4, j5, j6, waitAnswers_cons hx j7, ?_⟩
        · unfold waitLoop
          rw [M.bind_ok h1]
          simp only [if_true]
          rw [M.bind_ok k1]
          simp only [hx, Bool.false_eq_true, if_false]
          exact j1
        · intro b hb
          rcases List.mem_cons.1 hb with rfl | hb
          · exact k7
          · exact j8 b hb

/-- `wait()` from a quiet state (R183, R189): ok or `Timeout`, and IE is 0. -/
theorem wait_spec {A : Move → Bool} {Q : TwsiCore → Prop} (hQ : CoreKeeps A Q) (hd : A .drain = true)
    (hp : A .port = true) {s : State} (hq : s.quiet = true) (hA : s.moves.all A = true) (hs : Q s.core) :
    ∃ r t bs, wait s = .ok (r, t) ∧ Ran A s t (waitActs bs) ∧ Others s t ∧ t.posted = [] ∧ Q t.core ∧
      IeClear t ∧ waitAnswers r bs ∧ ∀ b ∈ bs, ∃ c, Q c ∧ ctlReady b = c.iflg := by
  obtain ⟨u, h1, h2, h3, _, h5, _⟩ := raw_spec (recovery := false) (v := Config.rawIeSet) (by decide) hQ hd hq hA hs
  obtain ⟨r, t, bs, j1, j2, j3, j4⟩ := waitLoop_spec hQ hd hp (u.moves.length + 2) u h2.quiet (h2.all hA) h5
  refine ⟨r, t, bs, ?_, h2.trans j2, h3.trans j3, j4⟩
  unfold wait enable
  rw [M.bind_ok h1, M.bind_ok (M.get_apply u)]
  exact j1

/-- `wait` gives ok or `Timeout` (R183). -/
theorem waitAnswers_result {r : Option OpErr} {bs : List Byte} (h : waitAnswers r bs) : r = none ∨ r = some .timeout := by
  cases r with
  | none => exact .inl rfl
  | some e => exact .inr (by rw [h.1])

/-! ### `unblock()` -/

/-- One pattern and its settle (R250). -/
theorem pulse_spec {A : Move → Bool} {Q : TwsiCore → Prop} (hQ : CoreKeeps A Q) (hd : A .drain = true) {v : Word}
    (hv : rawPatternLegal v = true) {s : State} (hq : s.quiet = true) (hA : s.moves.all A = true) (hs : Q s.core) :
    ∃ t, (do writeRawAs true v; delayUs Config.settleUs : M Unit) s = .ok ((), t) ∧ Ran A s t [.pattern v, .delay Config.settleUs] ∧
      Others s t ∧ Q t.core := by
  obtain ⟨u, h1, h2, h3, _, h5, _⟩ := raw_spec (recovery := true) hv hQ hd hq hA hs
  obtain ⟨t, k1, k2, k3, k4, _⟩ := delay_spec hQ Config.settleUs h2.quiet (h2.all hA) h5
  exact ⟨t, by rw [M.bind_ok h1]; exact k1, h2.trans k2, h3.trans k3, k4⟩

/-- The acts of `n` pulses (R250). -/
def pulseActs (n : Nat) : List Act :=
  (List.replicate n [Act.pattern Config.rawPulseLow, .delay Config.settleUs, .pattern Config.rawPulseHigh,
    .delay Config.settleUs]).flatten

theorem pulses_spec {A : Move → Bool} {Q : TwsiCore → Prop} (hQ : CoreKeeps A Q) (hd : A .drain = true) :
    ∀ (n : Nat) (s : State), s.quiet = true → s.moves.all A = true → Q s.core →
      ∃ t, pulses n s = .ok ((), t) ∧ Ran A s t (pulseActs n) ∧ Others s t ∧ Q t.core := by
  intro n
  induction n with
  | zero => exact fun s hq _ hs => ⟨s, rfl, Ran.refl hq, Others.refl s, hs⟩
  | succ n ih =>
    intro s hq hA hs
    obtain ⟨u, h1, h2, h3, h4⟩ := pulse_spec hQ hd (v := Config.rawPulseLow) (by decide) hq hA hs
    obtain ⟨v, k1, k2, k3, k4⟩ := pulse_spec hQ hd (v := Config.rawPulseHigh) (by decide) h2.quiet (h2.all hA) h4
    have hv := h2.trans k2
    obtain ⟨t, j1, j2, j3, j4⟩ := ih v hv.quiet (hv.all hA) k4
    refine ⟨t, ?_, ?_, (h3.trans k3).trans j3, j4⟩
    · have : pulses (n + 1) s = ((do writeRawAs true Config.rawPulseLow; delayUs Config.settleUs : M Unit) >>= fun _ =>
          (do writeRawAs true Config.rawPulseHigh; delayUs Config.settleUs : M Unit) >>= fun _ => pulses n) s := by
        simp [pulses, bind_assoc]
      rw [this, M.bind_ok h1, M.bind_ok k1]
      exact j1
    · have := hv.trans j2
      simpa [pulseActs, List.replicate_succ] using this

/-- `unblock()` from a quiet state (R250, R252, R160): its acts in order, no core state. -/
theorem unblock_spec {A : Move → Bool} {Q : TwsiCore → Prop} (hQ : CoreKeeps A Q) (hd : A .drain = true) {s : State}
    (hq : s.quiet = true) (hA : s.moves.all A = true) (hs : Q s.core) :
    ∃ t, unblock s = .ok ((), t) ∧ Ran A s t unblockActs ∧ Others s t ∧ Q t.core ∧ t.posted = [] := by
  obtain ⟨u, h1, h2, h3, h4⟩ := pulses_spec hQ hd 9 s hq hA hs
  obtain ⟨v, k1, k2, k3, k4⟩ := pulse_spec hQ hd (v := Config.rawStop1) (by decide) h2.quiet (h2.all hA) h4
  have hv := h2.trans k2
  obtain ⟨w, j1, j2, j3, j4⟩ := pulse_spec hQ hd (v := Config.rawStop2) (by decide) hv.quiet (hv.all hA) k4
  have hw := hv.trans j2
  obtain ⟨t, i1, i2, i3, i4, i5, _⟩ := raw_spec (recovery := true) (v := Config.rawIdle) (by decide) hQ hd hw.quiet
    (hw.all hA) j4
  have hrun : Ran A s t unblockActs := by
    have := hw.trans i2
    simp only [List.append_assoc, List.cons_append, List.nil_append] at this
    exact this
  refine ⟨t, ?_, hrun, ((h3.trans k3).trans j3).trans i3, i5, i4⟩
  have : unblock s = (pulses 9 >>= fun _ => (do writeRawAs true Config.rawStop1; delayUs Config.settleUs : M Unit) >>=
      fun _ => (do writeRawAs true Config.rawStop2; delayUs Config.settleUs : M Unit) >>= fun _ =>
        writeRawAs true Config.rawIdle) s := by
    simp [unblock, Config.recoveryPulses, bind_assoc]
  rw [this, M.bind_ok h1, M.bind_ok k1, M.bind_ok j1]
  exact i1

/-! ### `set_clock()` -/

theorem registerByteLegal_clk {m n : Nat} (hm : 2 ≤ m) (hm' : m ≤ 15) (hn : n ≤ 7) :
    registerByteLegal .clkctl (clkByte m n) = true := by
  interval_cases m <;> interval_cases n <;> decide

/-! ### `init()` -/

theorem initPolls_spec {A : Move → Bool} {Q : TwsiCore → Prop} (hQ : CoreKeeps A Q) (hd : A .drain = true)
    (hp : A .port = true) :
    ∀ (n : Nat) (s : State), s.quiet = true → s.moves.all A = true → Q s.core →
      ∃ r t sts, initPolls n s = .ok (r, t) ∧
        Ran A s t (initPollActs sts) ∧ Others s t ∧
        Q t.core ∧ IeKept A s t ∧ (0 < n → t.posted = []) ∧
        ((r = none ∧ (∃ before, sts = before ++ [Config.statIdle] ∧ ∀ x ∈ before, x ≠ Config.statIdle) ∧ sts.length ≤ n) ∨
          (r = some .hardwareFault ∧ (∀ x ∈ sts, x ≠ Config.statIdle) ∧ sts.length = n)) := by
  intro n
  induction n with
  | zero =>
    intro s hq hA hs
    exact ⟨some .hardwareFault, s, [], rfl, Ran.refl hq, Others.refl s, hs, IeKept.refl s, by simp, .inr ⟨rfl, by simp, rfl⟩⟩
  | succ n ih =>
    intro s hq hA hs
    obtain ⟨u, h1, h2, h3, h4, h5⟩ := delay_spec hQ Config.initDelayUs hq hA hs
    obtain ⟨st, v, k1, k2, k3, k4, k5, k6, _, _⟩ := read_spec (sel := .stat) rfl hQ hd hp h2.quiet (h2.all hA) h4
    have hv := h2.trans k2
    by_cases hst : st = Config.statIdle
    · refine ⟨none, v, [st], ?_, hv, h3.trans k3, k5, h5.trans k6, fun _ => k4,
        .inl ⟨rfl, ⟨[], by simp [hst], by simp⟩, by simp⟩⟩
      unfold initPolls
      rw [M.bind_ok h1, M.bind_ok k1]
      simp [hst]
    · obtain ⟨r, t, sts, j1, j2, j3, j4, j5, j6, j7⟩ := ih v hv.quiet (hv.all hA) k5
      refine ⟨r, t, st :: sts, ?_, hv.trans j2, (h3.trans k3).trans j3, j4, (h5.trans k6).trans j5, fun _ => ?_, ?_⟩
      · unfold initPolls
        rw [M.bind_ok h1, M.bind_ok k1]
        simp only [hst, if_false]
        exact j1
      · cases n with
        | zero =>
          simp only [initPolls, M.pure_apply, Except.ok.injEq, Prod.mk.injEq] at j1
          rw [← j1.2, k4]
        | succ n => exact j6 (Nat.succ_pos n)
      · rcases j7 with ⟨rfl, ⟨before, rfl, hb⟩, hl⟩ | ⟨rfl, hb, hl⟩
        · refine .inl ⟨rfl, ⟨st :: before, rfl, ?_⟩, by simpa using hl⟩
          intro x hx
          rcases List.mem_cons.1 hx with rfl | hx
          · exact hst
          · exact hb x hx
        · refine .inr ⟨rfl, ?_, by simpa using hl⟩
          intro x hx
          rcases List.mem_cons.1 hx with rfl | hx
          · exact hst
          · exact hb x hx

/-- `init()` from a quiet state (R241, R242). -/
theorem init_spec {A : Move → Bool} (hd : A .drain = true) (hp : A .port = true) {s : State} (hq : s.quiet = true)
    (hA : s.moves.all A = true) :
    ∃ r t x y sts, init s = .ok (r, t) ∧
      Ran A s t (initActs x y sts) ∧ Others s t ∧ t.posted = [] ∧
      IeKept A s t ∧ initAnswers r sts := by
  obtain ⟨x, u, h1, h2, h3, _, _, h6⟩ := write_spec (sel := .ctl) (b := Config.ctlEnab) (by decide)
    (coreKeeps_true (A := A)) coreKeeps_true (fun _ _ _ _ => trivial) hd hp hq hA trivial
  obtain ⟨y, v, k1, k2, k3, _, _, k6⟩ := write_spec (sel := .rst) (b := Config.rstData) (by decide)
    (coreKeeps_true (A := A)) coreKeeps_true (fun _ _ _ _ => trivial) hd hp h2.quiet (h2.all hA) trivial
  have hv := h2.trans k2
  obtain ⟨r, t, sts, j1, j2, j3, _, j5, j6, j7⟩ := initPolls_spec (coreKeeps_true (A := A)) hd hp Config.initRetries v
    hv.quiet (hv.all hA) trivial
  refine ⟨r, t, x, y, sts, ?_, hv.trans j2, (h3.trans k3).trans j3, j6 (by decide), (h6.trans k6).trans j5, ?_⟩
  · have : init = (do
        writeRegister .ctl Config.ctlEnab
        writeRegister .rst Config.rstData
        initPolls Config.initRetries) := rfl
    rw [this, M.bind_ok h1, M.bind_ok k1]
    exact j1
  · rcases j7 with ⟨rfl, ⟨before, k1, k2⟩, k3⟩ | ⟨rfl, k⟩
    · exact ⟨before, k1, k2, k3⟩
    · exact ⟨rfl, k⟩

end Sys2Proof.Machine
end

