-- ==== Sys2Proof/Laws/Clock.lean ====
section
/-! SUPPORT. The divider search (R213) as one pass over its candidates in visiting order, and `set_clock()` (R214). -/

namespace Sys2Proof.Machine

open Sys2Proof

/-- The divider triple of a best is in range and `mdiv`, `ndiv` are the loops' own (R211). -/
theorem tryCandidate_keeps {P : ClockParams → Prop} {target sys n m inc : Nat} {b : Best} (h : P b.params)
    (hc : ∀ t : Nat, 5 ≤ t → t ≤ 255 → P ⟨t, m, n⟩) : P (tryCandidate target sys n m inc b).params := by
  unfold tryCandidate
  simp only
  split
  · exact h
  · rename_i hr
    split
    · exact hc _ (by omega) (by omega)
    · exact h

theorem foldl_keeps {α β : Type} {P : β → Prop} {f : β → α → β} {l : List α} {b : β} (h : P b)
    (hf : ∀ b, ∀ a ∈ l, P b → P (f b a)) : P (l.foldl f b) := by
  induction l generalizing b with
  | nil => exact h
  | cons a l ih => exact ih (hf b a List.mem_cons_self h) fun b x hx => hf b x (List.mem_cons_of_mem _ hx)

/-- What every candidate and the default satisfy, the result satisfies (R213). -/
theorem clockSearch_keeps {P : ClockParams → Prop} (target sys : Nat) (h0 : P clockDefault)
    (hc : ∀ n ∈ ndivs, ∀ m ∈ mdivs, ∀ t : Nat, 5 ≤ t → t ≤ 255 → P ⟨t, m, n⟩) : P (clockSearch target sys) := by
  unfold clockSearch
  refine foldl_keeps (P := fun b : Best => P b.params) h0 fun b n hn hb => ?_
  refine foldl_keeps (P := fun b : Best => P b.params) hb fun b m hm hb => ?_
  unfold tryPair
  exact tryCandidate_keeps (tryCandidate_keeps hb (hc n hn m hm)) (hc n hn m hm)

/-- The bytes a search's result is written as are bytes the block may write (R107, R108, R111). -/
theorem clockSearch_legal (target sys : Nat) :
    registerByteLegal .clkctl (clkByte (clockSearch target sys).mdiv (clockSearch target sys).ndiv) = true := by
  refine clockSearch_keeps (P := fun p => registerByteLegal .clkctl (clkByte p.mdiv p.ndiv) = true) target sys
    (by decide) fun n hn m hm _ _ _ => ?_
  simp only [ndivs, mdivs, List.mem_cons, List.not_mem_nil, or_false] at hn hm
  exact registerByteLegal_clk (m := m) (n := n) (by omega) (by omega) (by omega)

/-! ### The search by its statements -/

/-- A piece of the search gives `b` and only pauses. -/
def Finds {α : Type} (A : Move → Bool) (Q : TwsiCore → Prop) (m : M α) (b : α) : Prop :=
  ∀ s : State, s.quiet = true → s.moves.all A = true → Q s.core → ∃ t, m s = .ok (b, t) ∧ Paused A Q s t

theorem Finds.pure {α : Type} {A : Move → Bool} {Q : TwsiCore → Prop} (b : α) : Finds A Q (pure b) b :=
  fun s hq _ hs => ⟨s, rfl, Paused.refl hq hs⟩

theorem Finds.bind {α β : Type} {A : Move → Bool} {Q : TwsiCore → Prop} {m : M α} {f : α → M β} {a : α} {b : β}
    (h : Finds A Q m a) (k : Finds A Q (f a) b) : Finds A Q (m >>= f) b := by
  intro s hq hA hs
  obtain ⟨t, h1, h2⟩ := h s hq hA hs
  obtain ⟨u, k1, k2⟩ := k t h2.ran.quiet (h2.all hA) h2.core
  exact ⟨u, by rw [M.bind_ok h1]; exact k1, h2.trans k2⟩

theorem Finds.working {A : Move → Bool} {Q : TwsiCore → Prop} (hQ : CoreKeeps A Q) : Finds A Q (assign .working) () :=
  fun _ hq hA hs => working_spec hQ hq hA hs

theorem Finds.foldlM {α β : Type} {A : Move → Bool} {Q : TwsiCore → Prop} {f : β → α → M β} {g : β → α → β}
    (h : ∀ b a, Finds A Q (f b a) (g b a)) : ∀ (l : List α) (b : β), Finds A Q (l.foldlM f b) (l.foldl g b)
  | [], b => Finds.pure b
  | a :: l, b => (h b a).bind (Finds.foldlM h l (g b a))

theorem runCandidate_finds {A : Move → Bool} {Q : TwsiCore → Prop} (hQ : CoreKeeps A Q) (target sys n m inc : Nat)
    (b : Best) : Finds A Q (runCandidate target sys n m (clockBase target sys m n) inc b)
      (tryCandidate target sys n m inc b) := by
  unfold runCandidate tryCandidate
  refine (Finds.working hQ).bind ?_
  simp only
  split
  · exact Finds.pure b
  · refine (Finds.working hQ).bind ((Finds.working hQ).bind ?_)
    split
    · exact (Finds.working hQ).bind ((Finds.working hQ).bind (Finds.pure _))
    · exact Finds.pure b

/-- `clock_search` by its statements gives what the pure search gives, and changes nothing (R213). -/
theorem runClockSearch_finds {A : Move → Bool} {Q : TwsiCore → Prop} (hQ : CoreKeeps A Q) (target sys : Nat) :
    Finds A Q (runClockSearch target sys) (clockSearch target sys) := by
  unfold runClockSearch clockSearch
  refine (Finds.working hQ).bind ((Finds.working hQ).bind (Finds.bind ?_ (Finds.pure _)))
  refine Finds.foldlM (fun b n => Finds.foldlM (fun b m => ?_) mdivs b) ndivs _
  exact (Finds.working hQ).bind ((runCandidate_finds hQ target sys n m 0 b).bind (runCandidate_finds hQ target sys n m 1 _))

/-- With no turn listed an assignment to a working variable changes nothing (R31). -/
theorem working_alone {s : State} (h : s.moves = []) : assign .working s = .ok ((), s) := by
  cases s
  simp only at h
  subst h
  rfl

theorem foldlM_alone {α β : Type} {f : β → α → M β} {g : β → α → β} {s : State}
    (h : ∀ b a, f b a s = .ok (g b a, s)) : ∀ (l : List α) (b : β), l.foldlM f b s = .ok (l.foldl g b, s)
  | [], _ => rfl
  | a :: l, b => by
    rw [List.foldlM_cons, M.bind_ok (h b a)]
    exact foldlM_alone h l (g b a)

/-- With no turn listed the search by its statements gives what the pure search gives and changes nothing (R213). -/
theorem runClockSearch_alone (target sys : Nat) {s : State} (h : s.moves = []) :
    runClockSearch target sys s = .ok (clockSearch target sys, s) := by
  have hw := working_alone h
  have cand : ∀ n m inc b, runCandidate target sys n m (clockBase target sys m n) inc b s =
      .ok (tryCandidate target sys n m inc b, s) := by
    intro n m inc b
    unfold runCandidate tryCandidate
    rw [M.bind_ok hw]
    simp only
    split
    · rfl
    · rw [M.bind_ok hw, M.bind_ok hw]
      split
      · rw [M.bind_ok hw, M.bind_ok hw]
        rfl
      · rfl
  have pair : ∀ n m b, runPair target sys n m b s = .ok (tryPair target sys n m b, s) := by
    intro n m b
    unfold runPair tryPair
    rw [M.bind_ok hw]
    exact (M.bind_ok (cand n m 0 b)).trans (cand n m 1 _)
  unfold runClockSearch clockSearch
  rw [M.bind_ok hw, M.bind_ok hw,
    M.bind_ok (foldlM_alone (fun b n => foldlM_alone (fun b m => pair n m b) mdivs b) ndivs _)]
  rfl

/-- `set_clock()` from a quiet state (R214): the search, the two writes, in order, and the Controller's triple. -/
theorem setClock_spec {A : Move → Bool} {Q Q' Q'' : TwsiCore → Prop} (hd : A .drain = true) (hp : A .port = true)
    {s : State} (hq : s.quiet = true) (hA : s.moves.all A = true) (hQ : CoreKeeps A Q) (hQ' : CoreKeeps A Q')
    (hQ'' : CoreKeeps A Q'') (hs : Q s.core)
    (hw : ∀ c, Q c → Q' { c with
      thp := thpByte (clockSearch s.controller.targetFrequency s.controller.systemClockRate).thp })
    (hw' : ∀ c, Q' c → Q'' { c with
      clkctl := clkByte (clockSearch s.controller.targetFrequency s.controller.systemClockRate).mdiv
        (clockSearch s.controller.targetFrequency s.controller.systemClockRate).ndiv }) :
    ∃ x y t, setClock s = .ok ((), t) ∧
      Ran A s t (clockActs (clockSearch s.controller.targetFrequency s.controller.systemClockRate) x y) ∧
      Others (s.setParams (clockSearch s.controller.targetFrequency s.controller.systemClockRate)) t ∧ Q'' t.core ∧
      IeKept A s t := by
  let p := clockSearch s.controller.targetFrequency s.controller.systemClockRate
  obtain ⟨s1, g1, g2⟩ := runClockSearch_finds hQ s.controller.targetFrequency s.controller.systemClockRate s hq hA hs
  obtain ⟨x, u, h1, h2, h3, _, h5, h6⟩ := write_spec (sel := .thp) (b := thpByte p.thp) rfl hQ hQ'
    (by intro c c' hc he; simp only [writeEffect] at he; subst he; exact hw c hc) hd hp g2.ran.quiet (g2.all hA) g2.core
  have ru := g2.ran.trans h2
  obtain ⟨y, v, k1, k2, k3, _, k5, k6⟩ := write_spec (sel := .clkctl) (b := clkByte p.mdiv p.ndiv)
    (clockSearch_legal _ _) hQ' hQ''
    (by intro c c' hc he; simp only [writeEffect] at he; subst he; exact hw' c hc) hd hp ru.quiet (ru.all hA) h5
  have rv := ru.trans k2
  obtain ⟨t, j1, j2, j3, j4, j5⟩ := assign_spec hQ'' (.params p) rv.quiet (rv.all hA) k5
  have o := ((g2.others.trans h3).trans k3).trans j3
  have kept := (((g2.kept.trans h6).trans k6).trans j5).assign (.params p) rfl
  refine ⟨x, y, t.setParams p, ?_, ?_, ⟨o.phase, o.thread, o.result, o.buffers, ?_⟩, j4, kept⟩
  · unfold setClock
    rw [M.bind_ok (M.get_apply s), M.bind_ok g1, M.bind_ok h1, M.bind_ok k1]
    exact j1
  · have := rv.trans j2
    simpa [clockActs] using this
  · have := o.controller
    simp only [State.setParams_controller] at this ⊢
    rw [this]

end Sys2Proof.Machine
end

