-- ==== Sys2Proof/Laws/Transfer.lean ====
section
/-! SUPPORT. What `start()`, `stop()`, the messages and the batch can do, for every run of the other agents: each lemma says
which accesses ran (`StartRun`, `WriteRun`, `ReadRun`, `MessagesRun`), where the phase and the buffers end, and that the
divider registers stay. -/

namespace Sys2Proof.Machine

open Sys2Proof

/-- The turns a transfer is described over: every drain and PORT turn among them. -/
structure Turns (A : Move → Bool) : Prop where
  drain : A .drain = true
  port : A .port = true

/-- The CORE takes no turn. -/
def NoCore (A : Move → Bool) : Prop := A .coreProgress = false ∧ A .coreComplete = false

/-- A piece of a transfer ran from `s` to `t`: the ENGINE did `acts`, the phase is `p` and the buffers `bufs` at the end;
nothing else of the ENGINE's, and THP and CLKCTL as before. -/
structure Did (A : Move → Bool) (s t : State) (acts : List Act) (p : Phase) (bufs : List (List Byte)) : Prop where
  ran : Ran A s t acts
  others : Others ((s.setPhase p).withBuffers bufs) t
  thp : t.core.thp = s.core.thp
  clkctl : t.core.clkctl = s.core.clkctl
  stat : NoCore A → t.core.stat = s.core.stat
  ie : IeClear s → IeClear t

theorem Did.trans {A : Move → Bool} {s t u : State} {acts acts' : List Act} {p p' : Phase}
    {bs bs' : List (List Byte)} (h : Did A s t acts p bs) (k : Did A t u acts' p' bs') :
    Did A s u (acts ++ acts') p' bs' := by
  refine ⟨h.ran.trans k.ran, ⟨k.others.phase, ?_, ?_, k.others.buffers, ?_⟩, k.thp.trans h.thp, k.clkctl.trans h.clkctl,
    fun z => (k.stat z).trans (h.stat z), k.ie ∘ h.ie⟩
  · exact k.others.thread.trans h.others.thread
  · exact k.others.result.trans h.others.result
  · have h1 := h.others.controller
    have h2 := k.others.controller
    simp only [State.withBuffers_controller, State.setPhase_controller] at h1 h2 ⊢
    rw [h2, h1]

/-- THP and CLKCTL hold `r`, and STAT too under `Z`. -/
def Dividers (Z : Prop) (r : Byte × Byte × Byte) (c : TwsiCore) : Prop :=
  c.thp = r.1 ∧ c.clkctl = r.2.1 ∧ (Z → c.stat = r.2.2)

theorem dividers_keep {A : Move → Bool} (r : Byte × Byte × Byte) : CoreKeeps A (Dividers (NoCore A) r) := by
  have k := coreKeeps_regs (A := A) fun q => q.1 = r.1 ∧ q.2.2 = r.2.1
  refine ⟨fun s ha h => ?_, fun s ha h => ?_⟩
  · have := k.progress s ha ⟨h.1, h.2.1⟩
    exact ⟨this.1, this.2, fun z => by simp [z.1] at ha⟩
  · have := k.complete s ha ⟨h.1, h.2.1⟩
    exact ⟨this.1, this.2, fun z => by simp [z.2] at ha⟩

/-- A piece that leaves the phase and the buffers. -/
theorem Did.of_others {A : Move → Bool} {s t : State} {acts : List Act} (h1 : Ran A s t acts)
    (h2 : Others s t) (h3 : Dividers (NoCore A) (s.core.thp, s.core.clkctl, s.core.stat) t.core)
    (h4 : IeClear s → IeClear t) : Did A s t acts s.phase s.buffers := ⟨h1, h2, h3.1, h3.2.1, h3.2.2, h4⟩

theorem Did.all {A : Move → Bool} {s t : State} {acts : List Act} {p : Phase}
    {bs : List (List Byte)} (h : Did A s t acts p bs) (hA : s.moves.all A = true) : t.moves.all A = true := h.ran.all hA

/-- A piece followed by an assignment to the phase, the buffers or a working variable (R11). -/
theorem Did.assign {A : Move → Bool} {s t : State} {acts : List Act} {p : Phase} {bs : List (List Byte)}
    (h : Did A s t acts p bs) (hA : s.moves.all A = true) (a : Assign) {p' : Phase} {bs' : List (List Byte)}
    (ha : ∀ u : State, u.phase = p → u.buffers = bs →
      (a.apply u).phase = p' ∧ (a.apply u).buffers = bs' ∧ (a.apply u).controller = u.controller) :
    ∃ u, Machine.assign a t = .ok ((), u) ∧ Did A s u acts p' bs' ∧ (IeClear t → IeClear u) := by
  obtain ⟨u, h1, h2, h3, h4, h5⟩ := assign_spec (dividers_keep (A := A) (t.core.thp, t.core.clkctl, t.core.stat)) a
    h.ran.quiet (h.all hA) ⟨rfl, rfl, fun _ => rfl⟩
  obtain ⟨q1, q2, q3⟩ := ha u (h3.phase.trans h.others.phase) (h3.buffers.trans h.others.buffers)
  obtain ⟨_, f2, _, _, _, _, f4, f5, _⟩ := a.apply_frame u
  have k := h5.assign a (by rw [q3])
  refine ⟨_, h1, ⟨by simpa using h.ran.trans h2, ⟨q1, ?_, ?_, q2, ?_⟩, ?_, ?_, fun z => ?_, k.clear ∘ h.ie⟩, k.clear⟩
  · rw [f4, h3.thread, h.others.thread]
    rfl
  · rw [f5, h3.result, h.others.result]
    rfl
  · have e1 := h.others.controller
    have e2 := h3.controller
    simp only [State.withBuffers_controller, State.setPhase_controller] at e1 ⊢
    rw [q3, e2, e1]
  · rw [f2, h4.1, h.thp]
  · rw [f2, h4.2.1, h.clkctl]
  · rw [f2, h4.2.2 z, h.stat z]

/-- A piece followed by a phase change (R270). -/
theorem Did.setPhase {A : Move → Bool} {s t : State} {acts : List Act} {p : Phase} {bs : List (List Byte)}
    (h : Did A s t acts p bs) (hA : s.moves.all A = true) (p' : Phase) :
    ∃ u, Machine.assign (.phase p') t = .ok ((), u) ∧ Did A s u acts p' bs ∧ (IeClear t → IeClear u) :=
  h.assign hA (.phase p') fun _ _ hb => ⟨rfl, hb, rfl⟩

/-- A piece followed by an assignment to a working variable (R31). -/
theorem Did.working {A : Move → Bool} {s t : State} {acts : List Act} {p : Phase} {bs : List (List Byte)}
    (h : Did A s t acts p bs) (hA : s.moves.all A = true) :
    ∃ u, Machine.assign .working t = .ok ((), u) ∧ Did A s u acts p bs ∧ (IeClear t → IeClear u) :=
  h.assign hA .working fun _ hp hb => ⟨hp, hb, rfl⟩

/-- A piece followed by `phase <- ERROR; raise e` (R270). -/
theorem Did.fail {A : Move → Bool} {s t : State} {acts : List Act} {p : Phase} {bs : List (List Byte)}
    (h : Did A s t acts p bs) (hA : s.moves.all A = true) (e : OpErr) :
    ∃ u, failWith e t = .ok (some e, u) ∧ Did A s u acts .error bs ∧ (IeClear t → IeClear u) := by
  obtain ⟨u, h1, h2⟩ := h.setPhase hA .error
  exact ⟨u, by unfold failWith; rw [M.bind_ok h1]; rfl, h2⟩

theorem Did.refl {A : Move → Bool} {s : State} (h : s.quiet = true) : Did A s s [] s.phase s.buffers :=
  ⟨Ran.refl h, Others.refl s, rfl, rfl, fun _ => rfl, id⟩

/-! ### The primitives as pieces of a transfer -/

/-- A CTL or DATA write (R144, R145). -/
theorem did_write {sel : Selector} (hsel : sel = .ctl ∨ sel = .data) {b : Byte} (hb : registerByteLegal sel b = true)
    {A : Move → Bool} (hT : Turns A) {s : State} (hq : s.quiet = true) (hA : s.moves.all A = true) :
    ∃ x t, writeRegister sel b s = .ok ((), t) ∧ Did A s t [.access (writeCommand sel b) x] s.phase s.buffers ∧
      t.posted = [] := by
  obtain ⟨x, t, h1, h2, h3, h4, h5, h6⟩ := write_spec hb (dividers_keep (A := A) (s.core.thp, s.core.clkctl, s.core.stat))
    (dividers_keep (s.core.thp, s.core.clkctl, s.core.stat)) (by
      intro c c' hc hw
      rcases hsel with rfl | rfl <;> (simp only [writeEffect] at hw; subst hw; exact hc)) hT.drain hT.port hq hA ⟨rfl, rfl, fun _ => rfl⟩
  exact ⟨x, t, h1, .of_others h2 h3 h5 h6.1, h4⟩

/-- A read (R141). -/
theorem did_read {sel : Selector} (hr : readable sel = true) {A : Move → Bool} (hT : Turns A) {s : State}
    (hq : s.quiet = true) (hA : s.moves.all A = true) :
    ∃ x t, readRegister sel s = .ok (x, t) ∧ Did A s t [.access (readCommand sel) x] s.phase s.buffers ∧ t.posted = [] := by
  obtain ⟨x, t, h1, h2, h3, h4, h5, h6, _, _⟩ := read_spec hr (dividers_keep (A := A) (s.core.thp, s.core.clkctl, s.core.stat))
    hT.drain hT.port hq hA ⟨rfl, rfl, fun _ => rfl⟩
  exact ⟨x, t, h1, .of_others h2 h3 h5 h6.1, h4⟩

/-- A status read. -/
theorem did_stat {A : Move → Bool} (hT : Turns A) {s : State} (hq : s.quiet = true) (hA : s.moves.all A = true) :
    ∃ x t, readRegister .stat s = .ok (x, t) ∧ Did A s t [.access readStat x] s.phase s.buffers ∧ t.posted = [] :=
  did_read rfl hT hq hA

/-- A read of DATA. -/
theorem did_data {A : Move → Bool} (hT : Turns A) {s : State} (hq : s.quiet = true) (hA : s.moves.all A = true) :
    ∃ x t, readRegister .data s = .ok (x, t) ∧ Did A s t [.access readData x] s.phase s.buffers ∧ t.posted = [] :=
  did_read rfl hT hq hA

/-- A wait (R183). -/
theorem did_wait {A : Move → Bool} (hT : Turns A) {s : State} (hq : s.quiet = true) (hA : s.moves.all A = true) :
    ∃ r t bs, wait s = .ok (r, t) ∧ Did A s t (waitActs bs) s.phase s.buffers ∧ t.posted = [] ∧ IeClear t ∧
      waitAnswers r bs := by
  obtain ⟨r, t, bs, h1, h2, h3, h4, h5, h6, h7, _⟩ := wait_spec (dividers_keep (A := A) (s.core.thp, s.core.clkctl, s.core.stat))
    hT.drain hT.port hq hA ⟨rfl, rfl, fun _ => rfl⟩
  exact ⟨r, t, bs, h1, .of_others h2 h3 h5 (fun _ => h6), h4, h6, h7⟩

/-- A recovery (R250). -/
theorem did_unblock {A : Move → Bool} (hT : Turns A) {s : State} (hq : s.quiet = true) (hA : s.moves.all A = true) :
    ∃ t, unblock s = .ok ((), t) ∧ Ran A s t unblockActs ∧ Others s t ∧ t.core.thp = s.core.thp ∧
      t.core.clkctl = s.core.clkctl ∧ (NoCore A → t.core.stat = s.core.stat) := by
  obtain ⟨t, h1, h2, h3, h4, _⟩ := unblock_spec (dividers_keep (A := A) (s.core.thp, s.core.clkctl, s.core.stat)) hT.drain hq hA
    ⟨rfl, rfl, fun _ => rfl⟩
  exact ⟨t, h1, h2, h3, h4⟩

/-! ### `start()` -/

/-- A status check that fails (R341). -/
theorem checkStatus_bad {c : StatusClass} {st : Byte} {onOk : M (Option OpErr)} (h : c.accepts st = false) :
    checkStatus c st onOk = failWith (.protocol c st) := by simp [checkStatus, h]

/-- A status check that passes (R341). -/
theorem checkStatus_good {c : StatusClass} {st : Byte} {onOk : M (Option OpErr)} (h : c.accepts st = true) :
    checkStatus c st onOk = onOk := by simp [checkStatus, h]

/-- The last check of `start()` (R271). -/
theorem startCheck_spec {A : Move → Bool} (hT : Turns A) {s : State} (hq : s.quiet = true) (hA : s.moves.all A = true) :
    ∃ st t, startCheck s = .ok (startVerdict st, t) ∧
      Did A s t [.access readStat st] (messagePhase (startVerdict st) 0) s.buffers := by
  obtain ⟨st, u, h1, h2, _⟩ := did_stat hT hq hA
  unfold startCheck
  rw [M.bind_ok h1]
  cases hst : StatusClass.start.accepts st with
  | true =>
    obtain ⟨t, k1, k2, _⟩ := h2.setPhase hA .startSent
    refine ⟨st, t, ?_, by simpa [startVerdict, hst, messagePhase] using k2⟩
    rw [checkStatus_good hst, M.bind_ok k1]
    simp [startVerdict, hst]
  | false =>
    obtain ⟨t, k1, k2, _⟩ := h2.fail hA (.protocol .start st)
    refine ⟨st, t, ?_, by simpa [startVerdict, hst, messagePhase] using k2⟩
    rw [checkStatus_bad hst, k1]
    simp [startVerdict, hst]

/-- A START write and its wait. -/
theorem startTry_spec {A : Move → Bool} (hT : Turns A) {s : State} (hq : s.quiet = true) (hA : s.moves.all A = true)
    (f : Option OpErr → M (Option OpErr)) :
    ∃ x r t bs, (do writeRegister .ctl (Config.ctlEnab ||| Config.ctlSta); let r ← wait; f r) s = f r t ∧
      Did A s t (startTryActs x bs) s.phase s.buffers ∧ t.posted = [] ∧ IeClear t ∧ waitAnswers r bs := by
  obtain ⟨x, u, h1, h2, _⟩ := did_write (sel := .ctl) (.inl rfl) (b := Config.ctlEnab ||| Config.ctlSta) (by decide) hT hq hA
  obtain ⟨r, t, bs, k1, k2, k3, k4, k5⟩ := did_wait hT h2.ran.quiet (h2.all hA)
  have hu := h2.others
  refine ⟨x, r, t, bs, ?_, ?_, k3, k4, k5⟩
  · rw [M.bind_ok h1, M.bind_ok k1]
  · have := h2.trans k2
    rw [hu.phase, hu.buffers] at this
    exact this

/-- `start()` from a quiet state (R271, R272). -/
theorem start_spec {A : Move → Bool} (hT : Turns A) {s : State} (hq : s.quiet = true) (hA : s.moves.all A = true) :
    ∃ r t tr, start s = .ok (r, t) ∧ Did A s t tr (messagePhase r 0) s.buffers ∧ IeClear t ∧ StartRun r tr := by
  obtain ⟨x, r, u, bs, h1, h2, h3, h4, h5⟩ := startTry_spec hT hq hA fun r => match r with
    | none => startCheck
    | some e => do
        let s ← readRegister .stat
        if s = Config.statIdle then do
          unblock
          writeRegister .ctl (Config.ctlEnab ||| Config.ctlSta)
          match ← wait with
          | none => startCheck
          | some _ => failWith e
        else failWith e
  have hstart : start s = _ := h1
  have ob : u.buffers = s.buffers := h2.others.buffers
  cases r with
  | none =>
    obtain ⟨st, t, k1, k2⟩ := startCheck_spec hT h2.ran.quiet (h2.all hA)
    rw [ob] at k2
    refine ⟨startVerdict st, t, _, by rw [hstart]; exact k1, ?_, k2.ie h4, .direct (x := x) (bs := bs) h5⟩
    exact h2.trans k2
  | some e =>
    have he := h5.1
    subst he
    obtain ⟨st, v, k1, k2, k3⟩ := did_stat hT h2.ran.quiet (h2.all hA)
    have hv := h2.trans k2
    rw [ob] at hv
    by_cases hst : st = Config.statIdle
    · subst hst
      obtain ⟨w, j1, j2, j3, j4, j5, j6⟩ := did_unblock hT hv.ran.quiet (hv.all hA)
      obtain ⟨y, r2, w2, bs', i1, i2, i3, i4, i5⟩ := startTry_spec hT j2.quiet (j2.all (hv.all hA)) fun r => match r with
        | none => startCheck
        | some _ => failWith .timeout
      have hrun : start s = (match r2 with
          | none => startCheck
          | some _ => failWith .timeout) w2 := by
        rw [hstart]
        show (readRegister .stat >>= _) u = _
        rw [M.bind_ok k1]
        simp only [if_true]
        rw [M.bind_ok j1]
        exact i1
      have hp : w.buffers = v.buffers := j3.buffers
      have vb : v.buffers = s.buffers := hv.others.buffers
      have hw : Did A s w2 (startTryActs x bs ++ [.access readStat Config.statIdle] ++ unblockActs ++
          startTryActs y bs') w2.phase s.buffers := by
        refine ⟨?_, ⟨rfl, ?_, ?_, ?_, ?_⟩, ?_, ?_, fun z => ?_, fun _ => i4⟩
        · exact (hv.ran.trans j2).trans i2.ran
        · exact (i2.others.thread.trans j3.thread).trans hv.others.thread
        · exact (i2.others.result.trans j3.result).trans hv.others.result
        · exact i2.others.buffers.trans (hp.trans vb)
        · have e1 := hv.others.controller
          have e2 := j3.controller
          have e3 := i2.others.controller
          simp only [State.withBuffers_controller, State.setPhase_controller] at e1 e3 ⊢
          rw [e3, e2, e1]
        · rw [i2.thp, j4, hv.thp]
        · rw [i2.clkctl, j5, hv.clkctl]
        · rw [i2.stat z, j6 z, hv.stat z]
      cases r2 with
      | none =>
        obtain ⟨st, t, q1, q2⟩ := startCheck_spec hT hw.ran.quiet (hw.all hA)
        have wb : w2.buffers = s.buffers := hw.others.buffers
        rw [wb] at q2
        refine ⟨startVerdict st, t, _, by rw [hrun]; exact q1, ?_, q2.ie i4,
          .recovered (x := x) (y := y) (bs := bs) (bs' := bs') h5 i5⟩
        exact hw.trans q2
      | some e2 =>
        have := i5.1
        subst this
        obtain ⟨t, q1, q2, q3⟩ := hw.fail hA .timeout
        refine ⟨some .timeout, t, _, by rw [hrun]; exact q1, q2, q3 i4,
          .failed (x := x) (y := y) (bs := bs) (bs' := bs') h5 i5⟩
    · obtain ⟨t, q1, q2, q3⟩ := hv.fail hA .timeout
      refine ⟨some .timeout, t, _, ?_, q2, q3 (k2.ie h4), .refused (x := x) (bs := bs) h5 hst⟩
      rw [hstart]
      show (readRegister .stat >>= _) u = _
      rw [M.bind_ok k1]
      simp only [hst, if_false]
      exact q1

/-- The results of `start()` (R271). -/
theorem StartRun.phase {r : Option OpErr} {tr : List Act} (_ : StartRun r tr) :
    messagePhase r 0 = (match r with | none => .startSent | some _ => .error) := by
  cases r <;> rfl

/-! ### `stop()` -/

/-- The verdict of `stop()` as its status check gives it (R275). -/
theorem idle_accepts (st : Byte) : StatusClass.idle.accepts st = decide (st = Config.statIdle) := by
  simp [StatusClass.accepts, StatusClass.accepted]

/-- `stop()` from a quiet state (R275). -/
theorem stop_spec {A : Move → Bool} (hT : Turns A) {s : State} (hq : s.quiet = true) (hA : s.moves.all A = true) :
    ∃ x st t, stop s = .ok (stopVerdict st, t) ∧
      Did A s t (stopActs x st) (if st = Config.statIdle then .idle else .error) s.buffers := by
  obtain ⟨x, u, h1, h2, _⟩ := did_write (sel := .ctl) (.inl rfl) (b := Config.ctlEnab ||| Config.ctlStp) (by decide) hT hq hA
  obtain ⟨u', g1, g2, _⟩ := h2.setPhase hA .stopSent
  obtain ⟨st, v, k1, k2, _⟩ := did_stat hT g2.ran.quiet (g2.all hA)
  have hv := g2.trans k2
  rw [show u'.buffers = s.buffers from g2.others.buffers] at hv
  unfold stop
  rw [M.bind_ok h1, M.bind_ok g1, M.bind_ok k1]
  by_cases hst : st = Config.statIdle
  · obtain ⟨t, j1, j2, _⟩ := hv.setPhase hA .idle
    refine ⟨x, st, t, ?_, by rw [if_pos hst]; exact j2⟩
    rw [checkStatus_good (by rw [idle_accepts, hst]; rfl), M.bind_ok j1]
    simp [stopVerdict, hst]
  · obtain ⟨t, j1, j2, _⟩ := hv.fail hA (.protocol .idle st)
    refine ⟨x, st, t, ?_, by rw [if_neg hst]; exact j2⟩
    rw [checkStatus_bad (by rw [idle_accepts]; simpa using hst), j1]
    simp [stopVerdict, hst]

/-- `stop()` writes no pattern, and without CORE turns it changes CTL, IFLG and the pending action only (R155, R275). -/
theorem stop_frame {A : Move → Bool} (hT : Turns A) {s t : State} {r : Option OpErr} (hq : s.quiet = true)
    (hA : s.moves.all A = true) (h : stop s = .ok (r, t)) :
    IeKept A s t ∧ (NoCore A → t.core = { s.core with
      ctl := Config.ctlEnab ||| Config.ctlStp, iflg := false, pending := .stop }) := by
  have hk : CoreKeeps A fun c => NoCore A → c = s.core :=
    ⟨fun _ ha _ z => by simp [z.1] at ha, fun _ ha _ z => by simp [z.2] at ha⟩
  have hk' : CoreKeeps A fun c => NoCore A → c = { s.core with
      ctl := Config.ctlEnab ||| Config.ctlStp, iflg := false, pending := .stop } :=
    ⟨fun _ ha _ z => by simp [z.1] at ha, fun _ ha _ z => by simp [z.2] at ha⟩
  obtain ⟨x, u, h1, h2, _, _, h5, h6⟩ := write_spec (sel := .ctl) (b := Config.ctlEnab ||| Config.ctlStp) (by decide)
    hk hk' (by
      intro c c' hc hw z
      simp only [writeEffect] at hw
      rw [hw, hc z]
      rfl) hT.drain hT.port hq hA (fun _ => rfl)
  obtain ⟨u', g1, g2, _, g4, g5⟩ := assign_spec hk' (.phase .stopSent) h2.quiet (h2.all hA) h5
  have r1 := h2.trans g2
  obtain ⟨st, v, k1, k2, _, _, k5, k6, _, _⟩ := read_spec (sel := .stat) rfl hk' hT.drain hT.port r1.quiet (r1.all hA) g4
  have r2 := r1.trans k2
  have last : ∀ p : Phase, ∃ w, assign (.phase p) v = .ok ((), w) ∧ IeKept A s w ∧ (NoCore A → w.core = { s.core with
      ctl := Config.ctlEnab ||| Config.ctlStp, iflg := false, pending := .stop }) := by
    intro p
    obtain ⟨w, j1, _, _, j4, j5⟩ := assign_spec hk' (.phase p) r2.quiet (r2.all hA) k5
    exact ⟨_, j1, (((h6.trans g5).assign (.phase .stopSent) rfl).trans k6).trans (j5.assign (.phase p) rfl), j4⟩
  unfold stop at h
  rw [M.bind_ok h1, M.bind_ok g1, M.bind_ok k1] at h
  cases hst : StatusClass.idle.accepts st with
  | true =>
    obtain ⟨w, j1, j2⟩ := last .idle
    rw [checkStatus_good hst, M.bind_ok j1] at h
    simp only [M.pure_apply, Except.ok.injEq, Prod.mk.injEq] at h
    exact h.2 ▸ j2
  | false =>
    obtain ⟨w, j1, j2⟩ := last .error
    rw [checkStatus_bad hst, failWith, M.bind_ok j1] at h
    simp only [M.pure_apply, Except.ok.injEq, Prod.mk.injEq] at h
    exact h.2 ▸ j2

/-! ### Messages -/

/-- `try wait()` and what follows (R270). -/
theorem tryWait_ok {r : Option OpErr} {s t : State} {next : M (Option OpErr)} (h : wait s = .ok (r, t)) :
    tryWait next s = (match r with | some e => failWith e | none => next) t := by
  unfold tryWait
  exact (M.bind_ok h).trans (by cases r <;> rfl)

/-- The address byte and its wait (R280, R285). -/
theorem address_spec {A : Move → Bool} (hT : Turns A) (a : Byte) {s : State} (hq : s.quiet = true)
    (hA : s.moves.all A = true) (next : M (Option OpErr)) :
    ∃ x y r t bs, (do writeRegister .data a; writeRegister .ctl Config.ctlEnab; tryWait next) s
        = (match r with | some e => failWith e | none => next) t ∧
      Did A s t (sendActs a x y bs) s.phase s.buffers ∧ t.posted = [] ∧ IeClear t ∧ waitAnswers r bs := by
  obtain ⟨x, u, h1, h2, _⟩ := did_write (sel := .data) (.inr rfl) (b := a) rfl hT hq hA
  obtain ⟨y, v, k1, k2, _⟩ := did_write (sel := .ctl) (.inl rfl) (b := Config.ctlEnab) (by decide) hT h2.ran.quiet (h2.all hA)
  have hv := h2.trans k2
  obtain ⟨r, t, bs, j1, j2, j3, j4, j5⟩ := did_wait hT hv.ran.quiet (hv.all hA)
  refine ⟨x, y, r, t, bs, ?_, ?_, j3, j4, j5⟩
  · rw [M.bind_ok h1, M.bind_ok k1]
    exact tryWait_ok j1
  · have := hv.trans j2
    rw [hv.others.phase, hv.others.buffers] at this
    have e1 : u.phase = s.phase := h2.others.phase
    have e2 : u.buffers = s.buffers := h2.others.buffers
    simp only [State.withBuffers_phase, State.setPhase_phase, State.withBuffers_buffers, e1, e2] at this
    exact this

/-- The phase after the byte loop, entered with `i` checks done. -/
def loopPhase (r : Option OpErr) (i checks : Nat) (p : Phase) : Phase :=
  match r, checks with
  | some _, _ => .error
  | none, 0 => p
  | none, c + 1 => ackPhase (i + c)

theorem sendBytes_cons (i : Nat) (b : Byte) (rest : List Byte) : sendBytes i (b :: rest) = (do
    let s ← readRegister .stat
    checkStatus .tx s do
      assign (.phase (ackPhase i))
      writeRegister .data b
      writeRegister .ctl Config.ctlEnab
      tryWait (sendBytes (i + 1) rest)) := rfl

/-- The byte loop of `write_message` (R280). -/
theorem sendBytes_spec {A : Move → Bool} (hT : Turns A) :
    ∀ (l : List Byte) (i : Nat) (s : State), s.quiet = true → s.moves.all A = true → IeClear s →
      ∃ r t tr, sendBytes i l s = .ok (r, t) ∧ Did A s t tr (loopPhase r i l.length s.phase) s.buffers ∧
        IeClear t ∧ SendRun l r tr := by
  intro l
  induction l with
  | nil => exact fun i s hq _ hie => ⟨none, s, [], rfl, Did.refl hq, hie, .done⟩
  | cons b rest ih =>
    intro i s hq hA hie
    obtain ⟨st, u, h1, h2, _⟩ := did_stat hT hq hA
    cases hst : StatusClass.tx.accepts st with
    | false =>
      obtain ⟨t, g1, g2, g3⟩ := h2.fail hA (.protocol .tx st)
      refine ⟨some (.protocol .tx st), t, _, ?_, g2, g3 (h2.ie hie), .badStatus hst⟩
      rw [sendBytes_cons, M.bind_ok h1, checkStatus_bad hst]
      exact g1
    | true =>
      obtain ⟨u', g1, hu, _⟩ := h2.setPhase hA (ackPhase i)
      obtain ⟨x, y, r, v, bs, k1, k2, k3, k4, k5⟩ := address_spec hT b hu.ran.quiet (hu.all hA) (sendBytes (i + 1) rest)
      have hv := hu.trans k2
      rw [show u'.phase = ackPhase i from hu.others.phase, show u'.buffers = s.buffers from hu.others.buffers] at hv
      have hrun : sendBytes i (b :: rest) s = (match r with | some e => failWith e | none => sendBytes (i + 1) rest) v := by
        rw [sendBytes_cons, M.bind_ok h1, checkStatus_good hst, M.bind_ok g1]
        exact k1
      cases r with
      | some e =>
        have he := k5.1
        subst he
        obtain ⟨t, j1, j2, j3⟩ := hv.fail hA .timeout
        exact ⟨some .timeout, t, _, by rw [hrun]; exact j1, j2, j3 k4, .timedOut (x := x) (y := y) (bs := bs) hst k5⟩
      | none =>
        obtain ⟨r, t, tr, j1, j2, j3, j5⟩ := ih (i + 1) v hv.ran.quiet (hv.all hA) k4
        refine ⟨r, t, _, by rw [hrun]; exact j1, ?_, j3, .sent (x := x) (y := y) (bs := bs) hst k5 j5⟩
        have ht := hv.trans j2
        have ep : v.phase = ackPhase i := hv.others.phase
        have eb : v.buffers = s.buffers := hv.others.buffers
        rw [ep, eb] at ht
        have : loopPhase r (i + 1) rest.length (ackPhase i) = loopPhase r i (b :: rest).length s.phase := by
          cases r with
          | some e => rfl
          | none =>
            cases rest with
            | nil => rfl
            | cons c rest =>
              simp only [loopPhase, List.length_cons]
              rw [show i + 1 + rest.length = i + (rest.length + 1) by omega]
        rw [this] at ht
        simpa using ht

theorem loopPhase_message (r : Option OpErr) (n : Nat) : loopPhase r 0 n .startSent = messagePhase r n := by
  cases r with
  | some e => cases n <;> rfl
  | none => rcases n with _ | _ | n <;> simp [loopPhase, messagePhase, ackPhase]

/-- `write_message` from a quiet state (R280). -/
theorem writeMessage_spec {A : Move → Bool} (hT : Turns A) (a : Addr7) (p : List Byte) {s : State} (hq : s.quiet = true)
    (hA : s.moves.all A = true) :
    ∃ r t tr, writeMessage a p s = .ok (r, t) ∧ Did A s t tr (messagePhase r p.length) s.buffers ∧
      IeClear t ∧ WriteRun a p r tr := by
  obtain ⟨r, u, tr, h1, h2, h4, h5⟩ := start_spec hT hq hA
  have hz : ∀ e : OpErr, messagePhase (some e) p.length = .error := by intro e; cases p <;> rfl
  cases r with
  | some e =>
    obtain ⟨t, g1, g2, g3⟩ := h2.fail hA e
    refine ⟨some e, t, tr, ?_, by rw [hz]; exact g2, g3 h4, .noStart h5⟩
    unfold writeMessage
    rw [M.bind_ok h1]
    exact g1
  | none =>
    obtain ⟨x, y, r, v, bs, k1, k2, k3, k4, k5⟩ := address_spec hT (addrByte a .write) h2.ran.quiet (h2.all hA) (sendBytes 0 p)
    have hv := h2.trans k2
    have e1 : u.phase = .startSent := h2.others.phase
    have e2 : u.buffers = s.buffers := h2.others.buffers
    rw [e1, e2] at hv
    have hrun : writeMessage a p s = (match r with | some e => failWith e | none => sendBytes 0 p) v := by
      unfold writeMessage
      rw [M.bind_ok h1]
      exact k1
    cases r with
    | some e =>
      have he := k5.1
      subst he
      obtain ⟨t, g1, g2, g3⟩ := hv.fail hA .timeout
      exact ⟨some .timeout, t, _, by rw [hrun]; exact g1, by rw [hz]; exact g2, g3 k4,
        .noAddress (x := x) (y := y) (bs := bs) h5 k5⟩
    | none =>
      obtain ⟨r, t, tr', j1, j2, j3, j5⟩ := sendBytes_spec hT p 0 v hv.ran.quiet (hv.all hA) k4
      refine ⟨r, t, _, by rw [hrun]; exact j1, ?_, j3, .sends (x := x) (y := y) (bs := bs) h5 k5 j5⟩
      have ht := hv.trans j2
      have ep : v.phase = .startSent := hv.others.phase
      have eb : v.buffers = s.buffers := hv.others.buffers
      rw [ep, eb, loopPhase_message] at ht
      simpa using ht

/-! ### Reads -/

theorem askByte_legal (n : Nat) : registerByteLegal .ctl (askByte n) = true := by
  unfold askByte
  split <;> decide

/-- Replace the bytes of buffer `k` from byte `i` on by `got`. -/
def fillBuffer (k i : Nat) (got : List Byte) (bufs : List (List Byte)) : List (List Byte) :=
  bufs.modify k fun buf => buf.take i ++ got ++ buf.drop (i + got.length)

theorem fillBuffer_nil (k i : Nat) (bufs : List (List Byte)) : fillBuffer k i [] bufs = bufs := by
  unfold fillBuffer
  simp only [List.append_nil, List.length_nil, Nat.add_zero, List.take_append_drop]
  exact List.modify_id k bufs

theorem fillBuffer_cons {k i : Nat} {b : Byte} {got : List Byte} {bufs : List (List Byte)}
    (h : ∀ buf, bufs[k]? = some buf → i < buf.length) :
    fillBuffer k (i + 1) got (bufs.modify k fun buf => buf.set i b) = fillBuffer k i (b :: got) bufs := by
  unfold fillBuffer
  apply List.ext_getElem?
  intro j
  simp only [List.getElem?_modify]
  by_cases hj : k = j
  · subst hj
    cases hb : bufs[k]? with
    | none => simp
    | some buf =>
      have hi := h buf hb
      simp only [if_true, Option.map_some, Option.map_eq_map]
      have h1 : (buf.set i b).take (i + 1) = buf.take i ++ [b] := by
        rw [List.take_set, List.take_succ_eq_append_getElem hi]
        rw [List.set_append_right _ _ (by simp)]
        simp [Nat.min_eq_left (Nat.le_of_lt hi)]
      have h2 : (buf.set i b).drop (i + 1 + got.length) = buf.drop (i + (b :: got).length) := by
        rw [List.drop_set_of_lt (by omega)]
        congr 1
        simp only [List.length_cons]
        omega
      rw [h1, h2]
      simp
  · simp [hj]

theorem receiveBytes_succ (k i left : Nat) : receiveBytes k i (left + 1) = (do
    let s ← readRegister .stat
    checkStatus .rx s do
      assign (.phase (ackPhase i))
      writeRegister .ctl (askByte left)
      tryWait do
        let b ← readRegister .data
        assign (.buffer k i b)
        receiveBytes k (i + 1) left) := rfl

/-- The byte loop of `read_message` (R285). -/
theorem receiveBytes_spec {A : Move → Bool} (hT : Turns A) (k : Nat) :
    ∀ (left i : Nat) (s : State), s.quiet = true → s.moves.all A = true → IeClear s →
      (∀ buf, s.buffers[k]? = some buf → i + left ≤ buf.length) →
      ∃ r t got tr, receiveBytes k i left s = .ok (r, t) ∧
        Did A s t tr (loopPhase r i left s.phase) (fillBuffer k i got s.buffers) ∧
        IeClear t ∧ ReceiveRun left r got tr := by
  intro left
  induction left with
  | zero =>
    intro i s hq _ hie _
    exact ⟨none, s, [], [], rfl, by rw [fillBuffer_nil]; exact Did.refl hq, hie, .done⟩
  | succ left ih =>
    intro i s hq hA hie hlen
    obtain ⟨st, u, h1, h2, _⟩ := did_stat hT hq hA
    cases hst : StatusClass.rx.accepts st with
    | false =>
      obtain ⟨t, g1, g2, g3⟩ := h2.fail hA (.protocol .rx st)
      refine ⟨some (.protocol .rx st), t, [], _, ?_, by rw [fillBuffer_nil]; exact g2, g3 (h2.ie hie), .badStatus hst⟩
      rw [receiveBytes_succ, M.bind_ok h1, checkStatus_bad hst]
      exact g1
    | true =>
      obtain ⟨u', g1, hu, _⟩ := h2.setPhase hA (ackPhase i)
      obtain ⟨x, v, k1, k2, _⟩ := did_write (sel := .ctl) (.inl rfl) (askByte_legal left) hT hu.ran.quiet (hu.all hA)
      have hv := hu.trans k2
      rw [show u'.phase = ackPhase i from hu.others.phase, show u'.buffers = s.buffers from hu.others.buffers] at hv
      obtain ⟨r, w, bs, j1, j2, j3, j4, j5⟩ := did_wait hT hv.ran.quiet (hv.all hA)
      have hw := hv.trans j2
      have ep : v.phase = ackPhase i := hv.others.phase
      have eb : v.buffers = s.buffers := hv.others.buffers
      rw [ep, eb] at hw
      have hrun : receiveBytes k i (left + 1) s = (match r with
          | some e => failWith e
          | none => do
              let b ← readRegister .data
              assign (.buffer k i b)
              receiveBytes k (i + 1) left) w := by
        rw [receiveBytes_succ, M.bind_ok h1, checkStatus_good hst, M.bind_ok g1, M.bind_ok k1]
        exact tryWait_ok j1
      cases r with
      | some e =>
        have he := j5.1
        subst he
        obtain ⟨t, i1, i2, i3⟩ := hw.fail hA .timeout
        refine ⟨some .timeout, t, [], _, by rw [hrun]; exact i1, ?_, i3 j4, .timedOut (x := x) (bs := bs) hst j5⟩
        rw [fillBuffer_nil, show loopPhase (some OpErr.timeout) i (left + 1) s.phase = .error from rfl]
        simpa [askActs] using i2
      | none =>
        obtain ⟨b, y, i1, i2, _⟩ := did_data hT hw.ran.quiet (hw.all hA)
        have hy := hw.trans i2
        have ep : w.phase = ackPhase i := hw.others.phase
        have eb : w.buffers = s.buffers := hw.others.buffers
        rw [ep, eb] at hy
        obtain ⟨z, z1, hz, z3⟩ := hy.assign hA (.buffer k i b) (p' := ackPhase i)
          (bs' := s.buffers.modify k fun buf => buf.set i b)
          (fun u hp hb => ⟨hp, by rw [Assign.apply_buffer, State.setBufferByte_buffers, hb], rfl⟩)
        have eb : z.buffers = s.buffers.modify k fun buf => buf.set i b := hz.others.buffers
        obtain ⟨r, t, got, tr, q1, q2, q3, q5⟩ := ih (i + 1) z hz.ran.quiet (hz.all hA) (z3 (i2.ie j4))
          (by
            intro buf hbuf
            have : (s.buffers.modify k fun buf => buf.set i b)[k]? = some buf := by
              rw [← eb]; exact hbuf
            simp only [List.getElem?_modify, if_true] at this
            cases hb : s.buffers[k]? with
            | none => simp [hb] at this
            | some buf' =>
              simp only [hb, Option.map_eq_map, Option.map_some, Option.some.injEq] at this
              have := hlen buf' hb
              subst buf
              simp only [List.length_set]
              omega)
        refine ⟨r, t, b :: got, _, ?_, ?_, q3, .received (x := x) (bs := bs) hst j5 q5⟩
        · rw [hrun]
          show (readRegister .data >>= _) w = _
          rw [M.bind_ok i1, M.bind_ok z1]
          exact q1
        · have ht := hz.trans q2
          have ep : z.phase = ackPhase i := hz.others.phase
          rw [ep, eb, fillBuffer_cons (fun buf hb => by have := hlen buf hb; omega)] at ht
          have : loopPhase r (i + 1) left (ackPhase i) = loopPhase r i (left + 1) s.phase := by
            cases r with
            | some e => rfl
            | none =>
              cases left with
              | zero => rfl
              | succ c =>
                simp only [loopPhase]
                rw [show i + 1 + c = i + (c + 1) by omega]
          rw [this] at ht
          simpa [askActs] using ht

/-- `read_message` into buffer `k` from a quiet state (R285). A zero-length read leaves the phase and IE. -/
theorem readMessage_spec {A : Move → Bool} (hT : Turns A) (k : Nat) (a : Addr7) (len : Nat) {s : State}
    (hq : s.quiet = true) (hA : s.moves.all A = true) (hlen : ∀ buf, s.buffers[k]? = some buf → buf.length = len) :
    ∃ r t got tr, readMessage k a len s = .ok (r, t) ∧
      Did A s t tr (if len = 0 then s.phase else messagePhase r len) (fillBuffer k 0 got s.buffers) ∧
      (0 < len → IeClear t) ∧ ReadRun a len r got tr := by
  obtain ⟨s', a1, a2, _⟩ := (Did.refl (A := A) hq).working hA
  have hrd : ∀ f, readMessage k a len s = f ↔ (if len = 0 then pure (some .invalidArgument) else do
      match ← start with
      | some e => failWith e
      | none => do
          writeRegister .data (addrByte a .read)
          writeRegister .ctl Config.ctlEnab
          tryWait (receiveBytes k 0 len) : M (Option OpErr)) s' = f := by
    intro f
    exact iff_of_eq (congrArg (· = f) (M.bind_ok a1))
  cases len with
  | zero => exact ⟨some .invalidArgument, s', [], [], (hrd _).2 rfl, by rw [fillBuffer_nil]; exact a2, by simp, .empty⟩
  | succ len =>
    simp only [Nat.add_eq_zero_iff, one_ne_zero, and_false, if_false] at hrd ⊢
    have b' : s'.buffers = s.buffers := a2.others.buffers
    obtain ⟨r, u, tr, h1, h2, h4, h5⟩ := start_spec hT a2.ran.quiet (a2.all hA)
    have h2 := a2.trans h2
    rw [List.nil_append, b'] at h2
    have hz : ∀ e : OpErr, messagePhase (some e) (len + 1) = .error := by intro e; cases len <;> rfl
    cases r with
    | some e =>
      obtain ⟨t, g1, g2, g3⟩ := h2.fail hA e
      refine ⟨some e, t, [], tr, (hrd _).2 ?_, by rw [fillBuffer_nil, hz]; exact g2, fun _ => g3 h4, .noStart h5⟩
      rw [M.bind_ok h1]
      exact g1
    | none =>
      obtain ⟨x, y, r, v, bs, k1, k2, k3, k4, k5⟩ := address_spec hT (addrByte a .read) h2.ran.quiet (h2.all hA)
        (receiveBytes k 0 (len + 1))
      have hv := h2.trans k2
      have e1 : u.phase = .startSent := h2.others.phase
      have e2 : u.buffers = s.buffers := h2.others.buffers
      rw [e1, e2] at hv
      have hrun : ∀ f, (match r with | some e => failWith e | none => receiveBytes k 0 (len + 1)) v = f →
          readMessage k a (len + 1) s = f := by
        intro f hf
        refine (hrd _).2 ?_
        rw [M.bind_ok h1]
        exact k1.trans hf
      cases r with
      | some e =>
        have he := k5.1
        subst he
        obtain ⟨t, g1, g2, g3⟩ := hv.fail hA .timeout
        exact ⟨some .timeout, t, [], _, hrun _ g1, by rw [fillBuffer_nil, hz]; exact g2, fun _ => g3 k4,
          .noAddress (x := x) (y := y) (bs := bs) h5 k5⟩
      | none =>
        have vb : v.buffers = s.buffers := hv.others.buffers
        obtain ⟨r, t, got, tr', j1, j2, j3, j5⟩ := receiveBytes_spec hT k (len + 1) 0 v hv.ran.quiet (hv.all hA) k4
          (by intro buf hb; rw [vb] at hb; rw [hlen buf hb]; omega)
        refine ⟨r, t, got, _, hrun _ j1, ?_, fun _ => j3, .receives (x := x) (y := y) (bs := bs) h5 k5 j5⟩
        have ht := hv.trans j2
        have ep : v.phase = .startSent := hv.others.phase
        rw [ep, vb, loopPhase_message] at ht
        simpa using ht

end Sys2Proof.Machine
end

