-- ==== Sys2Proof/Laws/Batch.lean ====
section
/-! SUPPORT. What a batch, `open` and `close` can do, for every run of the other agents. -/

namespace Sys2Proof.Machine

open Sys2Proof

/-- Filling the buffer of message `pre.length` (R86). -/
theorem fillBuffer_at (pre rest : List (List Byte)) (buf got : List Byte) :
    fillBuffer pre.length 0 got (pre ++ buf :: rest) = pre ++ (got ++ buf.drop got.length) :: rest := by
  unfold fillBuffer
  simp only [List.take_zero, List.nil_append, Nat.zero_add]
  induction pre with
  | nil => rfl
  | cons b pre ih => exact congrArg (b :: ·) ih

/-- One message from a quiet state (R290). -/
theorem message_spec {A : Move → Bool} (hT : Turns A) (m : Message) (pre rest : List (List Byte)) {s : State}
    (hq : s.quiet = true) (hA : s.moves.all A = true) (hb : s.buffers = pre ++ m.buffer :: rest) :
    ∃ r t buf tr p, message pre.length m s = .ok (r, t) ∧
      Did A s t tr p (pre ++ buf :: rest) ∧ MessageRun m r buf tr := by
  unfold message
  cases hm : m.direction with
  | write =>
    obtain ⟨r, t, tr, h1, h2, _, h5⟩ := writeMessage_spec hT m.address m.buffer hq hA
    rw [hb] at h2
    exact ⟨r, t, m.buffer, tr, _, h1, h2, .write hm h5⟩
  | read =>
    obtain ⟨r, t, got, tr, h1, h2, _, h5⟩ := readMessage_spec hT pre.length m.address m.buffer.length hq hA (by
      intro buf h
      rw [hb] at h
      simp at h
      rw [h])
    rw [hb, fillBuffer_at] at h2
    exact ⟨r, t, _, tr, _, h1, h2, .read hm h5⟩

theorem messages_cons (count : Nat) (m : Message) (ms : List Message) : messages count (m :: ms) = (do
    match ← message count m with
    | some e => do
        assign .working
        return (count, some e)
    | none => do
        assign .working
        messages (count + 1) ms) := rfl

/-- The messages of a batch from a quiet state (R290). -/
theorem messages_spec {A : Move → Bool} (hT : Turns A) :
    ∀ (ms : List Message) (pre : List (List Byte)) (s : State), s.quiet = true → s.moves.all A = true →
      s.buffers = pre ++ ms.map Message.buffer →
      ∃ c r t bufs tr p, messages pre.length ms s = .ok ((pre.length + c, r), t) ∧
        Did A s t tr p (pre ++ bufs) ∧ MessagesRun ms c r bufs tr := by
  intro ms
  induction ms with
  | nil =>
    intro pre s hq _ hb
    simp only [List.map_nil, List.append_nil] at hb
    refine ⟨0, none, s, [], [], s.phase, rfl, ?_, .done⟩
    rw [List.append_nil, ← hb]
    exact Did.refl hq
  | cons m ms ih =>
    intro pre s hq hA hb
    obtain ⟨r, u, buf, tr, p, h1, h2, h3⟩ := message_spec hT m pre (ms.map Message.buffer) hq hA hb
    cases r with
    | some e =>
      obtain ⟨t, g1, g2, _⟩ := h2.working hA
      refine ⟨0, some e, t, _, tr, p, ?_, g2, .fails h3⟩
      rw [messages_cons, M.bind_ok h1]
      show (assign .working >>= _) u = _
      rw [M.bind_ok g1]
      rfl
    | none =>
      obtain ⟨v, g1, h2, _⟩ := h2.working hA
      have hub : v.buffers = (pre ++ [buf]) ++ ms.map Message.buffer := by
        rw [show v.buffers = _ from h2.others.buffers]
        simp
      obtain ⟨c, r, t, bufs, tr', p', k1, k2, k3⟩ := ih (pre ++ [buf]) v h2.ran.quiet (h2.all hA) hub
      refine ⟨c + 1, r, t, buf :: bufs, tr ++ tr', p', ?_, ?_, .completes h3 k3⟩
      · rw [messages_cons, M.bind_ok h1]
        simp only [List.length_append, List.length_cons, List.length_nil, Nat.zero_add] at k1
        show (assign .working >>= fun _ => messages (pre.length + 1) ms) u = _
        rw [M.bind_ok g1, k1]
        congr 3
        omega
      · have := h2.trans k2
        simpa using this

/-- The engine part of a batch from a quiet state (R290). -/
theorem runBatch_spec {A : Move → Bool} (hT : Turns A) (ms : List Message) {s : State} (hq : s.quiet = true)
    (hA : s.moves.all A = true) (hb : s.buffers = ms.map Message.buffer) :
    ∃ c r x st t bufs tr, runBatch ms s = .ok ((c, batchError r (stopVerdict st)), t) ∧
      Did A s t (tr ++ stopActs x st) (if st = Config.statIdle then .idle else .error) bufs ∧
      MessagesRun ms c r bufs tr := by
  obtain ⟨s1, a1, a2, _⟩ := (Did.refl (A := A) hq).working hA
  obtain ⟨s2, b1, b2, _⟩ := a2.working hA
  have hb2 : s2.buffers = ms.map Message.buffer := (show s2.buffers = s.buffers from b2.others.buffers).trans hb
  obtain ⟨c, r, u, bufs, tr, p, h1, h2, h3⟩ := messages_spec hT ms [] s2 b2.ran.quiet (b2.all hA) (by simpa using hb2)
  have hu := b2.trans h2
  simp only [List.nil_append, List.length_nil, Nat.zero_add] at hu h1
  obtain ⟨x, st, v, k1, k2⟩ := stop_spec hT hu.ran.quiet (hu.all hA)
  have hv := hu.trans k2
  rw [show u.buffers = bufs from hu.others.buffers] at hv
  have hrun : runBatch ms s = (reportStop r (stopVerdict st) >>= fun _ =>
      pure (c, batchError r (stopVerdict st))) v := by
    unfold runBatch
    rw [M.bind_ok a1, M.bind_ok b1, M.bind_ok h1]
    show (stop >>= _) u = _
    rw [M.bind_ok k1]
  unfold reportStop at hrun
  split at hrun
  · obtain ⟨t, j1, j2, _⟩ := hv.working hA
    exact ⟨c, r, x, st, t, bufs, tr, by rw [hrun, M.bind_ok j1]; rfl, j2, h3⟩
  · exact ⟨c, r, x, st, v, bufs, tr, by rw [hrun]; rfl, hv, h3⟩

/-- `open` after its checks, from a quiet state (R320, R384). -/
theorem openWith_spec {A : Move → Bool} (hT : Turns A) (target window irqLine sys : Nat) {s : State}
    (hq : s.quiet = true) (hA : s.moves.all A = true) :
    ∃ r t x y sts tail, openWith target window irqLine sys s = .ok (r, t) ∧
      Ran A s t (initActs x y sts ++ tail) ∧
      initAnswers r sts ∧ t.result = s.result ∧ t.buffers = s.buffers ∧
      (IeClear s → IeClear t) ∧ (A .irq = false → RawIdle s → RawHolds s.ie s.raw t) ∧
      (A .irq = false → t.controller.completion = false) ∧
      t.controller.window = window ∧ t.controller.irqLine = irqLine ∧ t.controller.targetFrequency = target ∧
      t.controller.systemClockRate = sys ∧ t.controller.inBatch = false ∧
      (match r with
        | some _ => tail = [] ∧ t.controller.isOpen = false ∧ t.controller.params = s.controller.params ∧
            t.phase = s.phase
        | none => t.controller.isOpen = true ∧ t.phase = .idle ∧ t.controller.params = clockSearch target sys ∧
            t.core.thp = thpByte (clockSearch target sys).thp ∧
            t.core.clkctl = clkByte (clockSearch target sys).mdiv (clockSearch target sys).ndiv ∧
            ∃ z w, tail = clockActs (clockSearch target sys) z w) := by
  obtain ⟨s0, a1, a2, a3, _, a5⟩ := assign_spec (coreKeeps_true (A := A)) (.controller target window irqLine sys) hq hA trivial
  obtain ⟨r, u, x, y, sts, h1, h2, h3, _, h5, h6⟩ := init_spec hT.drain hT.port a2.quiet (a2.all hA)
  have r0 := a2.trans h2
  rw [List.nil_append] at r0
  have hc0 := a3.controller
  have hc := h3.controller
  simp only [Assign.apply_controller, State.setController_controller] at hc
  have hkeep : ∀ t, IeKept A ((Assign.controller target window irqLine sys).apply s0) t →
      (IeClear s → IeClear t) ∧ (A .irq = false → RawIdle s → RawHolds s.ie s.raw t) ∧
      (A .irq = false → t.controller.completion = false) := by
    intro t k
    refine ⟨fun z => k.clear (a5.clear z), fun z w => ?_, fun z => k.completion z⟩
    obtain ⟨b1, b2, b3⟩ := a5.patterns z w
    obtain ⟨c1, c2, c3⟩ := k.patterns z b1
    exact ⟨c1, c2.trans b2, c3.trans b3⟩
  have hrun : openWith target window irqLine sys s = (match r with
      | some e => return some e
      | none => do
          setClock
          assign (.isOpen true)
          assign (.phase .idle)
          return none : M (Option OpErr)) u := by
    unfold openWith
    rw [M.bind_ok a1]
    exact (M.bind_ok (t := u) h1).trans (by cases r <;> rfl)
  cases r with
  | some e =>
    obtain ⟨k1, k2, k3⟩ := hkeep u h5
    refine ⟨some e, u, x, y, sts, [], by rw [hrun]; rfl, by simpa using r0, h6, h3.result.trans a3.result,
      h3.buffers.trans a3.buffers, k1, k2, k3, ?_⟩
    rw [hc]
    exact ⟨rfl, rfl, rfl, rfl, rfl, rfl, rfl, by simp only [newController]; rw [hc0], h3.phase.trans a3.phase⟩
  | none =>
    let p := clockSearch target sys
    have e1 : u.controller.targetFrequency = target := by rw [hc]; rfl
    have e2 : u.controller.systemClockRate = sys := by rw [hc]; rfl
    have hQ'' : CoreKeeps A fun c => c.thp = thpByte p.thp ∧ c.clkctl = clkByte p.mdiv p.ndiv :=
      coreKeeps_regs fun q => q.1 = thpByte p.thp ∧ q.2.2 = clkByte p.mdiv p.ndiv
    obtain ⟨z, w, v, k1, k2, k3, k5, k8⟩ := setClock_spec hT.drain hT.port r0.quiet (r0.all hA) (coreKeeps_true (A := A))
      (coreKeeps_regs fun q => q.1 = thpByte p.thp) hQ'' trivial (by rw [e1, e2]; exact fun _ _ => rfl)
      (by rw [e1, e2]; exact fun _ h => ⟨h, rfl⟩)
    rw [e1, e2] at k2 k3
    have rv := r0.trans k2
    obtain ⟨o1, b1, b2, b3, b4, b5⟩ := assign_spec hQ'' (.isOpen true) rv.quiet (rv.all hA) k5
    have ro := rv.trans b2
    obtain ⟨o2, d1, d2, d3, d4, d5⟩ := assign_spec hQ'' (.phase .idle) ro.quiet (ro.all hA) b4
    have rt := ro.trans d2
    simp only [List.append_nil] at rt
    have kept := ((h5.trans k8).trans (b5.assign (.isOpen true) rfl)).trans (d5.assign (.phase .idle) rfl)
    obtain ⟨q1, q2, q3⟩ := hkeep _ kept
    have kc := k3.controller
    have bc := b3.controller
    have dc := d3.controller
    simp only [Assign.apply_isOpen, State.setOpen_controller, State.setParams_controller] at kc dc
    refine ⟨none, o2.setPhase .idle, x, y, sts, _, ?_, rt,
      h6, ?_, ?_, q1, q2, q3, ?_⟩
    · rw [hrun]
      show (setClock >>= _) u = _
      rw [M.bind_ok k1, M.bind_ok b1, M.bind_ok d1]
      rfl
    · exact (((d3.result.trans b3.result).trans k3.result).trans h3.result).trans a3.result
    · exact (((d3.buffers.trans b3.buffers).trans k3.buffers).trans h3.buffers).trans a3.buffers
    · simp only [State.setPhase_controller]
      rw [dc, bc, kc, hc]
      exact ⟨rfl, rfl, rfl, rfl, rfl, rfl, rfl, rfl, d4.1, d4.2, z, w, rfl⟩

end Sys2Proof.Machine
end

