-- ==== Sys2Proof/Laws/Listed.lean ====
section
/-! SUPPORT. From the operations' specifications to the statements: the set of turns a state lists, what `Acted` needs of a run,
and that no run begins with a delay. -/

namespace Sys2Proof.Machine

open Sys2Proof

/-! ### The turns a state lists -/

/-- The turns listed in `s`, with the two that a held access waits for. The `A` of the specifications for a statement about
`s`. -/
def listed (s : State) (m : Move) : Bool := m == .drain || m == .port || s.moves.contains m

theorem listed_all (s : State) : s.moves.all (listed s) = true := by
  simp only [List.all_eq_true, listed, List.contains_eq_mem, Bool.or_eq_true, decide_eq_true_eq]
  exact fun m hm => .inr hm

theorem listed_turns (s : State) : Turns (listed s) := ⟨by simp [listed], by simp [listed]⟩

theorem listed_no {s : State} {m : Move} (h : s.noTurn m = true) (h1 : m ≠ .drain) (h2 : m ≠ .port) :
    listed s m = false := by
  simp only [State.noTurn, Bool.not_eq_true', List.contains_eq_mem, decide_eq_false_iff_not] at h
  simp [listed, h, h1, h2]

theorem listed_noIrq {s : State} (h : s.noTurn .irq = true) : listed s .irq = false := listed_no h (by decide) (by decide)

theorem listed_noCore {s : State} (h : s.noCore = true) : NoCore (listed s) := by
  simp only [State.noCore, Bool.and_eq_true] at h
  exact ⟨listed_no h.1 (by decide) (by decide), listed_no h.2 (by decide) (by decide)⟩

/-- A fact that holds where the CORE has no turn survives its turns. -/
theorem coreKeeps_noCore {s : State} (Q : TwsiCore → Prop) : CoreKeeps (listed s) fun c => s.noCore = true → Q c := by
  refine ⟨fun u ha _ hn => ?_, fun u ha _ hn => ?_⟩
  · rw [(listed_noCore hn).1] at ha; cases ha
  · rw [(listed_noCore hn).2] at ha; cases ha

/-- IE and RAW are kept as the statements say it. -/
theorem IeKept.patternsKept {s t : State} (h : IeKept (listed s) s t) : PatternsKept s t := fun h1 h2 =>
  (h.patterns (listed_noIrq h1) (by simp [RawIdle, h2])).2

/-! ### No run begins with a delay -/

theorem StartRun.begins {r : Option OpErr} {acts : List Act} (h : StartRun r acts) :
    ∃ x rest, acts = .access startWrite x :: rest := by
  cases h with
  | direct => exact ⟨_, _, rfl⟩
  | refused => exact ⟨_, _, rfl⟩
  | recovered => exact ⟨_, _, rfl⟩
  | failed => exact ⟨_, _, rfl⟩

theorem WriteRun.begins {a : Addr7} {p : List Byte} {r : Option OpErr} {acts : List Act} (h : WriteRun a p r acts) :
    ∃ x rest, acts = .access startWrite x :: rest := by
  cases h with
  | noStart h => exact h.begins
  | noAddress h => obtain ⟨x, rest, rfl⟩ := h.begins; exact ⟨x, _, rfl⟩
  | sends h => obtain ⟨x, rest, rfl⟩ := h.begins; exact ⟨x, _, rfl⟩

/-- A read begins with START too, unless it is of no bytes. -/
theorem ReadRun.begins {a : Addr7} {len : Nat} {r : Option OpErr} {got : List Byte} {acts : List Act}
    (h : ReadRun a len r got acts) :
    (acts = [] ∧ r = some .invalidArgument) ∨ ∃ x rest, acts = .access startWrite x :: rest := by
  cases h with
  | empty => exact .inl ⟨rfl, rfl⟩
  | noStart h => exact .inr h.begins
  | noAddress h => obtain ⟨x, rest, rfl⟩ := h.begins; exact .inr ⟨x, _, rfl⟩
  | receives h => obtain ⟨x, rest, rfl⟩ := h.begins; exact .inr ⟨x, _, rfl⟩

theorem MessageRun.begins {m : Message} {r : Option OpErr} {buf : List Byte} {acts : List Act}
    (h : MessageRun m r buf acts) :
    (acts = [] ∧ r = some .invalidArgument) ∨ ∃ x rest, acts = .access startWrite x :: rest := by
  cases h with
  | write _ h => exact .inr h.begins
  | read _ h => exact h.begins

theorem MessagesRun.begins {ms : List Message} {c : Nat} {r : Option OpErr} {bufs : List (List Byte)} {acts : List Act}
    (h : MessagesRun ms c r bufs acts) : acts = [] ∨ ∃ x rest, acts = .access startWrite x :: rest := by
  cases h with
  | done => exact .inl rfl
  | fails h => exact h.begins.imp And.left id
  | completes h _ =>
    rcases h.begins with ⟨_, h⟩ | ⟨x, rest, rfl⟩
    · cases h
    · exact .inr ⟨x, _, rfl⟩

/-- What began with an access did not begin with a delay. -/
theorem head_access {acts : List Act} (h : ∃ w x rest, acts = .access w x :: rest) : ∀ us, acts.head? ≠ some (.delay us) := by
  obtain ⟨w, x, rest, rfl⟩ := h
  simp

/-- The delays of the polls of `init()`: one for each (R241, R242). -/
theorem delaysIn_initPollActs (sts : List Byte) :
    delaysIn (initPollActs sts) = List.replicate sts.length Config.initDelayUs := by
  induction sts with
  | nil => rfl
  | cons b sts ih =>
    rw [List.length_cons, List.replicate_succ, ← ih]
    rfl

/-! ### Lengths of buffers (R8) -/

/-- With the default `MAX_MSG_LEN` no buffer is too long. -/
@[simp] theorem tooLong_none (bufs : List (List Byte)) : tooLong bufs = none := by
  simp [tooLong, msgLenAllowed, Config.maxMsgLen]

end Sys2Proof.Machine
end

