-- ==== Sys2Proof/Laws/PerInstr.lean ====
section
/-! SUPPORT. The family `TableWord`: each operation's code has the form its row of `spec/opcode_table.json` gives it: a CMD or
RAW word `w` with `w & mask = match` (R104, R110), or a call by the row's name (R112, R113). -/

namespace Sys2Proof.Laws.TableWord

open Sys2Proof Sys2Proof.Machine

/-- A CMD word that the row's `match` and `mask` accept (R104). -/
def isCommand (pattern mask : Word) (c : Code) : Prop := ∃ w, c = .cmd w ∧ w &&& mask = pattern

/-- A RAW word that the row's `match` and `mask` accept (R110). -/
def isPattern (pattern mask : Word) (c : Code) : Prop := ∃ w, c = .raw w ∧ w &&& mask = pattern

/-- A call by the row's name (R112). -/
def isCallOf (name : String) (c : Code) : Prop := ∃ args, c = .call ⟨name, args⟩

/-- The form the table gives an operation's code. -/
def Statement (i : Instr) : Prop :=
  match i with
  | .wrregThp _ => isCommand 0x8800000000000000#64 0xFFFFFFFFFFFFFF00#64 (encode i)
  | .wrregData _ => isCommand 0x8C00000100000000#64 0xFFFFFFFFFFFFFF00#64 (encode i)
  | .wrregCtl _ => isCommand 0x8C00000200000000#64 0xFFFFFFFFFFFFFF00#64 (encode i)
  | .wrregClkctl _ => isCommand 0x8C00000300000000#64 0xFFFFFFFFFFFFFF00#64 (encode i)
  | .wrregRst _ => isCommand 0x8C00000700000000#64 0xFFFFFFFFFFFFFF00#64 (encode i)
  | .rdregData => isCommand 0x8D00000100000000#64 0xFFFFFFFFFFFFFFFF#64 (encode i)
  | .rdregCtl => isCommand 0x8D00000200000000#64 0xFFFFFFFFFFFFFFFF#64 (encode i)
  | .rdregStat => isCommand 0x8D00000300000000#64 0xFFFFFFFFFFFFFFFF#64 (encode i)
  | .wrraw _ => isPattern 0x0000000000000000#64 0x0000000000000000#64 (encode i)
  | .writeRegister _ _ => isCallOf "write_register" (encode i)
  | .readRegister _ => isCallOf "read_register" (encode i)
  | .writeRaw _ => isCallOf "write_raw" (encode i)
  | .delay _ => isCallOf "DELAY" (encode i)
  | .enable => isCallOf "enable" (encode i)
  | .disable => isCallOf "disable" (encode i)
  | .ready => isCallOf "ready" (encode i)
  | .wait => isCallOf "wait" (encode i)
  | .irqHandler => isCallOf "irq_handler" (encode i)
  | .clockSearch _ _ => isCallOf "clock_search" (encode i)
  | .setClock => isCallOf "set_clock" (encode i)
  | .init => isCallOf "init" (encode i)
  | .unblock => isCallOf "unblock" (encode i)
  | .start => isCallOf "start" (encode i)
  | .stop => isCallOf "stop" (encode i)
  | .writeMessage _ _ => isCallOf "write_message" (encode i)
  | .readMessage _ _ => isCallOf "read_message" (encode i)
  | .executeBatchEngine _ => isCallOf "execute_batch__engine" (encode i)
  | .openController _ _ _ _ => isCallOf "open" (encode i)
  | .executeBatch _ => isCallOf "execute_batch" (encode i)
  | .close => isCallOf "close" (encode i)

theorem wrregThp (b : Byte) : Statement (.wrregThp b) :=
  ⟨_, rfl, by rw [writeCommand_upper]; decide⟩

theorem wrregData (b : Byte) : Statement (.wrregData b) :=
  ⟨_, rfl, by rw [writeCommand_upper]; decide⟩

theorem wrregCtl (b : Byte) : Statement (.wrregCtl b) :=
  ⟨_, rfl, by rw [writeCommand_upper]; decide⟩

theorem wrregClkctl (b : Byte) : Statement (.wrregClkctl b) :=
  ⟨_, rfl, by rw [writeCommand_upper]; decide⟩

theorem wrregRst (b : Byte) : Statement (.wrregRst b) :=
  ⟨_, rfl, by rw [writeCommand_upper]; decide⟩

theorem rdregData : Statement (.rdregData) :=
  ⟨_, rfl, by decide⟩

theorem rdregCtl : Statement (.rdregCtl) :=
  ⟨_, rfl, by decide⟩

theorem rdregStat : Statement (.rdregStat) :=
  ⟨_, rfl, by decide⟩

theorem wrraw (v : Word) : Statement (.wrraw v) :=
  ⟨v, rfl, BitVec.and_zero⟩

theorem writeRegister (sel : Selector) (b : Byte) : Statement (.writeRegister sel b) := ⟨_, rfl⟩

theorem readRegister (sel : Selector) : Statement (.readRegister sel) := ⟨_, rfl⟩

theorem writeRaw (v : Word) : Statement (.writeRaw v) := ⟨_, rfl⟩

theorem delay (us : Nat) : Statement (.delay us) := ⟨_, rfl⟩

theorem enable : Statement (.enable) := ⟨_, rfl⟩

theorem disable : Statement (.disable) := ⟨_, rfl⟩

theorem ready : Statement (.ready) := ⟨_, rfl⟩

theorem wait : Statement (.wait) := ⟨_, rfl⟩

theorem irqHandler : Statement (.irqHandler) := ⟨_, rfl⟩

theorem clockSearch (target sys : Nat) : Statement (.clockSearch target sys) := ⟨_, rfl⟩

theorem setClock : Statement (.setClock) := ⟨_, rfl⟩

theorem init : Statement (.init) := ⟨_, rfl⟩

theorem unblock : Statement (.unblock) := ⟨_, rfl⟩

theorem start : Statement (.start) := ⟨_, rfl⟩

theorem stop : Statement (.stop) := ⟨_, rfl⟩

theorem writeMessage (address : Addr7) (payload : List Byte) : Statement (.writeMessage address payload) := ⟨_, rfl⟩

theorem readMessage (address : Addr7) (buffer : List Byte) : Statement (.readMessage address buffer) := ⟨_, rfl⟩

theorem executeBatchEngine (msgs : List Message) : Statement (.executeBatchEngine msgs) := ⟨_, rfl⟩

theorem openController (target window irqLine sys : Nat) : Statement (.openController target window irqLine sys) := ⟨_, rfl⟩

theorem executeBatch (msgs : List Message) : Statement (.executeBatch msgs) := ⟨_, rfl⟩

theorem close : Statement (.close) := ⟨_, rfl⟩

end Sys2Proof.Laws.TableWord
end

