-- ==== Sys2Proof/Laws/Signal.lean ====
section
/-! SUPPORT. How near the handler is to its signal (R186, R188): `turnsLeft` lists the turns it still needs, no turn of any
agent makes the list longer, and the next one on it, taken, leaves it shorter. -/

namespace Sys2Proof.Machine

open Sys2Proof

/-! ### IFLG that stays -/

/-- IFLG is 1 and no action is pending that could clear it (R157). -/
def IflgStands (c : TwsiCore) : Prop := c.iflg = true ∧ c.pending ≠ .stop ∧ c.pending ≠ .reset

theorem coreKeeps_iflgStands {A : Move → Bool} : CoreKeeps A IflgStands := by
  refine ⟨fun s _ h => ?_, fun s _ h => ?_⟩
  · have : (coreProgress s).core.iflg = s.core.iflg ∧ (coreProgress s).core.pending = s.core.pending := by
      unfold coreProgress
      split <;> simp
    unfold IflgStands
    rwa [this.1, this.2]
  · obtain ⟨h1, h2, h3⟩ := h
    unfold coreComplete
    cases hp : s.core.pending <;> simp_all [IflgStands, iflgAfter]

/-! ### What no turn takes back -/

/-- Nothing but the ENGINE takes the completion signal back, and an attached handler stays attached (R46, R385). -/
theorem envMove_sets {m : Move} {s t : State} (hm : m.outside = false) (hf : s.flowing = true) (h : envMove m s = .ok t) :
    (s.controller.completion = true → t.controller.completion = true) ∧
      (s.handlerAttached = true → t.handlerAttached = true) := by
  cases m with
  | engine => simp only [envMove, Except.ok.injEq] at h; exact h ▸ ⟨id, id⟩
  | drain =>
    obtain ⟨_, h1, _, h2⟩ := drainStep_core h
    rw [h1, h2]
    exact ⟨id, id⟩
  | port =>
    simp only [envMove] at h
    cases hb : s.port.busy with
    | false =>
      simp only [portStep, hb, Bool.false_eq_true, if_false, Except.ok.injEq] at h
      exact h ▸ ⟨id, id⟩
    | true =>
      obtain ⟨i, v, hi, hv, rfl⟩ := portStep_busy hb h
      have p := performed_of ((flowing_iff.1 hf).2.1 hb) hi hv
      simp [p.controller, p.attached]
  | coreProgress =>
    simp only [envMove, Except.ok.injEq] at h
    subst h
    unfold coreProgress
    split <;> simp
  | coreComplete =>
    simp only [envMove, Except.ok.injEq] at h
    subst h
    unfold coreComplete
    split <;> simp
  | irq =>
    simp only [envMove] at h
    unfold irqStep at h
    split at h
    · simp only [Except.ok.injEq] at h; subst h; unfold irqEnter; split <;> simp
    · simp only [post, legalOffset, beq_self_eq_true, Bool.or_true, if_true, Except.map, Except.ok.injEq] at h
      subst h; simp
    · split at h
      · simp only [readWindow, Config.offRaw, Config.offCmd, Except.map, Nat.reduceEqDiff, if_false, if_true,
          Except.ok.injEq] at h
        subst h; simp
      · simp only [Except.ok.injEq] at h; subst h; simp
    · simp only [Except.ok.injEq] at h; subst h; simp
    · simp only [Except.ok.injEq] at h; subst h; simp
  | timeout => simp only [envMove, Except.ok.injEq] at h; exact h ▸ ⟨id, id⟩
  | attach => simp only [envMove, Except.ok.injEq] at h; subst h; simp
  | call c => simp [Move.outside] at hm
  | hostWrite off width w => simp [Move.outside] at hm
  | hostRead off width => simp [Move.outside] at hm

/-- A completion signal that stands survives every turn but the ENGINE's (R46, R185). -/
theorem completion_survives {A : Move → Bool} : Survives A fun s => s.controller.completion = true :=
  ⟨fun _ h => h, fun hm _ hf h he => (envMove_sets hm hf he).1 h, fun h _ he => by
    rw [readWindow_ok he]; simpa using h⟩

/-! ### The turns to the signal -/

/-- The turns the IRQ agent needs from its place, with the drain of its own write among them (R186). -/
def irqTurns : IrqPos → List Move
  | .out => [.irq, .irq, .drain, .irq, .irq]
  | .atWrite => [.irq, .drain, .irq, .irq]
  | .atReadback => [.irq, .irq]
  | .atSignal => [.irq]
  | .atLeave => [.irq, .irq, .irq, .drain, .irq, .irq]

/-- The turns to the signal, with `k` writes still to be posted. -/
def turnsLeft (k : Nat) (s : State) : List Move := List.replicate (s.posted.length + k) .drain ++ irqTurns s.irq

/-- Turns that lead the handler to its signal lead it there from wherever it stands. -/
theorem turnsLeft_signalTurns (s : State) : (.engine :: turnsLeft 1 s).Sublist s.signalTurns := by
  simp only [turnsLeft, State.signalTurns, List.cons_append]
  refine List.Sublist.cons_cons _ ?_
  rw [List.append_assoc]
  refine List.Sublist.append (List.Sublist.refl _) ?_
  cases s.irq <;> decide

theorem replicate_sublist_append {a b : Nat} (h : a ≤ b) (l : List Move) :
    (List.replicate a Move.drain ++ l).Sublist (List.replicate b .drain ++ l) :=
  List.Sublist.append ((List.replicate_sublist_replicate _).2 h) (List.Sublist.refl _)

/-- What an IRQ step does to the place, the buffer and the signal (R186). -/
theorem irqStep_place {s t : State} (h : irqStep s = .ok t) :
    match s.irq with
    | .out => t.posted = s.posted ∧ t.irq = if s.irqMayEnter then .atWrite else .out
    | .atWrite => t.posted = s.posted ++ [clearWrite] ∧ t.irq = .atReadback
    | .atReadback => t.posted = s.posted ∧ t.irq = if s.posted = [] then .atSignal else .atReadback
    | .atSignal => t.controller.completion = true
    | .atLeave => t.posted = s.posted ∧ t.irq = .out := by
  unfold irqStep at h
  cases hi : s.irq <;> simp only [hi] at h ⊢
  · simp only [Except.ok.injEq] at h
    subst h
    unfold irqEnter
    split <;> simp_all
  · simp only [post, legalOffset, beq_self_eq_true, Bool.or_true, if_true, Except.map, Except.ok.injEq] at h
    subst h
    exact ⟨rfl, rfl⟩
  · split at h
    · rename_i hp
      simp only [readWindow, Config.offRaw, Config.offCmd, Except.map, Nat.reduceEqDiff, if_false, if_true,
        Except.ok.injEq] at h
      subst h
      simp [hp]
    · rename_i hp
      simp only [Except.ok.injEq] at h
      subst h
      simp [hp, hi]
  · simp only [Except.ok.injEq] at h
    subst h
    rfl
  · simp only [Except.ok.injEq] at h
    subst h
    exact ⟨rfl, rfl⟩

/-- Turns of the other agents leave the place and the buffer, but for a drain. -/
theorem envMove_place {m : Move} {s t : State} (hm : m.outside = false) (hi : m ≠ .irq) (hd : m ≠ .drain)
    (hb : s.port.busy = false) (h : envMove m s = .ok t) :
    t.irq = s.irq ∧ t.posted = s.posted ∧ t.ie = s.ie := by
  cases m with
  | engine => simp only [envMove, Except.ok.injEq] at h; subst h; exact ⟨rfl, rfl, rfl⟩
  | drain => exact absurd rfl hd
  | port =>
    simp only [envMove, portStep, hb, Bool.false_eq_true, if_false, Except.ok.injEq] at h
    subst h; exact ⟨rfl, rfl, rfl⟩
  | coreProgress =>
    simp only [envMove, Except.ok.injEq] at h
    subst h
    unfold coreProgress
    split <;> simp
  | coreComplete =>
    simp only [envMove, Except.ok.injEq] at h
    subst h
    unfold coreComplete
    split <;> simp
  | irq => exact absurd rfl hi
  | timeout => simp only [envMove, Except.ok.injEq] at h; subst h; exact ⟨rfl, rfl, rfl⟩
  | attach => simp only [envMove, Except.ok.injEq] at h; subst h; exact ⟨rfl, rfl, rfl⟩
  | call c => simp [Move.outside] at hm
  | hostWrite off width w => simp [Move.outside] at hm
  | hostRead off width => simp [Move.outside] at hm

/-- A drain takes the oldest write, or nothing. -/
theorem drainStep_posted {s t : State} (h : drainStep s = .ok t) : t.posted = s.posted.tail := by
  cases hp : s.posted with
  | nil => simp only [drainStep, hp, Except.ok.injEq] at h; exact h ▸ hp
  | cons p ps => exact (drainStep_pattern hp h).1

/-- No turn takes the handler farther from its signal. -/
theorem turnsLeft_mono {m : Move} {s t : State} (k : Nat) (hm : m.outside = false) (hb : s.port.busy = false)
    (h : envMove m s = .ok t) : t.controller.completion = true ∨ (turnsLeft k t).Sublist (turnsLeft k s) := by
  by_cases hi : m = .irq
  · subst hi
    have p := irqStep_place h
    cases hs : s.irq <;> simp only [hs] at p
    · refine .inr ?_
      simp only [turnsLeft, p.1, p.2, hs]
      refine List.Sublist.append (List.Sublist.refl _) ?_
      split <;> decide
    · refine .inr ?_
      simp only [turnsLeft, p.1, p.2, hs, List.length_append, List.length_singleton]
      rw [show s.posted.length + 1 + k = s.posted.length + k + 1 by omega, List.replicate_succ', List.append_assoc]
      exact List.Sublist.append (List.Sublist.refl _) (by decide)
    · refine .inr ?_
      simp only [turnsLeft, p.1, p.2, hs]
      refine List.Sublist.append (List.Sublist.refl _) ?_
      split <;> decide
    · exact .inl p
    · refine .inr ?_
      simp only [turnsLeft, p.1, p.2, hs]
      exact List.Sublist.append (List.Sublist.refl _) (by decide)
  · by_cases hd : m = .drain
    · subst hd
      refine .inr ?_
      simp only [turnsLeft, (drainStep_core h).2.2.1, drainStep_posted h, List.length_tail]
      exact replicate_sublist_append (by omega) _
    · obtain ⟨h1, h2, _⟩ := envMove_place hm hi hd hb h
      exact .inr (by simp [turnsLeft, h1, h2])

/-- Until the handler is in, the enable is the last write posted, or has drained and set IE (R180). -/
def Armed (s : State) : Prop :=
  s.irq = .out ∨ s.irq = .atLeave →
    (s.posted = [] ∧ s.ie = true) ∨ ∃ pre, s.posted = pre ++ [⟨Config.offRaw, Config.rawIeSet, false⟩]

theorem Armed.env {m : Move} {s t : State} (ha : Armed s) (hm : m.outside = false) (hb : s.port.busy = false)
    (h : envMove m s = .ok t) : t.controller.completion = true ∨ Armed t := by
  by_cases hi : m = .irq
  · subst hi
    have p := irqStep_place h
    have q := irqStep_posts h
    unfold Armed at *
    cases hs : s.irq <;> simp only [hs] at p
    · have ha := ha (.inl hs)
      exact .inr fun _ => by rw [p.1, q.1]; exact ha
    · exact .inr (by simp [p.2])
    · refine .inr ?_
      rw [p.2]
      split <;> simp
    · exact .inl p
    · have ha := ha (.inr hs)
      exact .inr fun _ => by rw [p.1, q.1]; exact ha
  · by_cases hd : m = .drain
    · subst hd
      refine .inr fun z => ?_
      rw [(drainStep_core h).2.2.1] at z
      rcases ha z with ⟨h1, h2⟩ | ⟨pre, h1⟩
      · simp only [envMove, drainStep, h1, Except.ok.injEq] at h
        exact .inl (h ▸ ⟨h1, h2⟩)
      · cases pre with
        | nil =>
          obtain ⟨k1, _, _, _, _, k2⟩ := drainStep_pattern h1 h
          rcases k2 with ⟨k2, _⟩ | ⟨_, _, k3, _⟩
          · simp [Config.offRaw, Config.offCmd] at k2
          · exact .inl ⟨k1, k3 rfl rfl⟩
        | cons p pre => exact .inr ⟨pre, by rw [drainStep_posted h, h1]; rfl⟩
    · obtain ⟨h1, h2, h3⟩ := envMove_place hm hi hd hb h
      exact .inr (by unfold Armed at *; rw [h1, h2, h3]; exact ha)

/-- The next turn on the list, taken, leaves it shorter: the handler is entered as soon as the enable has drained. -/
theorem turnsLeft_next {m : Move} {ms : List Move} {s t : State} (ha : Armed s) (hc : IflgStands s.core)
    (hh : s.handlerAttached = true) (hn : turnsLeft 0 s = m :: ms) (h : envMove m s = .ok t) :
    t.controller.completion = true ∨ (turnsLeft 0 t).Sublist ms := by
  cases hp : s.posted with
  | cons p ps =>
    simp only [turnsLeft, hp, List.length_cons, Nat.add_zero, List.replicate_succ, List.cons_append, List.cons.injEq] at hn
    obtain ⟨rfl, rfl⟩ := hn
    refine .inr ?_
    simp only [turnsLeft, (drainStep_core h).2.2.1, drainStep_posted h, hp]
    exact List.Sublist.refl _
  | nil =>
    simp only [turnsLeft, hp, List.length_nil, Nat.add_zero, List.replicate_zero, List.nil_append] at hn
    have hm : m = .irq := by
      cases hs : s.irq <;> simp [hs, irqTurns] at hn <;> exact hn.1.symm
    subst hm
    have p := irqStep_place h
    cases hs : s.irq <;> simp only [hs, irqTurns, List.cons.injEq, true_and] at p hn <;> subst hn
    · have hie : s.ie = true := by
        rcases ha (.inl hs) with h1 | ⟨pre, h1⟩
        · exact h1.2
        · simp [hp] at h1
      refine .inr ?_
      simp [turnsLeft, p.1, p.2, hp, State.irqMayEnter, State.lineAsserted, hie, hc.1, hh, hs, irqTurns]
    · refine .inr ?_
      simp [turnsLeft, p.1, p.2, hp, irqTurns]
    · refine .inr ?_
      simp [turnsLeft, p.1, p.2, hp, irqTurns]
    · exact .inl p
    · refine .inr ?_
      simp [turnsLeft, p.1, p.2, hp, irqTurns]

/-- The handler has signalled, or the turns still listed lead it to its signal (R188). -/
def Lead (ms : List Move) (s : State) : Prop :=
  s.controller.completion = true ∨
    (s.inFlight = 0 ∧ IflgStands s.core) ∧ s.handlerAttached = true ∧ Armed s ∧ (turnsLeft 0 s).Sublist ms

/-- Whoever's turn is next, what is left of the list still leads to the signal (R188). -/
theorem lead_env {m : Move} {ms : List Move} {s t : State} (hm : m.outside = false) (hf : s.flowing = true)
    (h : Lead (m :: ms) s) (he : envMove m (s.withMoves ms) = .ok t) : Lead ms t := by
  have hf' : (s.withMoves ms).flowing = true := by simpa using hf
  rcases h with hc | ⟨h1, h2, h3, h4⟩
  · exact .inl ((envMove_sets hm hf' he).1 hc)
  · have hb : (s.withMoves ms).port.busy = false := (inFlight_zero.1 h1.1).1
    have k1 := (idle_core (A := anyTurn) coreKeeps_iflgStands).env hm rfl hf' ⟨by simpa using h1.1, h1.2⟩ he
    rcases Armed.env (s := s.withMoves ms) h3 hm hb he with hc | k3
    · exact .inl hc
    have k2 : t.handlerAttached = true := (envMove_sets hm hf' he).2 h2
    rcases List.sublist_cons_iff.1 h4 with h4 | ⟨r, hr, h4⟩
    · rcases turnsLeft_mono 0 hm hb he with hc | k4
      · exact .inl hc
      · exact .inr ⟨k1, k2, k3, k4.trans h4⟩
    · rcases turnsLeft_next (s := s.withMoves ms) h3 h1.2 h2 hr he with hc | k4
      · exact .inl hc
      · exact .inr ⟨k1, k2, k3, k4.trans h4⟩

/-- A turn of the ENGINE at which it holds leaves what leads to the signal. -/
theorem Lead.skip {ms : List Move} {s : State} (h : Lead (.engine :: ms) s) : Lead ms (s.withMoves ms) := by
  rcases h with hc | ⟨h1, h2, h3, h4⟩
  · exact .inl hc
  · refine .inr ⟨⟨by simpa using h1.1, h1.2⟩, h2, h3, ?_⟩
    rcases List.sublist_cons_iff.1 h4 with h4 | ⟨r, hr, _⟩
    · exact h4
    · exfalso
      have hr : turnsLeft 0 s = .engine :: r := hr
      unfold turnsLeft at hr
      cases hp : s.posted.length + 0 with
      | zero => rw [hp] at hr; cases hs : s.irq <;> simp [hs, irqTurns] at hr
      | succ n => rw [hp] at hr; simp [List.replicate_succ] at hr

/-- Where the list has ended the handler has signalled. -/
theorem Lead.nil {s : State} (h : Lead [] s) : s.controller.completion = true := by
  rcases h with hc | ⟨_, _, _, h4⟩
  · exact hc
  · have := List.sublist_nil.1 h4
    simp only [turnsLeft, List.append_eq_nil_iff] at this
    cases hs : s.irq <;> simp [hs, irqTurns] at this

/-- Waiting for the ENGINE's turn keeps what leads to the signal. -/
theorem holdUntil_lead (en : State → Bool) :
    ∀ (ms : List Move) (s t : State), ms.all (fun m => !m.outside) = true → s.flowing = true → Lead ms s →
      holdUntil en ms s = .ok t → Lead t.moves t := by
  intro ms
  induction ms with
  | nil =>
    intro s t _ _ h ht
    simp only [holdUntil, Except.ok.injEq] at ht
    exact ht ▸ .inl h.nil
  | cons m ms ih =>
    intro s t hms hf h ht
    have hms' : m.outside = false ∧ ms.all (fun m => !m.outside) = true := by simpa using hms
    by_cases hme : m = .engine
    · subst hme
      simp only [holdUntil] at ht
      split at ht
      · simp only [Except.ok.injEq] at ht
        exact ht ▸ h.skip
      · exact ih _ _ hms'.2 (by simpa using hf) h.skip ht
    · obtain ⟨u, hu, e⟩ := envMove_spec (s := s.withMoves ms) hms'.1 (by simpa using hf)
      have ht' : (envMove m (s.withMoves ms)).bind (holdUntil en ms) = .ok t := by
        rw [← ht]; cases m <;> first | rfl | exact absurd rfl hme
      simp only [hu, Except.bind] at ht'
      exact ih u t hms'.2 e.flowing (lead_env hms'.1 hf h hu) ht'

/-- A `Block()` whose turns lead to the signal ends by the wake (R184, R188). -/
theorem blockTurns_lead :
    ∀ (ms : List Move) (s : State), ms.all (fun m => !m.outside) = true → Move.timeout ∉ ms → s.flowing = true → Lead ms s →
      ∃ t, blockTurns ms s = .ok (true, t) := by
  intro ms
  induction ms with
  | nil => exact fun s _ _ _ h => ⟨(s.withMoves []).consume, by simp only [blockTurns, h.nil, if_true]⟩
  | cons m ms ih =>
    intro s hms hnt hf h
    have hms' : m.outside = false ∧ ms.all (fun m => !m.outside) = true := by simpa using hms
    have hnt' : m ≠ .timeout ∧ .timeout ∉ ms := ⟨fun z => hnt (z ▸ List.mem_cons_self), fun z => hnt (List.mem_cons_of_mem _ z)⟩
    by_cases hme : m = .engine
    · subst hme
      simp only [blockTurns]
      split
      · exact ⟨_, rfl⟩
      · exact ih _ hms'.2 hnt'.2 (by simpa using hf) h.skip
    · obtain ⟨u, hu, e⟩ := envMove_spec (s := s.withMoves ms) hms'.1 (by simpa using hf)
      obtain ⟨t, ht⟩ := ih u hms'.2 hnt'.2 e.flowing (lead_env hms'.1 hf h hu)
      refine ⟨t, ?_⟩
      have : (envMove m (s.withMoves ms)).bind (blockTurns ms) = .ok (true, t) := by simp [hu, Except.bind, ht]
      rw [← this]
      cases m <;> first | rfl | exact absurd rfl hme | exact absurd rfl hnt'.1

/-- The turns to the enable's posting (R180): the turns left for the signal, with that write still to come. -/
theorem holdUntil_posting :
    ∀ (ms : List Move) (s : State), ms.all (fun m => !m.outside) = true → s.flowing = true →
      (s.controller.completion = true ∨ (s.inFlight = 0 ∧ IflgStands s.core) ∧ s.handlerAttached = true ∧
        (.engine :: turnsLeft 1 s).Sublist ms) →
      ∃ t, holdUntil (fun _ => true) ms s = .ok t ∧ t.flowing = true ∧ t.moves.all (fun m => !m.outside) = true ∧
        (t.controller.completion = true ∨ (t.inFlight = 0 ∧ IflgStands t.core) ∧ t.handlerAttached = true ∧
          (turnsLeft 1 t).Sublist t.moves) := by
  intro ms
  induction ms with
  | nil =>
    intro s _ hf h
    refine ⟨_, rfl, by simpa using hf, by simp, ?_⟩
    rcases h with h | ⟨_, _, h⟩
    · exact .inl h
    · simp at h
  | cons m ms ih =>
    intro s hms hf h
    have hms' : m.outside = false ∧ ms.all (fun m => !m.outside) = true := by simpa using hms
    have hf' : (s.withMoves ms).flowing = true := by simpa using hf
    by_cases hme : m = .engine
    · subst hme
      refine ⟨_, rfl, hf', hms'.2, ?_⟩
      rcases h with h | ⟨h1, h2, h⟩
      · exact .inl h
      · exact .inr ⟨⟨by simpa using h1.1, h1.2⟩, h2, List.Sublist.of_cons_cons h⟩
    · obtain ⟨u, hu, e⟩ := envMove_spec (s := s.withMoves ms) hms'.1 hf'
      obtain ⟨t, ht, k⟩ := ih u hms'.2 e.flowing (by
        rcases h with h | ⟨h1, h2, h⟩
        · exact .inl ((envMove_sets hms'.1 hf' hu).1 h)
        · have hb : (s.withMoves ms).port.busy = false := (inFlight_zero.1 h1.1).1
          have k1 := (idle_core (A := anyTurn) coreKeeps_iflgStands).env hms'.1 rfl hf' ⟨by simpa using h1.1, h1.2⟩ hu
          rcases turnsLeft_mono 1 hms'.1 hb hu with hc | k4
          · exact .inl hc
          · refine .inr ⟨k1, (envMove_sets hms'.1 hf' hu).2 h2, ?_⟩
            rcases List.sublist_cons_iff.1 h with h | ⟨r, hr, _⟩
            · exact (List.Sublist.cons_cons _ k4).trans h
            · simp only [List.cons.injEq] at hr
              exact absurd hr.1.symm hme)
      refine ⟨t, ?_, k⟩
      have : (envMove m (s.withMoves ms)).bind (holdUntil (fun _ => true) ms) = .ok t := by simp [hu, Except.bind, ht]
      rw [← this]
      cases m <;> first | rfl | exact absurd rfl hme

/-- A window read's wait ends with nothing posted or at the end of the list (R73). -/
theorem holdUntil_drained :
    ∀ (ms : List Move) (s t : State), holdUntil (fun t => t.posted.isEmpty) ms s = .ok t → t.posted = [] ∨ t.moves = [] := by
  intro ms
  induction ms with
  | nil =>
    intro s t h
    simp only [holdUntil, Except.ok.injEq] at h
    exact .inr (h ▸ rfl)
  | cons m ms ih =>
    intro s t h
    by_cases hme : m = .engine
    · subst hme
      simp only [holdUntil] at h
      split at h
      · rename_i hp
        simp only [Except.ok.injEq] at h
        exact .inl (h ▸ by simpa using hp)
      · exact ih _ _ h
    · have h' : (envMove m (s.withMoves ms)).bind (holdUntil (fun t => t.posted.isEmpty) ms) = .ok t := by
        rw [← h]; cases m <;> first | rfl | exact absurd rfl hme
      cases he : envMove m (s.withMoves ms) with
      | error e => simp [he, Except.bind] at h'
      | ok u => simp only [he, Except.bind] at h'; exact ih _ _ h'

/-- Draining what is still posted keeps what leads to the signal. -/
theorem drainAll_lead {s t : State} (hf : s.flowing = true) (he : s.posted = [] ∨ s.moves = []) (h : Lead s.moves s)
    (ht : drainAll s = .ok t) : Lead t.moves t := by
  rcases he with he | he
  · simp only [drainAll, he, List.length_nil, drainSteps, Except.ok.injEq] at ht
    exact ht ▸ h
  · rw [he] at h
    exact .inl (drainSteps_survives (A := anyTurn) completion_survives rfl _ _ _ hf h.nil ht)

/-- `enable()` from a quiet state whose turns lead to the signal (R180, R188). -/
theorem enable_lead {s : State} (hq : s.quiet = true) (hc : IflgStands s.core) (hh : s.handlerAttached = true)
    (hm : s.signalTurns.Sublist s.moves) : ∃ t, enable s = .ok ((), t) ∧ Lead t.moves t := by
  obtain ⟨hcm, h0⟩ := quiet_iff.1 hq
  obtain ⟨hmv, hf⟩ := calm_iff.1 hcm
  obtain ⟨t, ht, hft, hmt, h⟩ := holdUntil_posting s.moves s hmv hf
    (.inr ⟨⟨h0, hc⟩, hh, (turnsLeft_signalTurns s).trans hm⟩)
  let u : State := { t with posted := t.posted ++ [⟨Config.offRaw, Config.rawIeSet, false⟩] }
  have hu : winWrite Config.offRaw Config.rawIeSet false s = .ok ((), u) := by
    unfold winWrite
    rw [M.bind_ok (m := turn) (M.effect_ok ht)]
    exact M.effect_ok (by simp [post, legalOffset, u])
  have hui : u.inFlight = t.inFlight := by
    have : (Posted.mk Config.offRaw Config.rawIeSet false).isCmd = false := by decide
    simp [u, State.inFlight, List.countP_append, this]
  have hfl := flowing_iff.1 hft
  have huf : u.flowing = true := by
    rw [flowing_iff]
    refine ⟨?_, hfl.2.1, by rw [hui]; exact hfl.2.2⟩
    have : (Posted.mk Config.offRaw Config.rawIeSet false).legal = true := by decide
    simpa [u, this] using hfl.1
  have hlu : Lead u.moves u := by
    rcases h with h | ⟨h1, h2, h3⟩
    · exact .inl h
    · exact .inr ⟨⟨hui.trans h1.1, h1.2⟩, h2, fun _ => .inr ⟨t.posted, rfl⟩, by simpa [turnsLeft, u] using h3⟩
  obtain ⟨v, hv, _, hfv, _⟩ := holdUntil_spec (survives_const (A := anyTurn) True) (fun t => t.posted.isEmpty) u.moves u
    hmt (all_anyTurn _) huf trivial
  obtain ⟨w, hw, _, _⟩ := drainAll_spec hfv
  have hlw := drainAll_lead hfv (holdUntil_drained _ _ _ hv) (holdUntil_lead _ _ _ _ hmt huf hlu hv) hw
  refine ⟨w.draw.2.record (.read Config.offRaw w.draw.1), ?_, ?_⟩
  · unfold enable writeRawAs
    rw [M.bind_ok hu]
    unfold readback
    rw [M.bind_ok (m := turnDrained) (M.effect_ok (t := w) (by simp [hv, Except.bind, hw])),
      M.bind_ok (m := (readWindow Config.offRaw : M Word)) (a := w.draw.1)
        (t := w.draw.2.record (.read Config.offRaw w.draw.1)) (by simp [readWindow, Config.offRaw, Config.offCmd])]
    rfl
  · rcases hlw with h | ⟨h1, h2, h3, h4⟩
    · exact .inl (by simpa using h)
    · exact .inr ⟨⟨by rw [← h1.1]; exact inFlight_congr (by simp) (by simp), by simpa using h1.2⟩, by simpa using h2,
        by simpa [Armed] using h3, by simpa [turnsLeft] using h4⟩

end Sys2Proof.Machine
end

