-- ==== Sys2Proof/Tests/Slice0.lean ====
section
/-! SUPPORT. The model's own tests. Expected results are the spec's vectors (95_test_vectors.md) or are worked out by hand from
the rule a comment names; where a value is a draw, the test lists the draw. The last section shows, for every obligation with
hypotheses, a state and operands that meet them. -/

namespace Sys2Proof.Tests

open Sys2Proof Sys2Proof.Machine

-- One theorem at a time: many kernel evaluations at once take a thread each.
set_option Elab.async false

/-! ### Well-formedness: one ill-formed term for each check (R111, R141, R213, R320) -/

theorem test_wf_ctl_bit7 : Instr.wellFormed (.wrregCtl 0xC0#8) = false := by decide
theorem test_wf_ctl_iflg : Instr.wellFormed (.wrregCtl 0x48#8) = false := by decide
theorem test_wf_ctl_low_bits : Instr.wellFormed (.writeRegister .ctl 0x41#8) = false := by decide
theorem test_wf_clkctl_bit7 : Instr.wellFormed (.wrregClkctl 0x98#8) = false := by decide
theorem test_wf_clkctl_mdiv : Instr.wellFormed (.writeRegister .clkctl 0x0F#8) = false := by decide
theorem test_wf_clkctl_through_stat : Instr.wellFormed (.writeRegister .stat 0x08#8) = false := by decide
theorem test_wf_wrraw : Instr.wellFormed (.wrraw 0x80#64) = false := by decide
theorem test_wf_write_raw : Instr.wellFormed (.writeRaw 0x240#64) = false := by decide
theorem test_wf_read_thp : Instr.wellFormed (.readRegister .thp) = false := by decide
theorem test_wf_read_rst : Instr.wellFormed (.readRegister .rst) = false := by decide
theorem test_wf_clock_search : Instr.wellFormed (.clockSearch 0 50000000) = false := by decide
theorem test_wf_open : Instr.wellFormed (.openController 0 0 0 50000000) = false := by decide
/-- The four values the block writes to CTL are well-formed (R39, R105). -/
theorem test_wf_ctl_values :
    [0x40#8, 0x60#8, 0x50#8, 0x44#8].all (fun b => Instr.wellFormed (.wrregCtl b)) = true := by decide

/-! ### Decoding, every constructor (R104, R110, R112; V-ENC-1 to V-ENC-6, V-ENC-10 to V-ENC-12) -/

theorem test_decode_wrreg_thp : decodeCmd 0x8800000000000005#64 = .ok (.wrregThp 0x05#8) := by decide
theorem test_decode_wrreg_data : decodeCmd 0x8C000001000000A0#64 = .ok (.wrregData 0xA0#8) := by decide
theorem test_decode_wrreg_ctl : decodeCmd 0x8C00000200000044#64 = .ok (.wrregCtl 0x44#8) := by decide
theorem test_decode_wrreg_clkctl : decodeCmd 0x8C00000300000018#64 = .ok (.wrregClkctl 0x18#8) := by decide
theorem test_decode_wrreg_rst : decodeCmd 0x8C00000700000000#64 = .ok (.wrregRst 0x00#8) := by decide
theorem test_decode_rdreg_data : decodeCmd 0x8D00000100000000#64 = .ok .rdregData := by decide
theorem test_decode_rdreg_ctl : decodeCmd 0x8D00000200000000#64 = .ok .rdregCtl := by decide
theorem test_decode_rdreg_stat : decodeCmd 0x8D00000300000000#64 = .ok .rdregStat := by decide
theorem test_decode_wrraw : decode (.raw 0x200#64) = .ok (.wrraw 0x200#64) := by decide
theorem test_decode_not_valid : decodeCmd 0x0C00000200000040#64 = .error .notValid := by decide
theorem test_decode_read_of_thp : decodeCmd 0x8900000000000000#64 = .error .noRow := by decide
/-- A read with a data byte, a write with `D[31:8]` non-zero, a reserved field set: no row (R101, R111). -/
theorem test_decode_stray_bits :
    [0x8D00000300000001#64, 0x8C00000200000140#64, 0xCC00000200000040#64].all
      (fun w => decodeCmd w == .error .noRow) = true := by decide

theorem test_decode_port_calls :
    decodeCall ⟨"write_register", [.sel .ctl, .byte 0x60#8]⟩ = .ok (.writeRegister .ctl 0x60#8) ∧
    decodeCall ⟨"read_register", [.sel .stat]⟩ = .ok (.readRegister .stat) ∧
    decodeCall ⟨"write_raw", [.word 0x40#64]⟩ = .ok (.writeRaw 0x40#64) ∧
    decodeCall ⟨"DELAY", [.nat 5]⟩ = .ok (.delay 5) := by decide
theorem test_decode_completion_calls :
    decodeCall ⟨"enable", []⟩ = .ok .enable ∧ decodeCall ⟨"disable", []⟩ = .ok .disable ∧
    decodeCall ⟨"ready", []⟩ = .ok .ready ∧ decodeCall ⟨"wait", []⟩ = .ok .wait ∧
    decodeCall ⟨"irq_handler", []⟩ = .ok .irqHandler := by decide
theorem test_decode_clock_and_init_calls :
    decodeCall ⟨"clock_search", [.nat 100000, .nat 50000000]⟩ = .ok (.clockSearch 100000 50000000) ∧
    decodeCall ⟨"set_clock", []⟩ = .ok .setClock ∧ decodeCall ⟨"init", []⟩ = .ok .init ∧
    decodeCall ⟨"unblock", []⟩ = .ok .unblock := by decide
theorem test_decode_transfer_calls :
    decodeCall ⟨"start", []⟩ = .ok .start ∧ decodeCall ⟨"stop", []⟩ = .ok .stop ∧
    decodeCall ⟨"write_message", [.addr 0x50#7, .bytes [0xAA#8]]⟩ = .ok (.writeMessage 0x50#7 [0xAA#8]) ∧
    decodeCall ⟨"read_message", [.addr 0x50#7, .bytes [0#8]]⟩ = .ok (.readMessage 0x50#7 [0#8]) ∧
    decodeCall ⟨"execute_batch__engine", [.msgs []]⟩ = .ok (.executeBatchEngine []) := by decide
theorem test_decode_surface_calls :
    decodeCall ⟨"open", [.nat 100000, .nat 1, .nat 2, .nat 50000000]⟩ = .ok (.openController 100000 1 2 50000000) ∧
    decodeCall ⟨"execute_batch", [.msgs []]⟩ = .ok (.executeBatch []) ∧ decodeCall ⟨"close", []⟩ = .ok .close := by
  decide
theorem test_decode_bad_calls :
    decodeCall ⟨"wait", [.nat 1]⟩ = .error .badOperands ∧ decodeCall ⟨"halt", []⟩ = .error .unknownName := by decide

/-- V-ENC-7, V-ENC-8, V-ENC-9: address bytes and clock-control bytes. -/
theorem test_byte_formats :
    addrByte 0x00#7 .write = 0x00#8 ∧ addrByte 0x00#7 .read = 0x01#8 ∧ addrByte 0x7F#7 .write = 0xFE#8 ∧
    addrByte 0x7F#7 .read = 0xFF#8 ∧ clkByte 15 7 = 0x7F#8 ∧ clkByte 2 0 = 0x10#8 ∧ clkByte 13 3 = 0x6B#8 := by decide

/-- A table word of the WRREG STAT selector is the CLKCTL write (V-ENC-10), a word with bit 63 clear is a pattern. -/
theorem test_table_words :
    decodeTableWord 64 0x8C00000300000018 = some (.wrregClkctl 0x18#8) ∧
    decodeTableWord 64 0x300 = some (.wrraw 0x300#64) ∧ decodeTableWord 64 0x8900000000000000 = none := by decide

/-! ### States, turns and draws to test on -/

/-- A test on the next state of an outcome. -/
def gives (o : Host.Outcome State Fault Refusal) (p : State → Bool) : Bool :=
  match o with
  | .next t => p t
  | .fault _ => false
  | .refused _ => false

/-- The power-on state with turns and draws to come and a core. -/
def at' (ms : List Move) (ds : List Word) (core : TwsiCore := State.reset.core) : State :=
  { State.reset with moves := ms, draws := ds, core := core }

/-- A core with STAT, IFLG and a pending action. -/
def coreOf (stat : Byte) (iflg : Bool) (a : CoreAction) : TwsiCore :=
  { State.reset.core with stat := stat, iflg := iflg, pending := a }

/-- The turns of one indirect access: posted, drained, performed, one poll. -/
def access : List Move := [.engine, .drain, .port, .engine]

/-- The turns of one `write_raw`: posted, drained, read back. -/
def pattern : List Move := [.engine, .drain, .engine]

/-- The turns of one handler run. -/
def handler : List Move := [.irq, .irq, .drain, .irq, .irq, .irq]

/-- The turns of `WAIT` of 95_test_vectors.md. -/
def waitOk : List Move := pattern ++ .coreComplete :: handler ++ .engine :: access ++ pattern

/-- The turns of `WAIT✗` of 95_test_vectors.md. -/
def waitBad : List Move := pattern ++ .timeout :: pattern

/-- The draws of `WAIT` where a Start completes with status `st`. -/
def startDraws (st : Word) : List Word := [0, st, 0, 0, 0, 0]

/-- The draws of `WAIT` where a Byte action completes with status `st` and data `dt`. -/
def byteDraws (st dt : Word) : List Word := [0, st, dt, 0, 0, 0, 0]

/-- The turn of an assignment (R11). -/
def assigned : List Move := [.engine]

/-- The turns and draws of a successful `start()` whose status is `st` (V-START-1). -/
def startMoves : List Move := access ++ waitOk ++ access ++ assigned
def startAll (st : Word) : List Word := 0 :: startDraws st ++ [0]

/-- The turns of an address or payload byte sent: DATA, CTL, wait. -/
def sendMoves : List Move := access ++ access ++ waitOk
/-- The turns of a byte received: the status, the phase, CTL, wait, DATA, the buffer. -/
def receiveMoves : List Move := access ++ assigned ++ access ++ waitOk ++ access ++ assigned
def sendAll (st : Word) : List Word := [0, 0] ++ byteDraws st 0

/-- The bytes written to the register at `sel`, oldest first. -/
def bytesTo (sel : Selector) (t : State) : List Byte :=
  (cmdWrites t.history).filterMap fun w =>
    if w &&& 0xFFFFFFFFFFFFFF00#64 = Config.cmdV ||| selectorWord sel then some (lowByte w) else none

/-- An open controller. -/
def opened (s : State) : State := { s with controller := { s.controller with isOpen := true } }

/-! ### Register port -/

/-- V-PORT-1: the PORT completes after the first poll. -/
theorem test_write_register_ctl :
    gives (exec (.writeRegister .ctl 0x60#8) (at' [.engine, .drain, .engine, .port, .engine] [0, 0]))
      (fun t => t.history == [.write 0 0x8C00000200000060#64, .read 0 0x8000000000000000#64, .read 0 0#64]
        && t.core == { coreOf 0 false .start with ctl := 0x60#8 } && t.result == some .unit) = true := by decide +kernel
/-- V-PORT-2: polls see 1, 1, 0. -/
theorem test_read_register_stat :
    gives (exec (.readRegister .stat)
        (at' [.engine, .drain, .engine, .engine, .port, .engine] [0, 0, 0] (coreOf 0xF8#8 false .none)))
      (fun t => t.result == some (.byte 0xF8#8) && t.history.length == 4) = true := by decide +kernel
/-- V-PORT-3: the readback waits for both writes, and the command before has been issued. -/
theorem test_write_raw_drains_all :
    gives (exec (.writeRaw 0x40#64) { at' [] [0] with posted := [⟨0, 0x8D00000300000000#64, false⟩] })
      (fun t => t.ie && t.port.busy && t.posted == [] && t.raw == 0x40#64) = true := by decide +kernel
/-- V-PORT-4. -/
theorem test_port_overrun :
    step { at' [.drain] [] with
      posted := [⟨0, 0x8D00000300000000#64, false⟩], port := ⟨true, 0x8D00000300000000#64, 0, false⟩ } =
      .fault .portOverrun := rfl
/-- V-PORT-5. -/
theorem test_illegal_offset : step (at' [.hostWrite 0x08 8 1#64] []) = .refused (.illegalOffset 0x08) := rfl
/-- R75: an access that is not a whole word. -/
theorem test_illegal_width : step (at' [.hostWrite 0x00 4 1#64] []) = .refused (.illegalWidth 4) ∧
    step (at' [.hostRead 0x10 1] []) = .refused (.illegalWidth 1) := ⟨rfl, rfl⟩
/-- V-PORT-6. -/
theorem test_byte_completes :
    gives (step (at' [.coreComplete] [0x28, 0x5A] (coreOf 0 false .byte)))
      (fun t => t.core == { coreOf 0x28#8 true .none with data := 0x5A#8 }) = true := by decide +kernel
/-- V-PORT-7: IFLG after a Stop is the draw, either way. -/
theorem test_stop_completes_with_any_iflg :
    gives (step (at' [.coreComplete] [0xF8, 1] (coreOf 0 false .stop))) (fun t => t.core == coreOf 0xF8#8 true .none)
      = true ∧
    gives (step (at' [.coreComplete] [0xF8, 0] (coreOf 0 false .stop))) (fun t => t.core == coreOf 0xF8#8 false .none)
      = true := by decide +kernel
/-- V-PORT-8: reads change neither IFLG nor the pending action. -/
theorem test_rdreg_no_side_effect :
    gives (exec .rdregCtl (at' [] [0] (coreOf 0 true .byte))) (fun t => t.core == coreOf 0 true .byte
      && t.port.result == 0x08#8) = true ∧
    gives (exec .rdregStat (at' [] [] (coreOf 0x28#8 true .byte))) (fun t => t.core == coreOf 0x28#8 true .byte
      && t.port.result == 0x28#8) = true := by decide +kernel
/-- V-PORT-9. -/
theorem test_ctl_write_replaces :
    gives (exec (.wrregCtl 0x40#8) (at' [] [] (coreOf 0 true .start)))
      (fun t => t.core == { coreOf 0 false .byte with ctl := 0x40#8 }) = true := by decide +kernel
/-- V-PORT-10. -/
theorem test_rst_write :
    gives (exec (.wrregRst 0#8) (at' [] [1, 2, 3] (coreOf 0x55#8 true .byte)))
      (fun t => t.core == ⟨0, 1, 0x55, 3, 2, false, .reset⟩) = true := by decide +kernel
/-- V-PORT-11: IE is the draw; the core is as before. -/
theorem test_recovery_pattern :
    gives (exec (.wrraw 0x200#64) { at' [] [0] (coreOf 0x28#8 false .byte) with ie := true })
      (fun t => t.ie == false && t.core == coreOf 0x28#8 false .byte) = true := by decide +kernel
/-- R143, R144, R146: which register takes the byte; STAT stays. -/
theorem test_plain_writes :
    gives (exec (.wrregThp 5#8) (at' [] [])) (fun t => t.core.thp == 5#8 && t.core.data == 0#8) = true ∧
    gives (exec (.wrregData 0xA0#8) (at' [] [])) (fun t => t.core.data == 0xA0#8 && t.core.pending == .none) = true ∧
    gives (exec (.wrregClkctl 0x18#8) (at' [] [] (coreOf 0xF8#8 false .none)))
      (fun t => t.core.clkctl == 0x18#8 && t.core.stat == 0xF8#8) = true := by decide +kernel
theorem test_rdreg_data :
    gives (exec .rdregData { at' [] [] with core := { State.reset.core with data := 0x7E#8 } })
      (fun t => t.port.result == 0x7E#8) = true := by decide +kernel
/-- R77: a delay drains nothing. -/
theorem test_delay_drains_nothing :
    gives (exec (.delay 5) { at' [] [] with posted := [⟨0x10, 0x40#64, false⟩] })
      (fun t => t.posted.length == 1 && t.history == [.delay 5]) = true := by decide +kernel

/-! ### Completion -/

theorem test_enable_disable :
    gives (exec .enable (at' [] [0])) (fun t => t.ie && notReads t.history == [.write 0x10 0x40#64]) = true ∧
    gives (exec .disable { at' [] [0] with ie := true })
      (fun t => !t.ie && notReads t.history == [.write 0x10 0x00#64]) = true := by decide +kernel
/-- V-CMP-8: the draws are CTL reads of `0xF7` and `0x08` but for IFLG. -/
theorem test_ready :
    gives (exec .ready (at' [] [0xF7, 0] (coreOf 0 false .none))) (fun t => t.result == some (.bool false)) = true ∧
    gives (exec .ready (at' [] [0x00, 0] (coreOf 0 true .none))) (fun t => t.result == some (.bool true)) = true := by
  decide +kernel
/-- V-CMP-1. -/
theorem test_wait_ok :
    gives (exec .wait (at' waitOk (byteDraws 0x18 0) (coreOf 0 false .byte)))
      (fun t => t.result == some (.status none) && !t.ie && !t.controller.completion
        && (windowWrites t.history).filter (fun e => e.1 == 0x10) == [(0x10, 0x40#64), (0x10, 0x00#64), (0x10, 0x00#64)])
      = true := by decide +kernel
/-- V-CMP-2: no `RDREG CTL` is issued. -/
theorem test_wait_times_out :
    gives (exec .wait (at' waitBad [0, 0] (coreOf 0 false .start)))
      (fun t => t.result == some (.status (some .timeout)) && !t.ie && cmdWrites t.history == []) = true := by decide +kernel
/-- V-CMP-3: a stale completion; two `RDREG CTL`. -/
theorem test_wait_stale_wake :
    gives (exec .wait { at' (pattern ++ .engine :: access ++ .coreComplete :: handler ++ .engine :: access ++ pattern)
        [0, 0, 0, 0x18, 0, 0, 0, 0, 0] (coreOf 0 false .byte) with
        controller := { State.reset.controller with completion := true } })
      (fun t => t.result == some (.status none) && (cmdWrites t.history).length == 2) = true := by decide +kernel
/-- V-CMP-5: the wake and the timeout are both enabled and the timeout is taken. -/
theorem test_wait_timeout_beats_wake :
    gives (exec .wait { at' waitBad [0, 0] (coreOf 0 true .none) with
        controller := { State.reset.controller with completion := true } })
      (fun t => t.result == some (.status (some .timeout)) && !t.ie && t.controller.completion) = true := by decide +kernel
/-- V-CMP-6. -/
theorem test_irq_handler :
    gives (exec .irqHandler { at' [] [0] (coreOf 0 true .none) with ie := true })
      (fun t => !t.ie && t.controller.completion && !t.lineAsserted
        && t.history == [.write 0x10 0#64, .read 0x10 0#64]) = true := by decide +kernel
/-- V-CMP-7. -/
theorem test_irq_masked :
    exec .irqHandler (at' [] [] (coreOf 0 true .none)) = .next (at' [] [] (coreOf 0 true .none)) := rfl

/-! ### Clock (V-CLK) -/

theorem test_clock_search_100k_50M : clockSearch 100000 50000000 = ⟨5, 3, 0⟩ := by decide +kernel
theorem test_clock_search_1k_500M : clockSearch 1000 500000000 = ⟨222, 13, 3⟩ := by decide +kernel
theorem test_clock_search_100_50M : clockSearch 100 50000000 = ⟨194, 15, 3⟩ := by decide +kernel
theorem test_clock_search_default : clockSearch 400000 50000000 = ⟨24, 2, 0⟩ := by decide +kernel
theorem test_clock_search_no_clock : clockSearch 100000 0 = ⟨24, 2, 0⟩ := by decide +kernel
theorem test_exec_clock_search :
    gives (exec (.clockSearch 3000 800000000) (at' [] [])) (fun t => t.result == some (.clock ⟨237, 13, 2⟩)) = true := by
  decide +kernel
theorem test_set_clock :
    gives (exec .setClock { at' [] [0, 0] with
        controller := { State.reset.controller with targetFrequency := 100000, systemClockRate := 50000000 } })
      (fun t => cmdWrites t.history == [0x8800000000000005#64, 0x8C00000300000018#64]
        && t.controller.params == ⟨5, 3, 0⟩) = true := by decide +kernel

/-! ### Init and recovery -/

/-- V-INIT-2: the third status read is IDLE. The draws: two polls, the three registers the reset leaves open, three status
reads of which the last is drawn IDLE by a progress step. -/
theorem test_init_third_read :
    gives (exec .init (at' (access ++ access ++ (.engine :: access) ++ (.engine :: access) ++ (.engine :: .coreProgress :: access))
        [0, 0, 0, 0, 0, 0, 0, 0xF8, 0] (coreOf 0 false .none)))
      (fun t => t.result == some (.status none) && delaysOf t.history == [1, 1, 1]
        && cmdWrites t.history == [0x8C00000200000040#64, 0x8C00000700000000#64, 0x8D00000300000000#64,
          0x8D00000300000000#64, 0x8D00000300000000#64]) = true := by decide +kernel
/-- V-INIT-3: ten reads, none IDLE. -/
theorem test_init_gives_up :
    gives (exec .init (at' [] (List.replicate 15 0)))
      (fun t => t.result == some (.status (some .hardwareFault)) && (cmdWrites t.history).length == 12) = true := by decide +kernel
/-- V-INIT-5: a retry budget of 0 is refused. -/
theorem test_init_no_retries : initWith 0 State.reset = .error (.refused .zeroRetries) := rfl
/-- V-UNB-1: 21 RAW writes, 21 readbacks, 20 delays, no CMD access. -/
theorem test_unblock :
    gives (exec .unblock (at' [] (List.replicate 42 0)))
      (fun t => t.history.length == 62 && notReads t.history == eventsOf unblockActs && delaysOf t.history == List.replicate 20 5)
      = true := by decide +kernel
/-- V-UNB-1, written out: the patterns in order. -/
theorem test_unblock_patterns :
    gives (exec .unblock (at' [] (List.replicate 42 0)))
      (fun t => (windowWrites t.history).map Prod.snd == [0, 0x200, 0, 0x200, 0, 0x200, 0, 0x200, 0, 0x200, 0, 0x200,
        0, 0x200, 0, 0x200, 0, 0x200, 0x300, 0x100, 0]) = true := by decide +kernel

/-! ### START and STOP -/

/-- V-START-1 and V-START-3. -/
theorem test_start :
    gives (exec .start (at' startMoves (startAll 0x08)))
      (fun t => t.result == some (.status none) && t.phase == .startSent) = true ∧
    gives (exec .start (at' startMoves (startAll 0x18)))
      (fun t => t.result == some (.status (some (.protocol .start 0x18#8))) && t.phase == .error) = true := by decide +kernel
/-- V-START-6: the retry times out too, one recovery, no second status read after it. -/
theorem test_start_recovery_fails :
    gives (exec .start (at' (access ++ waitBad ++ access) (List.replicate 60 0) (coreOf 0xF8#8 false .none)))
      (fun t => t.result == some (.status (some .timeout)) && t.phase == .error
        && cmdWrites t.history == [0x8C00000200000060#64, 0x8D00000300000000#64, 0x8C00000200000060#64]
        && (delaysOf t.history).length == 20) = true := by decide +kernel
/-- V-STOP-1 and V-STOP-2. -/
theorem test_stop :
    gives (exec .stop (at' [] [0, 0] (coreOf 0xF8#8 false .none)))
      (fun t => t.result == some (.status none) && t.phase == .idle) = true ∧
    gives (exec .stop (at' [] [0, 0] (coreOf 0x28#8 false .none)))
      (fun t => t.result == some (.status (some (.protocol .idle 0x28#8))) && t.phase == .error) = true := by decide +kernel

/-! ### Messages -/

/-- V-WR-1. -/
theorem test_write_message :
    gives (exec (.writeMessage 0x50#7 [0xAA#8]) (at' (startMoves ++ sendMoves ++ access ++ assigned ++ sendMoves)
        (startAll 0x08 ++ sendAll 0x18 ++ [0] ++ sendAll 0x28)))
      (fun t => t.result == some (.status none) && bytesTo .data t == [0xA0#8, 0xAA#8] && t.phase == .addressAcked)
      = true := by decide +kernel
/-- V-WR-4. -/
theorem test_write_message_nak :
    gives (exec (.writeMessage 0x50#7 [1#8, 2#8]) (at' (startMoves ++ sendMoves ++ access)
        (startAll 0x08 ++ sendAll 0x20 ++ [0])))
      (fun t => t.result == some (.status (some (.protocol .tx 0x20#8))) && bytesTo .data t == [0xA0#8]
        && t.phase == .error) = true := by decide +kernel
/-- V-SRC-2: the source's read example. -/
theorem test_read_message :
    gives (exec (.readMessage 0x50#7 [9#8, 9#8, 9#8])
        (at' (assigned ++ startMoves ++ sendMoves ++ receiveMoves ++ receiveMoves ++ receiveMoves)
          (startAll 0x08 ++ sendAll 0x40 ++ ([0, 0] ++ byteDraws 0x50 0x11 ++ [0]) ++ ([0, 0] ++ byteDraws 0x50 0x22 ++ [0]) ++
            ([0, 0] ++ byteDraws 0x58 0x33 ++ [0]))))
      (fun t => t.result == some (.status none) && t.buffers == [[0x11#8, 0x22#8, 0x33#8]]
        && bytesTo .ctl t == [0x60#8, 0x40#8, 0x44#8, 0x44#8, 0x40#8]) = true := by decide +kernel
/-- V-RD-1. -/
theorem test_read_message_empty :
    gives (exec (.readMessage 0x50#7 []) (at' [] []))
      (fun t => t.result == some (.status (some .invalidArgument)) && t.history == [] && t.phase == .idle) = true := by
  decide +kernel

/-! ### Batch and call surface -/

/-- V-BAT-1 and V-BAT-2. -/
theorem test_empty_batch :
    gives (exec (.executeBatchEngine []) (at' [] [0, 0] (coreOf 0xF8#8 false .none)))
      (fun t => t.result == some (.batch 0 none) && cmdWrites t.history == [0x8C00000200000050#64, 0x8D00000300000000#64])
      = true ∧
    gives (exec (.executeBatchEngine []) (at' [] [0, 0] (coreOf 0x08#8 false .none)))
      (fun t => t.result == some (.batch 0 (some (.protocol .idle 0x08#8)))) = true := by decide +kernel
/-- V-BAT-4: the stop's error is not reported and message 2 is not attempted. -/
theorem test_batch_stops_at_first_error :
    gives (exec (.executeBatchEngine [⟨0x50#7, .write, [1#8]⟩, ⟨0x51#7, .write, [2#8]⟩])
        (at' (assigned ++ assigned ++ startMoves ++ sendMoves ++ access ++ assigned ++ assigned ++ access ++ assigned ++
            .coreComplete :: access)
          (startAll 0x08 ++ sendAll 0x20 ++ [0, 0, 0x28, 0, 0])))
      (fun t => t.result == some (.batch 0 (some (.protocol .tx 0x20#8))) && bytesTo .ctl t == [0x60#8, 0x40#8, 0x50#8]
        && bytesTo .data t == [0xA0#8] && t.phase == .error) = true := by decide +kernel
/-- V-CALL-1, V-CALL-3. -/
theorem test_refused_calls :
    exec (.openController 0 0 0 50000000) State.reset = .refused .zeroTarget ∧
    exec (.executeBatch []) State.reset = .refused .closedController := ⟨rfl, rfl⟩
/-- R218: a new frequency needs `close` and a new `open`. R213: the search refuses target 0. -/
theorem test_open_while_open :
    exec (.openController 400000 1 2 50000000) (opened State.reset) = .refused .controllerOpen ∧
    exec .setClock State.reset = .refused .zeroTarget := ⟨rfl, rfl⟩
/-- The example of R320. -/
theorem test_open :
    gives (exec (.openController 100000 1 2 50000000) (at' (assigned ++ access ++ access ++ [.engine, .coreComplete])
        [0, 0, 0, 0, 0, 0xF8, 0, 0, 0]))
      (fun t => t.result == some (.status none) && t.controller.params == ⟨5, 3, 0⟩ && t.controller.isOpen
        && cmdWrites t.history == [0x8C00000200000040#64, 0x8C00000700000000#64, 0x8D00000300000000#64,
          0x8800000000000005#64, 0x8C00000300000018#64]) = true := by decide +kernel
/-- V-CALL-2: no divider is written. -/
theorem test_open_fails :
    gives (exec (.openController 100000 1 2 50000000) (at' [] (List.replicate 15 0)))
      (fun t => t.result == some (.status (some .hardwareFault)) && !t.controller.isOpen
        && bytesTo .thp t == [] && bytesTo .clkctl t == []) = true := by decide +kernel
theorem test_execute_batch :
    gives (exec (.executeBatch []) (opened (at' [] [0, 0] (coreOf 0xF8#8 false .none))))
      (fun t => t.result == some (.batch 0 none) && t.controller.isOpen && !t.controller.inBatch) = true := by decide +kernel
/-- V-CALL-4. -/
theorem test_close :
    gives (exec .close (opened (at' [] [0])))
      (fun t => !t.controller.isOpen && notReads t.history == [.write 0x10 0#64] && cmdWrites t.history == []) = true := by
  decide +kernel
/-- R340: the four codes. -/
theorem test_error_codes :
    [OpErr.timeout, .protocol .tx 0, .hardwareFault, .invalidArgument].map OpErr.code = [1, 2, 3, 4] := by decide +kernel

/-! ### Placing a word, and a step -/

theorem test_fetch_command :
    gives (step (State.reset.withFetchWord 64 0x8C00000200000060))
      (fun t => t.core == { coreOf 0 false .start with ctl := 0x60#8 } && !t.port.busy) = true := by decide +kernel
theorem test_fetch_pattern :
    gives (step (State.reset.withFetchWord 64 0x40)) (fun t => t.ie && t.raw == 0x40#64) = true := by decide +kernel
/-- A call begins; the ENGINE stands at its first statement (R32). -/
theorem test_call_begins :
    gives (step (at' [.call ⟨"stop", []⟩] []))
      (fun t => t.thread == some ⟨.winWrite 0 0x8C00000200000050#64 false, [.writePoll, .stopWritten]⟩) = true := by decide +kernel
/-- R11, R270: an assignment is a step: the phase takes its value, and the ENGINE stands at the status read of `stop()`. -/
theorem test_assignment_step :
    gives (step { at' [.engine] [] with thread := some ⟨.assign (.phase .stopSent), [.stopRead]⟩ })
      (fun t => t.phase == .stopSent && t.history == []
        && t.thread == some ⟨.winWrite 0 0x8D00000300000000#64 false, [.readPoll, .stopTest]⟩) = true := by decide +kernel
/-- R213: a step of the search, `t <- base + inc` for (n, m) = (0, 3) of V-CLK-1: 5 is in range and `f` is next. -/
theorem test_search_step :
    searchStep 100000 50000000 (.t ⟨0, [1], 3, [2]⟩ 5 0 ⟨⟨24, 2, 0⟩, 1000000⟩) =
      .inl (.f ⟨0, [1], 3, [2]⟩ 5 0 5 ⟨⟨24, 2, 0⟩, 1000000⟩) ∧
    searchStep 100000 50000000 (.t ⟨0, [1], 3, [2]⟩ 4 0 ⟨⟨24, 2, 0⟩, 1000000⟩) =
      .inl (.t ⟨0, [1], 3, [2]⟩ 4 1 ⟨⟨24, 2, 0⟩, 1000000⟩) := by decide +kernel
/-- R385: a handler attached while the line is asserted runs. -/
theorem test_attach_then_handler :
    gives (step { at' [.irq] [] (coreOf 0 true .none) with ie := true }) (fun t => t.irq == .atWrite) = true ∧
    gives (step { at' [.irq] [] (coreOf 0 true .none) with ie := true, handlerAttached := false })
      (fun t => t.irq == .out) = true := by decide +kernel
/-- R324. -/
theorem test_instances :
    (match stepInstance 0 [at' [.hostWrite 0x10 8 0#64] [], State.reset] with
      | .next ts => ts[1]? == some State.reset && (ts[0]?.map fun t => t.posted.length) == some 1
      | .fault _ => false
      | .refused _ => false) = true := by decide +kernel

/-! ### A state and operands that meet each obligation's hypotheses

`sample` is a state most obligations' one hypothesis (`quiet`) holds in: turns of every agent to come, draws, a posted pattern,
an action pending, a stale completion. -/

/-- A state in which an operation may begin, with much still to come. -/
def sample : State :=
  { at' [.irq, .coreProgress, .engine, .drain, .timeout, .port, .coreComplete, .attach, .irq] [1, 2, 3] (coreOf 0x28#8 true .byte) with
    ie := true, posted := [⟨0x10, 0x200#64, true⟩], controller := { State.reset.controller with completion := true } }

/-- `sample` without turns of the CORE and the IRQ agent. -/
def alone : State := { sample with moves := [.engine, .drain, .timeout, .port, .attach] }

/-- A state with a next turn. -/
def next (m : Move) (s : State := sample) : State := { s with moves := m :: s.moves }

theorem wit_quiet : sample.quiet = true := by decide
theorem wit_quiet_alone : alone.quiet = true ∧ alone.noCore = true ∧ alone.noTurn .irq = true := by decide

theorem wit_EncodeOfDecodeIsIdentity : decode (.cmd 0x8D00000300000000#64) = .ok .rdregStat ∧
    decode (.raw 0x80#64) = .ok (.wrraw 0x80#64) ∧ decode (.call ⟨"wait", []⟩) = .ok .wait := by decide
theorem wit_RegisterByteFormats : (2 ≤ 15 ∧ 15 ≤ 15 ∧ 7 ≤ 7) ∧ 255 ≤ 255 := by decide
theorem wit_ReservedEncodingsAreRefused :
    (0x80#8).getLsbD 7 = true ∧ (0x08#8).getLsbD 3 = true ∧ (0x02#8).getLsbD 1 = true ∧ (0x01#8).getLsbD 0 = true ∧
    128 ≤ (0x90#8).toNat ∧ (0x0F#8).toNat / 8 % 16 < 2 ∧
    (0x80#64) ∉ [0x40#64, 0x00#64, 0x000#64, 0x200#64, 0x300#64, 0x100#64, 0x000#64] := by decide
theorem wit_PlainRegisterWritesStoreTheByte : clkByteLegal 0x10#8 = true ∧ clkByteLegal 0x7F#8 = true := by decide
theorem wit_CtlWriteIssuesOneAction :
    ctlByteLegal 0x60#8 = true ∧ ctlByteLegal 0x50#8 = true ∧ ctlByteLegal 0x44#8 = true ∧ ctlByteLegal 0x00#8 = true := by
  decide
theorem wit_RegisterReadsHaveNoSideEffect : (0xFF#8).getLsbD 3 = sample.core.iflg := by decide
theorem wit_RawPatternsSetClearOrDrawIe : (0x200#64) ∈ [0x200#64, 0x300#64, 0x100#64] ∧
    (0x100#64) ∈ [0x200#64, 0x300#64, 0x100#64] := by decide
theorem wit_StepRunsTheDecodedWord :
    ((next .port { sample with port := ⟨true, 0x8D00000300000000#64, 0, false⟩ }).moves = .port :: sample.moves ∧
      decodeCmd 0x8D00000300000000#64 = .ok .rdregStat) ∧
    ((next .drain { sample with posted := [⟨0x10, 0x40#64, false⟩] }).posted = [⟨Config.offRaw, 0x40#64, false⟩]) ∧
    cmdValid 0x300#64 = false := by decide
theorem wit_DrainedCommandIsIssuedOrFaults :
    (next .drain { sample with posted := [⟨0, 0x8D00000300000000#64, false⟩] }).moves = .drain :: sample.moves ∧
    cmdValid 0x8D00000300000000#64 = true ∧ sample.port.busy = false ∧ cmdValid 0x0C00000200000040#64 = false ∧
    decodeCmd 0x8900000000000000#64 = .error .noRow := by decide
theorem wit_RecoveryPatternsLeaveTheCore : (0x200#64) ∈ [0x000#64, 0x200#64, 0x300#64, 0x100#64] ∧
    (next .drain).moves = .drain :: sample.moves ∧ sample.posted = [⟨Config.offRaw, 0x200#64, true⟩] := by decide
theorem wit_CoreProgressDrawsStat : (next .coreProgress).moves = .coreProgress :: sample.moves ∧
    sample.core.pending ≠ .none ∧ State.reset.core.pending = .none := by decide
theorem wit_CoreCompletionReportsTheAction : (next .coreComplete).moves = .coreComplete :: sample.moves ∧
    sample.core.pending = .byte ∧ State.reset.core.pending = .none ∧
    (coreOf 0 false .stop).pending ≠ .byte ∧ (coreOf 0 false .stop).pending ≠ .reset := by decide
theorem wit_WindowReadWaitsForPostedWrites : (next (.hostRead 0 8)).moves = .hostRead 0 8 :: sample.moves ∧
    sample.posted ≠ [] ∧ State.reset.posted = [] ∧ (0x08 : Nat) ≠ 0x00 ∧ (0x08 : Nat) ≠ 0x10 ∧ (4 : Nat) ≠ 8 ∧ (0 : Nat) ≠ 8 := by decide
theorem wit_WindowWriteOnlyPosts : (next (.hostWrite 0x10 8 0#64)).moves = .hostWrite 0x10 8 0#64 :: sample.moves ∧
    (next (.hostWrite 0x10 4 0#64)).moves = .hostWrite 0x10 4 0#64 :: sample.moves ∧ (4 : Nat) ≠ 8 := by decide
theorem wit_OtherAgentsLeaveTheEngine :
    (next .irq).moves = .irq :: sample.moves ∧ gives (step (next .irq)) (fun t => t.irq == .atWrite) = true ∧
    (next .timeout).moves = .timeout :: sample.moves ∧ sample.thread = none := by decide +kernel
theorem wit_WritesReachTheDeviceInIssueOrder : gives (step (next .drain)) (fun t => t.history.length == 1) = true := by
  decide +kernel
theorem wit_ReadsFollowEveryPostedWrite :
    gives (step (next (.hostRead 0x10 8) { sample with posted := [] })) (fun t => t.history == [.read 0x10 1#64]) = true := by
  decide +kernel
theorem wit_HandlerDisablesThenSignals : sample.ie = true ∧ sample.core.iflg = true ∧ sample.handlerAttached = true ∧
    sample.irq = .out ∧ sample.flowing = true := by decide
theorem wit_HandlerIsEnteredOnlyOnTheLine : State.reset.lineAsserted = false ∧
    (next .irq State.reset).moves = .irq :: State.reset.moves ∧ State.reset.irq = .out := by decide
theorem wit_HandlerTakesItsStatementsInOrder : (next .irq).moves = .irq :: sample.moves ∧ sample.irq = .out ∧
    sample.lineAsserted = true ∧ sample.handlerAttached = true ∧ sample.posted ≠ [] := by decide
theorem wit_BlockEndsByWakeOrTimeout :
    (next .engine { sample with thread := some ⟨.block, [.waitWoken]⟩ }).thread = some ⟨.block, [.waitWoken]⟩ ∧
    sample.controller.completion = true ∧ State.reset.controller.completion = false := by decide
theorem wit_WriteRegisterCompletes : sample.quiet = true ∧ alone.noCore = true ∧ registerByteLegal .thp 0xFF#8 = true ∧
    registerByteLegal .data 0x00#8 = true ∧ registerByteLegal .ctl 0x60#8 = true ∧
    registerByteLegal .clkctl 0x10#8 = true ∧ registerByteLegal .stat 0x7F#8 = true ∧
    registerByteLegal .rst 0x00#8 = true := by decide
theorem wit_ReadRegisterCompletes : sample.quiet = true ∧ readable .data = true ∧ readable .ctl = true ∧
    readable .clkctl = true ∧ readable .stat = true := by decide
theorem wit_WriteRawTakesEffectBeforeReturning : sample.quiet = true ∧ rawPatternLegal 0x40#64 = true ∧
    rawPatternLegal 0x00#64 = true ∧ rawPatternLegal 0x300#64 = true ∧ alone.noTurn .irq = true := by decide
theorem wit_DelayIsOnlyRecorded : State.reset.moves = [] ∧ sample.quiet = true ∧ State.reset.quiet = true ∧
    State.reset.posted = [] := by decide
theorem wit_EnableSetsAndDisableClearsIe : sample.quiet = true ∧ alone.noTurn .irq = true := by decide
theorem wit_ReadyIsIflgReadThroughThePort : alone.quiet = true ∧ alone.noCore = true := by decide
theorem wit_WaitReturnsWithIeClear : sample.quiet = true := by decide
theorem wit_WaitIsDecidedByThePredicate :
    (at' [.irq, .timeout] []).quiet = true ∧ (at' [.irq, .timeout] []).core.pending = .none ∧
    (at' [.irq, .timeout] []).core.iflg = false ∧
    ({ at' [.irq] [] (coreOf 0 true .none) with
        controller := { State.reset.controller with completion := true } } : State).quiet = true ∧
    State.noTurn .timeout (at' [.irq] []) = true := by decide
theorem wit_WaitWithoutHandlerTimesOut :
    ({ at' [.irq, .coreComplete] [] (coreOf 0 false .byte) with handlerAttached := false } : State).quiet = true ∧
    State.noTurn .attach (at' [.irq, .coreComplete] []) = true := by decide
/-- The turns of `signalTurns` with others between them, from a state with a pattern posted and the handler about to return. -/
def signalled : State :=
  { at' [.irq, .engine, .coreProgress, .drain, .engine, .port, .drain, .irq, .attach, .irq, .engine, .irq, .drain, .drain, .irq,
      .port, .irq, .engine] [1, 2, 3, 4] (coreOf 0 true .none) with
    irq := .atLeave, posted := [⟨0x10, 0x200#64, true⟩] }
theorem wit_AssertedLineIsNotLost : signalled.quiet = true ∧ signalled.core.iflg = true ∧ signalled.core.pending ≠ .stop ∧
    signalled.core.pending ≠ .reset ∧ signalled.noTurn .timeout = true ∧ signalled.handlerAttached = true ∧
    signalled.signalTurns.Sublist signalled.moves := by decide
theorem wit_ClockSearchResultIsInRange : 1 ≤ 1 ∧ State.reset.moves = [] ∧ sample.quiet = true ∧ alone.noCore = true := by
  decide
theorem wit_ZeroLengthReadTouchesNothing : State.reset.moves = [] ∧ sample.quiet = true ∧ alone.noCore = true := by decide
/-- V-CLK-1 and V-CLK-13: a search with a candidate below the sentinel, and one with none. -/
theorem wit_ClockSearchIsMinimal :
    ((3 : Nat) ≤ 15 ∧ ((5 : Nat) : Int) = clockBase 100000 50000000 3 0 ∧
      deviation 100000 (achieved 50000000 5 3 0) < 1000000) ∧
    (∀ m n : Nat, clockBase 100000 0 m n = -1) := by
  refine ⟨by decide +kernel, fun m n => ?_⟩
  simp [clockBase]
theorem wit_ClockCandidatesBracketTheTarget : 1 ≤ 100000 ∧ clockBase 100000 50000000 3 0 = (5 : Nat) := by decide +kernel
theorem wit_SetClockProgramsTheSearchResult :
    ({ sample with controller := { sample.controller with targetFrequency := 100000 } } : State).quiet = true ∧
    (100000 : Nat) ≠ 0 := by decide
theorem wit_InitPollsUntilIdle : sample.quiet = true := by decide
theorem wit_UnblockStreamIsExact : alone.quiet = true ∧ alone.noCore = true ∧ alone.noTurn .irq = true := by decide
theorem wit_StartFollowsItsRule : sample.quiet = true := by decide
theorem wit_StopFollowsItsRule : alone.quiet = true ∧ alone.noCore = true := by decide
theorem wit_WriteMessageFollowsItsRule : sample.quiet = true := by decide
theorem wit_ReadMessageFollowsItsRule : sample.quiet = true ∧ [0#8] ≠ ([] : List Byte) := by decide
theorem wit_BatchFollowsItsRule : sample.quiet = true := by decide
theorem wit_BatchIsFramedByOneStop : sample.quiet = true := by decide
theorem wit_OpenFollowsItsRule : (1 : Nat) ≠ 0 ∧ sample.controller.inBatch = false ∧ sample.controller.isOpen = false ∧
    sample.quiet = true ∧ alone.noTurn .irq = true := by decide
theorem wit_ExecuteBatchRunsOnAnOpenController : (opened sample).controller.isOpen = true ∧
    (opened sample).controller.inBatch = false ∧ (opened sample).quiet = true := by decide
theorem wit_CloseDisablesAndCloses : (opened alone).controller.isOpen = true ∧
    (opened alone).controller.inBatch = false ∧ (opened alone).quiet = true ∧ (opened alone).noCore = true := by decide
theorem wit_MisusedCallsAreRefused :
    (1 : Nat) ≠ 0 ∧ ({ opened sample with controller := ⟨0, 0, 0, 0, ⟨24, 2, 0⟩, false, true, true⟩ } : State).controller.inBatch = true ∧
    State.reset.controller.isOpen = false ∧ State.reset.controller.targetFrequency = 0 ∧
    (opened sample).controller.isOpen = true ∧ (opened sample).controller.inBatch = false ∧
    ({ sample with thread := some ⟨.block, [.waitWoken]⟩ } : State).thread ≠ none ∧
    decodeCall ⟨"close", []⟩ = .ok .close := by decide
theorem wit_ResetIsAPowerOnState : State.reset.PowerOn := by
  refine ⟨rfl, rfl, rfl, rfl, rfl, rfl, rfl, rfl⟩
theorem wit_InvariantHoldsAtPowerOn : State.reset.PowerOn ∧ State.reset.controller.params.inRange = true ∧
    State.reset.moves = [] := ⟨wit_ResetIsAPowerOnState, rfl, rfl⟩
/-- A state with an access in flight and the ENGINE polling for it meets the invariant. -/
def flying : State :=
  { next .port { sample with posted := [] } with
    port := ⟨true, 0x8D00000300000000#64, 0, false⟩, thread := some ⟨.poll, [.stopTest]⟩ }
theorem wit_EveryStepKeepsTheInvariant :
    flying.Inv ∧ gives (step flying) (fun t => !t.port.busy && t.port.result == 0x28#8) = true := by
  refine ⟨⟨?_, by decide +kernel, by decide +kernel, by decide +kernel, by decide +kernel, by decide +kernel,
    by decide +kernel⟩, by decide +kernel⟩
  intro m hm off width w h
  subst h
  simp [flying, next, sample, at'] at hm
theorem wit_OwnUseNeverFaults : flying.Inv := wit_EveryStepKeepsTheInvariant.1
theorem wit_StepwiseRunAgreesWithTheMeaning :
    encode .wait = .call ⟨"wait", []⟩ ∧ Instr.wait ≠ .irqHandler ∧ sample.thread = none := by decide
/-- Each clause's change happens in some step. -/
theorem wit_EveryFlagHasItsWriters :
    gives (step (next .drain { sample with posted := [⟨0, 0x8D00000300000000#64, false⟩] })) (fun t => t.port.busy) = true ∧
    gives (step flying) (fun t => !t.port.busy && flying.port.busy) = true ∧
    gives (step (next .coreComplete { sample with core := coreOf 0 false .byte })) (fun t => t.core.iflg
      && t.core.data == 2#8 && t.core.stat == 1#8 && t.core.pending == .none) = true ∧
    gives (step (State.reset.withFetchWord 64 0x8800000000000005)) (fun t => t.core.thp == 5#8) = true ∧
    gives (step ({ sample with posted := [] }.withFetchWord 64 0x8C00000200000060)) (fun t => !t.core.iflg
      && t.core.pending == .start) = true ∧
    gives (step (next .drain)) (fun t => t.raw == 0x200#64 && sample.raw == 0#64) = true ∧
    gives (step { next .irq State.reset with irq := .atSignal }) (fun t => t.controller.completion && t.irq == .atLeave) = true ∧
    gives (step (next .engine { sample with thread := some ⟨.block, [.waitWoken]⟩ })) (fun t => !t.controller.completion) = true ∧
    gives (step (next .engine { sample with thread := some ⟨.assign (.controller 1 2 3 4), [.openCreated]⟩ }))
      (fun t => !t.controller.completion && t.controller.window == 2) = true ∧
    gives (step (next (.call ⟨"irq_handler", []⟩))) (fun t => t.irq == .atWrite) = true ∧
    gives (step (next .engine { sample with thread := some ⟨.assign (.inBatch true), [.xferBegin []]⟩ }))
      (fun t => t.controller.inBatch && !sample.controller.inBatch) = true ∧
    gives (step (next .engine { sample with thread := some ⟨.assign (.phase .error), [.giveStatus none]⟩ }))
      (fun t => t.phase == .error && sample.phase == .idle) = true ∧
    gives (step (next .attach { sample with handlerAttached := false })) (fun t => t.handlerAttached) = true ∧
    gives (step (next (.call ⟨"close", []⟩) (opened sample))) (fun t => t.controller.isOpen
      && (opened sample).creating == false) = true := by
  decide +kernel
theorem wit_ControllersAreIndependent :
    stepInstance 0 [at' [.hostWrite 0x10 8 0#64] [], State.reset] =
      .next [{ State.reset with posted := [⟨0x10, 0#64, false⟩] }, State.reset] ∧ (1 : Nat) ≠ 0 := ⟨rfl, by decide⟩

end Sys2Proof.Tests
end

section
/-! The ENGINE's side of the state, which the other agents neither look at nor change but for the completion signal (R344). -/

namespace Sys2Proof.Machine

open Sys2Proof

/-- `s` with the ENGINE's side of `e`: its place, phase, result and buffers, the Controller, and the turns to come. -/
@[simps] def State.withEngine (s e : State) : State :=
  { s with thread := e.thread, phase := e.phase, result := e.result, buffers := e.buffers, moves := e.moves,
           controller := e.controller }

/-- The effect `f` neither looks at the ENGINE's side nor changes it. -/
def Aside (f : State → Except Stop State) : Prop := ∀ s e, f (s.withEngine e) = (f s).map (·.withEngine e)

theorem draw_withEngine (s e : State) : (s.withEngine e).draw = (s.draw.1, s.draw.2.withEngine e) := by
  unfold State.draw
  cases hd : s.draws <;> simp [State.withEngine, hd]

theorem drawByte_withEngine (s e : State) :
    (s.withEngine e).drawByte = (s.drawByte.1, s.drawByte.2.withEngine e) := by
  simp only [State.drawByte, draw_withEngine]

theorem drawBit_withEngine (s e : State) :
    (s.withEngine e).drawBit = (s.drawBit.1, s.drawBit.2.withEngine e) := by
  simp only [State.drawBit, draw_withEngine]

theorem readWindow_withEngine (off : Nat) (s e : State) :
    readWindow off (s.withEngine e) = (readWindow off s).map fun r => (r.1, r.2.withEngine e) := by
  unfold readWindow
  simp only [draw_withEngine, State.withEngine_port]
  split
  · rfl
  · split <;> rfl

theorem post_aside (off : Nat) (w : Word) (r : Bool) : Aside (post off w r) := by
  intro s e
  unfold post
  split <;> rfl

theorem memWrite_aside (off width : Nat) (w : Word) : Aside (memWrite off width w) := by
  intro s e
  unfold memWrite
  split
  · exact post_aside off w false s e
  · rfl

theorem hostReadStep_aside (off width : Nat) : Aside (hostReadStep off width) := by
  intro s e
  unfold hostReadStep
  simp only [readWindow_withEngine, State.withEngine_posted]
  split
  · rfl
  · split
    · split
      · cases readWindow off s <;> rfl
      · rfl
    · rfl

theorem rstWrite_withEngine (s e : State) : rstWrite (s.withEngine e) = (rstWrite s).withEngine e := by
  simp only [rstWrite, drawByte_withEngine]
  rfl

theorem coreProgress_withEngine (s e : State) : coreProgress (s.withEngine e) = (coreProgress s).withEngine e := by
  simp only [coreProgress, drawByte_withEngine, State.withEngine_core]
  split <;> rfl

theorem coreComplete_withEngine (s e : State) : coreComplete (s.withEngine e) = (coreComplete s).withEngine e := by
  simp only [coreComplete, drawByte_withEngine, drawBit_withEngine, State.withEngine_core]
  split <;> rfl

theorem perform_aside (w : Word) (i : Instr) : Aside fun s => ofOutcome (perform w i s) := by
  intro s e
  cases i with
  | wrregCtl b => simp only [perform, execWrregCtl]; split <;> rfl
  | wrregClkctl b => simp only [perform, execWrregClkctl]; split <;> rfl
  | wrregRst b => simp only [perform, execWrregRst, rstWrite_withEngine]; rfl
  | rdregCtl => simp only [perform, execRdregCtl, drawByte_withEngine]; rfl
  | _ => rfl

theorem portStep_aside : Aside portStep := by
  intro s e
  unfold portStep
  simp only [State.withEngine_port, perform_aside _ _ s e]
  split
  · split
    · next i _ => cases ofOutcome (perform s.port.cmd i s) <;> rfl
    · rfl
  · rfl

theorem issueCommand_aside (w : Word) : Aside (issueCommand w) := by
  intro s e
  unfold issueCommand
  simp only [State.withEngine_port]
  split
  · split <;> rfl
  · rfl

theorem recoveryPattern_aside (v : Word) : Aside (recoveryPattern v) := by
  intro s e
  simp only [recoveryPattern, drawBit_withEngine]
  split <;> rfl

theorem execWrraw_aside (v : Word) : Aside fun s => ofOutcome (execWrraw v s) := by
  intro s e
  simp only [execWrraw, drawBit_withEngine]
  split
  · split
    · rfl
    · split <;> rfl
  · rfl

theorem applyPosted_aside (p : Posted) : Aside (applyPosted p) := by
  intro s e
  unfold applyPosted
  split
  · exact issueCommand_aside p.word s e
  · split
    · split
      · exact recoveryPattern_aside p.word s e
      · exact execWrraw_aside p.word s e
    · rfl

theorem drainStep_aside : Aside drainStep := by
  intro s e
  unfold drainStep
  simp only [State.withEngine_posted]
  split
  · rfl
  · next p ps _ =>
    rw [← applyPosted_aside p _ e]
    rfl

theorem irqEnter_withEngine (s e : State) : irqEnter (s.withEngine e) = (irqEnter s).withEngine e := by
  have hi : (s.withEngine e).irqMayEnter = s.irqMayEnter := rfl
  unfold irqEnter
  rw [hi]
  split <;> rfl

theorem callWhileBusy_aside (c : Call) : Aside (callWhileBusy c) := by
  intro s e
  unfold callWhileBusy
  rw [irqEnter_withEngine]
  generalize decodeCall c = d
  split <;> rfl

/-- The one thing a turn of another agent does to the ENGINE's side `e`: the handler signals (R46, R185). -/
def signalled (m : Move) (s e : State) : State := if m = .irq ∧ s.irq = .atSignal then e.signal else e

theorem signalled_irq (s e : State) : signalled .irq s e = if s.irq = .atSignal then e.signal else e := by
  simp only [signalled, true_and]

theorem irqStep_withEngine (s e : State) :
    irqStep (s.withEngine e) = (irqStep s).map (·.withEngine (signalled .irq s e)) := by
  rw [signalled_irq]
  cases hi : s.irq with
  | out => simp only [irqStep, hi, State.withEngine_irq, irqEnter_withEngine]; rfl
  | atWrite =>
    simp only [irqStep, hi, State.withEngine_irq, post_aside _ _ _ s e]
    cases post Config.offRaw Config.rawIeClr false s <;> rfl
  | atReadback =>
    simp only [irqStep, hi, State.withEngine_irq, State.withEngine_posted, readWindow_withEngine]
    split
    · cases readWindow Config.offRaw s <;> rfl
    · rfl
  | atSignal | atLeave => simp only [irqStep, hi, State.withEngine_irq]; rfl

/-- A turn of another agent does not look at the ENGINE's side, and changes nothing of it but the completion signal (R344). -/
theorem envMove_withEngine (m : Move) (s e : State) :
    envMove m (s.withEngine e) = (envMove m s).map (·.withEngine (signalled m s e)) := by
  cases m with
  | drain => exact drainStep_aside s e
  | port => exact portStep_aside s e
  | coreProgress => exact congrArg Except.ok (coreProgress_withEngine s e)
  | coreComplete => exact congrArg Except.ok (coreComplete_withEngine s e)
  | irq => exact irqStep_withEngine s e
  | call c => exact callWhileBusy_aside c s e
  | hostWrite off width w => exact memWrite_aside off width w s e
  | hostRead off width => exact hostReadStep_aside off width s e
  | engine | timeout | attach => rfl

/-- What a turn of another agent leaves of the ENGINE's side: all of it but the completion signal (R344). -/
theorem envMove_engine {m : Move} {s t : State} (h : envMove m s = .ok t) : t = t.withEngine (signalled m s s) := by
  have hs := envMove_withEngine m s s
  rw [show s.withEngine s = s from rfl, h] at hs
  exact Except.ok.inj hs

/-! ### The turns of the other agents, settled -/

theorem sameEngine_withEngine (m : Move) (s t : State) : SameEngine s (t.withEngine (signalled m s s)) := by
  unfold signalled
  split <;> exact ⟨rfl, rfl, rfl, rfl⟩

/-- Such a turn is taken as the same turn taken while the ENGINE runs an operation. -/
theorem takeMove_eq_envMove {m : Move} (he : m ≠ .engine) (ht : m ≠ .timeout) (hc : ∀ c, m ≠ .call c) (s : State) :
    takeMove m s = envMove m s := by
  cases m with
  | engine => exact absurd rfl he
  | timeout => exact absurd rfl ht
  | call c => exact absurd rfl (hc c)
  | drain | port | coreProgress | coreComplete | irq | attach | hostWrite | hostRead => rfl

theorem step_of_moves {s : State} {m : Move} {ms : List Move} (h : s.moves = m :: ms) :
    step s = toOutcome (takeMove m (s.withMoves ms)) := by
  simp only [step, nextStep, h]

theorem timeoutStep_idle {s : State} (h : ∀ ks, s.thread ≠ some ⟨.block, ks⟩) : timeoutStep s = .ok s := by
  unfold timeoutStep
  split
  · next ks hs => exact absurd hs (h ks)
  · rfl

/-- Settles O19: no turn of another agent looks at the ENGINE's side, and none changes more of it than the completion signal. -/
theorem otherAgentsLeaveTheEngine : Obligations.OtherAgentsLeaveTheEngine := by
  refine ⟨fun s t m ms hm he ht hc hs => ?_, fun s ms hm hb => ?_⟩
  · rw [step_of_moves hm, takeMove_eq_envMove he ht hc] at hs
    have heq := envMove_engine (toOutcome_next hs)
    have hres : t.result = s.result := by rw [heq]; unfold signalled; split <;> rfl
    refine ⟨heq ▸ sameEngine_withEngine m (s.withMoves ms) t, hres, fun hirq => ?_⟩
    rw [heq, signalled, if_neg fun h => hirq h.1]
    rfl
  · rw [step_of_moves hm]
    exact congrArg toOutcome (timeoutStep_idle (s := s.withMoves ms) hb)

end Sys2Proof.Machine
end

section
/-! Where the machine's steps lead: the terms in which the stepwise reading of an operation (R32) is compared with its
meaning. -/

namespace Sys2Proof.Machine

open Sys2Proof

/-! ### The ENGINE's place -/

theorem envMove_standAt (m : Move) (st : Stmt) (ks : List Kont) (s : State) :
    envMove m (s.standAt st ks) = (envMove m s).map (State.standAt st ks) := by
  have h := envMove_withEngine m s (s.standAt st ks)
  rw [show s.withEngine (s.standAt st ks) = s.standAt st ks from rfl] at h
  rw [h]
  cases ht : envMove m s with
  | error e => rfl
  | ok t =>
    have heq : t.withEngine (signalled m s (s.standAt st ks)) = t.standAt st ks := by
      conv_rhs => rw [envMove_engine ht]
      unfold signalled
      split <;> rfl
    exact congrArg Except.ok heq

theorem post_standAt (off : Nat) (w : Word) (r : Bool) (st : Stmt) (ks : List Kont) (s : State) :
    post off w r (s.standAt st ks) = (post off w r s).map (State.standAt st ks) := by
  unfold post
  split <;> rfl

theorem readWindow_standAt (off : Nat) (st : Stmt) (ks : List Kont) (s : State) :
    readWindow off (s.standAt st ks) = (readWindow off s).map fun r => (r.1, r.2.standAt st ks) := by
  have hd : s.draw.2.withEngine (s.standAt st ks) = s.draw.2.standAt st ks := by
    unfold State.draw
    split <;> rfl
  rw [show s.standAt st ks = s.withEngine (s.standAt st ks) from rfl, readWindow_withEngine]
  unfold readWindow
  split
  · exact congrArg (fun u => Except.ok (_, State.record _ u)) hd
  · split
    · exact congrArg (fun u => Except.ok (_, State.record _ u)) hd
    · rfl

theorem apply_standAt (a : Assign) (st : Stmt) (ks : List Kont) (s : State) :
    a.apply (s.standAt st ks) = (a.apply s).standAt st ks := by cases a <;> rfl

/-- What a continuation gives, with the ENGINE placed elsewhere where it begins no statement. -/
def Next.standAt (st : Stmt) (ks : List Kont) : Next → Next
  | .go s => .go s
  | .ret r s => .ret r (s.standAt st ks)

theorem beginMessages_standAt (count : Nat) (rest : List Message) (ks ks' : List Kont) (st : Stmt) (s : State) :
    beginMessages count rest ks (s.standAt st ks') = beginMessages count rest ks s := by
  cases rest with
  | nil => rfl
  | cons m ms => cases hd : m.direction <;> simp only [beginMessages, hd] <;> rfl

theorem beginPulses_standAt (left : Nat) (ks ks' : List Kont) (st : Stmt) (s : State) :
    beginPulses left ks (s.standAt st ks') = beginPulses left ks s := by
  cases left <;> rfl

theorem txLoop_standAt (i : Nat) (rest : List Byte) (ks ks' : List Kont) (st : Stmt) (s : State) :
    txLoop i rest ks (s.standAt st ks') = (txLoop i rest ks s).map (Next.standAt st ks') := by
  cases rest <;> rfl

theorem rxLoop_standAt (k i left : Nat) (ks ks' : List Kont) (st : Stmt) (s : State) :
    rxLoop k i left ks (s.standAt st ks') = (rxLoop k i left ks s).map (Next.standAt st ks') := by
  cases left <;> rfl

theorem initLoop_standAt (left : Nat) (ks ks' : List Kont) (st : Stmt) (s : State) :
    initLoop left ks (s.standAt st ks') = (initLoop left ks s).map (Next.standAt st ks') := by
  cases left <;> rfl

/-- A continuation does not look at the place the ENGINE leaves. -/
theorem continueWith_standAt (k : Kont) (v : Ret) (ks ks' : List Kont) (st : Stmt) (s : State) :
    continueWith k v ks (s.standAt st ks') = (continueWith k v ks s).map (Next.standAt st ks') := by
  unfold continueWith
  simp only [beginMessages_standAt, beginPulses_standAt, txLoop_standAt, rxLoop_standAt, initLoop_standAt]
  split
  all_goals try split
  all_goals rfl

theorem returnTo_standAt (ks ks' : List Kont) (v : Ret) (st : Stmt) (s : State) :
    returnTo ks v (s.standAt st ks') = returnTo ks v s := by
  induction ks generalizing v s with
  | nil => rfl
  | cons k ks ih =>
    simp only [returnTo, continueWith_standAt]
    cases hn : continueWith k v ks s with
    | error e => rfl
    | ok n =>
      cases n with
      | go t => rfl
      | ret r t => exact ih r t

/-! ### Runs of the machine -/

/-- `n` steps, a stop being a result. -/
def steps : Nat → State → Except Stop State
  | 0, s => .ok s
  | n + 1, s => (nextStep s).bind (steps n)

theorem run_eq_steps (n : Nat) (s : State) : run n s = toOutcome (steps n s) := by
  induction n generalizing s with
  | zero => rfl
  | succ n ih =>
    unfold run step steps
    cases nextStep s with
    | ok t => exact ih t
    | error e => cases e <;> rfl

theorem steps_add (m n : Nat) (s : State) : steps (m + n) s = (steps m s).bind (steps n) := by
  induction m generalizing s with
  | zero => rw [Nat.zero_add]; rfl
  | succ m ih =>
    rw [Nat.succ_add]
    unfold steps
    cases nextStep s with
    | ok t => exact ih t
    | error e => rfl

theorem bind_bind {α β γ : Type} (x : Except Stop α) (f : α → Except Stop β) (g : β → Except Stop γ) :
    (x.bind f).bind g = x.bind fun a => (f a).bind g := by cases x <;> rfl

theorem bind_eq_ok {α β : Type} {x : Except Stop α} {f : α → Except Stop β} {b : β} (h : x.bind f = .ok b) :
    ∃ a, x = .ok a ∧ f a = .ok b := by
  cases x with
  | error e => cases h
  | ok a => exact ⟨a, rfl, h⟩

/-- From what `x` gives, finitely many steps of the machine come to exactly `y`. -/
def Comes (x y : Except Stop State) : Prop := ∃ n, x.bind (steps n) = y

theorem Comes.refl (x : Except Stop State) : Comes x x := ⟨0, by cases x <;> rfl⟩

theorem Comes.trans {x y z : Except Stop State} (h : Comes x y) (k : Comes y z) : Comes x z := by
  obtain ⟨m, rfl⟩ := h
  obtain ⟨n, rfl⟩ := k
  refine ⟨m + n, ?_⟩
  cases x with
  | ok s => exact steps_add m n s
  | error e => rfl

theorem Comes.step {s : State} {y : Except Stop State} (h : Comes (nextStep s) y) : Comes (.ok s) y := by
  obtain ⟨n, rfl⟩ := h
  exact ⟨n + 1, rfl⟩

theorem Comes.bind {β : Type} {x : Except Stop β} {f g : β → Except Stop State}
    (h : ∀ b, x = .ok b → Comes (f b) (g b)) : Comes (x.bind f) (x.bind g) := by
  cases x with
  | ok b => exact h b rfl
  | error e => exact Comes.refl _

/-! ### The turns a `wait()` may still see -/

/-- How many wakes the listed turns leave a `wait()`: at most one for each, and one more for a completion at their end. -/
def State.wakesLeft (s : State) : Nat :=
  if s.moves = [] then s.controller.completion.toNat else s.moves.length + 1

theorem wakesLeft_le (s : State) : s.wakesLeft ≤ s.moves.length + 1 := by
  unfold State.wakesLeft
  have := Bool.toNat_le s.controller.completion
  split <;> omega

theorem wakesLeft_lt_of_turn {s t : State} {m : Move} {ms : List Move} (hs : s.moves = m :: ms) (ht : t.moves = ms) :
    t.wakesLeft < s.wakesLeft := by
  have hle := wakesLeft_le t
  have heq : s.wakesLeft = ms.length + 2 := by simp [State.wakesLeft, hs]
  rw [ht] at hle
  omega

/-- What a piece of an operation leaves: the ENGINE's place, which the meaning does not use, and no more wakes than before. -/
structure Later (s t : State) : Prop where
  thread : t.thread = s.thread
  wakes : t.wakesLeft ≤ s.wakesLeft

theorem Later.refl (s : State) : Later s s := ⟨rfl, le_rfl⟩

theorem Later.trans {s t u : State} (h : Later s t) (k : Later t u) : Later s u :=
  ⟨k.thread.trans h.thread, k.wakes.trans h.wakes⟩

theorem Later.of_same {s t : State} (hth : t.thread = s.thread) (hm : t.moves = s.moves)
    (hc : t.controller.completion = s.controller.completion) : Later s t :=
  ⟨hth, by simp only [State.wakesLeft, hm, hc, le_refl]⟩

theorem Later.of_taken {s : State} {m : Move} {ms : List Move} (hs : s.moves = m :: ms) : Later s (s.withMoves ms) :=
  ⟨rfl, (wakesLeft_lt_of_turn hs rfl).le⟩

theorem Later.of_turn {s t : State} {m : Move} {ms : List Move} (hs : s.moves = m :: ms) (hth : t.thread = s.thread)
    (ht : t.moves = ms) : Later s t :=
  ⟨hth, (wakesLeft_lt_of_turn hs ht).le⟩

theorem envMove_moves {m : Move} {s t : State} (h : envMove m s = .ok t) : t.moves = s.moves := by
  rw [envMove_engine h]
  unfold signalled
  split <;> rfl

theorem envMove_thread {m : Move} {s t : State} (h : envMove m s = .ok t) : t.thread = s.thread := by
  rw [envMove_engine h]
  unfold signalled
  split <;> rfl

/-- A turn of another agent but the IRQ agent's leaves the Controller whole. -/
theorem later_envMove {m : Move} (hm : m ≠ .irq) {s t : State} (h : envMove m s = .ok t) : Later s t := by
  refine .of_same (envMove_thread h) (envMove_moves h) ?_
  rw [envMove_engine h, signalled, if_neg fun hi => hm hi.1]
  rfl

theorem later_readWindow {off : Nat} {s : State} {r : Word × State} (h : readWindow off s = .ok r) : Later s r.2 := by
  rw [readWindow_ok h]
  exact .of_same (by simp) (by simp) (by simp)

/-! ### Taking the listed turns -/

/-- `g` hands each listed turn of another agent to that agent, and goes on with the turns after it. -/
def TakesTurns {α : Type} (g : List Move → State → Except Stop α) : Prop :=
  ∀ m ms s, m ≠ .engine → m ≠ .timeout → g (m :: ms) s = (envMove m (s.withMoves ms)).bind (g ms)

theorem takeMove_engine (s : State) : takeMove .engine s = engineStep s := rfl

theorem takeMove_timeout (s : State) : takeMove .timeout s = timeoutStep s := rfl

theorem takeMove_standAt {m : Move} (he : m ≠ .engine) (ht : m ≠ .timeout) (st : Stmt) (ks : List Kont) (s : State) :
    takeMove m (s.standAt st ks) = (envMove m s).map (State.standAt st ks) := by
  rw [← envMove_standAt]
  cases m with
  | engine => exact absurd rfl he
  | timeout => exact absurd rfl ht
  | _ => rfl

section
variable {α : Type} {g : List Move → State → Except Stop α}

/-- The machine standing at a statement takes the listed turns as `g` does, if it does so at the ENGINE's turns, at the
timeouts, and when no turn is left. -/
theorem TakesTurns.comes (hg : TakesTurns g) {st : Stmt} {ks : List Kont} {F : α → Except Stop State}
    (hend : ∀ s, s.moves = [] → Comes (.ok (s.standAt st ks)) ((g [] s).bind F))
    (hown : ∀ m ms s, m = .engine ∨ m = .timeout →
      (∀ t, t.moves = ms → Comes (.ok (t.standAt st ks)) ((g ms t).bind F)) →
      Comes (takeMove m ((s.withMoves ms).standAt st ks)) ((g (m :: ms) s).bind F)) (s : State) :
    Comes (.ok (s.standAt st ks)) ((g s.moves s).bind F) := by
  generalize hms : s.moves = ms
  induction ms generalizing s with
  | nil => exact hend s hms
  | cons m ms ih =>
    have hstep : nextStep (s.standAt st ks) = takeMove m ((s.withMoves ms).standAt st ks) := by
      simp only [nextStep, State.standAt, hms]
      rfl
    refine .step (hstep ▸ ?_)
    by_cases hm : m = .engine ∨ m = .timeout
    · exact hown m ms s hm ih
    · obtain ⟨he, ht⟩ := not_or.1 hm
      rw [takeMove_standAt he ht, hg m ms s he ht]
      cases hu : envMove m (s.withMoves ms) with
      | error e => exact .refl _
      | ok u => exact ih u (envMove_moves hu)

/-- Taking the listed turns leaves what `Later` says, if it does so at the ENGINE's turns, at the timeouts, and at the end. -/
theorem TakesTurns.later (hg : TakesTurns g) {out : α → State}
    (hend : ∀ s a, s.moves = [] → g [] s = .ok a → Later s (out a))
    (hown : ∀ m ms s a, m = .engine ∨ m = .timeout → s.moves = m :: ms →
      (∀ t, t.moves = ms → g ms t = .ok a → Later t (out a)) → g (m :: ms) s = .ok a → Later s (out a))
    {s : State} {a : α} (h : g s.moves s = .ok a) : Later s (out a) := by
  generalize hms : s.moves = ms at h
  induction ms generalizing s with
  | nil => exact hend s a hms h
  | cons m ms ih =>
    by_cases hm : m = .engine ∨ m = .timeout
    · exact hown m ms s a hm hms (fun t ht h => ih ht h) h
    · obtain ⟨he, ht⟩ := not_or.1 hm
      rw [hg m ms s he ht] at h
      obtain ⟨u, hu, h⟩ := bind_eq_ok h
      exact (Later.of_turn hms (envMove_thread (s := s.withMoves ms) hu) (envMove_moves hu)).trans (ih (envMove_moves hu) h)

end

/-! ### Places in the pseudocode -/

/-- A place in the pseudocode: what the machine does there, given what remains around it. -/
abbrev Place := List Kont → State → Except Stop State

/-- The place where an operation or a statement begins. -/
def Place.begins (b : List Kont → State → State) : Place := fun ks s => .ok (b ks s)

/-- The place at which `v` is returned to what remains. -/
def Place.returns (v : Ret) : Place := fun ks => returnTo ks v

/-- The place from which the machine goes on as `f` says, with what remains around it. -/
def Place.next (f : List Kont → State → Except Stop Next) : Place := fun ks s =>
  match f ks s with
  | .error e => .error e
  | .ok (.go t) => .ok t
  | .ok (.ret r t) => returnTo ks r t

/-- The place at which the continuation `k` is given `v`. -/
def Place.resumes (k : Kont) (v : Ret) : Place := Place.next (continueWith k v)

theorem Place.resumes_eq {k : Kont} {v : Ret} {f : List Kont → State → Except Stop Next}
    (h : ∀ ks s, continueWith k v ks s = f ks s) : Place.resumes k v = Place.next f :=
  congrArg Place.next (funext fun ks => funext (h ks))

/-- Where `m` gives a value, it leaves what `Later` says. -/
def Proceeds {α : Type} (m : M α) : Prop := ∀ s t a, m s = .ok (a, t) → Later s t

/-- From the place `p` the machine does what `m` does, and is then at the place `q` of the value. -/
structure Leads {α : Type} (p : Place) (m : M α) (q : α → Place) : Prop where
  comes : ∀ ks s, Comes (p ks s) ((m s).bind fun r => q r.1 ks r.2)
  later : Proceeds m

/-- From the place `p` the machine does what `m` does and returns the value to what remains. -/
abbrev Performs {α : Type} (p : Place) (m : M α) (ret : α → Ret) : Prop := Leads p m fun a => Place.returns (ret a)

section
variable {α β : Type} {p : Place} {m : M α} {f : α → M β} {q : α → Place} {r : β → Place}

theorem M.bind_eq (m : M α) (f : α → M β) (s : State) : (m >>= f) s = (m s).bind fun x => f x.1 x.2 := rfl

theorem M.effect_bind (f : State → Except Stop State) (g : Unit × State → Except Stop β) (s : State) :
    (M.effect f s).bind g = (f s).bind fun t => g ((), t) := by
  unfold M.effect
  cases f s <;> rfl

theorem Proceeds.pure (a : α) : Proceeds (pure a) := fun _ _ _ h => by cases h; exact .refl _

theorem Proceeds.bind_of (hm : Proceeds m) (hf : ∀ a, (∃ s t, m s = .ok (a, t)) → Proceeds (f a)) :
    Proceeds (m >>= f) := by
  intro s t b h
  obtain ⟨x, hx, hb⟩ := bind_eq_ok h
  exact (hm _ _ _ hx).trans (hf x.1 ⟨s, x.2, hx⟩ _ _ _ hb)

theorem Proceeds.bind (hm : Proceeds m) (hf : ∀ a, Proceeds (f a)) : Proceeds (m >>= f) := hm.bind_of fun a _ => hf a

theorem Proceeds.effect {f : State → Except Stop State} (hf : ∀ {s t}, f s = .ok t → Later s t) :
    Proceeds (M.effect f) := by
  intro s t a h
  cases hu : f s with
  | error e => simp [M.effect, hu, Except.map] at h
  | ok u =>
    rw [M.effect_ok hu] at h
    cases h
    exact hf hu

/-- At a place from which the machine goes on as from that of `a`, without a step. -/
theorem Leads.pure (a : α) (h : ∀ ks s, p ks s = q a ks s) : Leads p (pure a) q where
  comes ks s := h ks s ▸ .refl _
  later := .pure a

theorem Leads.resumes {k : Kont} {v : Ret} {g : List Kont → State → Except Stop Next}
    (h : ∀ ks s, continueWith k v ks s = g ks s) (hm : Leads (.next g) m q) : Leads (.resumes k v) m q :=
  Place.resumes_eq h ▸ hm

/-- A piece that begins by looking at the state. -/
theorem Leads.get {g : State → M α} {b : State → Place} (h : ∀ u, Leads (b u) (g u) q) :
    Leads (fun ks s => b s ks s) (get >>= g) q :=
  ⟨fun ks s => (h s).comes ks s, fun s t a ha => (h s).later s t a ha⟩

/-- One piece after another, the second for the values the first can give. -/
theorem Leads.bind_of (hm : Leads p m q) (hf : ∀ a, (∃ s t, m s = .ok (a, t)) → Leads (q a) (f a) r) :
    Leads p (m >>= f) r where
  comes ks s := by
    rw [M.bind_eq, bind_bind]
    exact (hm.comes ks s).trans (.bind fun x hx => (hf x.1 ⟨s, x.2, hx⟩).comes ks x.2)
  later := hm.later.bind_of fun a ha => (hf a ha).later

theorem Leads.bind (hm : Leads p m q) (hf : ∀ a, Leads (q a) (f a) r) : Leads p (m >>= f) r :=
  hm.bind_of fun a _ => hf a

/-- A piece does the same with one continuation more around it. -/
theorem Leads.under (h : Leads p m q) (k : Kont) : Leads (fun ks => p (k :: ks)) m fun a ks => q a (k :: ks) :=
  ⟨fun ks s => h.comes (k :: ks) s, h.later⟩

/-- What a callee does inside its caller: its value goes to the caller's continuation. -/
theorem Leads.inside {ret : α → Ret} (h : Performs p m ret) (k : Kont) :
    Leads (fun ks => p (k :: ks)) m fun a => Place.resumes k (ret a) := h.under k

end

end Sys2Proof.Machine
end

section
/-! The primitive statements of the ENGINE (R11, R32): a run of single steps takes each as its meaning does. -/

namespace Sys2Proof.Machine

open Sys2Proof

/-! ### A step at a statement -/

theorem nextStep_standAt {s : State} (h : s.moves = []) (st : Stmt) (ks : List Kont) :
    nextStep (s.standAt st ks) = fairStep (s.standAt st ks) := by
  simp only [nextStep, State.standAt, h]

theorem timeoutStep_standAt {st : Stmt} (h : st ≠ .block) (ks : List Kont) (s : State) :
    timeoutStep (s.standAt st ks) = .ok (s.standAt st ks) :=
  timeoutStep_idle fun ks' hs => h (by cases hs; rfl)

theorem withMoves_nil {s : State} (h : s.moves = []) : s.withMoves [] = s := by
  cases s
  cases h
  rfl

theorem bind_returnTo_standAt (x : Except Stop State) (ks ks' : List Kont) (v : Ret) (st : Stmt) :
    (x.map (State.standAt st ks')).bind (returnTo ks v) = x.bind (returnTo ks v) := by
  cases x with
  | error e => rfl
  | ok s => exact returnTo_standAt ks ks' v st s

/-! ### Holding until the ENGINE's turn (R80) -/

theorem holdUntil_takesTurns (en : State → Bool) : TakesTurns (holdUntil en) := by
  intro m ms s he _
  cases m with
  | engine => exact absurd rfl he
  | _ => rfl

theorem later_holdUntil {en : State → Bool} {s t : State} (h : holdUntil en s.moves s = .ok t) : Later s t := by
  refine (holdUntil_takesTurns en).later (out := id) ?_ ?_ h
  · rintro s _ hs ⟨⟩
    exact .of_same rfl hs.symm rfl
  · rintro m ms s a (rfl | rfl) hs ih h
    · rw [holdUntil] at h
      split at h
      · cases h
        exact .of_taken hs
      · exact (Later.of_taken hs).trans (ih (s.withMoves ms) rfl h)
    · exact (Later.of_taken hs).trans (ih (s.withMoves ms) rfl h)

theorem proceeds_turn : Proceeds turn := Proceeds.effect later_holdUntil

/-- A statement that is always enabled: the turns before it, and its effect. -/
theorem leads_statement {st : Stmt} {f : State → Except Stop State} (hst : st ≠ .block)
    (hfair : ∀ (ks : List Kont) (s : State), fairStep (s.standAt st ks) = engineStep (s.standAt st ks))
    (hrun : ∀ (ks : List Kont) (s : State), engineStep (s.standAt st ks) = (f s).bind (returnTo ks .unit))
    (hf : ∀ {s t}, f s = .ok t → Later s t) :
    Performs (.begins (State.standAt st)) (turn >>= fun _ => M.effect f) fun _ => .unit where
  comes ks s := by
    simp only [M.bind_eq, turn, M.effect_bind, bind_bind]
    refine (holdUntil_takesTurns _).comes ?_ ?_ s
    · intro s hs
      refine .step ?_
      rw [nextStep_standAt hs, hfair, hrun, holdUntil, withMoves_nil hs]
      exact .refl _
    · rintro m ms s (rfl | rfl) ih
      · exact (hrun ks (s.withMoves ms)) ▸ .refl _
      · rw [takeMove_timeout, timeoutStep_standAt hst]
        exact ih (s.withMoves ms) rfl
  later := proceeds_turn.bind fun _ => .effect hf

theorem performs_winWrite (off : Nat) (w : Word) (r : Bool) :
    Performs (.begins (State.standAt (.winWrite off w r))) (winWrite off w r) fun _ => .unit := by
  refine leads_statement (by simp) (fun _ _ => rfl) (fun ks s => ?_) fun {s t} h => ?_
  · exact (congrArg (Except.bind · _) (post_standAt off w r _ ks s)).trans (bind_returnTo_standAt _ _ _ _ _)
  · unfold post at h
    split at h
    · cases h
      exact .of_same rfl rfl rfl
    · simp at h

theorem performs_delay (us : Nat) : Performs (.begins (beginDelay us)) (delayUs us) fun _ => .unit :=
  leads_statement (f := fun s => .ok (s.record (.delay us))) (by simp) (fun _ _ => rfl)
    (fun ks s => returnTo_standAt ks ks .unit _ (s.record (.delay us)))
    fun h => by cases h; exact .of_same rfl rfl rfl

theorem later_apply (a : Assign) (s : State) : Later s (a.apply s) := by
  cases a with
  | controller target window irqLine sys =>
    refine ⟨rfl, ?_⟩
    by_cases hm : s.moves = [] <;> simp [State.wakesLeft, newController, hm]
  | _ => exact .of_same rfl rfl rfl

theorem performs_assign (a : Assign) : Performs (.begins (beginAssign a)) (assign a) fun _ => .unit :=
  leads_statement (f := fun s => .ok (a.apply s)) (by simp) (fun _ _ => rfl)
    (fun ks s => (congrArg (returnTo ks .unit) (apply_standAt a _ ks s)).trans (returnTo_standAt ks ks .unit _ (a.apply s)))
    fun h => by cases h; exact later_apply a _

/-! ### Draining what is posted (R73, R74) -/

theorem drainSteps_later {n : Nat} {s t : State} (h : drainSteps n s = .ok t) : Later s t ∧ t.moves = s.moves := by
  induction n generalizing s with
  | zero => cases h; exact ⟨.refl _, rfl⟩
  | succ n ih =>
    unfold drainSteps at h
    obtain ⟨u, hu, h⟩ := bind_eq_ok h
    obtain ⟨hl, hm⟩ := ih h
    exact ⟨(later_envMove (m := .drain) (by simp) hu).trans hl, hm.trans (envMove_moves (m := .drain) hu)⟩

theorem drainSteps_posted {n : Nat} {s t : State} (hn : s.posted.length = n) (h : drainSteps n s = .ok t) :
    t.posted = [] := by
  induction n generalizing s with
  | zero => cases h; exact List.length_eq_zero_iff.1 hn
  | succ n ih =>
    unfold drainSteps at h
    obtain ⟨u, hu, h⟩ := bind_eq_ok h
    exact ih (by rw [drainStep_posted hu, List.length_tail, hn]; rfl) h

theorem drainAll_nil {s : State} (h : s.posted = []) : drainAll s = .ok s := by
  unfold drainAll
  rw [h]
  rfl

theorem proceeds_turnDrained : Proceeds turnDrained := by
  refine Proceeds.effect fun {s u} h => ?_
  obtain ⟨t, ht, h⟩ := bind_eq_ok h
  exact (later_holdUntil ht).trans (drainSteps_later h).1

/-- Where the fair environment drains first, the machine drains everything once no turn is listed. -/
theorem comes_drained {st : Stmt} {ks : List Kont}
    (hfair : ∀ s : State, s.posted ≠ [] → fairStep (s.standAt st ks) = drainStep (s.standAt st ks)) {s : State}
    (hs : s.moves = []) : Comes (.ok (s.standAt st ks)) ((drainAll s).bind fun t => .ok (t.standAt st ks)) := by
  unfold drainAll
  generalize hn : s.posted.length = n
  induction n generalizing s with
  | zero => exact .refl _
  | succ n ih =>
    have hne : s.posted ≠ [] := fun h => by simp [h] at hn
    refine .step ?_
    rw [nextStep_standAt hs, hfair s hne, show drainStep _ = _ from envMove_standAt .drain st ks s, drainSteps]
    show Comes ((drainStep s).map _) _
    cases hu : drainStep s with
    | error e => exact .refl _
    | ok u =>
      exact ih ((envMove_moves (m := .drain) hu).trans hs) (by rw [drainStep_posted hu, List.length_tail, hn]; rfl)

/-! ### The readback (R142) -/

theorem bind_readWindow_standAt (off : Nat) (st : Stmt) (ks : List Kont) (s : State) (F : Word × State → Except Stop State) :
    (readWindow off (s.standAt st ks)).bind F = (readWindow off s).bind fun r => F (r.1, r.2.standAt st ks) := by
  rw [readWindow_standAt]
  cases readWindow off s <;> rfl

theorem proceeds_readWindow (off : Nat) : Proceeds (readWindow off : M Word) := fun _ _ _ h => later_readWindow h

theorem engineStep_readback {s : State} (h : s.posted = []) (ks : List Kont) :
    engineStep (s.standAt .readback ks) = (readWindow Config.offRaw s).bind fun r => returnTo ks .unit r.2 := by
  have hstep : engineStep (s.standAt .readback ks)
      = (readWindow Config.offRaw (s.standAt .readback ks)).bind fun r => returnTo ks .unit r.2 := if_pos h
  rw [hstep, bind_readWindow_standAt]
  simp only [returnTo_standAt]

theorem fairStep_readback (ks : List Kont) (s : State) : fairStep (s.standAt .readback ks) =
    if s.posted ≠ [] then drainStep (s.standAt .readback ks) else engineStep (s.standAt .readback ks) := rfl

theorem performs_readback : Performs (.begins (State.standAt .readback)) readback fun _ => .unit where
  comes ks s := by
    simp only [readback, turnDrained, M.bind_eq, M.effect_bind, bind_bind]
    refine (holdUntil_takesTurns _).comes ?_ ?_ s
    · intro s hs
      rw [holdUntil, withMoves_nil hs]
      refine (comes_drained (fun s h => (fairStep_readback ks s).trans (if_pos h)) hs).trans (.bind fun t ht => .step ?_)
      have hp := drainSteps_posted rfl ht
      rw [nextStep_standAt ((drainSteps_later ht).2.trans hs), fairStep_readback, if_neg (not_not.2 hp),
        engineStep_readback hp]
      exact .refl _
    · rintro m ms s (rfl | rfl) ih
      · by_cases hp : s.posted = []
        · rw [holdUntil, if_pos (by simp [hp])]
          have hd : drainAll (s.withMoves ms) = .ok (s.withMoves ms) := drainAll_nil hp
          rw [takeMove_engine, engineStep_readback (s := s.withMoves ms) hp]
          show Comes _ ((drainAll (s.withMoves ms)).bind _)
          rw [hd]
          exact .refl _
        · have hhold : engineStep ((s.withMoves ms).standAt .readback ks) = .ok _ := if_neg hp
          rw [holdUntil, if_neg (by simp [hp]), takeMove_engine, hhold]
          exact ih (s.withMoves ms) rfl
      · exact ih (s.withMoves ms) rfl
  later := proceeds_turnDrained.bind fun _ => (proceeds_readWindow _).bind fun _ => .pure ()

/-! ### The valid-bit poll (R140, R141) -/

theorem pollTurns_takesTurns : TakesTurns pollTurns := by
  intro m ms s he _
  cases m with
  | engine => exact absurd rfl he
  | _ => rfl

theorem pollTurns_nil (s : State) : pollTurns [] s = (drainAll (s.withMoves [])).bind fun t => (portStep t).bind fun u =>
    (readWindow Config.offCmd u).bind fun r => .ok (lowByte r.1, r.2) := rfl

theorem pollTurns_engine (ms : List Move) (s : State) : pollTurns (.engine :: ms) s =
    if s.posted = [] then
      (readWindow Config.offCmd (s.withMoves ms)).bind fun r =>
        if cmdValid r.1 then pollTurns ms r.2 else .ok (lowByte r.1, r.2)
    else pollTurns ms (s.withMoves ms) := rfl

theorem engineStep_poll {s : State} (h : s.posted = []) (ks : List Kont) :
    engineStep (s.standAt .poll ks) = (readWindow Config.offCmd s).bind fun r =>
      if cmdValid r.1 then .ok (r.2.standAt .poll ks) else returnTo ks (.byte (lowByte r.1)) r.2 := by
  have hstep : engineStep (s.standAt .poll ks) = (readWindow Config.offCmd (s.standAt .poll ks)).bind fun r =>
      if cmdValid r.1 then .ok r.2 else returnTo ks (.byte (lowByte r.1)) r.2 := if_pos h
  rw [hstep, bind_readWindow_standAt]
  simp only [returnTo_standAt]

theorem fairStep_poll (ks : List Kont) (s : State) : fairStep (s.standAt .poll ks) =
    if s.posted ≠ [] then drainStep (s.standAt .poll ks)
    else if s.port.busy then portStep (s.standAt .poll ks) else engineStep (s.standAt .poll ks) := rfl

theorem perform_posted {w : Word} {i : Instr} {s t : State} (hi : decodeCmd w = .ok i) (h : perform w i s = .next t) :
    t.posted = s.posted := by
  rcases decodeCmd_cases hi with ⟨b, rfl⟩ | ⟨b, rfl⟩ | ⟨b, rfl⟩ | ⟨b, rfl⟩ | ⟨b, rfl⟩ | rfl | rfl | rfl
  case inr.inr.inl =>
    simp only [perform, execWrregCtl] at h
    split at h
    · cases h; rfl
    · cases h
  case inr.inr.inr.inl =>
    simp only [perform, execWrregClkctl] at h
    split at h
    · cases h; rfl
    · cases h
  all_goals cases h; simp [rstWrite]

/-- After a PORT step no access is held, and nothing else was drained (R150). -/
theorem portStep_idle {s t : State} (h : portStep s = .ok t) : t.port.busy = false ∧ t.posted = s.posted := by
  cases hb : s.port.busy with
  | false =>
    simp only [portStep, hb, Bool.false_eq_true, if_false, Except.ok.injEq] at h
    exact h ▸ ⟨hb, rfl⟩
  | true =>
    obtain ⟨i, u, hi, hu, rfl⟩ := portStep_busy hb h
    exact ⟨rfl, (perform_posted hi hu :)⟩

/-- Where the poll has nothing to drain, the machine completes the access once no turn is listed. -/
theorem comes_ported {s : State} (hs : s.moves = []) (hp : s.posted = []) (ks : List Kont) :
    Comes (.ok (s.standAt .poll ks)) ((portStep s).bind fun t => .ok (t.standAt .poll ks)) := by
  cases hb : s.port.busy with
  | false =>
    have hidle : portStep s = .ok s := by simp [portStep, hb]
    exact hidle ▸ .refl _
  | true =>
    refine .step ?_
    rw [nextStep_standAt hs, fairStep_poll, if_neg (not_not.2 hp), if_pos hb,
      show portStep (s.standAt .poll ks) = _ from envMove_standAt .port .poll ks s]
    show Comes ((portStep s).map _) _
    cases portStep s <;> exact .refl _

/-- With nothing posted and the PORT idle the poll ends at once: `CMD_V` reads 0 (R73, D35). -/
theorem comes_polled {s : State} (hs : s.moves = []) (hp : s.posted = []) (hb : s.port.busy = false) (ks : List Kont) :
    Comes (.ok (s.standAt .poll ks))
      ((readWindow Config.offCmd s).bind fun r => returnTo ks (.byte (lowByte r.1)) r.2) := by
  obtain ⟨w, hr, hv, _⟩ := readWindow_cmd s
  refine .step ?_
  rw [nextStep_standAt hs, fairStep_poll, if_neg (not_not.2 hp), if_neg (by simp [hb]), engineStep_poll hp, hr]
  show Comes (if cmdValid w then _ else _) _
  rw [hv, hb]
  exact .refl _

theorem later_pollTurns {s : State} {r : Byte × State} (h : pollTurns s.moves s = .ok r) : Later s r.2 := by
  refine pollTurns_takesTurns.later (out := Prod.snd) ?_ ?_ h
  · intro s r hs h
    rw [pollTurns_nil, withMoves_nil hs] at h
    obtain ⟨t, ht, h⟩ := bind_eq_ok h
    obtain ⟨u, hu, h⟩ := bind_eq_ok h
    obtain ⟨x, hx, h⟩ := bind_eq_ok h
    cases h
    exact (drainSteps_later ht).1.trans ((later_envMove (m := .port) (by simp) hu).trans (later_readWindow hx))
  · rintro m ms s r (rfl | rfl) hs ih h
    · rw [pollTurns_engine] at h
      split at h
      · obtain ⟨x, hx, h⟩ := bind_eq_ok h
        refine (Later.of_taken hs).trans ((later_readWindow hx).trans ?_)
        split at h
        · exact ih x.2 (by rw [readWindow_ok hx]; simp) h
        · cases h
          exact .refl _
      · exact (Later.of_taken hs).trans (ih (s.withMoves ms) rfl h)
    · exact (Later.of_taken hs).trans (ih (s.withMoves ms) rfl h)

theorem performs_poll : Performs (.begins (State.standAt .poll)) poll .byte where
  comes ks s := by
    refine pollTurns_takesTurns.comes (F := fun r => returnTo ks (.byte r.1) r.2) ?_ ?_ s
    · intro s hs
      rw [pollTurns_nil, withMoves_nil hs, bind_bind]
      refine (comes_drained (fun s h => (fairStep_poll ks s).trans (if_pos h)) hs).trans (.bind fun t ht => ?_)
      have htm := (drainSteps_later ht).2.trans hs
      have htp := drainSteps_posted rfl ht
      rw [bind_bind]
      refine (comes_ported htm htp ks).trans (.bind fun u hu => ?_)
      obtain ⟨hub, hup⟩ := portStep_idle hu
      rw [bind_bind]
      exact comes_polled ((envMove_moves (m := .port) hu).trans htm) (hup.trans htp) hub ks
    · rintro m ms s (rfl | rfl) ih
      · rw [pollTurns_engine]
        split
        · next hp =>
          rw [takeMove_engine, engineStep_poll (s := s.withMoves ms) hp, bind_bind]
          refine .bind fun r hr => ?_
          split
          · exact ih r.2 (by rw [readWindow_ok hr]; simp)
          · exact .refl _
        · next hp =>
          have hhold : engineStep ((s.withMoves ms).standAt .poll ks) = .ok _ := if_neg hp
          rw [takeMove_engine, hhold]
          exact ih (s.withMoves ms) rfl
      · exact ih (s.withMoves ms) rfl
  later := fun _ _ _ h => later_pollTurns h

/-! ### `Block()` (R184) -/

theorem blockTurns_takesTurns : TakesTurns blockTurns := by
  intro m ms s he ht
  cases m with
  | engine => exact absurd rfl he
  | timeout => exact absurd rfl ht
  | _ => rfl

theorem blockTurns_nil (s : State) : blockTurns [] s =
    if s.controller.completion then .ok (true, (s.withMoves []).consume) else .ok (false, s.withMoves []) := rfl

theorem blockTurns_engine (ms : List Move) (s : State) : blockTurns (.engine :: ms) s =
    if s.controller.completion then .ok (true, (s.withMoves ms).consume) else blockTurns ms (s.withMoves ms) := rfl

theorem engineStep_block (ks : List Kont) (s : State) : engineStep (s.standAt .block ks) =
    if s.controller.completion then returnTo ks (.bool true) s.consume else .ok (s.standAt .block ks) := by
  rw [← returnTo_standAt ks ks (.bool true) .block s.consume]
  rfl

theorem timeoutStep_block (ks : List Kont) (s : State) :
    timeoutStep (s.standAt .block ks) = returnTo ks (.bool false) s := returnTo_standAt ks ks (.bool false) .block s

theorem fairStep_block (ks : List Kont) (s : State) : fairStep (s.standAt .block ks) =
    if s.controller.completion then engineStep (s.standAt .block ks) else timeoutStep (s.standAt .block ks) := rfl

theorem later_consume (s : State) : Later s s.consume := by
  refine ⟨rfl, ?_⟩
  by_cases hm : s.moves = [] <;> simp [State.wakesLeft, hm]

theorem later_blockTurns {s : State} {r : Bool × State} (h : blockTurns s.moves s = .ok r) : Later s r.2 := by
  refine blockTurns_takesTurns.later (out := Prod.snd) ?_ ?_ h
  · intro s r hs h
    rw [blockTurns_nil, withMoves_nil hs] at h
    split at h <;> cases h
    · exact later_consume s
    · exact .refl s
  · rintro m ms s r (rfl | rfl) hs ih h
    · rw [blockTurns_engine] at h
      split at h
      · cases h
        exact (Later.of_taken hs).trans (later_consume _)
      · exact (Later.of_taken hs).trans (ih (s.withMoves ms) rfl h)
    · cases h
      exact .of_taken hs

theorem performs_block : Performs (.begins (State.standAt .block)) block .bool where
  comes ks s := by
    refine blockTurns_takesTurns.comes (F := fun r => returnTo ks (.bool r.1) r.2) ?_ ?_ s
    · intro s hs
      refine .step ?_
      rw [nextStep_standAt hs, fairStep_block, engineStep_block, timeoutStep_block, blockTurns_nil, withMoves_nil hs]
      split <;> exact .refl _
    · rintro m ms s (rfl | rfl) ih
      · rw [blockTurns_engine, takeMove_engine, engineStep_block]
        show Comes (if s.controller.completion then _ else _) _
        split
        · exact .refl _
        · exact ih (s.withMoves ms) rfl
      · rw [takeMove_timeout, timeoutStep_block]
        exact .refl _
  later := fun _ _ _ h => later_blockTurns h

/-- A wake uses up a listed turn, or the completion that stands at their end. -/
theorem wakesLeft_lt_of_wake {s t : State} (h : block s = .ok (true, t)) : t.wakesLeft < s.wakesLeft := by
  unfold block at h
  cases hs : s.moves with
  | nil =>
    rw [hs, blockTurns_nil] at h
    split at h <;> cases h
    next hc => simp [State.wakesLeft, State.withMoves, hs, hc]
  | cons m ms =>
    rw [hs] at h
    suffices hu : ∃ u : State, u.moves = ms ∧ Later u t by
      obtain ⟨u, hu, hl⟩ := hu
      exact hl.wakes.trans_lt (wakesLeft_lt_of_turn hs hu)
    by_cases he : m = .engine
    · rw [he, blockTurns_engine] at h
      split at h
      · cases h
        exact ⟨s.withMoves ms, rfl, later_consume _⟩
      · exact ⟨s.withMoves ms, rfl, later_blockTurns (r := (true, t)) h⟩
    · have ht : m ≠ .timeout := by
        rintro rfl
        cases h
      rw [blockTurns_takesTurns m ms s he ht] at h
      obtain ⟨u, hu, h⟩ := bind_eq_ok h
      have hm : u.moves = ms := envMove_moves hu
      exact ⟨u, hm, later_blockTurns (r := (true, t)) (hm ▸ h)⟩

end Sys2Proof.Machine
end

section
/-! The operations: from the place where each begins, the machine does what the operation means. -/

namespace Sys2Proof.Machine

open Sys2Proof

/-! ### The port (R140-R142) and what is built on it alone (R180-R182) -/

theorem performs_writeRegister (sel : Selector) (b : Byte) :
    Performs (.begins (beginWrite sel b)) (writeRegister sel b) fun _ => .unit :=
  ((performs_winWrite _ _ _).inside .writePoll).bind fun _ =>
    (performs_poll.inside .writeDone).bind fun _ => .pure () fun _ _ => rfl

theorem performs_readRegister (sel : Selector) :
    Performs (.begins (beginRead sel)) (readRegister sel) .byte :=
  ((performs_winWrite _ _ _).inside .readPoll).bind fun _ => performs_poll

theorem performs_writeRawAs (recovery : Bool) (v : Word) :
    Performs (.begins (beginRaw recovery v)) (writeRawAs recovery v) fun _ => .unit :=
  ((performs_winWrite _ _ _).inside .rawReadback).bind fun _ => performs_readback

theorem performs_enable : Performs (.begins beginEnable) enable fun _ => .unit := performs_writeRawAs _ _

theorem performs_disable : Performs (.begins beginDisable) disable fun _ => .unit := performs_writeRawAs _ _

theorem performs_ready : Performs (.begins beginReady) ready .bool :=
  ((performs_readRegister .ctl).inside .readyTest).bind fun b => .pure (ctlReady b) fun _ _ => rfl

/-! ### `wait()` (R183) -/

/-- `disable()`, and then the status is returned. -/
theorem performs_disableThen (r : Option OpErr) :
    Performs (.begins fun ks => beginDisable (.giveStatus r :: ks)) (do disable; return r) .status :=
  (performs_disable.inside (.giveStatus r)).bind fun _ => .pure r fun _ _ => rfl

theorem proceeds_waitLoop (n : Nat) : Proceeds (waitLoop n) := by
  induction n with
  | zero => exact (performs_disableThen _).later
  | succ n ih =>
    refine performs_block.later.bind fun woken => ?_
    cases woken with
    | false => exact (performs_disableThen _).later
    | true =>
      refine performs_ready.later.bind fun b => ?_
      cases b with
      | false => exact ih
      | true => exact (performs_disableThen _).later

/-- The loop of `wait()` is run to its end where its bound lets every wake that is left be taken. -/
theorem comes_waitLoop {n : Nat} {s : State} (h : s.wakesLeft < n) (ks : List Kont) :
    Comes (.ok (s.standAt .block (.waitWoken :: ks)))
      ((waitLoop n s).bind fun r => returnTo ks (.status r.1) r.2) := by
  induction n generalizing s with
  | zero => omega
  | succ n ih =>
    rw [waitLoop, M.bind_eq, bind_bind]
    refine (performs_block.comes _ s).trans (.bind fun ⟨woken, t⟩ ht => ?_)
    cases woken with
    | false => exact (performs_disableThen _).comes ks t
    | true =>
      have hwoken := wakesLeft_lt_of_wake ht
      show Comes (.ok (beginReady (.waitReady :: ks) t)) _
      simp only [if_true]
      rw [M.bind_eq, bind_bind]
      refine (performs_ready.comes _ t).trans (.bind fun ⟨b, u⟩ hu => ?_)
      cases b with
      | true => exact (performs_disableThen _).comes ks u
      | false =>
        have hready : u.wakesLeft ≤ t.wakesLeft := (performs_ready.later _ _ _ hu).wakes
        exact ih (s := u) (by omega)

theorem performs_wait : Performs (.begins beginWait) wait .status where
  comes ks s := by
    rw [wait, M.bind_eq, bind_bind]
    refine (performs_enable.comes _ s).trans (.bind fun r _ => ?_)
    exact comes_waitLoop (Nat.lt_succ_of_le (wakesLeft_le r.2)) ks
  later := performs_enable.later.bind fun _ => by
    intro s t a h
    exact proceeds_waitLoop _ _ _ _ h

/-! ### The clock search and `set_clock()` (R213, R214) -/

/-- Where the search stands: at its next assignment, or about to return its result. -/
def Place.search (target sys : Nat) : SearchPos ⊕ ClockParams → Place
  | .inl p => .begins fun ks => beginAssign .working (.search target sys p :: ks)
  | .inr best => .returns (.clock best)

theorem resumes_search (target sys : Nat) (p : SearchPos) (v : Ret) :
    Place.resumes (.search target sys p) v = Place.search target sys (searchStep target sys p) := by
  funext ks s
  cases hq : searchStep target sys p <;> simp only [Place.resumes, Place.next, continueWith, hq] <;> rfl

theorem leads_searchStep (target sys : Nat) (p : SearchPos) :
    Leads (.search target sys (.inl p)) (assign .working) fun _ => .search target sys (searchStep target sys p) :=
  resumes_search target sys p .unit ▸ (performs_assign .working).inside (.search target sys p)

theorem leads_runCandidate (target sys : Nat) (l : SearchLoops) (base : Int) (inc : Nat) (b : Best) :
    Leads (.search target sys (.inl (.t l base inc b))) (runCandidate target sys l.n l.m base inc b) fun b' =>
      .search target sys (nextCandidate l base inc b') := by
  refine (leads_searchStep target sys _).bind fun _ => ?_
  simp only [searchStep]
  split
  · exact .pure b fun _ _ => rfl
  · refine (leads_searchStep target sys _).bind fun _ => ?_
    refine (leads_searchStep target sys _).bind fun _ => ?_
    simp only [searchStep]
    split
    · refine (leads_searchStep target sys _).bind fun _ => ?_
      refine (leads_searchStep target sys _).bind fun _ => ?_
      exact .pure _ fun _ _ => rfl
    · exact .pure b fun _ _ => rfl

theorem leads_runPair (target sys : Nat) (l : SearchLoops) (b : Best) :
    Leads (.search target sys (.inl (.base l b))) (runPair target sys l.n l.m b) fun b' =>
      .search target sys (nextPair l b') :=
  (leads_searchStep target sys _).bind fun _ =>
    (leads_runCandidate target sys l _ 0 b).bind fun b' => leads_runCandidate target sys l _ 1 b'

/-- The loop over `m`, with `ms` still to visit. -/
theorem leads_mdivs (target sys n : Nat) (ns : List Nat) (m : Nat) (ms : List Nat) (b : Best) :
    Leads (.search target sys (nextPair ⟨n, ns, m, ms⟩ b)) (ms.foldlM (fun b m => runPair target sys n m b) b) fun b' =>
      .search target sys (nextPair ⟨n, ns, m, []⟩ b') := by
  induction ms generalizing m b with
  | nil => exact .pure b fun _ _ => rfl
  | cons m' ms ih =>
    rw [List.foldlM_cons]
    exact (leads_runPair target sys ⟨n, ns, m', ms⟩ b).bind fun b' => ih m' b'

/-- The loop over `n`, with `ns` still to visit. -/
theorem leads_ndivs (target sys n : Nat) (ns : List Nat) (m : Nat) (b : Best) :
    Leads (.search target sys (nextPair ⟨n, ns, m, []⟩ b))
      (ns.foldlM (fun b n => mdivs.foldlM (fun b m => runPair target sys n m b) b) b) fun b' =>
        .search target sys (.inr b'.params) := by
  induction ns generalizing n m b with
  | nil => exact .pure b fun _ _ => rfl
  | cons n' ns ih =>
    rw [List.foldlM_cons]
    exact (leads_mdivs target sys n' ns m mdivs b).bind fun b' => ih n' m b'

theorem performs_runClockSearch (target sys : Nat) :
    Performs (.begins (beginSearch target sys)) (runClockSearch target sys) .clock :=
  (leads_searchStep target sys .best).bind fun _ =>
    (leads_searchStep target sys (.delta clockDefault)).bind fun _ =>
      (leads_ndivs target sys 0 ndivs 0 ⟨clockDefault, Config.clkSentinel⟩).bind fun b => .pure b.params fun _ _ => rfl

theorem performs_setClock : Performs (.begins beginSetClock) setClock fun _ => .unit :=
  .get (b := fun u => .begins fun ks =>
      beginSearch u.controller.targetFrequency u.controller.systemClockRate (.clockFound :: ks)) fun _ =>
    ((performs_runClockSearch _ _).inside .clockFound).bind fun p =>
      ((performs_writeRegister _ _).inside (.clockThp p)).bind fun _ =>
        ((performs_writeRegister _ _).inside (.clockCtl p)).bind fun _ => performs_assign (.params p)

/-! ### `init()` (R241) -/

theorem performs_initPolls (left : Nat) : Performs (.next (initLoop left)) (initPolls left) .status := by
  induction left with
  | zero => exact .pure _ fun _ _ => rfl
  | succ left ih =>
    refine ((performs_delay _).inside (.initRead left)).bind fun _ => ?_
    refine ((performs_readRegister .stat).inside (.initTest left)).bind fun b => ?_
    split
    · next hb => exact .resumes (fun _ _ => if_pos hb) (.pure none fun _ _ => rfl)
    · next hb => exact .resumes (fun _ _ => if_neg hb) ih

theorem performs_init : Performs (beginInit Config.initRetries) init .status := by
  have hp : beginInit Config.initRetries = fun ks =>
      Place.begins (beginWrite .ctl Config.ctlEnab) (.initReset :: .initNext Config.initRetries :: ks) := rfl
  rw [init, initWith, if_neg (by decide), hp]
  refine (((performs_writeRegister _ _).inside .initReset).under (.initNext Config.initRetries)).bind fun _ => ?_
  refine ((performs_writeRegister _ _).inside (.initNext Config.initRetries)).bind fun _ => ?_
  exact performs_initPolls Config.initRetries

/-! ### `unblock()` (R250) -/

/-- The pulses lead to the stop-condition pulse. -/
theorem leads_pulses (left : Nat) :
    Leads (.begins (beginPulses left)) (pulses left) fun _ => .begins (beginPulses 0) := by
  induction left with
  | zero => exact .pure () fun _ _ => rfl
  | succ left ih =>
    exact ((performs_writeRawAs true _).inside (.pulseLow left)).bind fun _ =>
      ((performs_delay _).inside (.pulseSettle left)).bind fun _ =>
        ((performs_writeRawAs true _).inside (.pulseHigh left)).bind fun _ =>
          ((performs_delay _).inside (.pulseEnd left)).bind fun _ => ih

theorem performs_unblock : Performs (.begins beginUnblock) unblock fun _ => .unit :=
  (leads_pulses Config.recoveryPulses).bind fun _ =>
    ((performs_writeRawAs true _).inside .unblockStop1).bind fun _ =>
      ((performs_delay _).inside .unblockSettle1).bind fun _ =>
        ((performs_writeRawAs true _).inside .unblockStop2).bind fun _ =>
          ((performs_delay _).inside .unblockSettle2).bind fun _ => performs_writeRawAs true _

/-! ### Errors and checks (R270, R341) -/

/-- An assignment, and then the status is returned. -/
theorem performs_assignThen (a : Assign) (r : Option OpErr) :
    Performs (.next (assignThen a r)) (do assign a; return r) .status :=
  ((performs_assign a).inside (.giveStatus r)).bind fun _ => .pure r fun _ _ => rfl

theorem performs_failWith (e : OpErr) : Performs (.next (raiseError e)) (failWith e) .status := performs_assignThen _ _

theorem performs_checkStatus {k : Kont} {c : StatusClass} {st : Byte} {onOk : M (Option OpErr)}
    {ok : List Kont → State → Except Stop Next}
    (hk : ∀ ks s, continueWith k (.byte st) ks s = if c.accepts st then ok ks s else raiseError (.protocol c st) ks s)
    (hok : Performs (.next ok) onOk .status) : Performs (.resumes k (.byte st)) (checkStatus c st onOk) .status := by
  cases hc : c.accepts st with
  | true =>
    rw [checkStatus_good hc]
    exact .resumes (fun ks s => (hk ks s).trans (if_pos hc)) hok
  | false =>
    rw [checkStatus_bad hc]
    exact .resumes (fun ks s => (hk ks s).trans (if_neg (by simp [hc]))) (performs_failWith _)

theorem performs_tryWait {k : Kont} {next : M (Option OpErr)}
    (hk : ∀ e ks s, continueWith k (.status (some e)) ks s = raiseError e ks s)
    (hnext : Performs (.resumes k (.status none)) next .status) :
    Performs (.begins fun ks => beginWait (k :: ks)) (tryWait next) .status := by
  refine (performs_wait.inside k).bind fun r => ?_
  cases r with
  | none => exact hnext
  | some e => exact .resumes (hk e) (performs_failWith e)

/-! ### `start()` and `stop()` (R271, R275) -/

theorem waitLoop_result {n : Nat} {s t : State} {r : Option OpErr} (h : waitLoop n s = .ok (r, t)) :
    r = none ∨ r = some .timeout := by
  induction n generalizing s with
  | zero =>
    obtain ⟨_, _, h⟩ := bind_eq_ok h
    cases h
    exact .inr rfl
  | succ n ih =>
    obtain ⟨⟨woken, u⟩, _, h⟩ := bind_eq_ok h
    cases woken with
    | false =>
      obtain ⟨_, _, h⟩ := bind_eq_ok h
      cases h
      exact .inr rfl
    | true =>
      obtain ⟨⟨b, v⟩, _, h⟩ := bind_eq_ok h
      cases b with
      | false => exact ih h
      | true =>
        obtain ⟨_, _, h⟩ := bind_eq_ok h
        cases h
        exact .inl rfl

theorem wait_result {s t : State} {r : Option OpErr} (h : wait s = .ok (r, t)) : r = none ∨ r = some .timeout := by
  obtain ⟨u, _, h⟩ := bind_eq_ok h
  exact waitLoop_result h

theorem performs_startCheck : Performs (.begins fun ks => beginRead .stat (.startTest :: ks)) startCheck .status :=
  ((performs_readRegister .stat).inside .startTest).bind fun _ =>
    performs_checkStatus (fun _ _ => rfl) (performs_assignThen _ none)

theorem performs_start : Performs (.begins beginStart) start .status := by
  refine ((performs_writeRegister _ _).inside .startWait).bind fun _ => ?_
  refine (performs_wait.inside .startWaited).bind_of fun r hr => ?_
  cases r with
  | none => exact performs_startCheck
  | some e =>
    have he : e = .timeout := by
      obtain ⟨s, t, h⟩ := hr
      simpa using wait_result h
    subst he
    refine ((performs_readRegister .stat).inside .startDecide).bind fun b => ?_
    split
    · next hb =>
      refine .resumes (fun _ _ => if_pos hb) ?_
      refine (performs_unblock.inside .startRecovered).bind fun _ => ?_
      refine ((performs_writeRegister _ _).inside .startRewait).bind fun _ => ?_
      refine (performs_wait.inside .startRewaited).bind fun r => ?_
      cases r with
      | none => exact performs_startCheck
      | some e => exact performs_failWith _
    · next hb => exact .resumes (fun _ _ => if_neg hb) (performs_failWith _)

theorem performs_stop : Performs (.begins beginStop) stop .status :=
  ((performs_writeRegister _ _).inside .stopWritten).bind fun _ =>
    ((performs_assign _).inside .stopRead).bind fun _ =>
      ((performs_readRegister .stat).inside .stopTest).bind fun _ =>
        performs_checkStatus (fun _ _ => rfl) (performs_assignThen _ none)

/-! ### Messages (R280, R285) -/

theorem performs_sendBytes (i : Nat) (rest : List Byte) : Performs (.next (txLoop i rest)) (sendBytes i rest) .status := by
  induction rest generalizing i with
  | nil => exact .pure none fun _ _ => rfl
  | cons b rest ih =>
    refine ((performs_readRegister .stat).inside (.txTest i b rest)).bind fun st => ?_
    refine performs_checkStatus (fun _ _ => rfl) ?_
    refine ((performs_assign _).inside (.txChecked i b rest)).bind fun _ => ?_
    refine ((performs_writeRegister _ _).inside (.txLoaded i rest)).bind fun _ => ?_
    refine ((performs_writeRegister _ _).inside (.txSent (i + 1) rest)).bind fun _ => ?_
    exact performs_tryWait (k := .txWaited (i + 1) rest) (fun _ _ _ => rfl) (ih (i + 1))

theorem performs_writeMessage (a : Addr7) (payload : List Byte) :
    Performs (.begins (beginWriteMessage a payload)) (writeMessage a payload) .status := by
  refine (performs_start.inside (.txStarted a payload)).bind fun r => ?_
  cases r with
  | some e => exact performs_failWith e
  | none =>
    refine ((performs_writeRegister _ _).inside (.txAddressed payload)).bind fun _ => ?_
    refine ((performs_writeRegister _ _).inside (.txSent 0 payload)).bind fun _ => ?_
    exact performs_tryWait (k := .txWaited 0 payload) (fun _ _ _ => rfl) (performs_sendBytes 0 payload)

theorem performs_receiveBytes (k i left : Nat) :
    Performs (.next (rxLoop k i left)) (receiveBytes k i left) .status := by
  induction left generalizing i with
  | zero => exact .pure none fun _ _ => rfl
  | succ left ih =>
    refine ((performs_readRegister .stat).inside (.rxTest k i left)).bind fun st => ?_
    refine performs_checkStatus (fun _ _ => rfl) ?_
    refine ((performs_assign _).inside (.rxChecked k i left)).bind fun _ => ?_
    refine ((performs_writeRegister _ _).inside (.rxAsked k i left)).bind fun _ => ?_
    refine performs_tryWait (k := .rxWaited k i left) (fun _ _ _ => rfl) ?_
    refine ((performs_readRegister .data).inside (.rxByte k i left)).bind fun b => ?_
    exact ((performs_assign _).inside (.rxStored k i left)).bind fun _ => ih (i + 1)

theorem performs_readMessage (k : Nat) (a : Addr7) (len : Nat) :
    Performs (.begins (beginReadMessage k a len)) (readMessage k a len) .status := by
  refine ((performs_assign _).inside (.rxLength k a len)).bind fun _ => ?_
  split
  · next hl => exact .resumes (fun _ _ => if_pos hl) (.pure _ fun _ _ => rfl)
  · next hl =>
    refine .resumes (fun _ _ => if_neg hl) ?_
    refine (performs_start.inside (.rxStarted k a len)).bind fun r => ?_
    cases r with
    | some e => exact performs_failWith e
    | none =>
      refine ((performs_writeRegister _ _).inside (.rxAddressed k len)).bind fun _ => ?_
      refine ((performs_writeRegister _ _).inside (.rxSent k len)).bind fun _ => ?_
      exact performs_tryWait (k := .rxAddrWaited k len) (fun _ _ _ => rfl) (performs_receiveBytes k 0 len)

/-! ### The batch (R290) -/

theorem leads_message (count : Nat) (m : Message) (ms : List Message) :
    Leads (.begins (beginMessages count (m :: ms))) (message count m) fun r =>
      .resumes (.batchNext count ms) (.status r) := by
  cases hd : m.direction with
  | write =>
    have hp : Place.begins (beginMessages count (m :: ms))
        = fun ks => Place.begins (beginWriteMessage m.address m.buffer) (.batchNext count ms :: ks) := by
      funext ks s
      simp only [Place.begins, beginMessages, hd]
    rw [message, hd, hp]
    exact (performs_writeMessage _ _).inside (.batchNext count ms)
  | read =>
    have hp : Place.begins (beginMessages count (m :: ms))
        = fun ks => Place.begins (beginReadMessage count m.address m.buffer.length) (.batchNext count ms :: ks) := by
      funext ks s
      simp only [Place.begins, beginMessages, hd]
    rw [message, hd, hp]
    exact (performs_readMessage _ _ _).inside (.batchNext count ms)

theorem leads_messages (count : Nat) (ms : List Message) :
    Leads (.begins (beginMessages count ms)) (messages count ms) fun r =>
      .begins fun ks => beginStop (.batchStopped r.1 r.2 :: ks) := by
  induction ms generalizing count with
  | nil => exact .pure _ fun _ _ => rfl
  | cons m ms ih =>
    refine (leads_message count m ms).bind fun r => ?_
    cases r with
    | some e => exact ((performs_assign .working).inside (.batchFailed count e)).bind fun _ => .pure _ fun _ _ => rfl
    | none => exact ((performs_assign .working).inside (.batchLoop (count + 1) ms)).bind fun _ => ih (count + 1)

/-- The batch's end: what `stop()` reports, and the result. -/
theorem performs_reportStop (count : Nat) (err rs : Option OpErr) :
    Performs (.resumes (.batchStopped count err) (.status rs))
      (do reportStop err rs; return (count, batchError err rs)) fun r => .batch r.1 r.2 := by
  unfold reportStop
  split
  · next h =>
    obtain ⟨rfl, hrs⟩ := h
    refine .resumes (fun _ _ => if_pos ⟨rfl, hrs⟩) ?_
    exact ((performs_assign .working).inside (.giveBatch count rs)).bind fun _ => .pure _ fun _ _ => rfl
  · next h =>
    have herr : batchError err rs = err := by
      cases err with
      | some e => rfl
      | none => exact not_not.1 fun hrs => h ⟨rfl, hrs⟩
    rw [herr]
    exact .resumes (fun _ _ => if_neg h) (.pure (count, err) fun _ _ => rfl)

theorem performs_runBatch (msgs : List Message) :
    Performs (.begins (beginBatch msgs)) (runBatch msgs) fun r => .batch r.1 r.2 :=
  ((performs_assign _).inside (.batchCount msgs)).bind fun _ =>
    ((performs_assign _).inside (.batchLoop 0 msgs)).bind fun _ =>
      (leads_messages 0 msgs).bind fun r =>
        (performs_stop.inside (.batchStopped r.1 r.2)).bind fun rs => performs_reportStop r.1 r.2 rs

/-! ### The call surface (R320-R322) -/

theorem performs_openWith (target window irqLine sys : Nat) :
    Performs (.begins fun ks => beginAssign (.controller target window irqLine sys) (.openCreated :: ks))
      (openWith target window irqLine sys) .status := by
  refine ((performs_assign _).inside .openCreated).bind fun _ => ?_
  refine (performs_init.inside .openInited).bind fun r => ?_
  cases r with
  | some e => exact .pure _ fun _ _ => rfl
  | none =>
    refine (performs_setClock.inside .openClocked).bind fun _ => ?_
    exact ((performs_assign _).inside .openMarked).bind fun _ => performs_assignThen _ none

theorem performs_batchCall (msgs : List Message) :
    Performs (.begins fun ks => beginAssign (.inBatch true) (.xferBegin msgs :: ks)) (batchCall msgs) fun r =>
      .batch r.1 r.2 :=
  ((performs_assign _).inside (.xferBegin msgs)).bind fun _ =>
    ((performs_runBatch msgs).inside .xferDone).bind fun r =>
      ((performs_assign _).inside (.giveBatch r.1 r.2)).bind fun _ => .pure r fun _ _ => rfl

theorem performs_closeCall : Performs (.begins fun ks => beginDisable (.closeDone :: ks)) closeCall fun _ => .unit :=
  (performs_disable.inside .closeDone).bind fun _ => performs_assign (.isOpen false)

/-! ### Calls (R112) -/

theorem decodeCall_encode {i : Instr} {c : Call} (h : encode i = .call c) : decodeCall c = .ok i := by
  cases i <;> cases h <;> rfl

/-- An operation that begins where nothing remains around it comes to its meaning. -/
theorem Leads.finishes {α : Type} {p : Place} {m : M α} {ret : α → Ret} (h : Performs p m ret) {s : State}
    (hs : s.thread = none) : ∃ n, toOutcome ((p [] s).bind (steps n)) = finish ret m s := by
  obtain ⟨n, hn⟩ := h.comes [] s
  refine ⟨n, congrArg toOutcome (hn.trans ?_)⟩
  cases hr : m s with
  | error e => rfl
  | ok r =>
    have hth : r.2.thread = none := (h.later _ _ _ hr).thread.trans hs
    show Except.ok { r.2 with thread := none, result := some (ret r.1) } = .ok _
    rw [← hth]

/-- Beginning an operation by name and running the machine comes to what the operation means. -/
theorem beginOp_comes {i : Instr} {c : Call} {s : State} (hc : encode i = .call c) (hi : i ≠ .irqHandler)
    (hs : s.thread = none) : ∃ n, toOutcome ((beginOp i s).bind (steps n)) = exec i s := by
  cases i with
  | wrregThp | wrregData | wrregCtl | wrregClkctl | wrregRst | rdregData | rdregCtl | rdregStat | wrraw => cases hc
  | irqHandler => exact absurd rfl hi
  | writeRegister sel b =>
    simp only [beginOp, exec, execWriteRegister]
    split
    · exact (performs_writeRegister sel b).finishes hs
    · exact ⟨0, rfl⟩
  | readRegister sel =>
    simp only [beginOp, exec, execReadRegister]
    split
    · exact (performs_readRegister sel).finishes hs
    · exact ⟨0, rfl⟩
  | writeRaw v =>
    simp only [beginOp, exec, execWriteRaw]
    split
    · exact (performs_writeRawAs false v).finishes hs
    · exact ⟨0, rfl⟩
  | delay us => exact (performs_delay us).finishes hs
  | enable => exact performs_enable.finishes hs
  | disable => exact performs_disable.finishes hs
  | ready => exact performs_ready.finishes hs
  | wait => exact performs_wait.finishes hs
  | clockSearch target sys =>
    simp only [beginOp, exec, execClockSearch]
    split
    · exact ⟨0, rfl⟩
    · exact (performs_runClockSearch target sys).finishes hs
  | setClock =>
    simp only [beginOp, exec, execSetClock]
    split
    · exact ⟨0, rfl⟩
    · exact performs_setClock.finishes hs
  | init => exact performs_init.finishes hs
  | unblock => exact performs_unblock.finishes hs
  | start => exact performs_start.finishes hs
  | stop => exact performs_stop.finishes hs
  | writeMessage a p => exact (performs_writeMessage a p).finishes (s := s.withBuffers [p]) hs
  | readMessage a b => exact (performs_readMessage 0 a b.length).finishes (s := s.withBuffers [b]) hs
  | executeBatchEngine ms =>
    simp only [beginOp, exec, execExecuteBatchEngine, tooLong_none]
    exact (performs_runBatch ms).finishes (s := s.withBuffers (ms.map Message.buffer)) hs
  | openController target window irqLine sys =>
    simp only [beginOp, exec, execOpenController]
    cases notOpenable target s with
    | some r => exact ⟨0, rfl⟩
    | none => exact (performs_openWith target window irqLine sys).finishes hs
  | executeBatch ms =>
    simp only [beginOp, exec, execExecuteBatch]
    cases notRunnable ms s with
    | some r => exact ⟨0, rfl⟩
    | none => exact (performs_batchCall ms).finishes (s := s.withBuffers (ms.map Message.buffer)) hs
  | close =>
    simp only [beginOp, exec, execClose]
    cases notUsable s with
    | some r => exact ⟨0, rfl⟩
    | none => exact performs_closeCall.finishes hs

/-- The step that takes a call begins the operation. -/
theorem run_call {c : Call} {i : Instr} {s : State} (hd : decodeCall c = .ok i) (hs : s.thread = none) (n : Nat) :
    run (n + 1) { s with moves := .call c :: s.moves } = toOutcome ((beginOp i s).bind (steps n)) := by
  have hcall : nextStep { s with moves := .call c :: s.moves } = beginOp i s := by
    show callStep c s = _
    simp only [callStep, hs, hd, if_true]
  rw [run_eq_steps, steps, hcall]

/-- Settles O58: the step that takes the call begins the operation, and from the place where an operation begins a run of
single steps does what the operation means (`Leads`, shown for each primitive statement and carried along the pseudocode). -/
theorem stepwiseRunAgreesWithTheMeaning : Obligations.StepwiseRunAgreesWithTheMeaning := by
  intro i c s hc hi hs
  obtain ⟨n, hn⟩ := beginOp_comes hc hi hs
  exact ⟨n + 1, (run_call (decodeCall_encode hc) hs n).trans hn⟩

end Sys2Proof.Machine
end

section
/-! Where the ENGINE may stand: from a place the operations build, with a value of the kind that is waited for, it comes to
another such place, and nothing of the state but its place and its result is new (R31, R32). -/

namespace Sys2Proof.Machine

open Sys2Proof

/-! ### What a return leaves -/

/-- The state a continuation hands on, whether it begins a statement or returns. -/
def Next.state : Next → State
  | .go t => t
  | .ret _ t => t

theorem beginMessages_keeps (count : Nat) (rest : List Message) (ks : List Kont) (s : State) :
    ∃ th, beginMessages count rest ks s = { s with thread := th } := by
  cases rest with
  | nil => exact ⟨_, rfl⟩
  | cons m ms => cases hd : m.direction <;> simp only [beginMessages, hd] <;> exact ⟨_, rfl⟩

/-- A continuation changes the ENGINE's place only. -/
theorem continueWith_keeps {k : Kont} {v : Ret} {ks : List Kont} {s : State} {n : Next}
    (h : continueWith k v ks s = .ok n) : ∃ th, n.state = { s with thread := th } := by
  unfold continueWith beginInit beginPulses txLoop rxLoop initLoop raiseError assignThen returnOk unwritten at h
  split at h
  all_goals repeat' split at h
  all_goals cases h
  all_goals first
    | exact ⟨_, rfl⟩
    | exact beginMessages_keeps ..

/-- A return changes the ENGINE's place and its result only (R32). -/
theorem returnTo_keeps {ks : List Kont} {v : Ret} {s t : State} (h : returnTo ks v s = .ok t) :
    ∃ th r, t = { s with thread := th, result := r } := by
  induction ks generalizing v s with
  | nil => cases h; exact ⟨_, _, rfl⟩
  | cons k ks ih =>
    unfold returnTo at h
    split at h
    · cases h
    · next u hn =>
      obtain ⟨th, hu⟩ := continueWith_keeps hn
      cases h
      exact ⟨th, s.result, hu⟩
    · next r u hn =>
      obtain ⟨th, rfl⟩ := continueWith_keeps hn
      obtain ⟨th', r', rfl⟩ := ih h
      exact ⟨th', r', rfl⟩

/-! ### Sound places -/

/-- The kind of a value. -/
def Ret.kind : Ret → RetKind
  | .unit => .unit
  | .byte _ => .byte
  | .bool _ => .bool
  | .status _ => .status
  | .clock _ => .clock
  | .batch _ _ => .batch

/-- A triple that is returned is in range (R215). -/
def Ret.sound : Ret → Bool
  | .clock p => p.inRange
  | .unit | .byte _ | .bool _ | .status _ | .batch _ _ => true

theorem Ret.byte_of_kind {v : Ret} (h : RetKind.byte = v.kind) : ∃ b, v = .byte b := by
  cases v with
  | byte b => exact ⟨b, rfl⟩
  | _ => cases h

theorem Ret.bool_of_kind {v : Ret} (h : RetKind.bool = v.kind) : ∃ b, v = .bool b := by
  cases v with
  | bool b => exact ⟨b, rfl⟩
  | _ => cases h

theorem Ret.status_of_kind {v : Ret} (h : RetKind.status = v.kind) : ∃ r, v = .status r := by
  cases v with
  | status r => exact ⟨r, rfl⟩
  | _ => cases h

theorem Ret.clock_of_kind {v : Ret} (h : RetKind.clock = v.kind) : ∃ p, v = .clock p := by
  cases v with
  | clock p => exact ⟨p, rfl⟩
  | _ => cases h

theorem Ret.batch_of_kind {v : Ret} (h : RetKind.batch = v.kind) : ∃ count err, v = .batch count err := by
  cases v with
  | batch count err => exact ⟨count, err, rfl⟩
  | _ => cases h

/-- The assignment that makes a Controller (R320). -/
def Stmt.creates : Stmt → Bool
  | .assign (.controller _ _ _ _) => true
  | _ => false

@[simp] theorem creating_standAt (st : Stmt) (ks : List Kont) (s : State) : (s.standAt st ks).creating = st.creates := by
  unfold State.creating Stmt.creates
  split <;> simp_all

@[simp] theorem threadSound_standAt (st : Stmt) (ks : List Kont) (s : State) :
    (s.standAt st ks).threadSound = (st.sound ks && kontsSound st.kind ks) := rfl

@[simp] theorem kontsSound_nil (k : RetKind) : kontsSound k [] = true := rfl

@[simp] theorem kontsSound_cons (k : RetKind) (f : Kont) (fs : List Kont) : kontsSound k (f :: fs) = true ↔
    (f.waitsFor = none ∨ f.waitsFor = some k) ∧ f.sound = true ∧ kontsSound f.gives fs = true := by
  simp [kontsSound, and_assoc]

/-- From `s` the ENGINE stands at a place the operations build, where it makes no Controller. -/
def Begun (s t : State) : Prop :=
  ∃ st ks, t = s.standAt st ks ∧ st.sound ks = true ∧ kontsSound st.kind ks = true ∧ st.creates = false

theorem begun_standAt {s : State} {st : Stmt} {ks : List Kont} :
    Begun s (s.standAt st ks) ↔ st.sound ks = true ∧ kontsSound st.kind ks = true ∧ st.creates = false := by
  refine ⟨fun ⟨st', ks', he, h⟩ => ?_, fun h => ⟨st, ks, rfl, h⟩⟩
  have hth : (⟨st, ks⟩ : Thread) = ⟨st', ks'⟩ := Option.some.inj (congrArg State.thread he)
  cases hth
  exact h

section
variable {ks : List Kont} (s : State)

@[simp] theorem begun_poll : Begun s (s.standAt .poll ks) ↔ kontsSound .byte ks = true := by
  simp [begun_standAt, Stmt.sound, Stmt.creates, Stmt.kind]

@[simp] theorem begun_readback : Begun s (s.standAt .readback ks) ↔ kontsSound .unit ks = true := by
  simp [begun_standAt, Stmt.sound, Stmt.creates, Stmt.kind]

@[simp] theorem begun_block : Begun s (s.standAt .block ks) ↔ kontsSound .bool ks = true := by
  simp [begun_standAt, Stmt.sound, Stmt.creates, Stmt.kind]

@[simp] theorem begun_delay {us : Nat} : Begun s (beginDelay us ks s) ↔ kontsSound .unit ks = true := by
  simp [beginDelay, begun_standAt, Stmt.sound, Stmt.creates, Stmt.kind]

@[simp] theorem begun_assign {a : Assign} : Begun s (beginAssign a ks s) ↔
    (Stmt.assign a).sound ks = true ∧ kontsSound .unit ks = true ∧ (Stmt.assign a).creates = false := by
  simp [beginAssign, begun_standAt, Stmt.kind]

@[simp] theorem begun_write {sel : Selector} {b : Byte} :
    Begun s (beginWrite sel b ks s) ↔ commandLegal (writeCommand sel b) = true ∧ kontsSound .unit ks = true := by
  simp [beginWrite, begun_standAt, Stmt.sound, Stmt.creates, Posted.legal, Kont.waitsFor, Kont.gives, Kont.sound,
    Config.offCmd, Config.offRaw]

@[simp] theorem begun_read {sel : Selector} :
    Begun s (beginRead sel ks s) ↔ commandLegal (readCommand sel) = true ∧ kontsSound .byte ks = true := by
  simp [beginRead, begun_standAt, Stmt.sound, Stmt.creates, Posted.legal, Kont.waitsFor, Kont.gives, Kont.sound,
    Config.offCmd, Config.offRaw]

@[simp] theorem begun_raw {recovery : Bool} {v : Word} :
    Begun s (beginRaw recovery v ks s) ↔ rawPatternLegal v = true ∧ kontsSound .unit ks = true := by
  simp [beginRaw, begun_standAt, Stmt.sound, Stmt.creates, Posted.legal, Kont.waitsFor, Kont.gives, Kont.sound,
    Config.offCmd, Config.offRaw]

/-- The patterns the ENGINE writes are patterns of R110. -/
@[simp] theorem patterns_legal : rawPatternLegal Config.rawIeSet = true ∧ rawPatternLegal Config.rawIeClr = true ∧
    rawPatternLegal Config.rawPulseLow = true ∧ rawPatternLegal Config.rawPulseHigh = true ∧
    rawPatternLegal Config.rawStop1 = true ∧ rawPatternLegal Config.rawStop2 = true ∧
    rawPatternLegal Config.rawIdle = true := by decide

/-- The registers the ENGINE reads are readable (R111). -/
@[simp] theorem reads_legal : commandLegal (readCommand .data) = true ∧ commandLegal (readCommand .ctl) = true ∧
    commandLegal (readCommand .stat) = true := by decide

/-- The fixed bytes the ENGINE writes are none that R111 reserves. -/
@[simp] theorem writes_legal : commandLegal (writeCommand .ctl Config.ctlEnab) = true ∧
    commandLegal (writeCommand .ctl (Config.ctlEnab ||| Config.ctlSta)) = true ∧
    commandLegal (writeCommand .ctl (Config.ctlEnab ||| Config.ctlStp)) = true ∧
    (∀ left, commandLegal (writeCommand .ctl (askByte left)) = true) ∧
    (∀ b, commandLegal (writeCommand .data b) = true) ∧ (∀ b, commandLegal (writeCommand .thp b) = true) ∧
    (∀ b, commandLegal (writeCommand .rst b) = true) :=
  ⟨by decide, by decide, by decide, fun left => commandLegal_writeCommand (askByte_legal left),
    fun _ => commandLegal_writeCommand rfl, fun _ => commandLegal_writeCommand rfl,
    fun _ => commandLegal_writeCommand rfl⟩

@[simp] theorem begun_enable : Begun s (beginEnable ks s) ↔ kontsSound .unit ks = true := by simp [beginEnable]

@[simp] theorem begun_disable : Begun s (beginDisable ks s) ↔ kontsSound .unit ks = true := by simp [beginDisable]

@[simp] theorem begun_ready : Begun s (beginReady ks s) ↔ kontsSound .bool ks = true := by
  simp [beginReady, Kont.waitsFor, Kont.sound, Kont.gives]

@[simp] theorem begun_wait : Begun s (beginWait ks s) ↔ kontsSound .status ks = true := by
  simp [beginWait, Kont.waitsFor, Kont.sound, Kont.gives]

@[simp] theorem begun_search {target sys : Nat} : Begun s (beginSearch target sys ks s) ↔ kontsSound .clock ks = true := by
  simp [beginSearch, Stmt.sound, Stmt.creates, Kont.waitsFor, Kont.sound, Kont.gives, SearchPos.inRange]

@[simp] theorem begun_setClock : Begun s (beginSetClock ks s) ↔ kontsSound .unit ks = true := by
  simp [beginSetClock, Kont.waitsFor, Kont.sound, Kont.gives]

@[simp] theorem begun_pulses {left : Nat} : Begun s (beginPulses left ks s) ↔ kontsSound .unit ks = true := by
  cases left <;> simp [beginPulses, Kont.waitsFor, Kont.sound, Kont.gives]

@[simp] theorem begun_unblock : Begun s (beginUnblock ks s) ↔ kontsSound .unit ks = true := by simp [beginUnblock]

@[simp] theorem begun_start : Begun s (beginStart ks s) ↔ kontsSound .status ks = true := by
  simp [beginStart, Kont.waitsFor, Kont.sound, Kont.gives]

@[simp] theorem begun_stop : Begun s (beginStop ks s) ↔ kontsSound .status ks = true := by
  simp [beginStop, Kont.waitsFor, Kont.sound, Kont.gives]

@[simp] theorem begun_writeMessage {a : Addr7} {p : List Byte} :
    Begun s (beginWriteMessage a p ks s) ↔ kontsSound .status ks = true := by
  simp [beginWriteMessage, Kont.waitsFor, Kont.sound, Kont.gives]

@[simp] theorem begun_readMessage {k len : Nat} {a : Addr7} :
    Begun s (beginReadMessage k a len ks s) ↔ kontsSound .status ks = true := by
  simp [beginReadMessage, Stmt.sound, Stmt.creates, Kont.waitsFor, Kont.sound, Kont.gives]

@[simp] theorem begun_messages {count : Nat} {rest : List Message} :
    Begun s (beginMessages count rest ks s) ↔ kontsSound .batch ks = true := by
  cases rest with
  | nil => simp [beginMessages, Kont.waitsFor, Kont.sound, Kont.gives]
  | cons m ms => cases hd : m.direction <;> simp [beginMessages, hd, Kont.waitsFor, Kont.sound, Kont.gives]

@[simp] theorem begun_batch {ms : List Message} : Begun s (beginBatch ms ks s) ↔ kontsSound .batch ks = true := by
  simp [beginBatch, Stmt.sound, Stmt.creates, Kont.waitsFor, Kont.sound, Kont.gives]

/-- `init()` with the retry budget of R8 is never refused (R241). -/
theorem begun_init (hk : kontsSound .status ks = true) : ∃ t, beginInit Config.initRetries ks s = .ok t ∧ Begun s t :=
  ⟨_, rfl, by simp [hk, Kont.waitsFor, Kont.sound, Kont.gives]⟩

end

/-! ### What a continuation comes to -/

/-- A continuation that gives a value of kind `g` in the end comes to a sound place, or returns such a value. -/
def Resumes (g : RetKind) (s : State) (x : Except Stop Next) : Prop :=
  (∃ t, x = .ok (.go t) ∧ Begun s t) ∨ ∃ v, x = .ok (.ret v s) ∧ v.kind = g ∧ v.sound = true

@[simp] theorem resumes_go {g : RetKind} {s t : State} : Resumes g s (.ok (.go t)) ↔ Begun s t := by simp [Resumes]

@[simp] theorem resumes_ret {g : RetKind} {s : State} {v : Ret} :
    Resumes g s (.ok (.ret v s)) ↔ v.kind = g ∧ v.sound = true := by simp [Resumes]

section
variable {ks : List Kont} (s : State) (hk : kontsSound .status ks = true)
include hk

theorem resumes_assignThen (p : Phase) (r : Option OpErr) : Resumes .status s (assignThen (.phase p) r ks s) := by
  simp [assignThen, hk, Stmt.sound, Stmt.creates, Kont.waitsFor, Kont.sound, Kont.gives]

theorem resumes_raiseError (e : OpErr) : Resumes .status s (raiseError e ks s) := resumes_assignThen s hk .error (some e)

theorem resumes_txLoop (i : Nat) (rest : List Byte) : Resumes .status s (txLoop i rest ks s) := by
  cases rest <;> simp [txLoop, returnOk, hk, Ret.kind, Ret.sound, Kont.waitsFor, Kont.sound, Kont.gives]

theorem resumes_rxLoop (k i left : Nat) : Resumes .status s (rxLoop k i left ks s) := by
  cases left <;> simp [rxLoop, returnOk, hk, Ret.kind, Ret.sound, Kont.waitsFor, Kont.sound, Kont.gives]

theorem resumes_initLoop (left : Nat) : Resumes .status s (initLoop left ks s) := by
  cases left <;> simp [initLoop, hk, Ret.kind, Ret.sound, Kont.waitsFor, Kont.sound, Kont.gives]

end

/-! ### The search stays in range (R211, R215) -/

/-- Where the search stands next, or its result, is in range. -/
@[simp] def searchSound : SearchPos ⊕ ClockParams → Bool
  | .inl p => p.inRange
  | .inr best => best.inRange

theorem nextPair_sound {l : SearchLoops} {b : Best} (hl : l.inRange = true) (hb : b.params.inRange = true) :
    searchSound (nextPair l b) = true := by
  obtain ⟨n, ns, m, ms⟩ := l
  cases ms with
  | cons m' ms => simp_all [nextPair, searchSound, SearchPos.inRange, SearchLoops.inRange]
  | nil =>
    cases ns with
    | cons n' ns => simp_all [nextPair, searchSound, SearchPos.inRange, SearchLoops.inRange, firstPair, mdivs]
    | nil => exact hb

theorem nextCandidate_sound {l : SearchLoops} {b : Best} (base : Int) (inc : Nat) (hl : l.inRange = true)
    (hb : b.params.inRange = true) : searchSound (nextCandidate l base inc b) = true := by
  unfold nextCandidate
  split
  · simp [searchSound, SearchPos.inRange, hl, hb]
  · exact nextPair_sound hl hb

/-- A candidate in range makes a triple in range. -/
theorem candidate_inRange {l : SearchLoops} {x : Int} (hl : l.inRange = true) (h5 : 5 ≤ x) (h255 : x ≤ 255) :
    ClockParams.inRange ⟨x.toNat, l.m, l.n⟩ = true := by
  have hm : 2 ≤ l.m ∧ l.m ≤ 15 ∧ l.n ≤ 7 := by
    simp only [SearchLoops.inRange, List.all_cons, Bool.and_eq_true, decide_eq_true_eq] at hl
    exact ⟨hl.2.1.1, hl.2.1.2, hl.1.1⟩
  simp only [ClockParams.inRange, Bool.and_eq_true, decide_eq_true_eq]
  omega

theorem searchStep_sound (target sys : Nat) {p : SearchPos} (hp : p.inRange = true) :
    searchSound (searchStep target sys p) = true := by
  cases p with
  | best => rfl
  | delta best =>
    have hl : (firstPair 0 ndivs.tail).inRange = true := by decide
    simpa [searchStep, searchSound, SearchPos.inRange, hl] using hp
  | base l b => exact hp
  | t l base inc b =>
    obtain ⟨hl, hb⟩ : l.inRange = true ∧ b.params.inRange = true := by simpa [SearchPos.inRange] using hp
    simp only [searchStep]
    split
    · exact nextCandidate_sound base inc hl hb
    · simp only [searchSound, SearchPos.inRange, hl, hb, Bool.and_eq_true, decide_eq_true_eq, true_and]
      omega
  | f l base inc x b => exact hp
  | d l base inc x f b =>
    obtain ⟨hl, hb, _⟩ : l.inRange = true ∧ b.params.inRange = true ∧ 5 ≤ x ∧ x ≤ 255 := by
      simpa [SearchPos.inRange, and_assoc] using hp
    simp only [searchStep]
    split
    · exact hp
    · exact nextCandidate_sound base inc hl hb
  | newDelta l base inc x d b => exact hp
  | newBest l base inc x b =>
    obtain ⟨hl, _, h5, h255⟩ : l.inRange = true ∧ b.params.inRange = true ∧ 5 ≤ x ∧ x ≤ 255 := by
      simpa [SearchPos.inRange, and_assoc] using hp
    exact nextCandidate_sound base inc hl (candidate_inRange hl h5 h255)

theorem resumes_searchStep {ks : List Kont} (target sys : Nat) {p : SearchPos} (v : Ret) (s : State) (hp : p.inRange = true)
    (hk : kontsSound .clock ks = true) : Resumes .clock s (continueWith (.search target sys p) v ks s) := by
  have hn := searchStep_sound target sys hp
  simp only [continueWith]
  cases hs : searchStep target sys p with
  | inl q =>
    rw [hs] at hn
    simpa [hk, Stmt.sound, Stmt.creates, Kont.waitsFor, Kont.sound, Kont.gives] using hn
  | inr best =>
    rw [hs] at hn
    simpa [Ret.kind, Ret.sound] using hn

/-- The bytes of a triple in range are bytes the block may write (R107, R111). -/
theorem commandLegal_clk {p : ClockParams} (hp : p.inRange = true) :
    commandLegal (writeCommand .clkctl (clkByte p.mdiv p.ndiv)) = true := by
  simp only [ClockParams.inRange, Bool.and_eq_true, decide_eq_true_eq] at hp
  obtain ⟨⟨⟨_, hm⟩, hm'⟩, hn⟩ := hp
  exact commandLegal_writeCommand (registerByteLegal_clk hm hm' hn)

/-- A continuation that gets the kind of value it waits for comes to a sound place, or returns the kind of value it gives; in
particular it reads no working variable before it was written (R31). -/
theorem continueWith_sound {k : Kont} {v : Ret} {ks : List Kont} (s : State)
    (hw : k.waitsFor = none ∨ k.waitsFor = some v.kind) (hs : k.sound = true) (hv : v.sound = true)
    (hk : kontsSound k.gives ks = true) : Resumes k.gives s (continueWith k v ks s) := by
  cases k with
  | readyTest | rxByte _ _ _ =>
    obtain ⟨b, rfl⟩ := Ret.byte_of_kind (by simpa [Kont.waitsFor] using hw)
    simp only [Kont.gives] at hk
    simp [continueWith, hk, Ret.kind, Ret.sound, Kont.waitsFor, Kont.sound, Kont.gives, Stmt.creates, Stmt.sound]
  | initTest _ | startDecide | startTest | stopTest | txTest _ _ _ | rxTest _ _ _ =>
    obtain ⟨b, rfl⟩ := Ret.byte_of_kind (by simpa [Kont.waitsFor] using hw)
    simp only [Kont.gives] at hk ⊢
    simp only [continueWith]
    split <;> simp [returnOk, resumes_initLoop, resumes_assignThen, resumes_raiseError, hk, Ret.kind, Ret.sound,
      Kont.waitsFor, Kont.sound, Kont.gives, Stmt.creates, Stmt.sound]
  | waitWoken | waitReady =>
    obtain ⟨b, rfl⟩ := Ret.bool_of_kind (by simpa [Kont.waitsFor] using hw)
    simp only [Kont.gives] at hk ⊢
    cases b <;> simp [continueWith, hk, Kont.waitsFor, Kont.sound, Kont.gives]
  | startWaited | startRewaited | txStarted _ _ | txWaited _ _ | rxStarted _ _ _ | rxAddrWaited _ _
  | rxWaited _ _ _ | batchNext _ _ | openInited =>
    obtain ⟨r, rfl⟩ := Ret.status_of_kind (by simpa [Kont.waitsFor] using hw)
    simp only [Kont.gives] at hk ⊢
    cases r <;> simp [continueWith, resumes_raiseError, resumes_txLoop, resumes_rxLoop, hk, Ret.kind, Ret.sound,
      Kont.waitsFor, Kont.sound, Kont.gives, Stmt.creates, Stmt.sound]
  | batchStopped count err =>
    obtain ⟨r, rfl⟩ := Ret.status_of_kind (by simpa [Kont.waitsFor] using hw)
    simp only [Kont.gives] at hk ⊢
    simp only [continueWith]
    split <;> simp [hk, Ret.kind, Ret.sound, Kont.waitsFor, Kont.sound, Kont.gives, Stmt.creates, Stmt.sound]
  | search target sys p => exact resumes_searchStep target sys v s hs hk
  | clockFound =>
    obtain ⟨p, rfl⟩ := Ret.clock_of_kind (by simpa [Kont.waitsFor] using hw)
    simp only [Kont.gives] at hk
    simpa [continueWith, hk, Kont.waitsFor, Kont.sound, Kont.gives, Ret.sound] using hv
  | clockThp p =>
    simp only [Kont.gives] at hk
    simpa [continueWith, hk, commandLegal_clk hs, Kont.waitsFor, Kont.sound, Kont.gives] using hs
  | clockCtl p =>
    simp only [Kont.gives] at hk
    simpa [continueWith, hk, Stmt.sound, Stmt.creates, Kont.sound] using hs
  | xferDone =>
    obtain ⟨count, err, rfl⟩ := Ret.batch_of_kind (by simpa [Kont.waitsFor] using hw)
    simp only [Kont.gives] at hk
    simp [continueWith, hk, Kont.waitsFor, Kont.sound, Kont.gives, Stmt.creates, Stmt.sound]
  | openCreated =>
    simp only [Kont.gives] at hk
    obtain ⟨t, ht, hb⟩ := begun_init s (ks := .openInited :: ks) (by simp [hk, Kont.waitsFor, Kont.sound, Kont.gives])
    simpa [continueWith, ht, Except.map] using hb
  | rxLength k a len =>
    simp only [Kont.gives] at hk
    simp only [continueWith]
    split <;> simp [hk, Ret.kind, Ret.sound, Kont.waitsFor, Kont.sound, Kont.gives]
  | initNext left => exact resumes_initLoop s hk left
  | rxStored k i left => exact resumes_rxLoop s hk k (i + 1) left
  | openMarked => exact resumes_assignThen s hk .idle none
  | _ =>
    simp only [Kont.gives] at hk
    simp [continueWith, hk, Ret.kind, Ret.sound, Kont.waitsFor, Kont.sound, Kont.gives, Stmt.creates, Stmt.sound]

/-- What a return comes to: the ENGINE stands at a sound place, or the operation has ended; there is no read before a write
(R31, R32). -/
theorem returnTo_sound {ks : List Kont} {v : Ret} (s : State) (hk : kontsSound v.kind ks = true) (hv : v.sound = true) :
    ∃ t, returnTo ks v s = .ok t ∧ (Begun s t ∨ ∃ r, t = { s with thread := none, result := some r }) := by
  induction ks generalizing v with
  | nil => exact ⟨_, rfl, .inr ⟨v, rfl⟩⟩
  | cons k ks ih =>
    obtain ⟨hw, hs, hg⟩ := (kontsSound_cons _ k ks).1 hk
    rcases continueWith_sound s hw hs hv hg with ⟨t, ht, hb⟩ | ⟨r, ht, hr, hr'⟩
    · exact ⟨t, by simp only [returnTo, ht], .inl hb⟩
    · obtain ⟨t, h⟩ := ih (v := r) (by rw [hr]; exact hg) hr'
      exact ⟨t, by simpa only [returnTo, ht] using h⟩

end Sys2Proof.Machine
end

section
/-! The invariant of the block's own use (R85): every turn of every agent keeps it, and none faults. -/

namespace Sys2Proof.Machine

open Sys2Proof

/-! ### Whose turn it is -/

/-- With no turn listed the fair environment takes the turn it has chosen. -/
theorem fairStep_eq_takeMove {s : State} (h : s.moves = []) : fairStep s = takeMove s.nextTurn s := by
  unfold fairStep State.nextTurn
  rw [h]
  cases hth : s.thread with
  | none =>
    dsimp only
    split
    · rfl
    · split
      · rfl
      · split
        · rfl
        · simp only [takeMove, engineStep, hth]
  | some th =>
    obtain ⟨st, ks⟩ := th
    cases st with
    | winWrite | delay | assign => rfl
    | readback => dsimp only; split <;> rfl
    | poll =>
      dsimp only
      split
      · rfl
      · split <;> rfl
    | block => dsimp only; split <;> rfl

/-- A step takes one turn: the first listed, or the one the fair environment chooses. -/
theorem step_eq_takeMove (s : State) : step s = toOutcome (takeMove s.nextTurn (s.withMoves s.moves.tail)) := by
  cases hm : s.moves with
  | nil =>
    simp only [step, nextStep, hm, List.tail_nil, withMoves_nil hm]
    rw [fairStep_eq_takeMove hm]
  | cons m ms =>
    rw [step_of_moves hm]
    simp only [State.nextTurn, hm, List.tail_cons]

/-- A turn that is not listed is no access of other software and no call. -/
theorem nextTurn_inside {s : State} (h : s.moves = []) : s.nextTurn.outside = false := by
  unfold State.nextTurn
  rw [h]
  dsimp only
  repeat' split
  all_goals rfl

/-! ### The invariant, in parts -/

/-- The part of the invariant that does not look at the ENGINE's place. -/
structure Own (s : State) : Prop where
  turns : ∀ m ∈ s.moves, ∀ off width w, m ≠ .hostWrite off width w
  posted : s.posted.all Posted.legal = true
  cmd : s.port.busy = true → commandLegal s.port.cmd = true
  params : s.controller.params.inRange = true

theorem inv_iff {s : State} : s.Inv ↔ Own s ∧ s.inFlight ≤ (if s.polling then 1 else 0) ∧ s.threadSound = true ∧
    (s.creating = true → s.controller.isOpen = false) :=
  ⟨fun ⟨h1, h2, h3, h4, h5, h6, h7⟩ => ⟨⟨h1, h2, h3, h7⟩, h4, h5, h6⟩,
    fun ⟨o, h4, h5, h6⟩ => ⟨o.turns, o.posted, o.cmd, h4, h5, h6, o.params⟩⟩

theorem State.Inv.flowing {s : State} (h : s.Inv) : s.flowing = true := by
  obtain ⟨o, hfl, _⟩ := inv_iff.1 h
  exact flowing_iff.2 ⟨o.posted, o.cmd, hfl.trans (by split <;> omega)⟩

theorem State.Inv.withMoves {s : State} {ms : List Move} (h : s.Inv) (hms : ms ⊆ s.moves) : (s.withMoves ms).Inv := by
  obtain ⟨o, hrest⟩ := inv_iff.1 h
  exact inv_iff.2 ⟨⟨fun m hm => o.turns m (hms hm), o.posted, o.cmd, o.params⟩, hrest⟩

/-- A turn of another agent keeps the invariant (R4). -/
theorem EnvStep.inv {s t : State} (e : EnvStep s t) (h : s.Inv) : t.Inv := by
  obtain ⟨o, hfl, hth, hcr⟩ := inv_iff.1 h
  obtain ⟨hpost, hcmd, _⟩ := flowing_iff.1 e.flowing
  have hpoll : t.polling = s.polling := by unfold State.polling; rw [e.others.thread]
  have hmake : t.creating = s.creating := by unfold State.creating; rw [e.others.thread]
  have hsound : t.threadSound = s.threadSound := by unfold State.threadSound; rw [e.others.thread]
  have hc := e.others.controller
  refine inv_iff.2 ⟨⟨by rw [e.moves]; exact o.turns, hpost, hcmd, by rw [hc]; exact o.params⟩, ?_, by rw [hsound, hth], ?_⟩
  · rw [hpoll]
    exact e.inFlight.trans hfl
  · rw [hmake, hc]
    exact hcr

/-- A step that ends in the invariant, or in a refusal: it does not fault. -/
def Fine (x : Except Stop State) : Prop := (∃ t, x = .ok t ∧ t.Inv) ∨ ∃ r, x = .error (.refused r)

theorem fine_ok {t : State} : Fine (.ok t) ↔ t.Inv := by simp [Fine]

theorem fine_refused (r : Refusal) : Fine (.error (.refused r)) := .inr ⟨r, rfl⟩

theorem Own.begun {s t : State} (o : Own s) (hi : s.inFlight ≤ if t.polling then 1 else 0) (h : Begun s t) : t.Inv := by
  obtain ⟨st, ks, rfl, hst, hks, hcr⟩ := h
  exact inv_iff.2 ⟨⟨o.turns, o.posted, o.cmd, o.params⟩, hi, by simp [hst, hks], by simp [hcr]⟩

/-- A return with no access in flight. -/
theorem fine_returnTo {ks : List Kont} {v : Ret} {s : State} (o : Own s) (hi : s.inFlight = 0)
    (hk : kontsSound v.kind ks = true) (hv : v.sound = true) : Fine (returnTo ks v s) := by
  obtain ⟨t, ht, hb | ⟨r, rfl⟩⟩ := returnTo_sound s hk hv
  · exact .inl ⟨t, ht, o.begun (by simp [hi]) hb⟩
  · exact .inl ⟨_, ht, inv_iff.2 ⟨⟨o.turns, o.posted, o.cmd, o.params⟩, hi.le.trans (Nat.zero_le _), rfl, nofun⟩⟩

/-! ### Window reads (R73) -/

/-- A draw changes the draws only. -/
theorem draw_eq (s : State) : ∃ ds n, s.draw.2 = { s with draws := ds, drawn := n } := by
  unfold State.draw
  split <;> exact ⟨_, _, rfl⟩

/-- A window read answers a word, and records it (R73); of CMD, the word shows the PORT. -/
theorem readWindow_next {off : Nat} (ho : legalOffset off = true) (s : State) : ∃ (w : Word) (ds : List Word) (n : Nat),
    readWindow off s = .ok (w, { s with history := s.history ++ [.read off w], draws := ds, drawn := n }) ∧
      (off = Config.offCmd → cmdValid w = s.port.busy ∧ (s.port.lastRead = true → lowByte w = s.port.result)) := by
  obtain ⟨ds, n, hd⟩ := draw_eq s
  rcases (by simpa [legalOffset] using ho : off = Config.offCmd ∨ off = Config.offRaw) with rfl | rfl
  · obtain ⟨w, hr, hv, hl⟩ := readWindow_cmd s
    exact ⟨w, ds, n, by rw [hr, hd]; rfl, fun _ => ⟨hv, hl⟩⟩
  · refine ⟨s.draw.1, ds, n, ?_, fun h => absurd h (by decide)⟩
    rw [show readWindow Config.offRaw s = .ok (s.draw.1, s.draw.2.record (.read Config.offRaw s.draw.1)) from rfl, hd]
    rfl

/-! ### The ENGINE's turn -/

theorem inFlight_post (s : State) (off : Nat) (w : Word) (r : Bool) :
    State.inFlight { s with posted := s.posted ++ [⟨off, w, r⟩] } = s.inFlight + if off = Config.offCmd then 1 else 0 := by
  simp only [State.inFlight, List.countP_append, List.countP_singleton, Posted.isCmd, beq_iff_eq]
  omega

/-- Posting a legal write. -/
theorem Own.post {s : State} (o : Own s) {p : Posted} (hp : p.legal = true) : Own { s with posted := s.posted ++ [p] } :=
  ⟨o.turns, by simpa [hp] using o.posted, o.cmd, o.params⟩

/-- An assignment of a triple in range. -/
theorem Own.apply {s : State} (o : Own s) {a : Assign} {ks : List Kont} (ha : (Stmt.assign a).sound ks = true) :
    Own (a.apply s) := by
  obtain ⟨hport, _, _, _, hpost, _, _, _, _, _, hmv⟩ := a.apply_frame s
  refine ⟨by rw [hmv]; exact o.turns, by rw [hpost]; exact o.posted, by rw [hport]; exact o.cmd, ?_⟩
  cases a with
  | params p => exact ha
  | phase | isOpen | inBatch | controller | buffer | working => exact o.params

/-- The ENGINE posts a write: a pattern, or the command it then polls for (R85). -/
theorem fine_winWrite {off : Nat} {w : Word} {recovery : Bool} {ks : List Kont} {s : State} (o : Own s)
    (hi : s.inFlight = 0) (hst : (Stmt.winWrite off w recovery).sound ks = true) (hk : kontsSound .unit ks = true) :
    Fine ((post off w recovery s).bind (returnTo ks .unit)) := by
  obtain ⟨hl, hhead⟩ : (Posted.mk off w recovery).legal = true ∧
      ((¬ off = Config.offCmd ∨ ks.head? = some .writePoll) ∨ ks.head? = some .readPoll) := by
    simpa [Stmt.sound] using hst
  have hoff : legalOffset off = true := by
    simp only [Posted.legal, Bool.or_eq_true, Bool.and_eq_true, beq_iff_eq] at hl
    rcases hl with ⟨rfl, _⟩ | ⟨rfl, _⟩ <;> rfl
  have hin := inFlight_post s off w recovery
  simp only [post, hoff, if_true, Except.bind]
  by_cases hc : off = Config.offCmd
  · have hone : State.inFlight { s with posted := s.posted ++ [⟨off, w, recovery⟩] } ≤ 1 := by
      rw [hin, hi, if_pos hc]
    cases ks with
    | nil => simp [hc] at hhead
    | cons k ks =>
      rcases (by simpa [hc] using hhead : k = .writePoll ∨ k = .readPoll) with rfl | rfl
      · refine .inl ⟨_, rfl, (o.post hl).begun hone ((begun_poll _).2 ?_)⟩
        simpa [Kont.waitsFor, Kont.sound, Kont.gives] using hk
      · refine .inl ⟨_, rfl, (o.post hl).begun hone ((begun_poll _).2 ?_)⟩
        simpa [Kont.waitsFor, Kont.sound, Kont.gives] using hk
  · exact fine_returnTo (o.post hl) (by rw [hin, hi, if_neg hc]) hk rfl

theorem polling_of_thread {s : State} {st : Stmt} {ks : List Kont} (h : s.thread = some ⟨st, ks⟩) :
    s.polling = decide (st = .poll) := by
  unfold State.polling
  rw [h]
  cases st <;> rfl

theorem engineStep_fine {s : State} (h : s.Inv) : Fine (engineStep s) := by
  obtain ⟨o, hfl, hth, _⟩ := inv_iff.1 h
  unfold engineStep
  cases ht : s.thread with
  | none => exact fine_ok.2 h
  | some th =>
    obtain ⟨st, ks⟩ := th
    rw [polling_of_thread ht] at hfl
    obtain ⟨hst, hk⟩ : st.sound ks = true ∧ kontsSound st.kind ks = true := by
      simpa [State.threadSound, ht] using hth
    cases st with
    | winWrite off w recovery => exact fine_winWrite o (by simpa using hfl) hst hk
    | readback =>
      dsimp only
      split
      · obtain ⟨w, ds, n, hr, _⟩ := readWindow_next (off := Config.offRaw) rfl s
        have hi : s.inFlight = 0 := by simpa using hfl
        rw [hr]
        exact fine_returnTo ⟨o.turns, o.posted, o.cmd, o.params⟩ hi hk rfl
      · exact fine_ok.2 h
    | poll =>
      dsimp only
      split
      · next hp =>
        obtain ⟨w, ds, n, hr, hcmd⟩ := readWindow_next (off := Config.offCmd) rfl s
        rw [hr]
        dsimp only [Except.bind]
        split
        · exact fine_ok.2 h
        · next hb =>
          rw [(hcmd rfl).1] at hb
          have hi : s.inFlight = 0 := by simp [State.inFlight, hp, hb]
          exact fine_returnTo ⟨o.turns, o.posted, o.cmd, o.params⟩ hi hk rfl
      · exact fine_ok.2 h
    | delay us =>
      have hi : s.inFlight = 0 := by simpa using hfl
      exact fine_returnTo ⟨o.turns, o.posted, o.cmd, o.params⟩ hi hk rfl
    | block =>
      dsimp only
      split
      · have hi : s.inFlight = 0 := by simpa using hfl
        exact fine_returnTo ⟨o.turns, o.posted, o.cmd, o.params⟩ hi hk rfl
      · exact fine_ok.2 h
    | assign a =>
      obtain ⟨hport, _, _, _, hpost, _⟩ := a.apply_frame s
      exact fine_returnTo (o.apply hst) ((inFlight_congr hpost hport).trans (by simpa using hfl)) hk rfl

theorem timeoutStep_fine {s : State} (h : s.Inv) : Fine (timeoutStep s) := by
  obtain ⟨o, hfl, hth, _⟩ := inv_iff.1 h
  unfold timeoutStep
  split
  · next ks ht =>
    rw [polling_of_thread ht] at hfl
    obtain ⟨_, hk⟩ : (Stmt.block).sound ks = true ∧ kontsSound (Stmt.block).kind ks = true := by
      simpa [State.threadSound, ht] using hth
    exact fine_returnTo o (by simpa using hfl) hk rfl
  · exact fine_ok.2 h

/-! ### Calls -/

/-- What beginning an operation other than the handler comes to: a refusal, or a sound place with the caller's buffers, where
a Controller is made only if none is open. -/
def Starts (s : State) (x : Except Stop State) : Prop :=
  (∃ r, x = .error (.refused r)) ∨ ∃ bufs st ks, x = .ok ((s.withBuffers bufs).standAt st ks) ∧ st.sound ks = true ∧
    kontsSound st.kind ks = true ∧ (st.creates = true → s.controller.isOpen = false)

theorem Begun.starts {s t : State} {bufs : List (List Byte)} (h : Begun (s.withBuffers bufs) t) : Starts s (.ok t) := by
  obtain ⟨st, ks, rfl, hst, hks, hcr⟩ := h
  exact .inr ⟨bufs, st, ks, rfl, hst, hks, by simp [hcr]⟩

theorem starts_refused {s : State} (r : Refusal) : Starts s (.error (.refused r)) := .inl ⟨r, rfl⟩

theorem notOpenable_none {target : Nat} {s : State} (h : notOpenable target s = none) : s.controller.isOpen = false := by
  unfold notOpenable at h
  split at h
  · cases h
  · split at h
    · cases h
    · split at h
      · cases h
      · simp_all

theorem beginOp_starts {i : Instr} (s : State) (hi : i ≠ .irqHandler) : Starts s (beginOp i s) := by
  have begun {t : State} (h : Begun s t) : Starts s (.ok t) := Begun.starts (bufs := s.buffers) h
  cases i with
  | irqHandler => exact absurd rfl hi
  | wrregThp | wrregData | wrregCtl | wrregClkctl | wrregRst | rdregData | rdregCtl | rdregStat | wrraw =>
    exact starts_refused _
  | writeRegister sel b =>
    simp only [beginOp]
    split
    · next hb => exact begun (by simp [commandLegal_writeCommand hb])
    · exact starts_refused _
  | readRegister sel =>
    simp only [beginOp]
    split
    · next hr => exact begun (by simp [commandLegal_readCommand hr])
    · exact starts_refused _
  | writeRaw v =>
    simp only [beginOp]
    split
    · next hv => exact begun (by simp [hv])
    · exact starts_refused _
  | delay us => exact begun (by simp)
  | enable => exact begun (by simp)
  | disable => exact begun (by simp)
  | ready => exact begun (by simp)
  | wait => exact begun (by simp)
  | clockSearch target sys =>
    simp only [beginOp]
    split
    · exact starts_refused _
    · exact begun (by simp)
  | setClock =>
    simp only [beginOp]
    split
    · exact starts_refused _
    · exact begun (by simp)
  | init =>
    obtain ⟨t, ht, hb⟩ := begun_init s (ks := []) rfl
    simp only [beginOp, ht]
    exact begun hb
  | unblock => exact begun (by simp)
  | start => exact begun (by simp)
  | stop => exact begun (by simp)
  | writeMessage a p => exact Begun.starts (bufs := [p]) (by simp)
  | readMessage a b => exact Begun.starts (bufs := [b]) (by simp)
  | executeBatchEngine ms =>
    simp only [beginOp, tooLong_none]
    exact Begun.starts (bufs := ms.map Message.buffer) (by simp)
  | openController target window irqLine sys =>
    simp only [beginOp]
    split
    · exact starts_refused _
    · next ho => exact .inr ⟨s.buffers, _, _, rfl, rfl, rfl, fun _ => notOpenable_none ho⟩
  | executeBatch ms =>
    simp only [beginOp]
    split
    · exact starts_refused _
    · refine Begun.starts (bufs := ms.map Message.buffer) ?_
      simp [Stmt.sound, Stmt.creates, Kont.waitsFor, Kont.sound]
  | close =>
    simp only [beginOp]
    split
    · exact starts_refused _
    · exact begun (by simp [Kont.waitsFor, Kont.sound])

theorem irqEnter_fine {s : State} (h : s.Inv) : (irqEnter s).Inv := by
  unfold irqEnter
  split
  · exact (EnvStep.of_same (t := { s with irq := .atWrite }) h.flowing rfl rfl ⟨rfl, rfl, rfl, rfl, rfl⟩ rfl).inv h
  · exact h

theorem callStep_fine {s : State} (h : s.Inv) (c : Call) : Fine (callStep c s) := by
  unfold callStep
  split
  · next hth =>
    obtain ⟨o, hfl, _⟩ := inv_iff.1 h
    have hi : s.inFlight = 0 := by simpa [State.polling, hth] using hfl
    cases decodeCall c with
    | error e => exact fine_refused _
    | ok i =>
      by_cases hirq : i = .irqHandler
      · subst hirq
        exact fine_ok.2 (irqEnter_fine h)
      · rcases beginOp_starts s hirq with ⟨r, hr⟩ | ⟨bufs, st, ks, ht, hst, hks, hcr⟩
        · exact .inr ⟨r, hr⟩
        · refine .inl ⟨_, ht, inv_iff.2 ⟨⟨o.turns, o.posted, o.cmd, o.params⟩, hi.le.trans (Nat.zero_le _), ?_, ?_⟩⟩
          · simp [hst, hks]
          · simpa using hcr
  · unfold callWhileBusy
    split
    · exact fine_ok.2 (irqEnter_fine h)
    · exact fine_refused _
    · exact fine_refused _

/-! ### Every turn -/

theorem hostReadStep_fine {s : State} (h : s.Inv) (off width : Nat) : Fine (hostReadStep off width s) := by
  unfold hostReadStep
  split
  · exact fine_refused _
  · split
    · next ho =>
      split
      · obtain ⟨w, ds, n, hr, _⟩ := readWindow_next ho s
        rw [hr]
        exact fine_ok.2 h
      · exact fine_ok.2 h
    · exact fine_refused _

/-- A turn of an agent, the ENGINE, the timeout, a call or a read of other software, taken under the invariant. -/
theorem takeMove_fine {m : Move} {s : State} (h : s.Inv) (hm : ∀ off width w, m ≠ .hostWrite off width w) :
    Fine (takeMove m s) := by
  have agent (m : Move) (ho : m.outside = false) : Fine (envMove m s) := by
    obtain ⟨t, ht, e⟩ := envMove_spec ho h.flowing
    exact .inl ⟨t, ht, e.inv h⟩
  cases m with
  | engine => exact engineStep_fine h
  | timeout => exact timeoutStep_fine h
  | call c => exact callStep_fine h c
  | hostRead off width => exact hostReadStep_fine h off width
  | hostWrite off width w => exact absurd rfl (hm off width w)
  | drain => exact agent .drain rfl
  | port => exact agent .port rfl
  | coreProgress => exact agent .coreProgress rfl
  | coreComplete => exact agent .coreComplete rfl
  | irq => exact agent .irq rfl
  | attach => exact agent .attach rfl

theorem State.Inv.nextTurn {s : State} (h : s.Inv) (off width : Nat) (w : Word) : s.nextTurn ≠ .hostWrite off width w := by
  intro he
  cases hm : s.moves with
  | nil =>
    have := nextTurn_inside hm
    simp [he, Move.outside] at this
  | cons m ms =>
    obtain ⟨o, _⟩ := inv_iff.1 h
    have hmem : m ∈ s.moves := by simp [hm]
    exact o.turns m hmem off width w (by simpa [State.nextTurn, hm] using he)

/-- Under the invariant a step keeps it or is refused. -/
theorem step_fine {s : State} (h : s.Inv) :
    Fine (takeMove s.nextTurn (s.withMoves s.moves.tail)) :=
  takeMove_fine (h.withMoves (List.tail_subset _)) h.nextTurn

/-- Settles O56: each agent's turn keeps the invariant, the ENGINE's by the soundness of its places (`returnTo_sound`). -/
theorem everyStepKeepsTheInvariant : Obligations.EveryStepKeepsTheInvariant := by
  intro s t h hs
  rw [step_eq_takeMove] at hs
  have ht := toOutcome_next hs
  have hf := step_fine h
  rw [ht] at hf
  exact fine_ok.1 hf

/-- Settles O57: under the invariant a step ends in a next state or a refusal, whoever's turn it is. -/
theorem ownUseNeverFaults : Obligations.OwnUseNeverFaults := by
  intro s h f hs
  rw [step_eq_takeMove] at hs
  rcases step_fine h with ⟨t, ht, _⟩ | ⟨r, hr⟩
  · simp [ht] at hs
  · simp [hr] at hs

end Sys2Proof.Machine
end

section
/-! What one turn writes (R50): the device's side by the agent whose turn it is, the Controller and the phase by the ENGINE and
the handler's signal, the buffer and the record at their ends only (R80). -/

namespace Sys2Proof.Machine

open Sys2Proof

/-! ### The buffer and the record -/

/-- Writes joined the end of the buffer, and events that are no write the end of the record. -/
def Adds (s t : State) : Prop :=
  ∃ ps es, t.posted = s.posted ++ ps ∧ t.history = s.history ++ es ∧ windowWrites es = []

theorem Adds.of_same {s t : State} (hp : t.posted = s.posted) (hh : t.history = s.history) : Adds s t :=
  ⟨[], [], by simp [hp], by simp [hh], rfl⟩

/-- What the buffer gained, with no event. -/
theorem Adds.of_posted {s t : State} {ps : List Posted} (hp : t.posted = s.posted ++ ps) (hh : t.history = s.history) :
    Adds s t := ⟨ps, [], hp, by simp [hh], rfl⟩

/-- What the record gained, an event that is no write. -/
theorem Adds.of_event {s t : State} {e : Event} (he : windowWrites [e] = []) (hp : t.posted = s.posted)
    (hh : t.history = s.history ++ [e]) : Adds s t := ⟨[], [e], by simp [hp], hh, he⟩

theorem Adds.grows {s t : State} (h : Adds s t) : s.issued <+: t.issued ∧ s.history <+: t.history := by
  obtain ⟨ps, es, hp, hh, he⟩ := h
  have hw : windowWrites t.history = windowWrites s.history := by
    rw [hh]
    exact (List.filterMap_append ..).trans (by rw [show List.filterMap _ es = [] from he, List.append_nil]; rfl)
  refine ⟨⟨ps.map fun p => (p.off, p.word), ?_⟩, ⟨es, hh.symm⟩⟩
  simp only [State.issued, hw, hp, List.map_append, List.append_assoc]

theorem adds_post {off : Nat} {w : Word} {r : Bool} {s t : State} (h : post off w r s = .ok t) : Adds s t := by
  unfold post at h
  split at h <;> cases h
  exact .of_posted rfl rfl

theorem adds_read {off : Nat} {s : State} {r : Word × State} (h : readWindow off s = .ok r) : Adds s r.2 := by
  rw [readWindow_ok h]
  exact .of_event (e := .read off r.1) rfl (by simp) (by simp)

/-! ### The device -/

/-- The turn leaves the PORT, the core, IE, RAW, the handler's place and whether it is attached. -/
structure SameDevice (s t : State) : Prop where
  port : t.port = s.port
  core : t.core = s.core
  ie : t.ie = s.ie
  raw : t.raw = s.raw
  irq : t.irq = s.irq
  attached : t.handlerAttached = s.handlerAttached

theorem SameDevice.refl (s : State) : SameDevice s s := ⟨rfl, rfl, rfl, rfl, rfl, rfl⟩

theorem sameDevice_post {off : Nat} {w : Word} {r : Bool} {s t : State} (h : post off w r s = .ok t) : SameDevice s t := by
  unfold post at h
  split at h <;> cases h
  exact ⟨rfl, rfl, rfl, rfl, rfl, rfl⟩

theorem sameDevice_read {off : Nat} {s : State} {r : Word × State} (h : readWindow off s = .ok r) : SameDevice s r.2 := by
  rw [readWindow_ok h]
  constructor <;> simp

theorem sameDevice_apply (a : Assign) (s : State) : SameDevice s (a.apply s) := by
  obtain ⟨hport, hcore, hie, hraw, _, _, _, _, hirq, hatt, _⟩ := a.apply_frame s
  exact ⟨hport, hcore, hie, hraw, hirq, hatt⟩

/-- A performed command changes the core and the port's result only, not STAT, and it sets no IFLG (R143-R148, R154). -/
theorem perform_next {w : Word} {i : Instr} {s t : State} (h : perform w i s = .next t) :
    Performed s t ∧ t.core.stat = s.core.stat ∧ (s.core.iflg = false → t.core.iflg = false) := by
  cases i with
  | wrregThp | wrregData | wrregRst | rdregData | rdregCtl | rdregStat =>
    cases h
    refine ⟨?_, ?_, ?_⟩
    · constructor <;> simp [rstWrite]
    · simp [rstWrite]
    · simp [rstWrite]
  | wrregCtl b | wrregClkctl b =>
    simp only [perform, execWrregCtl, execWrregClkctl] at h
    split at h <;> cases h
    refine ⟨?_, ?_, ?_⟩
    · constructor <;> simp
    · simp
    · simp
  | _ => cases h

/-- What a turn of `m` writes of the device's side, by whose turn it is (R50). -/
inductive DeviceTurn (s t : State) : Move → Prop
  | same {m : Move} : SameDevice s t → DeviceTurn s t m
  | drain : SameDevice { s with port := t.port, ie := t.ie, raw := t.raw } t →
      (s.port.busy = true → t.port.busy = true) → DeviceTurn s t .drain
  | port : SameDevice { s with port := t.port, core := t.core } t → t.port.busy = false →
      t.core.stat = s.core.stat → (s.core.iflg = false → t.core.iflg = false) → DeviceTurn s t .port
  | progress (st : Byte) : SameDevice { s with core := { s.core with stat := st } } t → DeviceTurn s t .coreProgress
  | complete : SameDevice { s with core := t.core } t → t.core.ctl = s.core.ctl → t.core.thp = s.core.thp →
      t.core.clkctl = s.core.clkctl →
      (t.core.iflg = true → s.core.iflg = false → s.core.pending ≠ .none ∧ s.core.pending ≠ .reset) →
      DeviceTurn s t .coreComplete
  | irq : SameDevice { s with irq := t.irq } t → DeviceTurn s t .irq
  | handler (c : Call) : decodeCall c = .ok .irqHandler → SameDevice { s with irq := t.irq } t → DeviceTurn s t (.call c)
  | attach : SameDevice { s with handlerAttached := true } t → DeviceTurn s t .attach

/-! ### The Controller and the phase -/

/-- What a turn of `m` writes of the Controller and the phase: the handler signals, a wake of `Block()` consumes the signal, an
assignment writes what it assigns (R46, R184, R185). -/
inductive ControllerTurn (s t : State) : Move → Prop
  | same {m : Move} : t.controller = s.controller → t.phase = s.phase → ControllerTurn s t m
  | signal : s.irq = .atSignal → t.controller = s.signal.controller → t.phase = s.phase → ControllerTurn s t .irq
  | wake (ks : List Kont) : s.thread = some ⟨.block, ks⟩ → t.controller = s.consume.controller → t.phase = s.phase →
      ControllerTurn s t .engine
  | assign (a : Assign) (ks : List Kont) : s.thread = some ⟨.assign a, ks⟩ → t.controller = (a.apply s).controller →
      t.phase = (a.apply s).phase → ControllerTurn s t .engine

/-- The oldest posted write left the buffer and joined the record (R74). -/
def Drains (s t : State) : Prop :=
  ∃ p ps, s.posted = p :: ps ∧ t.posted = ps ∧ t.history = s.history ++ [.write p.off p.word]

/-- What a turn of `m` writes. -/
structure Turn (m : Move) (s t : State) : Prop where
  window : Adds s t ∨ Drains s t
  device : DeviceTurn s t m
  controller : ControllerTurn s t m

/-- A turn that leaves the device and the Controller, and takes no write from the buffer. -/
theorem Turn.of_same {m : Move} {s t : State} (h : Adds s t) (hd : SameDevice s t) (hc : t.controller = s.controller)
    (hp : t.phase = s.phase) : Turn m s t := ⟨.inl h, .same hd, .same hc hp⟩

theorem Turn.refl (m : Move) (s : State) : Turn m s s := .of_same (.of_same rfl rfl) (.refl s) rfl rfl

/-! ### The ENGINE's turns -/

/-- The effect of a statement, with the return after it (R32). -/
theorem Turn.returnTo {s u t : State} {ks : List Kont} {v : Ret} (ha : Adds s u) (hd : SameDevice s u)
    (hc : ControllerTurn s u .engine) (hr : returnTo ks v u = .ok t) : Turn .engine s t := by
  obtain ⟨th, r, rfl⟩ := returnTo_keeps hr
  refine ⟨.inl ha, .same ⟨hd.port, hd.core, hd.ie, hd.raw, hd.irq, hd.attached⟩, ?_⟩
  cases hc with
  | same hc hp => exact .same hc hp
  | wake ks' hth hc hp => exact .wake ks' hth hc hp
  | assign a ks' hth hc hp => exact .assign a ks' hth hc hp

theorem post_controller {off : Nat} {w : Word} {r : Bool} {s t : State} (h : post off w r s = .ok t) :
    t.controller = s.controller ∧ t.phase = s.phase := by
  unfold post at h
  split at h <;> cases h
  exact ⟨rfl, rfl⟩

theorem readWindow_controller {off : Nat} {s : State} {r : Word × State} (h : readWindow off s = .ok r) :
    r.2.controller = s.controller ∧ r.2.phase = s.phase := by
  rw [readWindow_ok h]
  exact ⟨by simp, by simp⟩

theorem turn_read {m : Move} {off : Nat} {s : State} {r : Word × State} (h : readWindow off s = .ok r) : Turn m s r.2 :=
  .of_same (adds_read h) (sameDevice_read h) (readWindow_controller h).1 (readWindow_controller h).2

theorem turn_post {m : Move} {off : Nat} {w : Word} {b : Bool} {s t : State} (h : post off w b s = .ok t) : Turn m s t :=
  .of_same (adds_post h) (sameDevice_post h) (post_controller h).1 (post_controller h).2

theorem engineStep_turn {s t : State} (h : engineStep s = .ok t) : Turn .engine s t := by
  have read {off : Nat} {r : Word × State} {ks : List Kont} {v : Ret} (hu : readWindow off s = .ok r)
      (hr : returnTo ks v r.2 = .ok t) : Turn .engine s t :=
    .returnTo (adds_read hu) (sameDevice_read hu) (turn_read hu).controller hr
  unfold engineStep at h
  cases hth : s.thread with
  | none =>
    rw [hth] at h
    cases h
    exact .refl _ s
  | some th =>
    obtain ⟨st, ks⟩ := th
    rw [hth] at h
    cases st with
    | winWrite off w recovery =>
      obtain ⟨u, hu, hr⟩ := bind_eq_ok h
      exact .returnTo (adds_post hu) (sameDevice_post hu) (turn_post hu).controller hr
    | readback =>
      dsimp only at h
      split at h
      · obtain ⟨u, hu, hr⟩ := bind_eq_ok h
        exact read hu hr
      · cases h
        exact .refl _ s
    | poll =>
      dsimp only at h
      split at h
      · obtain ⟨u, hu, hr⟩ := bind_eq_ok h
        split at hr
        · cases hr
          exact turn_read hu
        · exact read hu hr
      · cases h
        exact .refl _ s
    | delay us =>
      exact .returnTo (u := s.record (.delay us)) (.of_event (e := .delay us) rfl rfl rfl) ⟨rfl, rfl, rfl, rfl, rfl, rfl⟩ (.same rfl rfl) h
    | block =>
      dsimp only at h
      split at h
      · exact .returnTo (u := s.consume) (.of_same rfl rfl) ⟨rfl, rfl, rfl, rfl, rfl, rfl⟩ (.wake ks hth rfl rfl) h
      · cases h
        exact .refl _ s
    | assign a =>
      obtain ⟨_, _, _, _, hpost, hhist, _⟩ := a.apply_frame s
      exact .returnTo (.of_same hpost hhist) (sameDevice_apply a s) (.assign a ks hth rfl rfl) h

theorem timeoutStep_turn {s t : State} (h : timeoutStep s = .ok t) : Turn .timeout s t := by
  unfold timeoutStep at h
  split at h
  · obtain ⟨th, r, rfl⟩ := returnTo_keeps h
    exact .of_same (.of_same rfl rfl) ⟨rfl, rfl, rfl, rfl, rfl, rfl⟩ rfl rfl
  · cases h
    exact .refl _ s

/-- A call of the handler enters it where it may be entered (R344). -/
theorem irqEnter_turn {c : Call} {s : State} (hc : decodeCall c = .ok .irqHandler) : Turn (.call c) s (irqEnter s) := by
  unfold irqEnter
  split
  · exact ⟨.inl (.of_same rfl rfl), .handler c hc ⟨rfl, rfl, rfl, rfl, rfl, rfl⟩, .same rfl rfl⟩
  · exact .refl _ s

theorem callStep_turn {c : Call} {s t : State} (h : callStep c s = .ok t) : Turn (.call c) s t := by
  unfold callStep at h
  split at h
  · cases hc : decodeCall c with
    | error e =>
      rw [hc] at h
      cases h
    | ok i =>
      rw [hc] at h
      by_cases hirq : i = .irqHandler
      · subst hirq
        cases h
        exact irqEnter_turn hc
      · rcases beginOp_starts s hirq with ⟨r, hr⟩ | ⟨bufs, st, ks, hb, _⟩
        · cases hr.symm.trans h
        · cases hb.symm.trans h
          exact .of_same (.of_same rfl rfl) ⟨rfl, rfl, rfl, rfl, rfl, rfl⟩ rfl rfl
  · unfold callWhileBusy at h
    split at h
    · next hc =>
      cases h
      exact irqEnter_turn hc
    · cases h
    · cases h

/-! ### The other agents' turns -/

/-- What a turn of another agent does to the Controller and the phase (R344). -/
theorem envMove_controller {m : Move} {s t : State} (h : envMove m s = .ok t) : ControllerTurn s t m := by
  have he := envMove_engine h
  have hc : t.controller = (signalled m s s).controller := by rw [he]; rfl
  have hp : t.phase = (signalled m s s).phase := by rw [he]; rfl
  unfold signalled at hc hp
  split at hc
  · next hs =>
    rw [if_pos hs] at hp
    obtain ⟨rfl, hi⟩ := hs
    exact .signal hi hc hp
  · next hs =>
    rw [if_neg hs] at hp
    exact .same hc hp

theorem applyPosted_spec {p : Posted} {s t : State} (h : applyPosted p s = .ok t) : t.posted = s.posted ∧
    t.history = s.history ∧ SameDevice { s with port := t.port, ie := t.ie, raw := t.raw } t ∧
    (s.port.busy = true → t.port.busy = true) := by
  unfold applyPosted at h
  split at h
  · unfold issueCommand at h
    split at h
    · split at h <;> cases h
      exact ⟨rfl, rfl, ⟨rfl, rfl, rfl, rfl, rfl, rfl⟩, fun _ => rfl⟩
    · cases h
  · split at h
    · split at h
      · unfold recoveryPattern at h
        split at h <;> cases h
        exact ⟨by simp, by simp, ⟨rfl, by simp, rfl, rfl, by simp, by simp⟩, by simp⟩
      · have h := ofOutcome_ok h
        unfold execWrraw at h
        split at h
        · split at h
          · cases h
            exact ⟨rfl, rfl, ⟨rfl, rfl, rfl, rfl, rfl, rfl⟩, id⟩
          · split at h <;> cases h
            · exact ⟨rfl, rfl, ⟨rfl, rfl, rfl, rfl, rfl, rfl⟩, id⟩
            · exact ⟨by simp, by simp, ⟨rfl, by simp, rfl, rfl, by simp, by simp⟩, by simp⟩
        · cases h
    · cases h

theorem drainStep_turn {s t : State} (h : drainStep s = .ok t) : Turn .drain s t := by
  have hc := envMove_controller (m := .drain) h
  unfold drainStep at h
  split at h
  · cases h
    exact .refl _ s
  · next p ps hp =>
    obtain ⟨hpost, hhist, hd, hb⟩ := applyPosted_spec h
    exact ⟨.inr ⟨p, ps, hp, hpost, hhist⟩, .drain ⟨hd.port, hd.core, hd.ie, hd.raw, hd.irq, hd.attached⟩ hb, hc⟩

theorem portStep_turn {s t : State} (h : portStep s = .ok t) : Turn .port s t := by
  cases hb : s.port.busy with
  | false =>
    simp only [portStep, hb, Bool.false_eq_true, if_false, Except.ok.injEq] at h
    exact h ▸ .refl _ s
  | true =>
    obtain ⟨i, u, _, hu, rfl⟩ := portStep_busy hb h
    obtain ⟨p, hstat, hiflg⟩ := perform_next hu
    exact ⟨.inl (.of_same p.posted p.history), .port ⟨rfl, rfl, p.ie, p.raw, p.irq, p.attached⟩ rfl hstat hiflg,
      .same p.controller p.phase⟩

theorem coreProgress_turn (s : State) : Turn .coreProgress s (coreProgress s) := by
  unfold coreProgress
  split
  · exact .refl _ s
  · refine ⟨.inl (.of_same (by simp) (by simp)), .progress (s.drawByte.1) ?_, .same (by simp) (by simp)⟩
    constructor <;> simp

theorem coreComplete_turn (s : State) : Turn .coreComplete s (coreComplete s) := by
  cases hp : s.core.pending with
  | none => rw [show coreComplete s = s by simp [coreComplete, hp]]; exact .refl _ s
  | _ =>
    simp only [coreComplete, hp]
    refine ⟨.inl (.of_same (by simp) (by simp)), .complete ?_ ?_ ?_ ?_ ?_, .same (by simp) (by simp)⟩
    · constructor <;> simp
    all_goals simp [hp, iflgAfter]

theorem irqStep_turn {s t : State} (h : irqStep s = .ok t) : Turn .irq s t := by
  have hc := envMove_controller (m := .irq) h
  suffices Adds s t ∧ SameDevice { s with irq := t.irq } t from ⟨.inl this.1, .irq this.2, hc⟩
  unfold irqStep at h
  split at h
  · cases h
    unfold irqEnter
    split <;> exact ⟨.of_same rfl rfl, rfl, rfl, rfl, rfl, rfl, rfl⟩
  · cases h
    exact ⟨.of_posted rfl rfl, rfl, rfl, rfl, rfl, rfl, rfl⟩
  · split at h
    · obtain ⟨r, hr⟩ : ∃ r, readWindow Config.offRaw s = .ok r := ⟨_, rfl⟩
      rw [hr] at h
      cases h
      obtain ⟨hport, hcore, hie, hraw, _, hatt⟩ := sameDevice_read hr
      exact ⟨adds_read hr, hport, hcore, hie, hraw, rfl, hatt⟩
    · cases h
      exact ⟨.of_same rfl rfl, rfl, rfl, rfl, rfl, rfl, rfl⟩
  · cases h
    exact ⟨.of_same rfl rfl, rfl, rfl, rfl, rfl, rfl, rfl⟩
  · cases h
    exact ⟨.of_same rfl rfl, rfl, rfl, rfl, rfl, rfl, rfl⟩

theorem memWrite_turn {off width : Nat} {w : Word} {s t : State} (h : memWrite off width w s = .ok t) :
    Turn (.hostWrite off width w) s t := by
  unfold memWrite at h
  split at h
  · exact turn_post h
  · cases h

theorem hostReadStep_turn {off width : Nat} {s t : State} (h : hostReadStep off width s = .ok t) :
    Turn (.hostRead off width) s t := by
  unfold hostReadStep at h
  split at h
  · cases h
  · split at h
    · split at h
      · cases hr : readWindow off s with
        | error e =>
          rw [hr] at h
          cases h
        | ok r =>
          rw [hr] at h
          cases h
          exact turn_read hr
      · cases h
        exact .refl _ s
    · cases h

/-- What any turn writes, by whose it is. -/
theorem takeMove_turn {m : Move} {s t : State} (h : takeMove m s = .ok t) : Turn m s t := by
  cases m with
  | engine => exact engineStep_turn h
  | drain => exact drainStep_turn h
  | port => exact portStep_turn h
  | coreProgress => cases h; exact coreProgress_turn s
  | coreComplete => cases h; exact coreComplete_turn s
  | irq => exact irqStep_turn h
  | timeout => exact timeoutStep_turn h
  | attach =>
    cases h
    exact ⟨.inl (.of_same rfl rfl), .attach ⟨rfl, rfl, rfl, rfl, rfl, rfl⟩, .same rfl rfl⟩
  | call c => exact callStep_turn h
  | hostWrite off width w => exact memWrite_turn h
  | hostRead off width => exact hostReadStep_turn h

/-- What a step writes: a step is one turn, taken with that turn off the list. -/
theorem step_turn {s t : State} (h : step s = .next t) : Turn s.nextTurn (s.withMoves s.moves.tail) t := by
  rw [step_eq_takeMove] at h
  exact takeMove_turn (toOutcome_next h)

/-! ### The statements about every step -/

theorem Drains.grows {s t : State} (h : Drains s t) : s.issued <+: t.issued ∧ s.history <+: t.history := by
  obtain ⟨p, ps, hs, hp, hh⟩ := h
  refine ⟨⟨[], ?_⟩, ⟨_, hh.symm⟩⟩
  simp [State.issued, windowWrites, hs, hp, hh]

/-- Settles O20: a turn adds to the ends, or moves the oldest posted write from the head of the buffer to the end of the record. -/
theorem writesReachTheDeviceInIssueOrder : Obligations.WritesReachTheDeviceInIssueOrder := by
  intro s t h
  rcases (step_turn h).window with ha | hd
  · exact ha.grows
  · exact hd.grows

/-- The device's flags and registers by their writers (R50). -/
theorem DeviceTurn.writers {m : Move} {s t : State} (h : DeviceTurn s t m) :
    (s.port.busy = false → t.port.busy = true → m = .drain) ∧
    (s.port.busy = true → t.port.busy = false → m = .port) ∧
    (s.core.iflg = false → t.core.iflg = true → m = .coreComplete ∧ s.core.pending ≠ .none ∧ s.core.pending ≠ .reset) ∧
    (s.core.iflg = true → t.core.iflg = false → m = .port ∨ m = .coreComplete) ∧
    (t.ie ≠ s.ie ∨ t.raw ≠ s.raw → m = .drain) ∧
    (t.core.ctl ≠ s.core.ctl ∨ t.core.thp ≠ s.core.thp ∨ t.core.clkctl ≠ s.core.clkctl → m = .port) ∧
    (t.core.data ≠ s.core.data ∨ t.core.pending ≠ s.core.pending → m = .port ∨ m = .coreComplete) ∧
    (t.core.stat ≠ s.core.stat → m = .coreProgress ∨ m = .coreComplete) ∧
    (t.irq ≠ s.irq → m = .irq ∨ ∃ c, m = .call c ∧ decodeCall c = .ok .irqHandler) ∧
    (t.handlerAttached ≠ s.handlerAttached → m = .attach) := by
  cases h with
  | same d => simp_all [d.port, d.core, d.ie, d.raw, d.irq, d.attached]
  | drain d hb => simp_all [d.core, d.irq, d.attached]
  | port d hb hs hi => simp_all [d.ie, d.raw, d.irq, d.attached]
  | progress st d => simp [d.port, d.core, d.ie, d.raw, d.irq, d.attached]
  | complete d hc ht hk hi => simp_all [d.port, d.ie, d.raw, d.irq, d.attached]
  | irq d => simp [d.port, d.core, d.ie, d.raw, d.attached]
  | handler c hc d => simp [hc, d.port, d.core, d.ie, d.raw, d.attached]
  | attach d => simp [d.port, d.core, d.ie, d.raw, d.irq]

/-- The Controller and the phase by their writers (R46, R218, R320). -/
theorem ControllerTurn.writers {m : Move} {s t : State} (h : ControllerTurn s t m) :
    (s.controller.completion = false → t.controller.completion = true → m = .irq ∧ s.irq = .atSignal) ∧
    (s.controller.completion = true → t.controller.completion = false → m = .engine ∧
      ((∃ ks, s.thread = some ⟨.block, ks⟩) ∨ s.creating = true)) ∧
    (t.controller.fixed ≠ s.controller.fixed ∨ t.phase ≠ s.phase → m = .engine ∧
      ∃ (a : Assign) (ks : List Kont), s.thread = some ⟨.assign a, ks⟩ ∧ t.controller = (a.apply s).controller ∧
        t.phase = (a.apply s).phase) ∧
    (s.controller.isOpen = true → s.creating = false → t.controller.window = s.controller.window ∧
      t.controller.irqLine = s.controller.irqLine ∧ t.controller.targetFrequency = s.controller.targetFrequency ∧
      t.controller.systemClockRate = s.controller.systemClockRate) := by
  cases h with
  | same hc hp => simp_all
  | signal hi hc hp => simp [hi, hc, hp, Controller.fixed]
  | wake ks hth hc hp => simp [hth, hc, hp, Controller.fixed]
  | assign a ks hth hc hp =>
    refine ⟨?_, ?_, fun _ => ⟨rfl, a, ks, hth, hc, hp⟩, ?_⟩
    all_goals rw [hc]; cases a <;> simp_all [State.creating, newController]

theorem apply_withMoves (a : Assign) (s : State) (ms : List Move) :
    a.apply (s.withMoves ms) = (a.apply s).withMoves ms := by cases a <;> rfl

/-- Settles O59: what a step writes is what the turn it takes writes, of the device (`DeviceTurn.writers`) and of the Controller
(`ControllerTurn.writers`). -/
theorem everyFlagHasItsWriters : Obligations.EveryFlagHasItsWriters := by
  intro s t h
  obtain ⟨_, hd, hc⟩ := step_turn h
  obtain ⟨busyUp, busyDown, iflgUp, iflgDown, pattern, written, acted, status, irq, attached⟩ := hd.writers
  obtain ⟨signal, consumed, assigned, opened⟩ := hc.writers
  refine ⟨busyUp, busyDown, iflgUp, iflgDown, pattern, signal, consumed, fun hne => ?_, written, acted, status, irq, attached,
    opened⟩
  obtain ⟨hm, a, ks, hth, hcon, hph⟩ := assigned hne
  rw [apply_withMoves] at hcon hph
  exact ⟨hm, a, ks, hth, hcon, hph⟩

end Sys2Proof.Machine
end

section
/-! The port primitives from their specifications (R140-R142), and the statements about single turns and power-on. -/

namespace Sys2Proof.Machine

open Sys2Proof

/-! ### The port primitives -/

theorem CoreKeeps.and {A : Move → Bool} {P Q : TwsiCore → Prop} (hP : CoreKeeps A P) (hQ : CoreKeeps A Q) :
    CoreKeeps A fun c => P c ∧ Q c :=
  ⟨fun s ha h => ⟨hP.progress s ha h.1, hQ.progress s ha h.2⟩,
    fun s ha h => ⟨hP.complete s ha h.1, hQ.complete s ha h.2⟩⟩

theorem Others.sameEngine {s t : State} (h : Others s t) : SameEngine s t :=
  ⟨h.thread, h.phase, h.buffers, by rw [h.controller]; rfl⟩

/-- The state an operation hands on: `t`, with what it returns. -/
theorem Ran.result {A : Move → Bool} {s t : State} {acts : List Act} (h : Ran A s t acts) (r : Option Ret) :
    Ran A s { t with result := r } acts := h.update rfl rfl rfl rfl rfl

/-- A run whose turns are those listed did its acts. -/
theorem Ran.listed_acted {s t : State} {acts : List Act} (h : Ran (listed s) s t acts)
    (hd : ∀ us, acts.head? ≠ some (.delay us)) : Acted s t acts := h.acted listed_noIrq hd

/-- The registers commands change are `s`'s, and the whole core is where the CORE takes no turn. -/
def CoreHeld (s : State) (c : TwsiCore) : Prop :=
  (c.thp, c.ctl, c.clkctl) = s.regs ∧ (s.noCore = true → c = s.core)

theorem coreKeeps_held (s : State) : CoreKeeps (listed s) (CoreHeld s) :=
  (coreKeeps_regs (· = s.regs)).and (coreKeeps_noCore (· = s.core))

theorem coreHeld_self (s : State) : CoreHeld s s.core := ⟨rfl, fun _ => rfl⟩

/-- A performed write changes the registers only commands change as R143 to R147 say. -/
theorem writeEffect_regs {sel : Selector} {b : Byte} {c c' : TwsiCore} (h : writeEffect sel b c c') :
    afterWrite sel b (c.thp, c.ctl, c.clkctl) (c'.thp, c'.ctl, c'.clkctl) := by
  cases sel with
  | rst => trivial
  | thp | data | ctl | clkctl | stat => cases h; rfl

/-- Settles O26: the write is performed on a core that holds the registers as they were (`write_spec`). -/
theorem writeRegisterCompletes : Obligations.WriteRegisterCompletes := by
  intro sel b s hb hq
  have hw : ∀ c c', CoreHeld s c → writeEffect sel b c c' →
      afterWrite sel b s.regs (c'.thp, c'.ctl, c'.clkctl) ∧ (s.noCore = true → writeEffect sel b s.core c') :=
    fun c c' hc he => ⟨hc.1 ▸ writeEffect_regs he, fun hn => hc.2 hn ▸ he⟩
  have hkeep : CoreKeeps (listed s) fun c => afterWrite sel b s.regs (c.thp, c.ctl, c.clkctl) ∧
      (s.noCore = true → writeEffect sel b s.core c) :=
    (coreKeeps_regs (afterWrite sel b s.regs)).and (coreKeeps_noCore _)
  obtain ⟨x, t, ht, hran, ho, hp, ⟨hregs, hcore⟩, hie⟩ := write_spec hb (coreKeeps_held s) hkeep hw
    (listed_turns s).drain (listed_turns s).port hq (listed_all s) (coreHeld_self s)
  refine ⟨x, { t with result := some .unit }, ?_, rfl, (hran.result _).listed_acted (by simp), (hran.result _).quiet, hp,
    ho.sameEngine, hie.patternsKept, hregs, hcore⟩
  simp only [exec, execWriteRegister, hb, if_true]
  exact finish_ok ht

/-- Settles O27: the byte is what the register held on a core of the run, which is `s`'s where the CORE takes no turn
(`read_spec`). -/
theorem readRegisterCompletes : Obligations.ReadRegisterCompletes := by
  intro sel s hr hq
  obtain ⟨x, t, ht, hran, ho, hp, ⟨hregs, hcore⟩, hie, ⟨c, hc, hx⟩, _⟩ := read_spec hr (coreKeeps_held s)
    (listed_turns s).drain (listed_turns s).port hq (listed_all s) (coreHeld_self s)
  obtain ⟨hthp, hctl, hclk⟩ : t.core.thp = s.core.thp ∧ t.core.ctl = s.core.ctl ∧ t.core.clkctl = s.core.clkctl := by
    simpa [State.regs] using hregs
  refine ⟨x, { t with result := some (.byte x) }, ?_, rfl, (hran.result _).listed_acted (by simp), (hran.result _).quiet, hp,
    ho.sameEngine, hie.patternsKept, hthp, hctl, hclk, fun hn => ⟨hcore hn, hc.2 hn ▸ hx⟩⟩
  simp only [exec, execReadRegister, hr, if_true]
  exact finish_ok ht

/-- With no IRQ turn what the record gained is the acts, and nothing else (R80). -/
theorem Ran.solo {A : Move → Bool} {s t : State} {acts : List Act} (h : Ran A s t acts) (hi : A .irq = false)
    (hn : acts ≠ []) (hd : ∀ us, acts.head? ≠ some (.delay us)) : notReads t.history = s.stream ++ eventsOf acts := by
  obtain ⟨L, hL, hint, _⟩ := h.grows hn hd s.stream [] ⟨[], by simp, Interleaved.refl _ _⟩
  rw [hL, hint.2.2 hi, List.nil_append]

/-- Settles O28: with IRQ turns the handler's clear may follow (`raw_spec`), and without it does not (`raw_alone`). -/
theorem writeRawTakesEffectBeforeReturning : Obligations.WriteRawTakesEffectBeforeReturning := by
  intro v s hv hq
  obtain ⟨t, ht, hran, ho, hp, ⟨hregs, hcore⟩, htaken⟩ := raw_spec (recovery := false) hv (coreKeeps_held s)
    (listed_turns s).drain hq (listed_all s) (coreHeld_self s)
  obtain ⟨hthp, hctl, hclk⟩ : t.core.thp = s.core.thp ∧ t.core.ctl = s.core.ctl ∧ t.core.clkctl = s.core.clkctl := by
    simpa [State.regs] using hregs
  have taken (h : rawTaken false v t) : t.raw = v ∧ (v = 0x40#64 → t.ie = true) ∧ (v = 0x00#64 → t.ie = false) :=
    ⟨h.1, h.2.1 rfl, h.2.2 rfl⟩
  refine ⟨{ t with result := some .unit }, ?_, rfl, (hran.result _).listed_acted (by simp), (hran.result _).quiet, hp,
    ho.sameEngine, hthp, hctl, hclk, hcore, htaken.imp taken id, fun hi => ?_⟩
  · simp only [exec, execWriteRaw, hv, if_true]
    exact finish_ok ht
  · obtain ⟨t', ht', _, _, _, halone⟩ := raw_alone (recovery := false) hv (listed_noIrq hi) (listed_turns s).drain hq
      (listed_all s)
    cases ht.symm.trans ht'
    obtain ⟨hraw, hset, hclr⟩ := taken halone
    exact ⟨hraw, hset, hclr, hran.solo (listed_noIrq hi) (by simp) (by simp)⟩

/-! ### Patterns (R37) -/

/-- The drawn bit is any: a word whose bit 0 it is. -/
theorem exists_bit (e : Bool) : ∃ d : Word, d.getLsbD 0 = e := by
  cases e
  · exact ⟨0#64, by decide⟩
  · exact ⟨1#64, by decide⟩

/-- Settles O11: by the three cases of R37. -/
theorem rawPatternsSetClearOrDrawIe : Obligations.RawPatternsSetClearOrDrawIe := by
  intro s
  refine ⟨rfl, rfl, fun v hv => ?_⟩
  have hx (u : State) : exec (.wrraw v) u = .next { u.drawBit.2 with raw := v, ie := u.drawBit.1 } := by
    have hl : rawPatternLegal v = true ∧ v ≠ Config.rawIeSet ∧ v ≠ Config.rawIeClr := by
      fin_cases hv <;> decide
    simp [exec, execWrraw, hl]
  refine ⟨?_, fun e => ?_⟩
  · obtain ⟨ds, n, hd⟩ := draw_eq s
    exact ⟨s.drawBit.1, ds, n, by rw [hx, show s.drawBit.2 = _ from hd]⟩
  · obtain ⟨d, hd⟩ := exists_bit e
    exact ⟨d, by rw [hx, ← hd]; rfl⟩

/-- Settles O14: a drained recovery pattern draws IE, whichever pattern it is (R37). -/
theorem recoveryPatternsLeaveTheCore : Obligations.RecoveryPatternsLeaveTheCore := by
  intro s ms v ps hv hm hp
  have hl : rawPatternLegal v = true := by fin_cases hv <;> decide
  have hx (u : State) (hu : u.moves = .drain :: ms) (hq : u.posted = ⟨Config.offRaw, v, true⟩ :: ps) :
      step u = .next { u.drawBit.2 with moves := ms, posted := ps, history := u.history ++ [.write Config.offRaw v],
                                        raw := v, ie := u.drawBit.1 } := by
    rw [step_of_moves hu]
    simp only [takeMove, drainStep, State.withMoves_posted, hq, applyPosted, recoveryPattern, hl, if_true,
      show Config.offRaw ≠ Config.offCmd by decide, if_false, toOutcome_ok]
    unfold State.drawBit State.draw
    cases hd : u.draws <;> simp [hd, State.record, State.withMoves]
  refine ⟨?_, fun e => ?_⟩
  · obtain ⟨ds, n, hd⟩ := draw_eq s
    exact ⟨s.drawBit.1, ds, n, by rw [hx s hm hp, show s.drawBit.2 = _ from hd]⟩
  · obtain ⟨d, hd⟩ := exists_bit e
    exact ⟨d, by rw [hx { s with draws := [d] } hm hp, ← hd]; rfl⟩

/-! ### Window reads, the line, `Block()` -/

/-- Settles O17: by width, offset and what is posted (R73, R75). -/
theorem windowReadWaitsForPostedWrites : Obligations.WindowReadWaitsForPostedWrites := by
  intro s ms off width hm
  have hstep : step s = toOutcome (hostReadStep off width (s.withMoves ms)) := step_of_moves hm
  have legal (h : off = 0x00 ∨ off = 0x10) : legalOffset off = true := by rcases h with rfl | rfl <;> rfl
  rw [hstep]
  refine ⟨fun hw => ?_, fun hw h0 h1 => ?_, fun hw ho hp => ?_, fun hw ho hp => ?_⟩
  · exact congrArg toOutcome (if_pos hw)
  · have hl : legalOffset off = false := by simp [legalOffset, h0, h1, Config.offCmd, Config.offRaw]
    simp [hostReadStep, hw, wordBytes, Config.wordBits, hl]
  · simp [hostReadStep, hw, wordBytes, Config.wordBits, legal ho, hp]
  · obtain ⟨w, ds, n, hr, hcmd⟩ := readWindow_next (legal ho) (s.withMoves ms)
    refine ⟨w, ds, n, ?_, fun h0 => ?_⟩
    · simp [hostReadStep, hw, wordBytes, Config.wordBits, legal ho, hp, hr, Except.map]
    · obtain ⟨hv, hl⟩ := hcmd h0
      exact ⟨(cmdValid_eq w).symm.trans hv, hl⟩

/-- Settles O23: the IRQ agent's entry asks for the line, an attached handler and no run (R48, R187). -/
theorem handlerIsEnteredOnlyOnTheLine : Obligations.HandlerIsEnteredOnlyOnTheLine := by
  intro s
  have closed {u : State} (h : u.lineAsserted = false ∨ u.handlerAttached = false ∨ u.irq ≠ .out) : u.irqMayEnter = false := by
    rcases h with h | h | h <;> simp [State.irqMayEnter, h]
  refine ⟨by simp [State.lineAsserted], fun h => ?_, fun ms hm hi h => ?_⟩
  · simp [exec, execIrqHandler, irqHandler, closed h]
  · have hc : (s.withMoves ms).irqMayEnter = false := closed (by tauto)
    rw [step_of_moves hm]
    simp [takeMove, irqStep, irqEnter, hi, hc]

/-- Settles O25: the three turns of a hold (R184). -/
theorem blockEndsByWakeOrTimeout : Obligations.BlockEndsByWakeOrTimeout := by
  intro s ms ks hth
  refine ⟨fun hm hc => ?_, fun hm hc => ?_, fun hm => ?_⟩
  · rw [step_of_moves hm]
    simp [takeMove, engineStep, hth, hc]
  · rw [step_of_moves hm]
    simp [takeMove, engineStep, hth, hc, State.consume]
  · rw [step_of_moves hm]
    simp [takeMove, timeoutStep, hth]

/-! ### Power-on (R51) -/

/-- Settles O53: the launch premises name no field that is changed. -/
theorem resetIsAPowerOnState : Obligations.ResetIsAPowerOnState :=
  ⟨⟨rfl, rfl, rfl, rfl, rfl, rfl, rfl, rfl⟩, fun _ _ _ _ _ _ _ h => h⟩

/-- Settles O55: with nothing posted, no access held and no operation running there is nothing of the block's own to ask for. -/
theorem invariantHoldsAtPowerOn : Obligations.InvariantHoldsAtPowerOn := by
  rintro s ⟨hb, hp, _, _, _, _, _, hth⟩ hpar hm
  refine inv_iff.2 ⟨⟨hm, by simp [hp], by simp [hb], hpar⟩, ?_, ?_, ?_⟩
  · simp [State.inFlight, hp, hb]
  · simp [State.threadSound, hth]
  · simp [State.creating, hth]

/-- Settles O54: reset is a power-on state with its triple in range and no turn listed. -/
theorem invariantHoldsAtReset : Obligations.InvariantHoldsAtReset :=
  invariantHoldsAtPowerOn State.reset resetIsAPowerOnState.1 (by decide) (by simp [State.reset])

end Sys2Proof.Machine
end

section
/-! Reads follow the posted writes (R73, R81): with a write posted, no turn of any agent adds a read to the record. -/

namespace Sys2Proof.Machine

open Sys2Proof

/-! ### Turns that add no read -/

/-- What the record gained holds no read. -/
def GainsNoRead (s t : State) : Prop := ∃ es, t.history = s.history ++ es ∧ notReads es = es

theorem GainsNoRead.of_same {s t : State} (h : t.history = s.history) : GainsNoRead s t := ⟨[], by simp [h], rfl⟩

theorem GainsNoRead.of_event {s t : State} {e : Event} (he : notReads [e] = [e]) (h : t.history = s.history ++ [e]) :
    GainsNoRead s t := ⟨[e], h, he⟩

theorem GainsNoRead.not_read {s t : State} (h : GainsNoRead s t) (off : Nat) (w : Word) :
    t.history ≠ s.history ++ [.read off w] := by
  intro hr
  obtain ⟨es, hes, hn⟩ := h
  obtain rfl : es = [.read off w] := List.append_cancel_left (hes.symm.trans hr)
  cases hn

theorem post_history {off : Nat} {w : Word} {r : Bool} {s t : State} (h : post off w r s = .ok t) :
    t.history = s.history := by
  unfold post at h
  split at h <;> cases h
  rfl

/-- A statement that adds no read, with the return after it (R32). -/
theorem GainsNoRead.returnTo {s u t : State} {ks : List Kont} {v : Ret} (h : GainsNoRead s u)
    (hr : returnTo ks v u = .ok t) : GainsNoRead s t := by
  obtain ⟨th, r, rfl⟩ := returnTo_keeps hr
  exact h

/-- With a write posted the ENGINE's reads hold (R73), and no other statement of it reads. -/
theorem engineStep_gainsNoRead {s t : State} (hp : s.posted ≠ []) (h : engineStep s = .ok t) : GainsNoRead s t := by
  unfold engineStep at h
  cases hth : s.thread with
  | none =>
    rw [hth] at h
    cases h
    exact .of_same rfl
  | some th =>
    obtain ⟨st, ks⟩ := th
    rw [hth] at h
    cases st with
    | winWrite off w recovery =>
      obtain ⟨u, hu, hr⟩ := bind_eq_ok h
      exact .returnTo (.of_same (post_history hu)) hr
    | readback | poll =>
      dsimp only at h
      rw [if_neg hp] at h
      cases h
      exact .of_same rfl
    | delay us => exact .returnTo (u := s.record (.delay us)) (.of_event (e := .delay us) rfl rfl) h
    | block =>
      dsimp only at h
      split at h
      · exact .returnTo (u := s.consume) (.of_same rfl) h
      · cases h
        exact .of_same rfl
    | assign a =>
      obtain ⟨_, _, _, _, _, hhist, _⟩ := a.apply_frame s
      exact .returnTo (.of_same hhist) h

theorem timeoutStep_gainsNoRead {s t : State} (h : timeoutStep s = .ok t) : GainsNoRead s t := by
  unfold timeoutStep at h
  split at h
  · exact .returnTo (.of_same rfl) h
  · cases h
    exact .of_same rfl

theorem drainStep_gainsNoRead {s t : State} (h : drainStep s = .ok t) : GainsNoRead s t := by
  unfold drainStep at h
  split at h
  · cases h
    exact .of_same rfl
  · next p ps hp =>
    obtain ⟨_, hhist, _⟩ := applyPosted_spec h
    exact .of_event (e := .write p.off p.word) rfl hhist

theorem portStep_history {s t : State} (h : portStep s = .ok t) : t.history = s.history := by
  cases hb : s.port.busy with
  | false =>
    simp only [portStep, hb, Bool.false_eq_true, if_false, Except.ok.injEq] at h
    rw [h]
  | true =>
    obtain ⟨i, u, _, hu, rfl⟩ := portStep_busy hb h
    obtain ⟨p, _⟩ := perform_next hu
    exact p.history

theorem irqEnter_history (s : State) : (irqEnter s).history = s.history := by
  unfold irqEnter
  split <;> rfl

/-- With a write posted the handler's readback holds (R73, R186). -/
theorem irqStep_history {s t : State} (hp : s.posted ≠ []) (h : irqStep s = .ok t) : t.history = s.history := by
  unfold irqStep at h
  split at h
  · cases h
    exact irqEnter_history s
  · cases h
    rfl
  · rw [if_neg hp] at h
    cases h
    rfl
  · cases h
    rfl
  · cases h
    rfl

theorem callStep_history {c : Call} {s t : State} (h : callStep c s = .ok t) : t.history = s.history := by
  unfold callStep at h
  split at h
  · cases hc : decodeCall c with
    | error e =>
      rw [hc] at h
      cases h
    | ok i =>
      rw [hc] at h
      by_cases hirq : i = .irqHandler
      · subst hirq
        cases h
        exact irqEnter_history s
      · rcases beginOp_starts s hirq with ⟨r, hr⟩ | ⟨bufs, st, ks, hb, _⟩
        · cases hr.symm.trans h
        · cases hb.symm.trans h
          rfl
  · unfold callWhileBusy at h
    split at h
    · cases h
      exact irqEnter_history s
    · cases h
    · cases h

theorem memWrite_history {off width : Nat} {w : Word} {s t : State} (h : memWrite off width w s = .ok t) :
    t.history = s.history := by
  unfold memWrite at h
  split at h
  · exact post_history h
  · cases h

/-- With a write posted other software's reads hold (R73). -/
theorem hostReadStep_history {off width : Nat} {s t : State} (hp : s.posted ≠ []) (h : hostReadStep off width s = .ok t) :
    t.history = s.history := by
  rw [hostReadStep, if_neg hp] at h
  split at h
  · cases h
  · split at h
    · cases h
      rfl
    · cases h

/-- With a write posted no turn adds a read, whoever's it is (R73, R81). -/
theorem takeMove_gainsNoRead {m : Move} {s t : State} (hp : s.posted ≠ []) (h : takeMove m s = .ok t) :
    GainsNoRead s t := by
  cases m with
  | engine => exact engineStep_gainsNoRead hp h
  | timeout => exact timeoutStep_gainsNoRead h
  | drain => exact drainStep_gainsNoRead h
  | port => exact .of_same (portStep_history h)
  | coreProgress => cases h; exact .of_same (coreProgress_regs s).2.2.2
  | coreComplete => cases h; exact .of_same (coreComplete_regs s).2.2.2
  | irq => exact .of_same (irqStep_history hp h)
  | attach => cases h; exact .of_same rfl
  | call c => exact .of_same (callStep_history h)
  | hostWrite off width w => exact .of_same (memWrite_history h)
  | hostRead off width => exact .of_same (hostReadStep_history hp h)

/-- Settles O21: with a write posted the turn a step takes adds no read (`takeMove_gainsNoRead`). -/
theorem readsFollowEveryPostedWrite : Obligations.ReadsFollowEveryPostedWrite := by
  intro s t off w hs ht
  by_contra hp
  rw [step_eq_takeMove] at hs
  exact (takeMove_gainsNoRead (s := s.withMoves s.moves.tail) hp (toOutcome_next hs)).not_read off w ht

end Sys2Proof.Machine
end

section
/-! Messages called by name (R280, R285): from what a transfer did to what the statements say of its end. -/

namespace Sys2Proof.Machine

open Sys2Proof

/-- The end of a transfer that began with an access, whatever it returns, as the statements say it. -/
theorem Did.ended {s t : State} {acts : List Act} {p : Phase} {bufs : List (List Byte)} (h : Did (listed s) s t acts p bufs)
    (hb : ∃ w x rest, acts = .access w x :: rest) :
    Acted s t acts ∧ Drained s t ∧ t.thread = s.thread ∧ t.controller.fixed = s.controller.fixed ∧
      (s.noCore = true → t.core.stat = s.core.stat) := by
  have hne : acts ≠ [] := by
    obtain ⟨w, x, rest, rfl⟩ := hb
    simp
  refine ⟨h.ran.listed_acted (head_access hb), h.ran.drained listed_noIrq hne (head_access hb), h.others.thread, ?_,
    fun hn => h.stat (listed_noCore hn)⟩
  rw [h.others.controller]
  rfl

/-- Settles O44: `writeMessage_spec` over the turns `s` lists; each of its runs begins with START. -/
theorem writeMessageFollowsItsRule : Obligations.WriteMessageFollowsItsRule := by
  intro address payload s hq
  obtain ⟨r, t, acts, ht, hdid, hie, hrun⟩ := writeMessage_spec (s := s.withBuffers [payload]) (listed_turns s) address
    payload hq (listed_all s)
  obtain ⟨x, rest, hbegin⟩ := hrun.begins
  obtain ⟨hacted, hdrained, hthread, hcontroller, hstat⟩ := hdid.ended (s := s.withBuffers [payload])
    ⟨_, x, rest, hbegin⟩
  refine ⟨r, { t with result := some (.status r) }, acts, ?_, rfl, hrun, hacted, hdid.others.phase, hdid.others.buffers,
    hie.1, hdrained, hdid.ran.quiet, hthread, hcontroller, hdid.thp, hdid.clkctl, hstat⟩
  simp only [exec, execWriteMessage, tooLong_none]
  exact finish_ok ht

/-- A read of some bytes begins with START. -/
theorem ReadRun.begins_of_ne {a : Addr7} {len : Nat} {r : Option OpErr} {got : List Byte} {acts : List Act}
    (h : ReadRun a len r got acts) (hl : len ≠ 0) : ∃ x rest, acts = .access startWrite x :: rest := by
  cases h with
  | empty => exact absurd rfl hl
  | noStart h => exact h.begins
  | noAddress h | receives h => obtain ⟨x, rest, rfl⟩ := h.begins; exact ⟨x, _, rfl⟩

/-- The bytes received replace the front of the one buffer of a read (R86). -/
theorem fillBuffer_front (got buffer : List Byte) : fillBuffer 0 0 got [buffer] = [got ++ buffer.drop got.length] := by
  simp [fillBuffer]

/-- Settles O45: `readMessage_spec` over the turns `s` lists; of a buffer that is not empty, each of its runs begins with
START. -/
theorem readMessageFollowsItsRule : Obligations.ReadMessageFollowsItsRule := by
  intro address buffer s hq hne
  have hl : buffer.length ≠ 0 := by simpa using hne
  obtain ⟨r, t, got, acts, ht, hdid, hie, hrun⟩ := readMessage_spec (s := s.withBuffers [buffer]) (listed_turns s) 0
    address buffer.length hq (listed_all s) (by simp)
  rw [if_neg hl, State.withBuffers_buffers, fillBuffer_front] at hdid
  obtain ⟨x, rest, hbegin⟩ := hrun.begins_of_ne hl
  obtain ⟨hacted, hdrained, hthread, hcontroller, hstat⟩ := hdid.ended (s := s.withBuffers [buffer])
    ⟨_, x, rest, hbegin⟩
  refine ⟨r, { t with result := some (.status r) }, got, acts, ?_, rfl, hrun, hacted, hdid.others.phase,
    hdid.others.buffers, (hie (Nat.pos_of_ne_zero hl)).1, hdrained, hdid.ran.quiet, hthread, hcontroller, hdid.thp,
    hdid.clkctl, hstat⟩
  simp only [exec, execReadMessage, tooLong_none]
  exact finish_ok ht

end Sys2Proof.Machine
end

section
/-! The PORT and the drain run the decoded word (R74, R150), a window write posts (R72), a delay is recorded (R77), a step is
one controller's (R324). -/

namespace Sys2Proof.Machine

open Sys2Proof

/-! ### The PORT and the drain run the decoded word -/

/-- What the PORT performs is the meaning of the word it decodes (R150). -/
theorem perform_eq_exec {w : Word} {i : Instr} (h : decodeCmd w = .ok i) (s : State) : perform w i s = exec i s := by
  rcases decodeCmd_cases h with ⟨b, rfl⟩ | ⟨b, rfl⟩ | ⟨b, rfl⟩ | ⟨b, rfl⟩ | ⟨b, rfl⟩ | rfl | rfl | rfl
  all_goals rfl

theorem cmdValid_of_decodeCmd {w : Word} {i : Instr} (h : decodeCmd w = .ok i) : cmdValid w = true := by
  unfold decodeCmd at h
  split at h
  · assumption
  · cases h

/-- A PORT turn with a command held: its meaning, and then the access is complete (R150). -/
theorem step_port {s : State} {ms : List Move} {i : Instr} (hm : s.moves = .port :: ms) (hb : s.port.busy = true)
    (hi : decodeCmd s.port.cmd = .ok i) :
    step s = toOutcome ((ofOutcome (exec i (s.withMoves ms))).map (portDone s.port.cmd)) := by
  rw [step_of_moves hm, ← perform_eq_exec hi]
  simp [takeMove, portStep, hb, hi]

/-- A drain turn: the oldest write leaves the buffer, is recorded, and takes effect (R74). -/
theorem step_drain {s : State} {ms : List Move} {p : Posted} {ps : List Posted} (hm : s.moves = .drain :: ms)
    (hp : s.posted = p :: ps) :
    step s = toOutcome (applyPosted p
      { s with moves := ms, posted := ps, history := s.history ++ [.write p.off p.word] }) := by
  rw [step_of_moves hm]
  simp only [takeMove, drainStep, State.withMoves_posted, hp]
  rfl

/-- A pattern no recovery issued takes effect as its meaning says (R36, R37). -/
theorem applyPosted_pattern (v : Word) (s : State) :
    toOutcome (applyPosted ⟨Config.offRaw, v, false⟩ s) = exec (.wrraw v) s := by
  rw [show applyPosted ⟨Config.offRaw, v, false⟩ s = ofOutcome (exec (.wrraw v) s) from rfl]
  cases exec (.wrraw v) s <;> rfl

/-- Settles O12: by the turn that `step` takes, a PORT turn (`step_port`) or a drain (`step_drain`). -/
theorem stepRunsTheDecodedWord : Obligations.StepRunsTheDecodedWord := by
  refine ⟨fun s ms i hm hb hi => ?_, fun s ms v ps hm hp => ?_, fun s w i hi => ?_, fun s v hv => ?_⟩
  · rw [step_port hm hb hi]
    cases exec i (s.withMoves ms) <;> rfl
  · rw [step_drain hm hp]
    exact applyPosted_pattern v _
  · have hplace : s.placeWord w = { s with port := { s.port with busy := true, cmd := w }, moves := .port :: s.moves } :=
      if_pos (cmdValid_of_decodeCmd hi)
    rw [hplace, step_port rfl rfl hi]
    change toOutcome ((ofOutcome (exec i { s with port := { s.port with busy := true, cmd := w } })).map (portDone w)) = _
    cases exec i { s with port := { s.port with busy := true, cmd := w } } <;> rfl
  · have hplace : s.placeWord v =
        { s with posted := ⟨Config.offRaw, v, false⟩ :: s.posted, moves := .drain :: s.moves } :=
      if_neg (by simp [hv])
    rw [hplace, step_drain rfl rfl]
    exact applyPosted_pattern v _

/-- Settles O13: the drain issues the word by its `V` and by the PORT (R150, R151); the PORT performs what it decodes. -/
theorem drainedCommandIsIssuedOrFaults : Obligations.DrainedCommandIsIssuedOrFaults := by
  intro s ms
  refine ⟨fun w rc ps hm hp => ?_, fun hm hb => ?_, fun hm hb hi => ?_⟩
  · have hissue (u : State) : applyPosted ⟨Config.offCmd, w, rc⟩ u = issueCommand w u := rfl
    rw [step_drain hm hp, hissue]
    refine ⟨fun hv hb => ?_, fun hv hb => ?_, fun hv => ?_⟩
    · simp [issueCommand, hv, hb]
    · simp [issueCommand, hv, hb]
    · simp [issueCommand, hv]
  · rw [step_of_moves hm]
    simp [takeMove, portStep, hb]
  · rw [step_of_moves hm]
    cases hd : decodeCmd s.port.cmd with
    | ok i => exact absurd hd (hi i)
    | error e => simp [takeMove, portStep, hb, hd]

/-! ### Window writes (R72, R75) -/

/-- Settles O18: by width and offset. -/
theorem windowWriteOnlyPosts : Obligations.WindowWriteOnlyPosts := by
  intro s ms off width w hm
  have hstep : step s = toOutcome (memWrite off width w (s.withMoves ms)) := step_of_moves hm
  rw [hstep]
  refine ⟨fun hw => ?_, fun hw h0 h1 => ?_, fun hw ho => ?_⟩
  · exact congrArg toOutcome (if_neg hw)
  · simp [memWrite, hw, wordBytes, Config.wordBits, post, legalOffset, h0, h1, Config.offCmd, Config.offRaw]
  · subst hw
    rcases ho with rfl | rfl <;> rfl

/-! ### Delays (R77) -/

/-- With no turn listed a delay is recorded at once. -/
theorem delayUs_alone {us : Nat} {s : State} (hm : s.moves = []) : delayUs us s = .ok ((), s.record (.delay us)) := by
  have ht : turn s = .ok ((), s) := M.effect_ok (by rw [hm, holdUntil, withMoves_nil hm])
  unfold delayUs
  rw [M.bind_ok ht]
  rfl

/-- From a state with nothing posted a run did its acts, whatever it begins with. -/
theorem Ran.acted_of_nothing_posted {A : Move → Bool} {s t : State} {acts : List Act} (h : Ran A s t acts)
    (hi : s.noTurn .irq = true → A .irq = false) (hp : s.posted = []) : Acted s t acts := by
  have g : Grown (A .irq) s.stream [] s := ⟨[], by simp, Interleaved.refl _ _⟩
  obtain ⟨added, hstream, hsub, hclears, halone⟩ := (h.settles _ _ (g.settled hp)).grown
  exact ⟨⟨h.answers, h.commands⟩, h.delays, added, hstream, hsub, hclears, fun z => halone (hi (by simpa using z))⟩

/-- The registers only commands change, of a core that holds them. -/
theorem CoreHeld.registers {s : State} {c : TwsiCore} (h : CoreHeld s c) :
    c.thp = s.core.thp ∧ c.ctl = s.core.ctl ∧ c.clkctl = s.core.clkctl := by
  simpa [State.regs] using h.1

/-- Settles O29: with no turn listed by `delayUs_alone`, else by `delay_spec` over the turns `s` lists. -/
theorem delayIsOnlyRecorded : Obligations.DelayIsOnlyRecorded := by
  refine ⟨fun us s hm => finish_ok (ret := fun _ => .unit) (delayUs_alone hm), fun us s hq => ?_⟩
  obtain ⟨t, ht, hran, ho, hheld, hie⟩ := delay_spec (coreKeeps_held s) us hq (listed_all s) (coreHeld_self s)
  obtain ⟨hthp, hctl, hclk⟩ := hheld.registers
  exact ⟨{ t with result := some .unit }, finish_ok (ret := fun _ => .unit) ht, rfl, ⟨hran.answers, hran.commands⟩,
    hran.delays, (hran.result _).acted_of_nothing_posted listed_noIrq, (hran.result _).quiet, ho.sameEngine,
    hie.patternsKept, hthp, hctl, hclk, hheld.2⟩

/-! ### Controllers side by side (R324) -/

/-- A step of controller `k` replaces that controller's state; where there is none it changes nothing. -/
theorem stepInstance_next {k : Nat} {ss ts : List State} (h : stepInstance k ss = .next ts) :
    (ss[k]? = none ∧ ts = ss) ∨ ∃ s t, ss[k]? = some s ∧ step s = .next t ∧ ts = ss.set k t := by
  unfold stepInstance at h
  split at h
  · next hk =>
    cases h
    exact .inl ⟨hk, rfl⟩
  · next s hk =>
    split at h <;> cases h
    next t ht => exact .inr ⟨s, t, hk, ht, rfl⟩

/-- Settles O60: a step looks up its own controller and puts the next state there (`stepInstance_next`). -/
theorem controllersAreIndependent : Obligations.ControllersAreIndependent := by
  refine ⟨fun k j ss ts h hj => ?_, fun k j ss ts u h hj => ?_⟩
  · rcases stepInstance_next h with ⟨_, rfl⟩ | ⟨s, t, _, _, rfl⟩
    · rfl
    · exact List.getElem?_set_ne hj.symm
  · have hk : (ss.set j u)[k]? = ss[k]? := List.getElem?_set_ne hj
    rcases stepInstance_next h with ⟨hn, rfl⟩ | ⟨s, t, hs, ht, rfl⟩
    · simp [stepInstance, hk, hn]
    · simp [stepInstance, hk, hs, ht, List.set_comm u t hj]

end Sys2Proof.Machine
end

section
/-! The encoder and the decoder are inverse to each other (R101-R104, R110, R112), the bytes as numbers (R105, R107-R109), and
what R111 reserves. -/

namespace Sys2Proof.Machine

open Sys2Proof

/-! ### The decoder gives back what was encoded -/

theorem decodeCmd_encode {i : Instr} {w : Word} (h : encode i = .cmd w) : decodeCmd w = .ok i := by
  cases i <;> cases h
  case wrregThp b => exact decodeCmd_writeCommand .thp b
  case wrregData b => exact decodeCmd_writeCommand .data b
  case wrregCtl b => exact decodeCmd_writeCommand .ctl b
  case wrregClkctl b => exact decodeCmd_writeCommand .clkctl b
  case wrregRst b => exact decodeCmd_writeCommand .rst b
  case rdregData => exact decodeCmd_readCommand .data
  case rdregCtl => exact decodeCmd_readCommand .ctl
  case rdregStat => exact decodeCmd_readCommand .stat

theorem decodeRaw_encode {i : Instr} {v : Word} (h : encode i = .raw v) : decodeRaw v = i := by
  cases i <;> cases h
  rfl

/-- Settles O3: by the door the code goes through (R100). -/
theorem decodeOfEncodeIsIdentity : Obligations.DecodeOfEncodeIsIdentity := by
  intro i
  cases h : encode i with
  | cmd w => exact decodeCmd_encode h
  | raw v => exact congrArg Except.ok (decodeRaw_encode h)
  | call c => exact decodeCall_encode h

/-! ### What was decoded has that code (R104) -/

theorem firstRow_some {w : Word} {rows : List CommandRow} {i : Instr} (h : firstRow w rows = some i) :
    ∃ r ∈ rows, w &&& r.mask = r.pattern ∧ r.make (dataByte w) = i := by
  induction rows with
  | nil => cases h
  | cons r rs ih =>
    unfold firstRow at h
    split at h
    · next hr => exact ⟨r, List.mem_cons_self, hr, Option.some.inj h⟩
    · obtain ⟨q, hq, hmatch⟩ := ih h
      exact ⟨q, List.mem_cons_of_mem r hq, hmatch⟩

/-- The data byte where it lies: what the byte mask keeps of a word (R101). -/
theorem zextByte_dataByte (w : Word) : zextByte (dataByte w) = w &&& Config.cmdByteMask := by
  have hmask : Config.cmdByteMask.toNat = 2 ^ 8 - 1 := rfl
  have hbyte : (lowByte w).toNat = w.toNat % 2 ^ 8 := by simp [lowByte]
  have hzext : (zextByte (lowByte w)).toNat = (lowByte w).toNat :=
    BitVec.toNat_setWidth_of_le (by decide)
  apply BitVec.eq_of_toNat_eq
  rw [dataByte_eq, hzext, hbyte, BitVec.toNat_and, hmask, Nat.and_two_pow_sub_one_eq_mod]

/-- A word that a write row matches is the row's command for its data byte (R103, R104). -/
theorem writeCommand_dataByte {w : Word} {sel : Selector} (h : w &&& ~~~Config.cmdByteMask = writeCommand sel 0#8) :
    writeCommand sel (dataByte w) = w :=
  calc writeCommand sel (dataByte w)
    _ = writeCommand sel 0#8 ||| zextByte (dataByte w) := by simp [writeCommand, zextByte]
    _ = (w &&& ~~~Config.cmdByteMask) ||| (w &&& Config.cmdByteMask) := by rw [h, zextByte_dataByte]
    _ = w := by rw [← BitVec.and_or_distrib_left, BitVec.not_or_self, BitVec.and_allOnes]

/-- A word that a read row matches is the row's command (R103, R104). -/
theorem readCommand_of_match {w : Word} {sel : Selector} (h : w &&& ~~~0#Config.wordBits = readCommand sel) :
    readCommand sel = w := by
  rw [← h]
  simp

theorem encode_decodeCmd {w : Word} {i : Instr} (h : decodeCmd w = .ok i) : encode i = .cmd w := by
  unfold decodeCmd at h
  split at h
  · split at h <;> cases h
    next hfirst =>
    obtain ⟨r, hr, hmatch, rfl⟩ := firstRow_some hfirst
    simp only [commandRows, List.mem_cons, List.not_mem_nil, or_false] at hr
    rcases hr with rfl | rfl | rfl | rfl | rfl | rfl | rfl | rfl
    iterate 5 exact congrArg Code.cmd (writeCommand_dataByte hmatch)
    iterate 3 exact congrArg Code.cmd (readCommand_of_match hmatch)
  · cases h

theorem encode_decodeCall {c : Call} {i : Instr} (h : decodeCall c = .ok i) : encode i = .call c := by
  unfold decodeCall at h
  split at h <;> cases h
  all_goals next hname hargs => exact congrArg₂ (fun name args => Code.call ⟨name, args⟩) hname.symm hargs.symm

/-- Settles O4: by the door the code goes through (R100). -/
theorem encodeOfDecodeIsIdentity : Obligations.EncodeOfDecodeIsIdentity := by
  intro c i h
  cases c with
  | cmd w => exact encode_decodeCmd h
  | raw v => exact (Except.ok.inj h) ▸ rfl
  | call c => exact encode_decodeCall h

/-- Settles O2: the words CMD accepts are the codes of the encoded forms (`encode_decodeCmd`, `decodeCmd_encode`). -/
theorem commandTableIsExact : Obligations.CommandTableIsExact := by
  intro w i
  constructor
  · intro h
    have hcode := encode_decodeCmd h
    rcases decodeCmd_cases h with ⟨b, rfl⟩ | ⟨b, rfl⟩ | ⟨b, rfl⟩ | ⟨b, rfl⟩ | ⟨b, rfl⟩ | rfl | rfl | rfl <;> cases hcode
    · exact .inl ⟨b, rfl, rfl⟩
    · exact .inr <| .inl ⟨b, rfl, rfl⟩
    · exact .inr <| .inr <| .inl ⟨b, rfl, rfl⟩
    · exact .inr <| .inr <| .inr <| .inl ⟨b, rfl, rfl⟩
    · exact .inr <| .inr <| .inr <| .inr <| .inl ⟨b, rfl, rfl⟩
    · exact .inr <| .inr <| .inr <| .inr <| .inr <| .inl ⟨rfl, rfl⟩
    · exact .inr <| .inr <| .inr <| .inr <| .inr <| .inr <| .inl ⟨rfl, rfl⟩
    · exact .inr <| .inr <| .inr <| .inr <| .inr <| .inr <| .inr ⟨rfl, rfl⟩
  · intro h
    apply decodeCmd_encode
    rcases h with ⟨b, rfl, rfl⟩ | ⟨b, rfl, rfl⟩ | ⟨b, rfl, rfl⟩ | ⟨b, rfl, rfl⟩ | ⟨b, rfl, rfl⟩ | ⟨rfl, rfl⟩ | ⟨rfl, rfl⟩ |
      ⟨rfl, rfl⟩
    all_goals rfl

/-- Settles O1: the words are the codes of the operations they stand for. -/
theorem specWordsDecode : Obligations.SpecWordsDecode :=
  ⟨decodeOfEncodeIsIdentity (.wrregThp 0x05#8), decodeOfEncodeIsIdentity (.wrregData 0xA0#8),
    decodeOfEncodeIsIdentity (.wrregCtl 0x60#8), decodeOfEncodeIsIdentity (.wrregClkctl 0x18#8),
    decodeOfEncodeIsIdentity (.wrregRst 0x00#8), decodeOfEncodeIsIdentity .rdregData, decodeOfEncodeIsIdentity .rdregCtl,
    decodeOfEncodeIsIdentity .rdregStat, decodeOfEncodeIsIdentity (.wrraw 0x200#64), decodeOfEncodeIsIdentity .wait,
    by decide, by decide⟩

/-! ### Bytes as numbers (R107-R109) -/

/-- An upper field and a lower one of `k` bits add up to the byte they are laid side by side in. -/
theorem toNat_shiftLeft_or {k : Nat} {x y : Byte} (hx : x.toNat * 2 ^ k < 2 ^ 8) (hy : y.toNat < 2 ^ k) :
    (x <<< k ||| y).toNat = 2 ^ k * x.toNat + y.toNat := by
  rw [BitVec.toNat_or, BitVec.toNat_shiftLeft, Nat.shiftLeft_eq, Nat.mod_eq_of_lt hx, mul_comm,
    Nat.two_pow_add_eq_or_of_lt hy]

theorem clkByte_toNat {mdiv ndiv : Nat} (hm : mdiv ≤ 15) (hn : ndiv ≤ 7) : (clkByte mdiv ndiv).toNat = 8 * mdiv + ndiv := by
  have hm' : (BitVec.ofNat 8 mdiv).toNat = mdiv := by simp; omega
  have hn' : (BitVec.ofNat 8 ndiv).toNat = ndiv := by simp; omega
  rw [clkByte, toNat_shiftLeft_or (by omega) (by omega), hm', hn']
  rfl

theorem addrByte_toNat (a : Addr7) (d : Direction) :
    (addrByte a d).toNat = 2 * a.toNat + (match d with | .write => 0 | .read => 1) := by
  have ha := a.isLt
  have hz : (a.zeroExtend 8).toNat = a.toNat := by simp; omega
  cases d with
  | write => simp only [addrByte, BitVec.toNat_shiftLeft, hz]; omega
  | read => rw [addrByte, toNat_shiftLeft_or (by omega) (by decide), hz]; rfl

/-- Settles O5. -/
theorem registerByteFormats : Obligations.RegisterByteFormats :=
  ⟨fun _ _ => clkByte_toNat, fun thp h => (BitVec.toNat_ofNat thp 8).trans (Nat.mod_eq_of_lt (by omega)),
    fun a => ⟨addrByte_toNat a .write, addrByte_toNat a .read⟩⟩

/-! ### What R111 reserves -/

/-- One bit of a byte under its mask (R105). -/
theorem and_twoPow_eq_zero {k : Nat} (hk : k < 8) (b : Byte) : b &&& BitVec.twoPow 8 k = 0#8 ↔ b.getLsbD k = false := by
  have hne : BitVec.twoPow 8 k ≠ 0#8 := fun h => by simpa [hk] using congrArg (·.getLsbD k) h
  rw [BitVec.and_twoPow]
  cases b.getLsbD k <;> simp [hne]

/-- The reserved bits of a CTL byte are 7, 3, 1 and 0 (R105, R111). -/
theorem ctlByteLegal_iff (b : Byte) : ctlByteLegal b = true ↔
    b.getLsbD 7 = false ∧ b.getLsbD 3 = false ∧ b.getLsbD 1 = false ∧ b.getLsbD 0 = false := by
  have hmask : Config.ctlReserved =
      BitVec.twoPow 8 7 ||| (BitVec.twoPow 8 3 ||| (BitVec.twoPow 8 1 ||| BitVec.twoPow 8 0)) := by decide
  simp [ctlByteLegal, hmask, BitVec.and_or_distrib_left, and_twoPow_eq_zero]

/-- A CLKCTL byte as a number: `mdiv` is what stands above its lowest three bits (R107, R111). -/
theorem clkByteLegal_iff (b : Byte) : clkByteLegal b = true ↔ b.toNat < 128 ∧ 2 ≤ b.toNat / 8 := by
  have hmask : 0x80#8 = BitVec.twoPow 8 7 := by decide
  have htop : b.getLsbD 7 = decide (128 ≤ b.toNat) := BitVec.msb_eq_decide b
  have hzero : b &&& 0x80#8 = 0#8 ↔ b.toNat < 128 := by
    rw [hmask, and_twoPow_eq_zero (by decide), htop, decide_eq_false_iff_not, not_le]
  simp [clkByteLegal, hzero, BitVec.toNat_ushiftRight, Nat.shiftRight_eq_div_pow]

/-- The action a CTL byte issues is told by bits 5 and 4, `CTL_STA` and `CTL_STP` (R105, R155). -/
theorem ctlAction_eq (b : Byte) : ctlAction b =
    if b.getLsbD 5 = true then .start else if b.getLsbD 4 = true then .stop else .byte := by
  have hsta : Config.ctlSta = BitVec.twoPow 8 5 := by decide
  have hstp : Config.ctlStp = BitVec.twoPow 8 4 := by decide
  simp [ctlAction, hsta, hstp, and_twoPow_eq_zero]

/-- Settles O6: each meaning asks first whether its operand is legal, and none here is (`ctlByteLegal_iff`,
`clkByteLegal_iff`). -/
theorem reservedEncodingsAreRefused : Obligations.ReservedEncodingsAreRefused := by
  refine ⟨fun b s hb => ?_, fun b s hb => ?_, fun v s hv => ?_, fun s => ⟨rfl, rfl⟩⟩
  · have hl : ¬ ctlByteLegal b = true := by
      rw [ctlByteLegal_iff]
      rintro ⟨h7, h3, h1, h0⟩
      simp only [h7, h3, h1, h0, Bool.false_eq_true, or_self] at hb
    exact ⟨if_neg hl, if_neg hl⟩
  · have hl : ¬ clkByteLegal b = true := by
      rw [clkByteLegal_iff]
      omega
    exact ⟨if_neg hl, if_neg hl, if_neg hl⟩
  · have hl : ¬ rawPatternLegal v = true := fun h => hv (List.contains_iff_mem.1 h)
    exact ⟨if_neg hl, if_neg hl⟩

/-- Settles O8: a legal byte is performed as `ctlWrite`, and its action is `ctlAction_eq`'s. -/
theorem ctlWriteIssuesOneAction : Obligations.CtlWriteIssuesOneAction := by
  intro b s hb
  have hexec : exec (.wrregCtl b) s = .next (ctlWrite b s) := if_pos hb
  rw [hexec, ctlWrite, ctlAction_eq]

end Sys2Proof.Machine
end

section
/-! `set_clock()` and `unblock()` (R214, R252): from what they can do to what the statements say of their end. -/

namespace Sys2Proof.Machine

open Sys2Proof

/-- The registers commands change are `d`'s, and the whole core is `d` where the CORE takes no turn in `s`. -/
def CoreHeldAs (s : State) (d c : TwsiCore) : Prop :=
  (c.thp, c.ctl, c.clkctl) = (d.thp, d.ctl, d.clkctl) ∧ (s.noCore = true → c = d)

theorem coreKeeps_heldAs (s : State) (d : TwsiCore) : CoreKeeps (listed s) (CoreHeldAs s d) :=
  (coreKeeps_regs (· = (d.thp, d.ctl, d.clkctl))).and (coreKeeps_noCore (· = d))

/-- The registers only commands change, of a core held as `d`. -/
theorem CoreHeldAs.registers {s : State} {d c : TwsiCore} (h : CoreHeldAs s d c) :
    c.thp = d.thp ∧ c.ctl = d.ctl ∧ c.clkctl = d.clkctl := by
  simpa using h.1

/-- A THP write on a core held as `d` leaves it held as `d` with that THP (R143). -/
theorem CoreHeldAs.setThp {s : State} {d c : TwsiCore} (h : CoreHeldAs s d c) (b : Byte) :
    CoreHeldAs s { d with thp := b } { c with thp := b } := by
  obtain ⟨_, hctl, hclk⟩ := h.registers
  exact ⟨by simp [hctl, hclk], fun hn => by rw [h.2 hn]⟩

/-- A CLKCTL write on a core held as `d` leaves it held as `d` with that CLKCTL (R146). -/
theorem CoreHeldAs.setClkctl {s : State} {d c : TwsiCore} (h : CoreHeldAs s d c) (b : Byte) :
    CoreHeldAs s { d with clkctl := b } { c with clkctl := b } := by
  obtain ⟨hthp, hctl, _⟩ := h.registers
  exact ⟨by simp [hthp, hctl], fun hn => by rw [h.2 hn]⟩

/-- Settles O39: each write is performed on a core held as the search, or the write before it, left it (`setClock_spec`). -/
theorem setClockProgramsTheSearchResult : Obligations.SetClockProgramsTheSearchResult := by
  intro s htarget hq p
  obtain ⟨x, y, t, ht, hran, ho, hheld, hie⟩ := setClock_spec (listed_turns s).drain (listed_turns s).port hq
    (listed_all s) (coreKeeps_heldAs s s.core) (coreKeeps_heldAs s { s.core with thp := thpByte p.thp })
    (coreKeeps_heldAs s { s.core with thp := thpByte p.thp, clkctl := clkByte p.mdiv p.ndiv })
    ⟨rfl, fun _ => rfl⟩ (fun _ h => h.setThp _) (fun _ h => h.setClkctl _)
  obtain ⟨hthp, hctl, hclk⟩ := hheld.registers
  have hcontroller : t.controller.fixed = { s.controller.fixed with params := p } := by
    rw [ho.controller]
    rfl
  have hexec : exec .setClock s = .next { t with result := some .unit } :=
    (if_neg htarget).trans (finish_ok (ret := fun _ => .unit) ht)
  exact ⟨x, y, { t with result := some .unit }, hexec, rfl, (hran.result _).listed_acted (by simp [clockActs]), hthp, hclk,
    hctl, hcontroller, ho.thread, ho.phase, ho.buffers,
    (hran.result _).drained listed_noIrq (by simp [clockActs]) (by simp [clockActs]), (hran.result _).quiet,
    hie.patternsKept, hheld.2⟩

/-- Settles O41: the acts of `unblock_spec`, none of them an access, over a core that is held. -/
theorem unblockStreamIsExact : Obligations.UnblockStreamIsExact := by
  intro s hq
  obtain ⟨t, ht, hran, ho, hheld, hp⟩ := unblock_spec (coreKeeps_held s) (listed_turns s).drain hq (listed_all s)
    (coreHeld_self s)
  obtain ⟨hthp, hctl, hclk⟩ := hheld.registers
  have hbegin : ∀ us, unblockActs.head? ≠ some (.delay us) := fun _ => by simp [unblockActs]
  have hacted : Acted s { t with result := some .unit } unblockActs := (hran.result _).listed_acted hbegin
  have ⟨haccessed, hdelayed, _⟩ := hacted
  exact ⟨{ t with result := some .unit }, finish_ok (ret := fun _ => .unit) ht, rfl, hacted, haccessed, hdelayed,
    ho.sameEngine, hp, (hran.result _).quiet, hthp, hctl, hclk, hheld.2,
    fun hi => hran.solo (listed_noIrq hi) (by simp [unblockActs]) hbegin⟩

end Sys2Proof.Machine
end

section
/-! Register accesses and the CORE's turns as the device sees them (R143-R148, R154-R159): what each draws, and that it may draw
anything. -/

namespace Sys2Proof.Machine

open Sys2Proof

/-! ### Draws of a byte or a bit (R13) -/

theorem lowByte_zextByte (b : Byte) : lowByte (zextByte b) = b := by
  have hb : b.toNat < 256 := b.isLt
  apply BitVec.eq_of_toNat_eq
  simpa [lowByte, zextByte, Config.wordBits] using hb

/-- A drawn byte: some byte, and the draws alone change. -/
theorem drawByte_next (s : State) : ∃ b ds n, s.drawByte = (b, { s with draws := ds, drawn := n }) := by
  obtain ⟨ds, n, hd⟩ := draw_eq s
  exact ⟨_, ds, n, Prod.ext rfl hd⟩

/-- A drawn bit: some bit, and the draws alone change. -/
theorem drawBit_next (s : State) : ∃ e ds n, s.drawBit = (e, { s with draws := ds, drawn := n }) := by
  obtain ⟨ds, n, hd⟩ := draw_eq s
  exact ⟨_, ds, n, Prod.ext rfl hd⟩

/-- A byte is drawn where a word that carries it is listed. -/
theorem drawByte_listed (s : State) (b : Byte) (ds : List Word) :
    State.drawByte { s with draws := zextByte b :: ds } = (b, { s with draws := ds }) :=
  Prod.ext (lowByte_zextByte b) rfl

/-! ### Register writes (R143-R147) -/

/-- Settles O7: each word is the code of its write, which is one assignment. -/
theorem plainRegisterWritesStoreTheByte : Obligations.PlainRegisterWritesStoreTheByte := by
  intro b s
  exact ⟨⟨decodeCmd_writeCommand .thp b, rfl⟩, ⟨decodeCmd_writeCommand .data b, rfl⟩,
    decodeCmd_writeCommand .clkctl b, fun hb => if_pos hb⟩

/-- An RST write takes the bytes drawn for CTL, THP and CLKCTL in turn (R159). -/
theorem rstWrite_of_draws {s u v w : State} {c t k : Byte} (hc : s.drawByte = (c, u)) (ht : u.drawByte = (t, v))
    (hk : v.drawByte = (k, w)) : rstWrite s = { w with core :=
      { w.core with ctl := c, thp := t, clkctl := k, iflg := false, pending := .reset } } := by
  simp only [rstWrite, hc, ht, hk]

/-- Settles O9: three bytes are drawn (`rstWrite_of_draws`), and any three may be listed. -/
theorem rstWriteResetsTheCore : Obligations.RstWriteResetsTheCore := by
  intro b s
  have hexec (u : State) : exec (.wrregRst b) u = .next (rstWrite u) := rfl
  refine ⟨?_, fun c t k => ⟨[zextByte c, zextByte t, zextByte k], ?_⟩⟩
  · obtain ⟨c, ds₁, n₁, hc⟩ := drawByte_next s
    obtain ⟨t, ds₂, n₂, ht⟩ := drawByte_next { s with draws := ds₁, drawn := n₁ }
    obtain ⟨k, ds₃, n₃, hk⟩ := drawByte_next { s with draws := ds₂, drawn := n₂ }
    exact ⟨c, t, k, ds₃, n₃, by rw [hexec, rstWrite_of_draws hc ht hk]⟩
  · rw [hexec, rstWrite_of_draws (drawByte_listed s c _) (drawByte_listed s t _) (drawByte_listed s k _)]

/-! ### Register reads (R148, R154) -/

/-- A CTL read that draws a byte with IFLG already in its place gives that byte (R39, R148). -/
theorem ctlReadByte_self (r : Byte) : ctlReadByte (r.getLsbD 3) r = r := by
  have hmask : Config.ctlIflg = BitVec.twoPow 8 3 := by decide
  rw [ctlReadByte, hmask, ← BitVec.and_twoPow, ← BitVec.and_or_distrib_left, BitVec.not_or_self, BitVec.and_allOnes]

/-- Settles O10: a CTL read shows IFLG whatever is drawn (`ctlReady_ctlReadByte`), and may draw the byte it is to give
(`ctlReadByte_self`). -/
theorem registerReadsHaveNoSideEffect : Obligations.RegisterReadsHaveNoSideEffect := by
  intro s
  have hexec {u v : State} {d : Byte} (h : u.drawByte = (d, v)) : exec .rdregCtl u =
      .next { v with port := { u.port with result := ctlReadByte u.core.iflg d } } := by
    simp only [exec, execRdregCtl, h]
  refine ⟨rfl, rfl, ?_, fun r hr => ⟨zextByte r, ?_⟩⟩
  · obtain ⟨d, ds, n, hd⟩ := drawByte_next s
    exact ⟨ctlReadByte s.core.iflg d, ds, n, (ctlReady_eq _).symm.trans (ctlReady_ctlReadByte _ _), hexec hd⟩
  · rw [hexec (drawByte_listed s r []), ← hr, ctlReadByte_self]

/-! ### The CORE's turns (R156, R157) -/

/-- With no action pending the CORE has no turn (R156, R157). -/
theorem coreProgress_idle {s : State} (h : s.core.pending = .none) : coreProgress s = s := if_pos h

theorem coreComplete_idle {s : State} (h : s.core.pending = .none) : coreComplete s = s := by
  simp only [coreComplete, h]

/-- A progress turn sets STAT to the byte drawn (R156). -/
theorem coreProgress_of_draw {s u : State} {st : Byte} (h : s.core.pending ≠ .none) (hst : s.drawByte = (st, u)) :
    coreProgress s = { u with core := { u.core with stat := st } } := by
  simp only [coreProgress, if_neg h, hst]

/-- Settles O15: the byte drawn is any (`coreProgress_of_draw`). -/
theorem coreProgressDrawsStat : Obligations.CoreProgressDrawsStat := by
  intro s ms hm
  have hstep {u : State} (h : u.moves = .coreProgress :: ms) : step u = .next (coreProgress (u.withMoves ms)) :=
    step_of_moves h
  refine ⟨fun hp => ?_, fun hp => ⟨?_, fun st => ⟨zextByte st, ?_⟩⟩⟩
  · exact (hstep hm).trans (congrArg _ (coreProgress_idle (s := s.withMoves ms) hp))
  · obtain ⟨st, ds, n, hst⟩ := drawByte_next (s.withMoves ms)
    exact ⟨st, ds, n, (hstep hm).trans (congrArg _ (coreProgress_of_draw (s := s.withMoves ms) hp hst))⟩
  · have hnext := coreProgress_of_draw (s := { s.withMoves ms with draws := [zextByte st] }) hp
      (drawByte_listed (s.withMoves ms) st [])
    exact (hstep (u := { s with draws := [zextByte st] }) hm).trans (congrArg _ hnext)

/-- What a completion of the action `a` may leave in DATA, `old` before, and in IFLG (R157). -/
def Reports (a : CoreAction) (old dt : Byte) (f : Bool) : Prop :=
  (a ≠ .byte → dt = old) ∧ (a = .start ∨ a = .byte → f = true) ∧ (a = .reset → f = false)

/-- The core after a completion that reports `st`, `dt` and `f` (R157). -/
def TwsiCore.reported (c : TwsiCore) (st dt : Byte) (f : Bool) : TwsiCore :=
  { c with stat := st, data := dt, iflg := f, pending := .none }

/-- A completion turn reports what its action may, and changes nothing else but the draws (R157). -/
theorem coreComplete_reports {s : State} (h : s.core.pending ≠ .none) : ∃ st dt f ds n,
    coreComplete s = { s with core := s.core.reported st dt f, draws := ds, drawn := n } ∧
      Reports s.core.pending s.core.data dt f := by
  obtain ⟨st, ds, n, hst⟩ := drawByte_next s
  cases hp : s.core.pending with
  | none => exact absurd hp h
  | start => exact ⟨st, s.core.data, true, ds, n, by simp only [coreComplete, hp, hst]; rfl, by simp [Reports]⟩
  | reset => exact ⟨st, s.core.data, false, ds, n, by simp only [coreComplete, hp, hst]; rfl, by simp [Reports]⟩
  | byte =>
    obtain ⟨dt, ds', n', hdt⟩ := drawByte_next { s with draws := ds, drawn := n }
    exact ⟨st, dt, true, ds', n', by simp only [coreComplete, hp, hst, hdt]; rfl, by simp [Reports]⟩
  | stop =>
    obtain ⟨f, ds', n', hf⟩ := drawBit_next { s with draws := ds, drawn := n }
    exact ⟨st, s.core.data, f, ds', n', by simp only [coreComplete, hp, hst, hf]; rfl, by simp [Reports]⟩

/-- A completion turn may report all its action may, each by some draws (R157). -/
theorem coreComplete_may_report {s : State} {st dt : Byte} {f : Bool} (h : s.core.pending ≠ .none)
    (hr : Reports s.core.pending s.core.data dt f) :
    ∃ ds, coreComplete { s with draws := ds } = { s with core := s.core.reported st dt f, draws := [] } := by
  have hst := drawByte_listed s st
  obtain ⟨hdt, hset, hclear⟩ := hr
  cases hp : s.core.pending with
  | none => exact absurd hp h
  | start =>
    obtain ⟨rfl, rfl⟩ : dt = s.core.data ∧ f = true := ⟨hdt (by simp [hp]), hset (by simp [hp])⟩
    exact ⟨[zextByte st], by simp only [coreComplete, hp, hst]; rfl⟩
  | reset =>
    obtain ⟨rfl, rfl⟩ : dt = s.core.data ∧ f = false := ⟨hdt (by simp [hp]), hclear hp⟩
    exact ⟨[zextByte st], by simp only [coreComplete, hp, hst]; rfl⟩
  | byte =>
    obtain rfl : f = true := hset (by simp [hp])
    exact ⟨[zextByte st, zextByte dt], by simp only [coreComplete, hp, hst, drawByte_listed s dt]; rfl⟩
  | stop =>
    obtain rfl : dt = s.core.data := hdt (by simp [hp])
    obtain ⟨d, rfl⟩ := exists_bit f
    exact ⟨[zextByte st, d], by simp only [coreComplete, hp, hst]; rfl⟩

/-- Settles O16: a completion reports what its action may (`coreComplete_reports`), and all that (`coreComplete_may_report`). -/
theorem coreCompletionReportsTheAction : Obligations.CoreCompletionReportsTheAction := by
  intro s ms hm
  have hstep {u : State} (h : u.moves = .coreComplete :: ms) : step u = .next (coreComplete (u.withMoves ms)) :=
    step_of_moves h
  refine ⟨fun hp => ?_, fun hp => ?_, fun st dt f hp hdt hset hclear => ?_⟩
  · exact (hstep hm).trans (congrArg _ (coreComplete_idle (s := s.withMoves ms) hp))
  · obtain ⟨st, dt, f, ds, n, hc, hdt, hset, hclear⟩ := coreComplete_reports (s := s.withMoves ms) hp
    exact ⟨st, dt, f, ds, n, (hstep hm).trans (congrArg _ hc), hdt, hset, hclear⟩
  · obtain ⟨ds, hc⟩ := coreComplete_may_report (s := s.withMoves ms) (st := st) hp ⟨hdt, hset, hclear⟩
    exact ⟨ds, (hstep (u := { s with draws := ds }) hm).trans (congrArg _ hc)⟩

end Sys2Proof.Machine
end

section
/-! Completion waiting and the interrupt handler (R180-R189): the handler by its statements, `enable`, `disable`, `ready` and
`close` from their specifications, and what decides a `wait()`. -/

namespace Sys2Proof.Machine

open Sys2Proof

/-! ### The handler's statements (R186) -/

theorem irqStep_out {s : State} (h : s.irqMayEnter = true) : irqStep s = .ok { s with irq := .atWrite } := by
  have hi : s.irq = .out := by simp_all [State.irqMayEnter]
  simp [irqStep, hi, irqEnter, h]

/-- `s` with the handler's clear posted and the handler at its readback. -/
def State.clearing (s : State) : State := { s with irq := .atReadback, posted := s.posted ++ [clearWrite] }

theorem irqStep_atWrite {s : State} (h : s.irq = .atWrite) : irqStep s = .ok s.clearing := by
  simp only [irqStep, h]
  rfl

/-- The readback holds while a write is posted (R73). -/
theorem irqStep_held {s : State} (h : s.irq = .atReadback) (hp : s.posted ≠ []) : irqStep s = .ok s := by
  simp only [irqStep, h, hp, if_false]

theorem irqStep_atReadback {s : State} (h : s.irq = .atReadback) (hp : s.posted = []) :
    ∃ (w : Word) (ds : List Word) (n : Nat), irqStep s = .ok { s with
      irq := .atSignal, history := s.history ++ [.read Config.offRaw w], draws := ds, drawn := n } := by
  obtain ⟨w, ds, n, hr, _⟩ := readWindow_next (off := Config.offRaw) rfl s
  exact ⟨w, ds, n, by simp only [irqStep, h, hp, if_true, hr]; rfl⟩

theorem irqStep_atSignal {s : State} (h : s.irq = .atSignal) : irqStep s = .ok { s.signal with irq := .atLeave } := by
  simp only [irqStep, h]

theorem irqStep_atLeave {s : State} (h : s.irq = .atLeave) : irqStep s = .ok { s with irq := .out } := by
  simp only [irqStep, h]
  rfl

/-- Settles O24: the step takes the IRQ agent's turn, which runs the statement it stands at. -/
theorem handlerTakesItsStatementsInOrder : Obligations.HandlerTakesItsStatementsInOrder := by
  intro s ms hm
  rw [show step s = toOutcome (irqStep (s.withMoves ms)) from step_of_moves hm]
  refine ⟨fun hi hl ha => ?_, fun hi => ?_, fun hi hp => ?_, fun hi hp => ?_, fun hi => ?_, fun hi => ?_⟩
  · have he : (s.withMoves ms).irqMayEnter = true := by
      rw [State.lineAsserted] at hl
      simp [State.irqMayEnter, State.lineAsserted, hl, ha, hi]
    exact congrArg toOutcome (irqStep_out he)
  · exact congrArg toOutcome (irqStep_atWrite (s := s.withMoves ms) hi)
  · exact congrArg toOutcome (irqStep_held (s := s.withMoves ms) hi hp)
  · obtain ⟨w, ds, n, hr⟩ := irqStep_atReadback (s := s.withMoves ms) hi hp
    exact ⟨w, ds, n, congrArg toOutcome hr⟩
  · exact congrArg toOutcome (irqStep_atSignal (s := s.withMoves ms) hi)
  · exact congrArg toOutcome (irqStep_atLeave (s := s.withMoves ms) hi)

/-! ### The handler run whole -/

/-- What every drain keeps, draining everything keeps. -/
theorem drainAll_keeps {P : State → Prop} (hP : ∀ {s t}, P s → drainStep s = .ok t → P t) {s t : State} (hs : P s)
    (h : drainAll s = .ok t) : P t := by
  unfold drainAll at h
  generalize s.posted.length = n at h
  induction n generalizing s with
  | zero => cases h; exact hs
  | succ n ih =>
    obtain ⟨u, hu, h⟩ := bind_eq_ok h
    exact ih (hP hs hu) h

/-- Draining everything leaves the core, the handler's side and the Controller, and what was issued (R74, R80). -/
theorem drainAll_frame {s t : State} (h : drainAll s = .ok t) : t.core = s.core ∧ t.handlerAttached = s.handlerAttached ∧
    t.irq = s.irq ∧ t.controller = s.controller ∧ t.stream = s.stream := by
  refine drainAll_keeps (P := fun t => t.core = s.core ∧ t.handlerAttached = s.handlerAttached ∧ t.irq = s.irq ∧
    t.controller = s.controller ∧ t.stream = s.stream) ?_ ⟨rfl, rfl, rfl, rfl, rfl⟩ h
  rintro u v ⟨hcore, hattached, hirq, hcontroller, hstream⟩ hv
  obtain ⟨kcore, kattached, kirq, kcontroller⟩ := drainStep_core hv
  exact ⟨kcore.trans hcore, kattached.trans hattached, kirq.trans hirq, kcontroller.trans hcontroller,
    (drainStep_stream hv).trans hstream⟩

/-- The handler's clear is one of the block's own writes (R104). -/
theorem clearing_flowing {s : State} (h : s.flowing = true) : s.clearing.flowing = true := by
  obtain ⟨t, ht, hstep⟩ := irqStep_spec (s := { s with irq := .atWrite }) h
  cases (irqStep_atWrite rfl).symm.trans ht
  exact hstep.flowing

/-- The handler's clear, drained last, leaves IE 0 (R37, R186). -/
theorem drainAll_clear {s t : State} (hf : s.flowing = true) {ps : List Posted} (hp : s.posted = ps ++ [clearWrite])
    (h : drainAll s = .ok t) (ht : t.posted = []) : t.ie = false := by
  rcases drainSteps_survives (A := anyTurn) (rawTrack_survives (p := clearWrite) rfl) rfl _ s t hf (.inl ⟨ps, 0, hp⟩) h with
    ⟨pre, n, hq⟩ | ⟨_, htaken | hcleared⟩
  · simp [ht] at hq
  · exact htaken.2.2 rfl rfl
  · exact hcleared.2

/-- From its readback, with nothing posted, the handler signals and returns (R186, R345). -/
theorem irqStep_readback_to_return {s : State} (h : s.irq = .atReadback) (hp : s.posted = []) :
    ∃ (w : Word) (ds : List Word) (n : Nat), ((irqStep s).bind fun u => (irqStep u).bind irqStep) =
      .ok { s.signal with irq := .out, history := s.history ++ [.read Config.offRaw w], draws := ds, drawn := n } := by
  obtain ⟨w, ds, n, hr⟩ := irqStep_atReadback h hp
  exact ⟨w, ds, n, by rw [hr]; rfl⟩

/-- The handler where it may be entered (R186): it posts its clear, everything posted drains, it signals and returns. -/
theorem irqHandler_entered {s : State} (h : s.irqMayEnter = true) : irqHandler s =
    (drainAll s.clearing).bind fun t => (irqStep t).bind fun u => (irqStep u).bind irqStep := by
  rw [irqHandler, if_pos h, irqStep_out h]
  rfl

/-- Settles O22: between entry and readback everything posted drains, the handler's clear last (`drainAll_clear`). -/
theorem handlerDisablesThenSignals : Obligations.HandlerDisablesThenSignals := by
  intro s hie hiflg hattached hirq hf
  have hmay : s.irqMayEnter = true := by simp [State.irqMayEnter, State.lineAsserted, hie, hiflg, hattached, hirq]
  obtain ⟨v, hv, hstep, hpv⟩ := drainAll_spec (clearing_flowing hf)
  obtain ⟨hcore, hatt, hi, hcontroller, hstream⟩ := drainAll_frame hv
  obtain ⟨w, ds, n, hret⟩ := irqStep_readback_to_return hi hpv
  have hexec : exec .irqHandler s = .next { v.signal with
      irq := .out, history := v.history ++ [.read Config.offRaw w], draws := ds, drawn := n } := by
    show toOutcome (irqHandler s) = _
    rw [irqHandler_entered hmay, hv]
    exact congrArg toOutcome hret
  have hclear : v.ie = false := drainAll_clear (clearing_flowing hf) rfl hv hpv
  have hengine : SameEngine s v := hstep.others.sameEngine
  refine ⟨_, hexec, hclear, rfl, rfl, hpv, ?_, hcore, hengine, hstep.others.result, hatt.trans hattached, hstep.moves⟩
  have hwrites : v.stream = s.stream ++ [.write 0x10 0x00#64] := hstream.trans (stream_post s _ _ false)
  rw [State.stream, hpv] at hwrites
  simpa [notReads] using hwrites

/-! ### `enable`, `disable`, `ready`, `close` (R180-R182, R322) -/

/-- Settles O30: `enable()` and `disable()` are `write_raw` of their patterns (`writeRawTakesEffectBeforeReturning`). -/
theorem enableSetsAndDisableClearsIe : Obligations.EnableSetsAndDisableClearsIe := by
  intro s hq
  have henable : exec .enable s = exec (.writeRaw 0x40#64) s := rfl
  have hdisable : exec .disable s = exec (.writeRaw 0x00#64) s := rfl
  rw [henable, hdisable]
  refine ⟨?_, ?_⟩
  · obtain ⟨t, ht, hres, hacted, hquiet, hp, heng, hthp, hctl, hclk, hcore, htaken, halone⟩ :=
      writeRawTakesEffectBeforeReturning 0x40#64 s rfl hq
    refine ⟨t, ht, hres, hacted, hp, hquiet, heng, hthp, hctl, hclk, hcore, ?_, fun hi => ?_⟩
    · exact htaken.imp (fun h => h.2.1 rfl) And.left
    · obtain ⟨hraw, hset, _⟩ := halone hi
      exact ⟨hset rfl, hraw⟩
  · obtain ⟨t, ht, hres, hacted, hquiet, hp, heng, hthp, hctl, hclk, hcore, htaken, _⟩ :=
      writeRawTakesEffectBeforeReturning 0x00#64 s rfl hq
    have hcleared : t.ie = false ∧ t.raw = 0x00#64 := htaken.elim (fun h => ⟨h.2.2 rfl, h.1⟩) And.symm
    exact ⟨t, ht, hres, hacted, hp, hquiet, heng, hthp, hctl, hclk, hcore, hcleared⟩

/-- Settles O31: the byte shows IFLG of a core of the run, which is `s`'s where the CORE takes no turn (`ready_spec`). -/
theorem readyIsIflgReadThroughThePort : Obligations.ReadyIsIflgReadThroughThePort := by
  intro s hq
  obtain ⟨b, t, ht, hran, ho, hp, hheld, hie, c, hc, hb⟩ := ready_spec (coreKeeps_held s) (listed_turns s).drain
    (listed_turns s).port hq (listed_all s) (coreHeld_self s)
  rw [ctlReady_eq] at ht hb
  obtain ⟨hthp, hctl, hclk⟩ := hheld.registers
  exact ⟨b, { t with result := some (.bool (b.getLsbD 3)) }, finish_ok (ret := .bool) ht, rfl,
    (hran.result _).listed_acted (by simp), (hran.result _).quiet, hp, ho.sameEngine, hie.patternsKept, hthp, hctl, hclk,
    fun hn => ⟨hheld.2 hn, by rw [hb, hc.2 hn]⟩⟩

/-- Settles O51: `disable()` (`disable_spec`), and the assignment that closes the controller, which writes no pattern. -/
theorem closeDisablesAndCloses : Obligations.CloseDisablesAndCloses := by
  intro s hopen hbatch hq
  obtain ⟨u, hu, hran, ho, _, hheld, hie⟩ := disable_spec (coreKeeps_held s) (listed_turns s).drain hq (listed_all s)
    (coreHeld_self s)
  obtain ⟨t, ht, hran', ho', hheld', hie'⟩ := assign_spec (coreKeeps_held s) (.isOpen false) hran.quiet
    (hran.all (listed_all s)) hheld
  obtain ⟨hthp, hctl, hclk⟩ := hheld'.registers
  have hclose : closeCall s = .ok ((), t.setOpen false) := by rw [closeCall, M.bind_ok hu, ht]; rfl
  have hexec : exec .close s = .next { t.setOpen false with result := some .unit } := by
    have husable : notUsable s = none := by simp [notUsable, hopen, hbatch]
    simp only [exec, execClose, husable]
    exact finish_ok hclose
  have hall : Ran (listed s) s { t.setOpen false with result := some .unit } [.pattern Config.rawIeClr] :=
    (hran.trans hran').result _
  have hother : Others s t := ho.trans ho'
  have hcontroller : (t.setOpen false).controller.fixed = { s.controller.fixed with isOpen := false } := by
    rw [State.setOpen_controller, hother.controller]
    rfl
  exact ⟨_, hexec, rfl, hall.listed_acted (by simp), (hie'.clear hie).1, hcontroller, hother.thread, hother.phase,
    hother.buffers, hall.drained listed_noIrq (by simp) (by simp), hall.quiet, hthp, hctl, hclk, hheld'.2⟩

/-! ### `wait()` (R183, R189) -/

/-- Settles O32: `wait_spec` over a core that is held. -/
theorem waitReturnsWithIeClear : Obligations.WaitReturnsWithIeClear := by
  intro s hq
  obtain ⟨r, t, bs, ht, hran, ho, hp, hheld, hie, hanswers, _⟩ := wait_spec (coreKeeps_held s) (listed_turns s).drain
    (listed_turns s).port hq (listed_all s) (coreHeld_self s)
  obtain ⟨hthp, hctl, hclk⟩ := hheld.registers
  exact ⟨r, { t with result := some (.status r) }, bs, finish_ok (ret := .status) ht, rfl, waitAnswers_result hanswers,
    hanswers, (hran.result _).listed_acted (by simp [waitActs]), hie.1, hp, (hran.result _).quiet, ho.sameEngine, hthp, hctl,
    hclk, hheld.2⟩

theorem wait_eq_waitLoop {s u : State} (h : enable s = .ok ((), u)) : wait s = waitLoop (u.moves.length + 2) u := by
  rw [wait, M.bind_ok h, M.bind_ok (M.get_apply u)]

theorem waitLoop_timedOut {n : Nat} {s u t : State} (hb : block s = .ok (false, u)) (hd : disable u = .ok ((), t)) :
    waitLoop (n + 1) s = .ok (some .timeout, t) := by
  rw [waitLoop, M.bind_ok hb]
  exact M.bind_ok hd

theorem waitLoop_ready {n : Nat} {s u v t : State} (hb : block s = .ok (true, u)) (hr : ready u = .ok (true, v))
    (hd : disable v = .ok ((), t)) : waitLoop (n + 1) s = .ok (none, t) := by
  rw [waitLoop, M.bind_ok hb]
  exact (M.bind_ok hr).trans (M.bind_ok hd)

/-! ### A `wait()` with no handler (R385) -/

/-- Nothing but the IRQ agent's turn changes the Controller while the ENGINE waits (R46, R185). -/
theorem envMove_controller_same {m : Move} {s t : State} (hi : m ≠ .irq) (h : envMove m s = .ok t) :
    t.controller = s.controller := by
  rw [envMove_engine h, signalled, if_neg fun k => hi k.1]
  rfl

/-- Nothing but the IRQ agent's turn and the host's attaching changes the handler's place and whether it is attached. -/
theorem envMove_handler_same {m : Move} {s t : State} (ho : m.outside = false) (hi : m ≠ .irq) (ha : m ≠ .attach)
    (h : envMove m s = .ok t) : t.handlerAttached = s.handlerAttached ∧ t.irq = s.irq := by
  by_cases hm : m = .engine ∨ m = .timeout
  · rcases hm with rfl | rfl <;> cases h <;> exact ⟨rfl, rfl⟩
  · have hc (c : Call) : m ≠ .call c := fun hc => by simp [hc, Move.outside] at ho
    have hk := (takeMove_eq_envMove (hm ∘ .inl) (hm ∘ .inr) hc s).trans h
    obtain ⟨_, _, _, _, _, _, _, _, hirq, hattached⟩ := (takeMove_turn hk).device.writers
    exact ⟨by_contra fun k => ha (hattached k), by_contra fun k => (hirq k).elim hi fun ⟨c, hmc, _⟩ => hc c hmc⟩

/-- No handler runs, none is attached and no completion stands: nothing signals (R385). -/
def HandlerAway (s : State) : Prop := s.handlerAttached = false ∧ s.irq = .out ∧ s.controller.completion = false

/-- While the host attaches none, no turn brings a handler in (R186, R187). -/
theorem handlerAway_survives {A : Move → Bool} (hA : A .attach = false) : Survives A HandlerAway := by
  refine ⟨fun _ h => h, ?_, ?_⟩
  · intro m s t ho ha _ h he
    obtain ⟨hattached, hirq, hcompletion⟩ := h
    by_cases hi : m = .irq
    · subst hi
      have hhold : envMove .irq s = .ok s := by
        simp [envMove, irqStep, hirq, irqEnter, State.irqMayEnter, hattached]
      cases hhold.symm.trans he
      exact ⟨hattached, hirq, hcompletion⟩
    · have hm : m ≠ .attach := fun hm => by rw [hm, hA] at ha; cases ha
      obtain ⟨kattached, kirq⟩ := envMove_handler_same ho hi hm he
      exact ⟨kattached.trans hattached, kirq.trans hirq, by rw [envMove_controller_same hi he, hcompletion]⟩
  · intro s off r h _ he
    rw [readWindow_ok he]
    simpa [HandlerAway] using h

/-- A `Block()` at which nothing signals ends by the timeout: a wake takes a completion that stands (R184). -/
theorem block_of_handlerAway {A : Move → Bool} (haway : Survives A HandlerAway) {s t : State} {b : Bool} (hq : s.quiet = true)
    (hA : s.moves.all A = true) (hs : HandlerAway s) (h : block s = .ok (b, t)) : b = false := by
  obtain ⟨hms, hf⟩ := calm_iff.1 (quiet_iff.1 hq).1
  obtain ⟨b', t', ht', _, _, _, _, hwoken, _⟩ := block_spec haway s.moves s hms hA hf hs
  cases h.symm.trans ht'
  refine Bool.eq_false_iff.2 fun hb => ?_
  obtain ⟨u, ⟨_, _, hno⟩, hstands, _⟩ := hwoken hb
  exact absurd (hno.symm.trans hstands) (by decide)

/-- Settles O34: no completion comes to stand, so `Block()` ends by the timeout (`block_of_handlerAway`). -/
theorem waitWithoutHandlerTimesOut : Obligations.WaitWithoutHandlerTimesOut := by
  intro s hq hattached hattach hirq hcompletion
  have haway : Survives (listed s) HandlerAway := handlerAway_survives (listed_no hattach (by decide) (by decide))
  have hd := (listed_turns s).drain
  obtain ⟨u, hu, hran, _, _, _, _⟩ := raw_spec (recovery := false) (v := Config.rawIeSet) (by decide)
    (coreKeeps_true (A := listed s)) hd hq (listed_all s) trivial
  have haway_u : HandlerAway u := raw_keeps (by decide) haway (fun _ _ h => h) hd hq (listed_all s)
    ⟨hattached, hirq, hcompletion⟩ hu
  obtain ⟨b, v, hv, hran', _, _⟩ := blockQuiet_spec (coreKeeps_true (A := listed s)) hran.quiet
    (hran.all (listed_all s)) trivial
  obtain rfl := block_of_handlerAway haway hran.quiet (hran.all (listed_all s)) haway_u hv
  have hall := hran.trans hran'
  obtain ⟨t, ht, hran'', _, _, _, hie⟩ := disable_spec (coreKeeps_true (A := listed s)) hd hall.quiet
    (hall.all (listed_all s)) trivial
  have hwait : wait s = .ok (some .timeout, t) := (wait_eq_waitLoop hu).trans (waitLoop_timedOut hv ht)
  exact ⟨{ t with result := some (.status (some .timeout)) }, finish_ok (ret := .status) hwait, rfl,
    ((hall.trans hran'').result _).listed_acted (by simp), hie.1⟩

/-! ### A `wait()` decided by the predicate (R183, R188) -/

/-- Where the IRQ agent takes no turn, a signal that does not stand does not come. -/
theorem noCompletion_survives {A : Move → Bool} (hA : A .irq = false) :
    Survives A fun s => s.controller.completion = false := by
  refine ⟨fun _ h => h, fun _ ha _ h he => ?_, fun h _ he => ?_⟩
  · rw [envMove_controller_same (fun hi => by rw [hi, hA] at ha; cases ha) he, h]
  · rw [readWindow_ok he]
    simpa using h

/-- Where every core of the run is ready, the first `Block()` decides the wait: the wake ends it ok (R183). -/
theorem wait_of_ready {A : Move → Bool} {Q : TwsiCore → Prop} (hQ : CoreKeeps A Q) (hready : ∀ c, Q c → c.iflg = true)
    (hT : Turns A) {s : State} (hq : s.quiet = true) (hA : s.moves.all A = true) (hs : Q s.core) :
    ∃ u b v r t, enable s = .ok ((), u) ∧ Ran A s u [.pattern Config.rawIeSet] ∧ block u = .ok (b, v) ∧ Ran A u v [] ∧
      wait s = .ok (r, t) ∧ t.ie = false ∧
      (b = true ∧ r = none ∨ b = false ∧ r = some .timeout ∧ disable v = .ok ((), t)) := by
  obtain ⟨u, hu, hran, _, _, hQu, _⟩ := raw_spec (recovery := false) (v := Config.rawIeSet) (by decide) hQ hT.drain hq hA hs
  obtain ⟨b, v, hv, hran', _, hQv⟩ := blockQuiet_spec hQ hran.quiet (hran.all hA) hQu
  have hAv := hran'.all (hran.all hA)
  cases b with
  | false =>
    obtain ⟨t, ht, _, _, _, _, hie⟩ := disable_spec hQ hT.drain hran'.quiet hAv hQv
    exact ⟨u, false, v, _, t, hu, hran, hv, hran', (wait_eq_waitLoop hu).trans (waitLoop_timedOut hv ht), hie.1,
      .inr ⟨rfl, rfl, ht⟩⟩
  | true =>
    obtain ⟨x, w, hw, hran'', _, _, hQw, _, c, hc, hx⟩ := ready_spec hQ hT.drain hT.port hran'.quiet hAv hQv
    obtain ⟨t, ht, _, _, _, _, hie⟩ := disable_spec hQ hT.drain hran''.quiet (hran''.all hAv) hQw
    rw [hx, hready c hc] at hw
    exact ⟨u, true, v, _, t, hu, hran, hv, hran', (wait_eq_waitLoop hu).trans (waitLoop_ready hv hw ht), hie.1,
      .inl ⟨rfl, rfl⟩⟩

/-- A turn that is not listed is not among the turns left. -/
theorem not_mem_of_noTurn {m : Move} {s t : State} (h : s.noTurn m = true) (hs : t.moves <:+ s.moves) : m ∉ t.moves :=
  fun hm => by simp [State.noTurn, hs.subset hm] at h

/-- A `Block()` with no timeout turn to come ends by the timeout only at the end of the list, and only where no signal stands at
its beginning and at its end (R184). -/
theorem block_timedOut {s t : State} (hq : s.quiet = true) (hn : Move.timeout ∉ s.moves) (h : block s = .ok (false, t)) :
    s.controller.completion = false ∧ t.controller.completion = false ∧ t.moves = [] := by
  obtain ⟨hms, hf⟩ := calm_iff.1 (quiet_iff.1 hq).1
  have hbefore : s.controller.completion = false := by
    refine Bool.eq_false_iff.2 fun hc => ?_
    obtain ⟨t', ht'⟩ := blockTurns_lead s.moves s hms hn hf (.inl hc)
    cases h.symm.trans ht'
  have hA : s.moves.all (fun m => m != .timeout) = true := by
    rw [List.all_eq_true]
    exact fun m hm => bne_iff_ne.2 fun he => hn (he ▸ hm)
  obtain ⟨b, t', ht', _, _, _, _, _, htimed⟩ := block_spec (survives_const True) s.moves s hms hA hf trivial
  cases h.symm.trans ht'
  exact ⟨hbefore, (htimed rfl).2 rfl⟩

/-- With no turn left nothing signals while `disable()` runs. -/
theorem disable_noCompletion {s t : State} (hq : s.quiet = true) (hm : s.moves = []) (hc : s.controller.completion = false)
    (h : disable s = .ok ((), t)) : t.controller.completion = false :=
  raw_keeps (A := fun m => m == .drain) (by decide) (noCompletion_survives rfl) (fun _ _ h => h) rfl hq (by simp [hm]) hc h

/-- Settles O35: the first `Block()` decides the wait (`wait_of_ready`). It ends by the timeout only where no signal stands
(`block_timedOut`), and turns that lead to the signal lead it to the wake (`enable_lead`, `blockTurns_lead`). -/
theorem assertedLineIsNotLost : Obligations.AssertedLineIsNotLost := by
  intro s hq hiflg hstop hreset htimeout
  have hstands : IflgStands s.core := ⟨hiflg, hstop, hreset⟩
  obtain ⟨u, b, v, r, t, hu, hran, hv, hran', hwait, hie, hcases⟩ := wait_of_ready
    (coreKeeps_iflgStands (A := listed s)) (fun c hc => hc.1) (listed_turns s) hq (listed_all s) hstands
  have hnone : Move.timeout ∉ u.moves := not_mem_of_noTurn htimeout hran.moves
  refine ⟨r, { t with result := some (.status r) }, finish_ok (ret := .status) hwait, rfl, hie, ?_,
    fun hattached hturns => ?_⟩
  · rcases hcases with ⟨_, hr⟩ | ⟨rfl, hr, hdisable⟩
    · exact .inl hr
    · obtain ⟨hbefore, hafter, hmoves⟩ := block_timedOut hran.quiet hnone hv
      have hstart : s.controller.completion = false := Bool.eq_false_iff.2 fun hc => by
        have hstill : u.controller.completion = true := raw_keeps (A := listed s) (by decide) completion_survives
          (fun _ _ h => h) (listed_turns s).drain hq (listed_all s) hc hu
        exact absurd (hbefore.symm.trans hstill) (by decide)
      have hend : t.controller.completion = false := disable_noCompletion hran'.quiet hmoves hafter hdisable
      exact .inr ⟨hr, hstart, hend⟩
  · rcases hcases with ⟨_, hr⟩ | ⟨rfl, _, _⟩
    · exact hr
    · obtain ⟨u', hu', hlead⟩ := enable_lead hq hstands hattached hturns
      cases hu.symm.trans hu'
      obtain ⟨hms, hf⟩ := calm_iff.1 (quiet_iff.1 hran.quiet).1
      obtain ⟨v', hv'⟩ := blockTurns_lead u.moves u hms hnone hf hlead
      cases hv.symm.trans hv'

/-- Settles O33: with no action pending every byte shows `s`'s IFLG. Where it is 0 no byte is ready (`wait_spec`), and where it
is 1 the completion that stands is not lost (`assertedLineIsNotLost`). -/
theorem waitIsDecidedByThePredicate : Obligations.WaitIsDecidedByThePredicate := by
  intro s hq hpending
  refine ⟨fun hiflg => ?_, fun hiflg hcompletion htimeout => ?_⟩
  · obtain ⟨r, t, bs, ht, _, _, _, _, _, hanswers, hbytes⟩ := wait_spec (coreKeeps_settled (A := listed s) false)
      (listed_turns s).drain (listed_turns s).port hq (listed_all s) ⟨hiflg, hpending⟩
    have hr : r = some .timeout := by
      rcases waitAnswers_result hanswers with rfl | hr
      · obtain ⟨before, b, rfl, hb, _⟩ := hanswers
        obtain ⟨c, ⟨hc, _⟩, hbc⟩ := hbytes b (by simp)
        simp [hb, hc] at hbc
      · exact hr
    exact ⟨_, finish_ok (ret := .status) ht, by rw [hr]⟩
  · obtain ⟨r, t, ht, hres, _, hr, _⟩ := assertedLineIsNotLost s hq hiflg (by simp [hpending])
      (by simp [hpending]) htimeout
    rcases hr with rfl | ⟨_, hno, _⟩
    · exact ⟨t, ht, hres⟩
    · simp [hcompletion] at hno

end Sys2Proof.Machine
end

section
/-! The clock search (R210-R217): one pass over the candidates in visiting order that keeps the first of least deviation. -/

namespace Sys2Proof.Machine

open Sys2Proof

/-! ### The loops' values (R211) -/

theorem mem_ndivs {n : Nat} : n ∈ ndivs ↔ n ≤ 7 := by
  simp only [ndivs, List.mem_cons, List.not_mem_nil, or_false]
  omega

theorem mem_mdivs {m : Nat} : m ∈ mdivs ↔ 2 ≤ m ∧ m ≤ 15 := by
  simp only [mdivs, List.mem_cons, List.not_mem_nil, or_false]
  omega

theorem ndivs_ascending : ndivs.Pairwise (· < ·) := by decide

theorem mdivs_descending : mdivs.Pairwise (· > ·) := by decide

/-! ### Candidates in visiting order (R212, R213, R216) -/

/-- A candidate of the search: its divisors are the loops', and its `thp` is in range and one of its pair's two values (R212). -/
def IsCandidate (target sys : Nat) (p : ClockParams) : Prop :=
  p.ndiv ≤ 7 ∧ 2 ≤ p.mdiv ∧ p.mdiv ≤ 15 ∧ 5 ≤ p.thp ∧ p.thp ≤ 255 ∧
    ((p.thp : Int) = clockBase target sys p.mdiv p.ndiv ∨ (p.thp : Int) = clockBase target sys p.mdiv p.ndiv + 1)

/-- What the search minimises (R213). -/
def ClockParams.deviates (target sys : Nat) (p : ClockParams) : Nat := deviation target (achieved sys p.thp p.mdiv p.ndiv)

/-- `p` is visited before `q` (R216). -/
def VisitedBefore (p q : ClockParams) : Prop :=
  p.ndiv < q.ndiv ∨ (p.ndiv = q.ndiv ∧ (q.mdiv < p.mdiv ∨ (p.mdiv = q.mdiv ∧ p.thp < q.thp)))

/-- The candidate `base + inc` of a pair, if it is in range (R212). -/
def candidateAt (target sys n m inc : Nat) : List ClockParams :=
  let t := clockBase target sys m n + inc
  if t < 5 ∨ 255 < t then [] else [⟨t.toNat, m, n⟩]

/-- The candidates of a pair, in visiting order (R213). -/
def pairCandidates (target sys n m : Nat) : List ClockParams :=
  candidateAt target sys n m 0 ++ candidateAt target sys n m 1

/-- Every candidate, in visiting order (R213, R216). -/
def visitedCandidates (target sys : Nat) : List ClockParams :=
  ndivs.flatMap fun n => mdivs.flatMap fun m => pairCandidates target sys n m

theorem mem_candidateAt {target sys n m inc : Nat} {p : ClockParams} : p ∈ candidateAt target sys n m inc ↔
    p.mdiv = m ∧ p.ndiv = n ∧ 5 ≤ p.thp ∧ p.thp ≤ 255 ∧ (p.thp : Int) = clockBase target sys m n + inc := by
  obtain ⟨t, m', n'⟩ := p
  unfold candidateAt
  simp only
  split
  · simp only [List.not_mem_nil, false_iff]
    omega
  · simp only [List.mem_singleton, ClockParams.mk.injEq]
    omega

theorem mem_pairCandidates {target sys n m : Nat} {p : ClockParams} : p ∈ pairCandidates target sys n m ↔
    p.mdiv = m ∧ p.ndiv = n ∧ 5 ≤ p.thp ∧ p.thp ≤ 255 ∧
      ((p.thp : Int) = clockBase target sys m n ∨ (p.thp : Int) = clockBase target sys m n + 1) := by
  simp only [pairCandidates, List.mem_append, mem_candidateAt]
  omega

theorem mem_visitedCandidates {target sys : Nat} {p : ClockParams} :
    p ∈ visitedCandidates target sys ↔ IsCandidate target sys p := by
  simp only [visitedCandidates, List.mem_flatMap, mem_pairCandidates, mem_ndivs, mem_mdivs, IsCandidate]
  constructor
  · rintro ⟨n, hn, m, ⟨hm, hm'⟩, rfl, rfl, hthp⟩
    exact ⟨hn, hm, hm', hthp⟩
  · rintro ⟨hn, hm, hm', hthp⟩
    exact ⟨_, hn, _, ⟨hm, hm'⟩, rfl, rfl, hthp⟩

theorem pairCandidates_ordered (target sys n m : Nat) : (pairCandidates target sys n m).Pairwise VisitedBefore := by
  have hone (inc : Nat) : (candidateAt target sys n m inc).Pairwise VisitedBefore := by
    unfold candidateAt
    simp only
    split
    · exact .nil
    · exact List.pairwise_singleton _ _
  refine List.pairwise_append.2 ⟨hone 0, hone 1, fun p hp q hq => ?_⟩
  rw [mem_candidateAt] at hp hq
  unfold VisitedBefore
  omega

/-- The candidates are visited as R216 orders them. -/
theorem visitedCandidates_ordered (target sys : Nat) : (visitedCandidates target sys).Pairwise VisitedBefore := by
  refine List.pairwise_flatMap.2
    ⟨fun n _ => List.pairwise_flatMap.2 ⟨fun m _ => pairCandidates_ordered target sys n m, ?_⟩, ?_⟩
  · refine mdivs_descending.imp fun {m m'} hm p hp q hq => ?_
    rw [mem_pairCandidates] at hp hq
    exact .inr ⟨by omega, .inl (by omega)⟩
  · refine ndivs_ascending.imp fun {n n'} hn p hp q hq => ?_
    simp only [List.mem_flatMap, mem_pairCandidates] at hp hq
    obtain ⟨_, _, _, hp, _⟩ := hp
    obtain ⟨_, _, _, hq, _⟩ := hq
    exact .inl (by omega)

/-! ### The search is one pass over them (R213) -/

/-- The better of the best so far and `p`: a strictly smaller deviation replaces the best (R213, D12). -/
def Best.offer (target sys : Nat) (b : Best) (p : ClockParams) : Best :=
  if p.deviates target sys < b.delta then ⟨p, p.deviates target sys⟩ else b

theorem tryCandidate_eq_foldl (target sys n m inc : Nat) (b : Best) :
    tryCandidate target sys n m inc b = (candidateAt target sys n m inc).foldl (Best.offer target sys) b := by
  unfold tryCandidate candidateAt
  simp only
  split <;> rfl

theorem tryPair_eq_foldl (target sys n m : Nat) (b : Best) :
    tryPair target sys n m b = (pairCandidates target sys n m).foldl (Best.offer target sys) b := by
  simp only [tryPair, tryCandidate_eq_foldl, pairCandidates, List.foldl_append]

theorem clockSearch_eq_foldl (target sys : Nat) : clockSearch target sys =
    ((visitedCandidates target sys).foldl (Best.offer target sys) ⟨clockDefault, Config.clkSentinel⟩).params := by
  simp only [clockSearch, tryPair_eq_foldl, visitedCandidates, List.foldl_flatMap]

/-- `p` is the first of least deviation among the candidates `l` (R216). -/
def FirstOfLeast (target sys : Nat) (l : List ClockParams) (p : ClockParams) : Prop :=
  p ∈ l ∧ ∀ q ∈ l, p.deviates target sys ≤ q.deviates target sys ∧
    (q.deviates target sys = p.deviates target sys → q = p ∨ VisitedBefore p q)

/-- A candidate ahead of others that none of them improves on is the first of least deviation. -/
theorem firstOfLeast_head {target sys : Nat} {p : ClockParams} {l : List ClockParams} (ho : ∀ q ∈ l, VisitedBefore p q)
    (hl : ∀ q ∈ l, p.deviates target sys ≤ q.deviates target sys) : FirstOfLeast target sys (p :: l) p := by
  refine ⟨List.mem_cons_self, fun q hq => ?_⟩
  rcases List.mem_cons.1 hq with rfl | hq
  · exact ⟨le_rfl, fun _ => .inl rfl⟩
  · exact ⟨hl q hq, fun _ => .inr (ho q hq)⟩

/-- A candidate ahead of the others that deviates more is not the first of least deviation. -/
theorem FirstOfLeast.cons {target sys : Nat} {a p : ClockParams} {l : List ClockParams} (h : FirstOfLeast target sys l p)
    (ha : p.deviates target sys < a.deviates target sys) : FirstOfLeast target sys (a :: l) p := by
  obtain ⟨hmem, hleast⟩ := h
  refine ⟨List.mem_cons_of_mem _ hmem, fun q hq => ?_⟩
  rcases List.mem_cons.1 hq with rfl | hq
  · exact ⟨ha.le, fun he => absurd he ha.ne'⟩
  · exact hleast q hq

/-- A pass keeps the best it began with where no candidate deviates less, and else ends with the first of least deviation. -/
theorem foldl_offer {target sys : Nat} {l : List ClockParams} (ho : l.Pairwise VisitedBefore) (b : Best) :
    (l.foldl (Best.offer target sys) b = b ∧ ∀ q ∈ l, b.delta ≤ q.deviates target sys) ∨
    ∃ p, l.foldl (Best.offer target sys) b = ⟨p, p.deviates target sys⟩ ∧ p.deviates target sys < b.delta ∧
      FirstOfLeast target sys l p := by
  induction l generalizing b with
  | nil => exact .inl ⟨rfl, fun _ hq => absurd hq List.not_mem_nil⟩
  | cons a l ih =>
    obtain ⟨hahead, htail⟩ := List.pairwise_cons.1 ho
    rw [List.foldl_cons]
    by_cases ha : a.deviates target sys < b.delta
    · have hoffer : b.offer target sys a = ⟨a, a.deviates target sys⟩ := if_pos ha
      rw [hoffer]
      rcases ih htail ⟨a, a.deviates target sys⟩ with ⟨hkept, hleast⟩ | ⟨p, hfound, hless, hfirst⟩
      · exact .inr ⟨a, hkept, ha, firstOfLeast_head hahead hleast⟩
      · exact .inr ⟨p, hfound, hless.trans ha, hfirst.cons hless⟩
    · have hoffer : b.offer target sys a = b := if_neg ha
      have hmore : b.delta ≤ a.deviates target sys := Nat.le_of_not_lt ha
      rw [hoffer]
      rcases ih htail b with ⟨hkept, hleast⟩ | ⟨p, hfound, hless, hfirst⟩
      · exact .inl ⟨hkept, List.forall_mem_cons.2 ⟨hmore, hleast⟩⟩
      · exact .inr ⟨p, hfound, hless, hfirst.cons (hless.trans_le hmore)⟩

/-- The search's result: the default where no candidate is below the sentinel, and else the first of least deviation (R216). -/
theorem clockSearch_cases (target sys : Nat) :
    (clockSearch target sys = clockDefault ∧ ∀ q, IsCandidate target sys q → Config.clkSentinel ≤ q.deviates target sys) ∨
    ((clockSearch target sys).deviates target sys < Config.clkSentinel ∧
      FirstOfLeast target sys (visitedCandidates target sys) (clockSearch target sys)) := by
  rw [clockSearch_eq_foldl]
  rcases foldl_offer (target := target) (sys := sys) (visitedCandidates_ordered target sys)
    ⟨clockDefault, Config.clkSentinel⟩ with ⟨hkept, hleast⟩ | ⟨p, hfound, hless, hfirst⟩
  · exact .inl ⟨by rw [hkept], fun q hq => hleast q (mem_visitedCandidates.2 hq)⟩
  · rw [hfound]
    exact .inr ⟨hless, hfirst⟩

/-- Settles O37: a pass that keeps the best on a tie ends with the first of least deviation (`clockSearch_cases`). -/
theorem clockSearchIsMinimal : Obligations.ClockSearchIsMinimal := by
  intro target sys _ cand dev before
  rcases clockSearch_cases target sys with ⟨hdefault, hnone⟩ | ⟨hbelow, hmem, hleast⟩
  · exact ⟨fun ⟨p, hp, hlt⟩ => absurd (hnone p hp) (Nat.not_le_of_lt hlt), fun _ => hdefault⟩
  · have hcand : cand (clockSearch target sys) := mem_visitedCandidates.1 hmem
    exact ⟨fun _ => ⟨hcand, fun q hq => hleast q (mem_visitedCandidates.2 hq)⟩,
      fun hnone => absurd (hnone _ hcand) (Nat.not_le_of_lt hbelow)⟩

/-! ### The operation (R213, R215) -/

theorem clockSearch_inRange (target sys : Nat) : (clockSearch target sys).inRange = true := by
  refine clockSearch_keeps (P := fun p => p.inRange = true) target sys (by decide) fun n hn m hm t h5 h255 => ?_
  rw [mem_ndivs] at hn
  rw [mem_mdivs] at hm
  simp [ClockParams.inRange, h5, h255, hm, hn]

/-- Settles O36: the search by its statements gives what the pure search gives, alone (`runClockSearch_alone`) and among the
turns of others (`runClockSearch_finds`), and that is in range (`clockSearch_inRange`). -/
theorem clockSearchResultIsInRange : Obligations.ClockSearchResultIsInRange := by
  have hexec {target sys : Nat} {s t : State} (htarget : 1 ≤ target)
      (h : runClockSearch target sys s = .ok (clockSearch target sys, t)) :
      exec (.clockSearch target sys) s = .next { t with result := some (.clock (clockSearch target sys)) } :=
    (if_neg (Nat.ne_of_gt htarget)).trans (finish_ok (ret := .clock) h)
  refine ⟨fun target sys s htarget hm => hexec htarget (runClockSearch_alone target sys hm),
    fun target sys s htarget hq => ?_, fun target sys _ => ?_, fun _ _ => rfl, by decide⟩
  · obtain ⟨t, ht, hran, ho, hheld, hie⟩ := runClockSearch_finds (coreKeeps_held s) target sys s hq (listed_all s)
      (coreHeld_self s)
    obtain ⟨hthp, hctl, hclk⟩ := hheld.registers
    exact ⟨_, hexec htarget ht, rfl, (hran.result _).listed_acted (by simp), (hran.result _).quiet, ho.sameEngine,
      hie.patternsKept, hthp, hctl, hclk, hheld.2⟩
  · simpa [ClockParams.inRange, and_assoc] using clockSearch_inRange target sys

/-! ### The achieved frequency (R210, R217) -/

/-- The frequency of a pair before `thp` divides it (R210). -/
def pairRate (sys m n : Nat) : Nat := sys / (2 * 2 ^ n * (m + 1) * 10)

theorem achieved_eq_pairRate_div (sys t m n : Nat) : achieved sys t m n = pairRate sys m n / (t + 1) := by
  rw [achieved, pairRate, Nat.div_div_eq_div_mul]
  congr 1
  ring

theorem clockBase_eq_pairRate_div (target sys m n : Nat) :
    clockBase target sys m n = (pairRate sys m n / target : Nat) - 1 := by
  rw [clockBase, pairRate, Nat.div_div_eq_div_mul]
  congr 3
  ring

/-- Settles O38: with `x` the pair's rate the base is `x / target - 1`, and the candidates achieve `x / (x / target)` and
`x / (x / target + 1)`. -/
theorem clockCandidatesBracketTheTarget : Obligations.ClockCandidatesBracketTheTarget := by
  refine ⟨fun sys t t' m n ht => ?_, fun target sys m n b htarget hb => ?_⟩
  · rw [achieved_eq_pairRate_div, achieved_eq_pairRate_div]
    exact Nat.div_le_div_left (Nat.succ_le_succ ht) t.succ_pos
  · rw [clockBase_eq_pairRate_div] at hb
    have hbase : b + 1 = pairRate sys m n / target := by omega
    rw [achieved_eq_pairRate_div, achieved_eq_pairRate_div, hbase]
    constructor
    · rw [Nat.le_div_iff_mul_le (hbase ▸ b.succ_pos)]
      exact Nat.mul_div_le _ target
    · exact Nat.le_of_lt ((Nat.div_lt_iff_lt_mul (Nat.succ_pos _)).2 (Nat.lt_mul_div_succ _ htarget))

end Sys2Proof.Machine
end

section
/-! Calls outside the contract (R320-R323, R342, R392): the checks of the call surface, and a call that finds the ENGINE at
work. -/

namespace Sys2Proof.Machine

open Sys2Proof

theorem exec_openController_of_notOpenable {target window irqLine sys : Nat} {s : State} {r : Refusal}
    (h : notOpenable target s = some r) : exec (.openController target window irqLine sys) s = .refused r := by
  simp only [exec, execOpenController, h]

theorem exec_executeBatch_of_notUsable {msgs : List Message} {s : State} {r : Refusal} (h : notUsable s = some r) :
    exec (.executeBatch msgs) s = .refused r := by
  simp only [exec, execExecuteBatch, notRunnable, h]

theorem exec_close_of_notUsable {s : State} {r : Refusal} (h : notUsable s = some r) : exec .close s = .refused r := by
  simp only [exec, execClose, h]

/-- A call but the handler's is refused while the ENGINE runs an operation (R323, R392). -/
theorem callStep_busy {c : Call} {i : Instr} {s : State} (hs : s.thread ≠ none) (hc : decodeCall c = .ok i)
    (hi : i ≠ .irqHandler) : callStep c s = .error (.refused .engineBusy) := by
  rw [callStep, if_neg hs]
  unfold callWhileBusy
  split
  · next h => exact absurd (Except.ok.inj (hc.symm.trans h)) hi
  · rfl
  · next h => cases hc.symm.trans h

/-- Settles O52: each check answers with its refusal, and a call that finds the ENGINE at work with its own (`callStep_busy`). -/
theorem misusedCallsAreRefused : Obligations.MisusedCallsAreRefused := by
  intro s msgs target window irqLine sys
  refine ⟨rfl, fun htarget hbatch => ?_, fun htarget hbatch hopen => ?_, fun htarget => if_pos htarget, fun hclosed => ?_,
    fun hopen hbatch => ?_, fun c ms i hs hm hc hi => ?_⟩
  · exact exec_openController_of_notOpenable (by simp [notOpenable, htarget, hbatch, Config.exclusive])
  · exact exec_openController_of_notOpenable (by simp [notOpenable, htarget, hbatch, hopen])
  · have h : notUsable s = some .closedController := if_pos hclosed
    exact ⟨exec_executeBatch_of_notUsable h, exec_close_of_notUsable h⟩
  · have h : notUsable s = some .batchRunning := by simp [notUsable, hopen, hbatch, Config.exclusive]
    exact ⟨exec_executeBatch_of_notUsable h, exec_close_of_notUsable h⟩
  · rw [step_of_moves hm]
    exact congrArg toOutcome (callStep_busy (s := s.withMoves ms) hs hc hi)

end Sys2Proof.Machine
end

section
/-! `init()` and `start()` (R242, R271): from what they can do to what the statements say of their end. -/

namespace Sys2Proof.Machine

open Sys2Proof

/-- Settles O40: `init_spec` over the turns `s` lists; the delays of the acts are those before the polls. -/
theorem initPollsUntilIdle : Obligations.InitPollsUntilIdle := by
  intro s hq
  obtain ⟨r, t, x, y, sts, ht, hran, ho, hp, hie, hanswers⟩ := init_spec (listed_turns s).drain (listed_turns s).port hq
    (listed_all s)
  have hacted : Acted s { t with result := some (.status r) } (initActs x y sts) :=
    (hran.result _).listed_acted (head_access ⟨_, x, _, rfl⟩)
  have hdelays : delaysIn (initActs x y sts) = List.replicate sts.length 1 := delaysIn_initPollActs sts
  have ⟨_, hdelayed, _⟩ := hacted
  exact ⟨r, { t with result := some (.status r) }, x, y, sts, finish_ok (ret := .status) ht, rfl, hanswers, hacted,
    hdelays ▸ hdelayed, ho.sameEngine, hie.patternsKept, hp, (hran.result _).quiet⟩

/-- Settles O42: `start_spec` over the turns `s` lists; each of its runs begins with the START write. -/
theorem startFollowsItsRule : Obligations.StartFollowsItsRule := by
  intro s hq
  obtain ⟨r, t, acts, ht, hdid, hie, hrun⟩ := start_spec (listed_turns s) hq (listed_all s)
  obtain ⟨x, rest, hbegin⟩ := hrun.begins
  obtain ⟨hacted, hdrained, hthread, hcontroller, hstat⟩ := hdid.ended ⟨_, x, rest, hbegin⟩
  have hphase : t.phase = if r = none then .startSent else .error := by
    rw [hdid.others.phase]
    cases r <;> rfl
  exact ⟨r, { t with result := some (.status r) }, acts, finish_ok (ret := .status) ht, rfl, hrun, hacted, hphase, hie.1,
    hdrained, hdid.ran.quiet, hthread, hdid.others.buffers, hcontroller, hdid.thp, hdid.clkctl, hstat⟩

end Sys2Proof.Machine
end

section
/-! A batch in START writes, STOP writes, recoveries and delays (R291): each message attempted makes one START write, each
recovery one more, and only the `stop()` that ends the batch makes a STOP write. -/

namespace Sys2Proof.Machine

open Sys2Proof

/-! ### Recoveries among acts (R250) -/

@[simp] theorem recoveriesIn_nil : recoveriesIn [] = 0 := rfl

@[simp] theorem recoveriesIn_append (l l' : List Act) : recoveriesIn (l ++ l') = recoveriesIn l + recoveriesIn l' :=
  List.count_append

@[simp] theorem recoveriesIn_access (w : Word) (b : Byte) (l : List Act) : recoveriesIn (.access w b :: l) = recoveriesIn l :=
  List.count_cons_of_ne (by simp)

theorem recoveriesIn_pattern {v : Word} (hv : v ≠ Config.rawStop1) (l : List Act) :
    recoveriesIn (.pattern v :: l) = recoveriesIn l :=
  List.count_cons_of_ne (by simpa using hv)

/-! ### START writes by the message -/

/-- The command words written among `acts`, oldest first. -/
def commandsOf (acts : List Act) : List Word := (accessesOf acts).map Prod.fst

@[simp] theorem commandsOf_access (w : Word) (b : Byte) (l : List Act) : commandsOf (.access w b :: l) = w :: commandsOf l :=
  rfl

@[simp] theorem commandsOf_append (l l' : List Act) : commandsOf (l ++ l') = commandsOf l ++ commandsOf l' := by
  simp [commandsOf]

/-- Neither a START nor a STOP write (R271, R275). -/
def FramesNothing (w : Word) : Prop := w ≠ startWrite ∧ w ≠ stopWrite

/-- `acts` attempt `n` messages: as many START writes, one more for each recovery, the recoveries' delays and no other, and
no STOP write (R252, R291). -/
structure Attempts (n : Nat) (acts : List Act) : Prop where
  stops : (commandsOf acts).count stopWrite = 0
  starts : (commandsOf acts).count startWrite = n + recoveriesIn acts
  delays : delaysIn acts = List.replicate (20 * recoveriesIn acts) Config.settleUs

theorem Attempts.nil : Attempts 0 [] := ⟨rfl, rfl, rfl⟩

theorem Attempts.append {n m : Nat} {l l' : List Act} (h : Attempts n l) (k : Attempts m l') :
    Attempts (n + m) (l ++ l') where
  stops := by simp [h.stops, k.stops]
  starts := by
    rw [commandsOf_append, List.count_append, h.starts, k.starts, recoveriesIn_append]
    omega
  delays := by rw [delaysIn_append, h.delays, k.delays, recoveriesIn_append, Nat.mul_add, List.replicate_add]

theorem Attempts.access {n : Nat} {w : Word} (hw : FramesNothing w) (x : Byte) {l : List Act} (h : Attempts n l) :
    Attempts n (.access w x :: l) where
  stops := by simp [hw.2, h.stops]
  starts := by simp [hw.1, h.starts]
  delays := by simp [h.delays]

theorem Attempts.start {n : Nat} (x : Byte) {l : List Act} (h : Attempts n l) :
    Attempts (n + 1) (.access startWrite x :: l) where
  stops := by
    have hne : startWrite ≠ stopWrite := by decide
    simp [hne, h.stops]
  starts := by
    rw [commandsOf_access, List.count_cons_self, h.starts, recoveriesIn_access]
    omega
  delays := by simp [h.delays]

theorem Attempts.pattern {n : Nat} {v : Word} (hv : v ≠ Config.rawStop1) {l : List Act} (h : Attempts n l) :
    Attempts n (.pattern v :: l) :=
  ⟨h.stops, by rw [recoveriesIn_pattern hv]; exact h.starts, by rw [recoveriesIn_pattern hv]; exact h.delays⟩

/-! ### The words of a message -/

theorem framesNothing_readStat : FramesNothing readStat := by unfold FramesNothing; decide

theorem framesNothing_readCtl : FramesNothing readCtl := by unfold FramesNothing; decide

theorem framesNothing_readData : FramesNothing readData := by unfold FramesNothing; decide

theorem framesNothing_askByte (left : Nat) : FramesNothing (writeCommand .ctl (askByte left)) := by
  unfold FramesNothing askByte
  split <;> decide

/-- A DATA write is decoded as one, so it is no CTL write (R104). -/
theorem writeCommand_data_ne_ctl (b c : Byte) : writeCommand .data b ≠ writeCommand .ctl c := fun h => by
  simpa [decodeCmd_writeCommand] using congrArg decodeCmd h

theorem framesNothing_data (b : Byte) : FramesNothing (writeCommand .data b) :=
  ⟨writeCommand_data_ne_ctl _ _, writeCommand_data_ne_ctl _ _⟩

/-! ### The pieces of a message -/

theorem attempts_waitActs (bs : List Byte) : Attempts 0 (waitActs bs) := by
  have hpolls : Attempts 0 (pollActs bs) := by
    induction bs with
    | nil => exact Attempts.nil.pattern (by decide)
    | cons b bs ih => exact ih.access framesNothing_readCtl b
  exact hpolls.pattern (by decide)

theorem attempts_stat (st : Byte) : Attempts 0 [.access readStat st] := Attempts.nil.access framesNothing_readStat st

theorem attempts_sendActs (b x y : Byte) (bs : List Byte) : Attempts 0 (sendActs b x y bs) :=
  ((attempts_waitActs bs).access (framesNothing_askByte 0) y).access (framesNothing_data b) x

theorem attempts_askActs (left : Nat) (x : Byte) (bs : List Byte) : Attempts 0 (askActs left x bs) :=
  (attempts_waitActs bs).access (framesNothing_askByte left) x

theorem attempts_startTryActs (x : Byte) (bs : List Byte) : Attempts 1 (startTryActs x bs) := (attempts_waitActs bs).start x

/-- A recovery makes the one START write of the retry after it and attempts no message (R250, R272). -/
theorem attempts_retry (y : Byte) (bs : List Byte) : Attempts 0 (unblockActs ++ startTryActs y bs) := by
  obtain ⟨hstops, hstarts, hdelays⟩ := attempts_startTryActs y bs
  have hone : recoveriesIn unblockActs = 1 := by decide
  have hcommands : commandsOf (unblockActs ++ startTryActs y bs) = commandsOf (startTryActs y bs) := rfl
  refine ⟨hstops, ?_, ?_⟩
  · rw [hcommands, hstarts, recoveriesIn_append, hone, Nat.zero_add]
  · rw [delaysIn_append, hdelays, recoveriesIn_append, hone, Nat.mul_add, List.replicate_add]
    rfl

/-! ### The runs of a message -/

/-- `start()` attempts one message: a retry's START write is its recovery's (R271, R272). -/
theorem StartRun.attempts {r : Option OpErr} {acts : List Act} (h : StartRun r acts) : Attempts 1 acts := by
  cases h with
  | @direct x st bs | @refused x st bs => exact (attempts_startTryActs x bs).append (attempts_stat st)
  | @recovered x y st bs bs' =>
    simpa using (((attempts_startTryActs x bs).append (attempts_stat Config.statIdle)).append
      (attempts_retry y bs')).append (attempts_stat st)
  | @failed x y bs bs' =>
    simpa using ((attempts_startTryActs x bs).append (attempts_stat Config.statIdle)).append (attempts_retry y bs')

theorem SendRun.attempts {l : List Byte} {r : Option OpErr} {acts : List Act} (h : SendRun l r acts) : Attempts 0 acts := by
  induction h with
  | done => exact .nil
  | badStatus => exact attempts_stat _
  | timedOut => exact (attempts_sendActs ..).access framesNothing_readStat _
  | sent _ _ _ ih => exact ((attempts_sendActs ..).access framesNothing_readStat _).append ih

theorem ReceiveRun.attempts {len : Nat} {r : Option OpErr} {got : List Byte} {acts : List Act}
    (h : ReceiveRun len r got acts) : Attempts 0 acts := by
  induction h with
  | done => exact .nil
  | badStatus => exact attempts_stat _
  | timedOut => exact (attempts_askActs ..).access framesNothing_readStat _
  | received _ _ _ ih =>
    exact ((attempts_askActs ..).access framesNothing_readStat _).append (ih.access framesNothing_readData _)

theorem WriteRun.attempts {a : Addr7} {p : List Byte} {r : Option OpErr} {acts : List Act} (h : WriteRun a p r acts) :
    Attempts 1 acts := by
  cases h with
  | noStart h => exact h.attempts
  | noAddress h => exact h.attempts.append (attempts_sendActs ..)
  | sends h _ k => exact (h.attempts.append (attempts_sendActs ..)).append k.attempts

/-! ### Which messages are rejected (R291) -/

theorem StartRun.not_invalidArgument {r : Option OpErr} {acts : List Act} (h : StartRun r acts) :
    r ≠ some .invalidArgument := by
  have hverdict : ∀ st, startVerdict st ≠ some .invalidArgument := fun st => by
    unfold startVerdict
    split <;> simp
  cases h with
  | direct | recovered => exact hverdict _
  | refused | failed => simp

theorem SendRun.not_invalidArgument {l : List Byte} {r : Option OpErr} {acts : List Act} (h : SendRun l r acts) :
    r ≠ some .invalidArgument := by
  induction h with
  | done | badStatus | timedOut => simp
  | sent _ _ _ ih => exact ih

theorem ReceiveRun.not_invalidArgument {len : Nat} {r : Option OpErr} {got : List Byte} {acts : List Act}
    (h : ReceiveRun len r got acts) : r ≠ some .invalidArgument := by
  induction h with
  | done | badStatus | timedOut => simp
  | received _ _ _ ih => exact ih

theorem WriteRun.not_invalidArgument {a : Addr7} {p : List Byte} {r : Option OpErr} {acts : List Act}
    (h : WriteRun a p r acts) : r ≠ some .invalidArgument := by
  cases h with
  | noStart h => exact h.not_invalidArgument
  | noAddress => simp
  | sends _ _ k => exact k.not_invalidArgument

/-- A message that returned `r` did nothing where it was rejected with `InvalidArgument`, and elsewhere was attempted once. -/
def AttemptedOrRejected (r : Option OpErr) (acts : List Act) : Prop :=
  (r = some .invalidArgument ∧ acts = []) ∨ (r ≠ some .invalidArgument ∧ Attempts 1 acts)

theorem ReadRun.attemptedOrRejected {a : Addr7} {len : Nat} {r : Option OpErr} {got : List Byte} {acts : List Act}
    (h : ReadRun a len r got acts) : AttemptedOrRejected r acts := by
  cases h with
  | empty => exact .inl ⟨rfl, rfl⟩
  | noStart h => exact .inr ⟨h.not_invalidArgument, h.attempts⟩
  | noAddress h => exact .inr ⟨by simp, h.attempts.append (attempts_sendActs ..)⟩
  | receives h _ k =>
    exact .inr ⟨k.not_invalidArgument, (h.attempts.append (attempts_sendActs ..)).append k.attempts⟩

theorem MessageRun.attemptedOrRejected {m : Message} {r : Option OpErr} {buf : List Byte} {acts : List Act}
    (h : MessageRun m r buf acts) : AttemptedOrRejected r acts := by
  cases h with
  | write _ h => exact .inr ⟨h.not_invalidArgument, h.attempts⟩
  | read _ h => exact h.attemptedOrRejected

/-! ### The messages of a batch -/

/-- The messages attempted are those that completed and the one that failed, unless that one was rejected (R291). -/
theorem MessagesRun.attempts {ms : List Message} {count : Nat} {r : Option OpErr} {bufs : List (List Byte)} {acts : List Act}
    (h : MessagesRun ms count r bufs acts) :
    ∃ n, Attempts n acts ∧ n + (if r = some .invalidArgument then 1 else 0) = min (count + 1) ms.length := by
  induction h with
  | done => exact ⟨0, .nil, rfl⟩
  | fails h =>
    obtain ⟨hr, rfl⟩ | ⟨hr, h⟩ := h.attemptedOrRejected
    · exact ⟨0, .nil, by simp [hr]⟩
    · exact ⟨1, h, by simp [hr]⟩
  | completes h _ ih =>
    obtain ⟨hr, _⟩ | ⟨_, h⟩ := h.attemptedOrRejected
    · cases hr
    · obtain ⟨n, hn, hcount⟩ := ih
      refine ⟨1 + n, h.append hn, ?_⟩
      rw [List.length_cons]
      omega

/-- The count is that of the messages before the first failing one (R290). -/
theorem MessagesRun.count_cases {ms : List Message} {count : Nat} {r : Option OpErr} {bufs : List (List Byte)}
    {acts : List Act} (h : MessagesRun ms count r bufs acts) :
    (r = none ∧ count = ms.length) ∨ (r ≠ none ∧ count < ms.length) := by
  induction h with
  | done => exact .inl ⟨rfl, rfl⟩
  | fails => exact .inr ⟨by simp, by simp⟩
  | completes _ _ ih => simpa using ih

/-- A batch reports `InvalidArgument` only of a message: the status check of `stop()` has another error (R341). -/
theorem batchError_invalidArgument {r : Option OpErr} {st : Byte} :
    batchError r (stopVerdict st) = some .invalidArgument ↔ r = some .invalidArgument := by
  cases r with
  | some e => rfl
  | none => by_cases hst : st = Config.statIdle <;> simp [batchError, stopVerdict, hst]

/-- A batch reports no error exactly where no message failed and `stop()` read IDLE (R290). -/
theorem batchError_none {r : Option OpErr} {st : Byte} :
    batchError r (stopVerdict st) = none ↔ r = none ∧ st = Config.statIdle := by
  cases r <;> simp [batchError, stopVerdict]

/-- Settles O48: the messages' acts by `MessagesRun.attempts`, then the one `stop()` of `runBatch_spec`. -/
theorem batchIsFramedByOneStop : Obligations.BatchIsFramedByOneStop := by
  intro msgs s hq
  obtain ⟨count, r, x, st, t, bufs, front, ht, hdid, hrun⟩ := runBatch_spec
    (s := s.withBuffers (msgs.map Message.buffer)) (listed_turns s) msgs hq (listed_all s) rfl
  have hbegin : ∃ w y rest, front ++ stopActs x st = .access w y :: rest := by
    obtain rfl | ⟨y, rest, rfl⟩ := hrun.begins
    · exact ⟨_, _, _, rfl⟩
    · exact ⟨_, _, _, rfl⟩
  obtain ⟨hacted, _⟩ := hdid.ended (s := s.withBuffers (msgs.map Message.buffer)) hbegin
  obtain ⟨n, ⟨hstops, hstarts, hdelays⟩, hn⟩ := hrun.attempts
  have hframe : (commandsOf front).count startWrite +
      (if batchError r (stopVerdict st) = some .invalidArgument then 1 else 0) =
        min (count + 1) msgs.length + recoveriesIn front := by
    rw [hstarts, ← hn]
    simp only [batchError_invalidArgument]
    omega
  have hexec : exec (.executeBatchEngine msgs) s =
      .next { t with result := some (.batch count (batchError r (stopVerdict st))) } := by
    simp only [exec, execExecuteBatchEngine, tooLong_none]
    exact finish_ok (ret := fun r => .batch r.1 r.2) ht
  refine ⟨count, r, batchError r (stopVerdict st), _, bufs, front, x, st, hexec, rfl, hrun, rfl, hacted, hstops, hframe,
    hdelays, ?_, fun he => ?_, fun hc he => ?_, ?_⟩
  · obtain ⟨_, h⟩ | ⟨_, h⟩ := hrun.count_cases <;> omega
  · obtain ⟨hr, hst⟩ := batchError_none.1 he
    obtain ⟨_, h⟩ | ⟨h, _⟩ := hrun.count_cases
    · exact ⟨h, hst⟩
    · exact absurd hr h
  · obtain ⟨_, h⟩ | ⟨h, _⟩ := hrun.count_cases
    · omega
    · exact h (batchError_none.1 he).1
  · rintro rfl
    cases hrun with
    | done => exact ⟨rfl, rfl, fun hst => batchError_none.2 ⟨rfl, hst⟩⟩

end Sys2Proof.Machine
end

section
/-! `stop()` and the read of no bytes (R275, R285): from what they can do to what the statements say of their end. -/

namespace Sys2Proof.Machine

open Sys2Proof

/-- Settles O43: its accesses, phase and result by `stop_spec`, IE, RAW and the core by `stop_frame`, over the turns `s`
lists. -/
theorem stopFollowsItsRule : Obligations.StopFollowsItsRule := by
  intro s hq
  obtain ⟨x, st, t, ht, hdid⟩ := stop_spec (listed_turns s) hq (listed_all s)
  obtain ⟨hie, hcore⟩ := stop_frame (listed_turns s) hq (listed_all s) ht
  obtain ⟨hacted, hdrained, hthread, hcontroller, _⟩ := hdid.ended ⟨_, x, _, rfl⟩
  exact ⟨x, st, { t with result := some (.status (stopVerdict st)) }, finish_ok (ret := .status) ht, rfl, hacted,
    hdid.others.phase, hdrained, hdid.ran.quiet, hthread, hdid.others.buffers, hcontroller, hdid.thp, hdid.clkctl,
    hie.patternsKept, fun hn => hcore (listed_noCore hn)⟩

/-- A zero-length read is the assignment to `length` and then its refusal (R285). -/
theorem readMessage_empty {k : Nat} {address : Addr7} {s t : State} (h : assign .working s = .ok ((), t)) :
    readMessage k address 0 s = .ok (some .invalidArgument, t) := by
  unfold readMessage
  rw [M.bind_ok h]
  rfl

theorem exec_readMessage_empty {address : Addr7} {s t : State}
    (h : assign .working (s.withBuffers [[]]) = .ok ((), t)) :
    exec (.readMessage address []) s = .next { t with result := some (.status (some .invalidArgument)) } := by
  simp only [exec, execReadMessage, tooLong_none]
  exact finish_ok (ret := .status) (readMessage_empty h)

/-- Settles O46: its one statement is an assignment to a working variable, which does nothing with no turn listed
(`working_alone`), and else lets the listed turns pass (`working_spec`). -/
theorem zeroLengthReadTouchesNothing : Obligations.ZeroLengthReadTouchesNothing := by
  refine ⟨fun address s hm => exec_readMessage_empty (working_alone (s := s.withBuffers [[]]) hm), fun address s hq => ?_⟩
  obtain ⟨t, ht, hran, ho, hheld, hie⟩ := working_spec (s := s.withBuffers [[]]) (coreKeeps_held s) hq (listed_all s)
    (coreHeld_self s)
  obtain ⟨hthp, hctl, hclk⟩ := hheld.registers
  obtain ⟨hthread, hphase, hbuffers, hcontroller⟩ := ho.sameEngine
  have hacted : Acted (s.withBuffers [[]]) { t with result := some (.status (some .invalidArgument)) } [] :=
    (hran.result _).listed_acted (by simp)
  have hkept : PatternsKept (s.withBuffers [[]]) t := hie.patternsKept
  exact ⟨_, exec_readMessage_empty ht, rfl, hacted, hphase, hbuffers, hran.quiet, hthread, hcontroller, hkept, hthp, hctl,
    hclk, hheld.2⟩

end Sys2Proof.Machine
end

section
/-! A batch's end (R290, R321): the engine part, and the exposed call, which is the engine part between its two
assignments to `in_batch`. -/

namespace Sys2Proof.Machine

open Sys2Proof

/-- `out` is a next state at which a batch of `msgs` called in `s` has ended (R290): its messages are a `MessagesRun`, and
then `stop()` ran once. -/
def EndsAsBatch (out : Host.Outcome State Fault Refusal) (msgs : List Message) (s : State) : Prop :=
  ∃ (count : Nat) (r : Option OpErr) (x st : Byte) (t : State) (bufs : List (List Byte)) (acts : List Act),
    out = .next t ∧ t.result = some (.batch count (batchError r (stopVerdict st))) ∧
    MessagesRun msgs count r bufs acts ∧ Acted s t (acts ++ stopActs x st) ∧
    t.phase = (if st = Config.statIdle then .idle else .error) ∧ t.buffers = bufs ∧ Drained s t ∧ t.quiet = true ∧
    t.thread = s.thread ∧ t.controller.fixed = s.controller.fixed ∧
    t.core.thp = s.core.thp ∧ t.core.clkctl = s.core.clkctl ∧ (s.noCore = true → t.core.stat = s.core.stat)

/-- What a batch does begins with an access: that of a message, or that of `stop()` where no message made one. -/
theorem MessagesRun.stopped_begins {msgs : List Message} {count : Nat} {r : Option OpErr} {bufs : List (List Byte)}
    {acts : List Act} (h : MessagesRun msgs count r bufs acts) (x st : Byte) :
    ∃ w y rest, acts ++ stopActs x st = .access w y :: rest := by
  obtain rfl | ⟨y, rest, rfl⟩ := h.begins
  · exact ⟨_, _, _, rfl⟩
  · exact ⟨_, _, _, rfl⟩

/-- A batch that did its messages and `stop()` from `s`, with the callers' buffers in place, ends as R290 says. -/
theorem Did.endsAsBatch {msgs : List Message} {m : M (Nat × Option OpErr)} {s t : State} {count : Nat} {r : Option OpErr}
    {x st : Byte} {bufs : List (List Byte)} {acts : List Act}
    (h : Did (listed s) (s.withBuffers (msgs.map Message.buffer)) t (acts ++ stopActs x st)
      (if st = Config.statIdle then .idle else .error) bufs)
    (hm : m (s.withBuffers (msgs.map Message.buffer)) = .ok ((count, batchError r (stopVerdict st)), t))
    (hrun : MessagesRun msgs count r bufs acts) :
    EndsAsBatch (finish (fun r => .batch r.1 r.2) m (s.withBuffers (msgs.map Message.buffer))) msgs s := by
  obtain ⟨hacted, hdrained, hthread, hcontroller, hstat⟩ :=
    h.ended (s := s.withBuffers (msgs.map Message.buffer)) (hrun.stopped_begins x st)
  exact ⟨count, r, x, st, _, bufs, acts, finish_ok hm, rfl, hrun, hacted, h.others.phase, h.others.buffers, hdrained,
    h.ran.quiet, hthread, hcontroller, h.thp, h.clkctl, hstat⟩

/-- Settles O47: `runBatch_spec` over the turns `s` lists. -/
theorem batchFollowsItsRule : Obligations.BatchFollowsItsRule := by
  intro msgs s hq
  obtain ⟨count, r, x, st, t, bufs, acts, ht, hdid, hrun⟩ := runBatch_spec
    (s := s.withBuffers (msgs.map Message.buffer)) (listed_turns s) msgs hq (listed_all s) rfl
  show EndsAsBatch (exec (.executeBatchEngine msgs) s) msgs s
  simp only [exec, execExecuteBatchEngine, tooLong_none]
  exact hdid.endsAsBatch ht hrun

/-- The exposed call on a controller with no batch running does what its engine part does: the two assignments to `in_batch`
cancel (R321). -/
theorem batchCall_spec {A : Move → Bool} (hT : Turns A) (ms : List Message) {s : State} (hq : s.quiet = true)
    (hA : s.moves.all A = true) (hb : s.buffers = ms.map Message.buffer) (hidle : s.controller.inBatch = false) :
    ∃ c r x st t bufs tr, batchCall ms s = .ok ((c, batchError r (stopVerdict st)), t) ∧
      Did A s t (tr ++ stopActs x st) (if st = Config.statIdle then .idle else .error) bufs ∧
      MessagesRun ms c r bufs tr := by
  have hkeep := dividers_keep (A := A) (s.core.thp, s.core.clkctl, s.core.stat)
  obtain ⟨u, hu, hran, ho, ⟨hthp, hclk, hstat⟩, hie⟩ := assign_spec hkeep (.inBatch true) hq hA
    ⟨rfl, rfl, fun _ => rfl⟩
  obtain ⟨c, r, x, st, v, bufs, tr, hv, hdid, hrun⟩ := runBatch_spec (s := u.setInBatch true) hT ms hran.quiet
    (hran.all hA) (ho.buffers.trans hb)
  obtain ⟨w, hw, hran', ho', ⟨hthp', hclk', hstat'⟩, hie'⟩ := assign_spec hkeep (.inBatch false) hdid.ran.quiet
    (hdid.all (hran.all hA)) ⟨hdid.thp.trans hthp, hdid.clkctl.trans hclk, fun z => (hdid.stat z).trans (hstat z)⟩
  have hcall : batchCall ms s = .ok ((c, batchError r (stopVerdict st)), w.setInBatch false) := by
    rw [batchCall, M.bind_ok hu, Assign.apply_inBatch, M.bind_ok hv, M.bind_ok hw]
    rfl
  have hcontroller : (w.setInBatch false).controller =
      { s.controller with completion := (w.setInBatch false).controller.completion } := by
    have hv' := hdid.others.controller
    simp only [State.withBuffers_controller, State.setPhase_controller, State.setInBatch_controller] at hv'
    rw [State.setInBatch_controller, ho'.controller, hv', ho.controller, ← hidle]
  exact ⟨c, r, x, st, w.setInBatch false, bufs, tr, hcall,
    { ran := by simpa using (hran.trans hdid.ran).trans hran'
      others := ⟨ho'.phase.trans hdid.others.phase, (ho'.thread.trans hdid.others.thread).trans ho.thread,
        (ho'.result.trans hdid.others.result).trans ho.result, ho'.buffers.trans hdid.others.buffers, hcontroller⟩
      thp := hthp'
      clkctl := hclk'
      stat := hstat'
      ie := (hie'.assign (.inBatch false) rfl).clear ∘ hdid.ie ∘ (hie.assign (.inBatch true) rfl).clear }, hrun⟩

/-- Settles O50: on an open controller with no batch running the call passes its checks, and then does what the engine part
does (`batchCall_spec`). -/
theorem executeBatchRunsOnAnOpenController : Obligations.ExecuteBatchRunsOnAnOpenController := by
  intro msgs s hopen hidle hq
  obtain ⟨count, r, x, st, t, bufs, acts, ht, hdid, hrun⟩ := batchCall_spec
    (s := s.withBuffers (msgs.map Message.buffer)) (listed_turns s) msgs hq (listed_all s) rfl hidle
  have hrunnable : notRunnable msgs s = none := by simp [notRunnable, notUsable, hopen, hidle]
  show EndsAsBatch (exec (.executeBatch msgs) s) msgs s
  simp only [exec, execExecuteBatch, hrunnable]
  exact hdid.endsAsBatch ht hrun

end Sys2Proof.Machine
end

section
/-! `open` (R320, R384): from what it can do to what the statement says of its end. -/

namespace Sys2Proof.Machine

open Sys2Proof

/-- On a controller that is neither open nor in a batch, `open` with a target passes its checks (R320, R218, R323). -/
theorem exec_openController {target window irqLine sys : Nat} {s t : State} {r : Option OpErr} (htarget : target ≠ 0)
    (hidle : s.controller.inBatch = false) (hclosed : s.controller.isOpen = false)
    (h : openWith target window irqLine sys s = .ok (r, t)) :
    exec (.openController target window irqLine sys) s = .next { t with result := some (.status r) } := by
  have hopenable : notOpenable target s = none := by simp [notOpenable, htarget, hidle, hclosed]
  simp only [exec, execOpenController, hopenable]
  exact finish_ok h

/-- Only the polls of `init()` delay: `set_clock()` after it adds no delay (R214, R242). -/
theorem delaysIn_initActs_append {x y : Byte} {sts : List Byte} {tail : List Act} (h : delaysIn tail = []) :
    delaysIn (initActs x y sts ++ tail) = List.replicate sts.length 1 := by
  have hinit : delaysIn (initActs x y sts) = List.replicate sts.length 1 := delaysIn_initPollActs sts
  rw [delaysIn_append, hinit, h, List.append_nil]

/-- Settles O49: `openWith_spec` over the turns `s` lists. After a `HardwareFault` nothing follows `init()`, and otherwise the
two writes of `set_clock()` do. -/
theorem openFollowsItsRule : Obligations.OpenFollowsItsRule := by
  intro target window irqLine sys s htarget hidle hclosed hq
  obtain ⟨r, t, x, y, sts, tail, ht, hran, hanswers, _, hbuffers, _, hpatterns, hcompletion, hwindow, hline, hfrequency, hrate,
    hbatch, hend⟩ := openWith_spec (listed_turns s) target window irqLine sys hq (listed_all s)
  have hall : Ran (listed s) s { t with result := some (.status r) } (initActs x y sts ++ tail) := hran.result _
  have hbegin : ∀ us, (initActs x y sts ++ tail).head? ≠ some (.delay us) := head_access ⟨_, x, _, rfl⟩
  have hkept : PatternsKept s t := fun hi hp => (hpatterns (listed_noIrq hi) (by simp [RawIdle, hp])).2
  have htail : delaysIn tail = [] := by
    cases r with
    | some e =>
      obtain ⟨rfl, _⟩ := hend
      rfl
    | none =>
      obtain ⟨_, _, _, _, _, z, w, rfl⟩ := hend
      rfl
  have hdelayed : Delayed s t (List.replicate sts.length 1) := delaysIn_initActs_append htail ▸ hran.delays
  refine ⟨r, _, x, y, sts, tail, exec_openController htarget hidle hclosed ht, rfl, hanswers, hall.listed_acted hbegin,
    hdelayed, hkept, hwindow, hline, hfrequency, hrate, hbatch, fun hi => hcompletion (listed_noIrq hi), hall.thread, hbuffers,
    hall.drained listed_noIrq (by simp [initActs]) hbegin, hall.quiet, ?_⟩
  cases r with
  | some e => exact hend
  | none =>
    obtain ⟨hopen, hphase, hparams, hthp, hclkctl, hwrites⟩ := hend
    exact ⟨hwrites, hopen, hphase, hparams, hthp, hclkctl⟩

end Sys2Proof.Machine
end
